-- ==== Sys2Proof/Word.lean ====
section
/-! DEFINITION. The word types of the machine: bytes and 32-bit words (00_scope.md R7, R10). -/

namespace Sys2Proof

/-- One byte of memory or of an instruction (20_memory.md R61). -/
abbrev Byte := BitVec 8

/-- A 32-bit register, offset or linear address (00_scope.md R7). -/
abbrev Word := BitVec 32

end Sys2Proof
end

