-- ==== Sys2Proof/Syntax.lean ====
section
/-! DEFINITION. The instructions as terms: one constructor of `Instr` per instruction rule of spec/ files 40 to 49, its
operand forms (the rows of spec/opcode_table.json) as data. -/

namespace Sys2Proof

/-! ### Operand widths, registers, operands -/

/-- The operand width `w` of an instruction form: 8, 16 or 32 (30_encoding.md R104). -/
inductive Size where
  | byte | word | dword
deriving DecidableEq, Repr

/-- The width of a `v` form: 32, or 16 with the operand-size prefix (R104). -/
inductive VSize where
  | v16 | v32
deriving DecidableEq, Repr

/-- The width in bits. -/
@[reducible] def Size.bits : Size → Nat
  | .byte => 8
  | .word => 16
  | .dword => 32

/-- The width in bytes (1, 2 or 4). -/
@[reducible] def Size.bytes : Size → Nat
  | .byte => 1
  | .word => 2
  | .dword => 4

/-- A `v` width as an operand width. -/
@[reducible] def VSize.size : VSize → Size
  | .v16 => .word
  | .v32 => .dword

/-- The eight general registers in the order of their numbers 0 to 7 (10_state.md R20). As an operand of width 8 or 16
the same number names a sub-register (R21, 00_scope.md R12): number 4 is ESP, SP or AH. -/
inductive GReg where
  | eax | ecx | edx | ebx | esp | ebp | esi | edi
deriving DecidableEq, Repr

/-- The six segment registers (10_state.md R40). -/
inductive Seg where
  | cs | ss | ds | es | fs | gs
deriving DecidableEq, Repr

/-- The scale factor of an index register (20_memory.md R64; 90_conflicts.md C1). -/
inductive Scale where
  | x1 | x2 | x4 | x8
deriving DecidableEq, Repr

/-- The displacement of a memory operand: absent, 8 bits or 32 bits (30_encoding.md R112). -/
inductive Disp where
  | none
  | d8 (d : Byte)
  | d32 (d : Word)
deriving DecidableEq, Repr

/-- A modR/M memory operand (20_memory.md R64): the segment-override prefix if there is one (30_encoding.md R106), and
the base, index and displacement. -/
structure MemOp where
  /-- The segment-override prefix, if the instruction has one. -/
  ovr : Option Seg
  base : Option GReg
  index : Option (GReg × Scale)
  disp : Disp
deriving DecidableEq, Repr

/-- An `E` operand: a register (mod = 11) or memory (30_encoding.md R110). -/
inductive RM where
  | reg (r : GReg)
  | mem (m : MemOp)
deriving DecidableEq, Repr

/-! ### Operand forms -/

/-- The nine forms of the two-operand arithmetic and logical instructions: the six of 30_encoding.md R120 (base opcode
`b + 0` to `b + 5`) and the three of group 1 (`80`, `81`, `83`). -/
inductive AluForm where
  /-- `Eb,Gb` and `Ev,Gv`. -/
  | rmReg (z : Size) (e : RM) (g : GReg)
  /-- `Gb,Eb` and `Gv,Ev`. -/
  | regRm (z : Size) (g : GReg) (e : RM)
  /-- `AL,Ib` and `eAX,Iv`. -/
  | accImm (z : Size) (imm : BitVec z.bits)
  /-- `Eb,Ib` (80) and `Ev,Iv` (81). -/
  | rmImm (z : Size) (e : RM) (imm : BitVec z.bits)
  /-- `Ev,Ibs` (83): the byte is sign-extended (R115). -/
  | rmImm8s (v : VSize) (e : RM) (imm : Byte)
deriving DecidableEq, Repr

/-- The forms of INC and DEC: `+r` and `Eb`, `Ev` (R233, R236). -/
inductive IncForm where
  | reg (v : VSize) (g : GReg)
  | rm (z : Size) (e : RM)
deriving DecidableEq, Repr

/-- The forms of TEST (R285). -/
inductive TestForm where
  | rmReg (z : Size) (e : RM) (g : GReg)
  | accImm (z : Size) (imm : BitVec z.bits)
  | rmImm (z : Size) (e : RM) (imm : BitVec z.bits)
deriving DecidableEq, Repr

/-- The forms of MOV between general registers, memory and immediates (R201). -/
inductive MovForm where
  | rmReg (z : Size) (e : RM) (g : GReg)
  | regRm (z : Size) (g : GReg) (e : RM)
  /-- `B0+r Ib` and `B8+r Iv`. -/
  | regImm (z : Size) (g : GReg) (imm : BitVec z.bits)
  /-- `C6 /0 Ib` and `C7 /0 Iv`. -/
  | rmImm (z : Size) (e : RM) (imm : BitVec z.bits)
  /-- `A0`, `A1`: the accumulator from a moffs operand (R116). -/
  | accMoffs (z : Size) (ovr : Option Seg) (off : Word)
  /-- `A2`, `A3`: a moffs operand from the accumulator (R116). -/
  | moffsAcc (z : Size) (ovr : Option Seg) (off : Word)
deriving DecidableEq, Repr

/-- The forms of XCHG (R204). -/
inductive XchgForm where
  | rmReg (z : Size) (e : RM) (g : GReg)
  /-- `91` to `97`: the accumulator and register number 1 to 7. -/
  | accReg (v : VSize) (g : GReg)
deriving DecidableEq, Repr

/-- The forms of PUSH that are in scope (R205). -/
inductive PushForm where
  | reg (v : VSize) (g : GReg)
  | rm (v : VSize) (e : RM)
  /-- `68 Iv`. -/
  | imm (v : VSize) (i : BitVec v.size.bits)
  /-- `6A Ibs`: the byte is sign-extended. -/
  | imm8s (v : VSize) (i : Byte)
deriving DecidableEq, Repr

/-- The forms of POP that are in scope (R206). -/
inductive PopForm where
  | reg (v : VSize) (g : GReg)
  | rm (v : VSize) (e : RM)
deriving DecidableEq, Repr

/-- The forms of three-operand IMUL (R243): `69 Iv` and `6B Ibs`. -/
inductive Imul3Form where
  | imm (v : VSize) (g : GReg) (e : RM) (i : BitVec v.size.bits)
  | imm8s (v : VSize) (g : GReg) (e : RM) (i : Byte)
deriving DecidableEq, Repr

/-- The forms of MOVSX and MOVZX (R214, R215): `Gv,Eb` and `Gv,Ew` (32-bit destination only). -/
inductive ExtForm where
  | byte (v : VSize) (g : GReg) (e : RM)
  | word (g : GReg) (e : RM)
deriving DecidableEq, Repr

/-- The forms of the bit instructions (R290): the offset from a register or an immediate byte. -/
inductive BitForm where
  | reg (v : VSize) (e : RM) (g : GReg)
  | imm (v : VSize) (e : RM) (i : Byte)
deriving DecidableEq, Repr

/-- The count of a shift or rotate: an immediate byte, the constant 1 or CL (44_shift_rotate.md R310). -/
inductive Count where
  | imm (i : Byte)
  | one
  | cl
deriving DecidableEq, Repr

/-- The count of a double shift: an immediate byte or CL (R310, R315). -/
inductive DCount where
  | imm (i : Byte)
  | cl
deriving DecidableEq, Repr

/-- The displacement of a relative branch: `Jb` or `Jv` (30_encoding.md R115). -/
inductive Rel where
  | b (d : Byte)
  | v (d : Word)
deriving DecidableEq, Repr

/-- The string primitives that the prefix `F3` repeats as REP (46_string.md R381), with element size and, where the
element is at `seg:[ESI]`, the segment override. -/
inductive StrMove where
  | movs (z : Size) (ovr : Option Seg)
  | lods (z : Size) (ovr : Option Seg)
  | stos (z : Size)
deriving DecidableEq, Repr

/-- The string primitives that `F3` repeats as REPE and `F2` as REPNE (R381). -/
inductive StrCmp where
  | cmps (z : Size) (ovr : Option Seg)
  | scas (z : Size)
deriving DecidableEq, Repr

/-! ### Forms of refused encodings (only what the matched bytes tell apart) -/

/-- MOV with a segment register: `8C` and `8E` (R444). -/
inductive MovSegForm where
  | fromSeg | toSeg
deriving DecidableEq, Repr

/-- MOV with a control, debug or test register: `0F 20` to `0F 24`, `0F 26` (R445). -/
inductive MovSysForm where
  | fromCr | fromDr | toCr | toDr | fromTr | toTr
deriving DecidableEq, Repr

/-- A far JMP or CALL: with the pointer in the instruction (`Ap`) or in memory (`Mp`) (R365). -/
inductive FarForm where
  | ap | mp
deriving DecidableEq, Repr

/-- A far RET: `CA Iw` and `CB` (R365). -/
inductive FarRet where
  | imm | plain
deriving DecidableEq, Repr

/-- IN and OUT: by immediate port or DX, of AL or eAX (R446). -/
inductive IoForm where
  | immByte | immAcc | dxByte | dxAcc
deriving DecidableEq, Repr

/-- The undocumented one-byte opcodes (R125). -/
inductive Undoc where
  | d6 | f1
deriving DecidableEq, Repr

/-- The undefined encodings (R125): a group member of the one-byte map, a group member of the two-byte map, a second
byte that R121 does not list, and LEA with mod = 11 (its modR/M byte). -/
inductive UndefEnc where
  | group (op : Byte) (ext : BitVec 3)
  | group0F (op : Byte) (ext : BitVec 3)
  | escape (op : Byte)
  | leaReg (modrm : Byte)
deriving DecidableEq, Repr

/-! ### Instructions -/

/-- The instructions of the 80386 that spec/opcode_table.json lists. -/
inductive Instr where
  -- 41_binary_arithmetic.md, 43_logical.md: two operands
  | add (f : AluForm)
  | or (f : AluForm)
  | adc (f : AluForm)
  | sbb (f : AluForm)
  | and (f : AluForm)
  | sub (f : AluForm)
  | xor (f : AluForm)
  | cmp (f : AluForm)
  -- one operand, comparison, multiplication, division
  | inc (f : IncForm)
  | dec (f : IncForm)
  | neg (z : Size) (e : RM)
  | not (z : Size) (e : RM)
  | test (f : TestForm)
  | mul (z : Size) (e : RM)
  | imul1 (z : Size) (e : RM)
  | imul2 (v : VSize) (g : GReg) (e : RM)
  | imul3 (f : Imul3Form)
  | div (z : Size) (e : RM)
  | idiv (z : Size) (e : RM)
  -- 42_decimal_arithmetic.md
  | daa
  | das
  | aaa
  | aas
  -- 40_data_movement.md
  | mov (f : MovForm)
  | xchg (f : XchgForm)
  | push (f : PushForm)
  | pop (f : PopForm)
  | cbw
  | cwde
  | cwd
  | cdq
  | movsx (f : ExtForm)
  | movzx (f : ExtForm)
  -- 43_logical.md: bits, byte set
  | bt (f : BitForm)
  | bts (f : BitForm)
  | btr (f : BitForm)
  | btc (f : BitForm)
  | bsf (v : VSize) (g : GReg) (e : RM)
  | bsr (v : VSize) (g : GReg) (e : RM)
  | seto (e : RM)
  | setno (e : RM)
  | setb (e : RM)
  | setae (e : RM)
  | sete (e : RM)
  | setne (e : RM)
  | setbe (e : RM)
  | seta (e : RM)
  | sets (e : RM)
  | setns (e : RM)
  | setp (e : RM)
  | setnp (e : RM)
  | setl (e : RM)
  | setge (e : RM)
  | setle (e : RM)
  | setg (e : RM)
  -- 44_shift_rotate.md
  | rol (z : Size) (e : RM) (c : Count)
  | ror (z : Size) (e : RM) (c : Count)
  | rcl (z : Size) (e : RM) (c : Count)
  | rcr (z : Size) (e : RM) (c : Count)
  | shl (z : Size) (e : RM) (c : Count)
  | shr (z : Size) (e : RM) (c : Count)
  | sar (z : Size) (e : RM) (c : Count)
  | shld (v : VSize) (e : RM) (g : GReg) (c : DCount)
  | shrd (v : VSize) (e : RM) (g : GReg) (c : DCount)
  -- 45_control_transfer.md
  | jmpRel (d : Rel)
  | jmpInd (e : RM)
  | jo (d : Rel)
  | jno (d : Rel)
  | jb (d : Rel)
  | jae (d : Rel)
  | je (d : Rel)
  | jne (d : Rel)
  | jbe (d : Rel)
  | ja (d : Rel)
  | js (d : Rel)
  | jns (d : Rel)
  | jp (d : Rel)
  | jnp (d : Rel)
  | jl (d : Rel)
  | jge (d : Rel)
  | jle (d : Rel)
  | jg (d : Rel)
  | callRel (d : Word)
  | callInd (e : RM)
  | ret
  | retImm (n : BitVec 16)
  | loopne (d : Byte)
  | loope (d : Byte)
  | loop (d : Byte)
  | jecxz (d : Byte)
  | int3
  | int (n : Byte)
  | into
  -- 46_string.md
  | movsb (ovr : Option Seg)
  | movsd (v : VSize) (ovr : Option Seg)
  | cmpsb (ovr : Option Seg)
  | cmpsd (v : VSize) (ovr : Option Seg)
  | stosb
  | stosd (v : VSize)
  | lodsb (ovr : Option Seg)
  | lodsd (v : VSize) (ovr : Option Seg)
  | scasb
  | scasd (v : VSize)
  | rep (p : StrMove)
  | repe (p : StrCmp)
  | repne (p : StrCmp)
  -- 47_block_structured.md
  | enter (size : BitVec 16) (lvl : Byte)
  | leave
  -- 48_flag_control.md
  | clc
  | stc
  | cmc
  | cld
  | std
  | lahf
  | sahf
  | pushf
  | pushfd
  | popf
  | popfd
  -- 49_coprocessor_segment_misc.md
  | wait
  | lea (v : VSize) (g : GReg) (m : MemOp)
  | nop
  | xlat (ovr : Option Seg)
  -- refused: segment instructions (R444, R365)
  | pushSeg (s : Seg)
  | popSeg (s : Seg)
  | movSeg (f : MovSegForm)
  | les
  | lds
  | lss
  | lfs
  | lgs
  | callFar (f : FarForm)
  | jmpFar (f : FarForm)
  | retFar (f : FarRet)
  -- refused: system instructions (R445, R431, R455)
  | arpl
  | sldt
  | str
  | lldt
  | ltr
  | verr
  | verw
  | sgdt
  | sidt
  | lgdt
  | lidt
  | smsw
  | lmsw
  | lar
  | lsl
  | clts
  | movSys (f : MovSysForm)
  | iret
  | cli
  | sti
  | hlt
  -- refused: input and output (R446, R390)
  | inPort (f : IoForm)
  | outPort (f : IoForm)
  | insb
  | insd
  | outsb
  | outsd
  -- refused: not named in the source (R219, R366, R274)
  | pusha
  | popa
  | bound
  | aam
  | aad
  -- refused: coprocessor (R440), undefined and undocumented encodings (R125)
  | esc (op : BitVec 3)
  | aliasOf80
  | undocumented (u : Undoc)
  | undefined (u : UndefEnc)
  -- a prefix byte that is not admitted where it stands (R103 to R106)
  | prefixEs
  | prefixCs
  | prefixSs
  | prefixDs
  | prefixFs
  | prefixGs
  | opsize
  | addrsize
  | lock
  | repMisused
  | repneMisused
deriving DecidableEq, Repr

end Sys2Proof
end

