-- ==== Sys2Proof/Machine/State.lean ====
section
/-! DEFINITION. The state of the machine as plain data (spec/10_state.md, 20_memory.md, 00_scope.md R8), the reasons a
step can stop, and the state after reset (10_state.md R45). -/

namespace Sys2Proof.Machine

/-- The eight 32-bit general registers (10_state.md R20). -/
structure Regs where
  eax : Word
  ecx : Word
  edx : Word
  ebx : Word
  esp : Word
  ebp : Word
  esi : Word
  edi : Word
deriving DecidableEq, Repr

/-- The named bits of EFLAGS (10_state.md R30). The reserved bits are constants (R34) and are formed where the register
is read whole (`Eflags.image`). `ofl` is OF and `ifl` is IF. -/
structure Eflags where
  cf : Bool
  pf : Bool
  af : Bool
  zf : Bool
  sf : Bool
  tf : Bool
  ifl : Bool
  df : Bool
  ofl : Bool
  iopl : BitVec 2
  nt : Bool
  rf : Bool
  vm : Bool
deriving DecidableEq, Repr

/-- A segment register: selector and hidden descriptor cache (10_state.md R40). Only `base` and `default32` are read.
`default32` is the default size of the segment (00_scope.md R8 `MODE`, 92_eei_decisions.md D1, D21). -/
structure SegReg where
  selector : BitVec 16
  base : Word
  limit : Word
  rights : Byte
  default32 : Bool
deriving DecidableEq, Repr

/-- The six segment registers (10_state.md R40). -/
structure Segs where
  cs : SegReg
  ss : SegReg
  ds : SegReg
  es : SegReg
  fs : SegReg
  gs : SegReg
deriving DecidableEq, Repr

/-- The bits of CR0 that the spec names (10_state.md R45, 70_reset_and_hazards.md R551). -/
structure Cr0 where
  pe : Bool
  mp : Bool
  em : Bool
  ts : Bool
  et : Bool
  pg : Bool
deriving DecidableEq, Repr

/-- The system, control, debug and test registers (10_state.md R41). No in-scope instruction reads or writes them. -/
structure SysRegs where
  cr0 : Cr0
  cr2 : Word
  cr3 : Word
  gdtrBase : Word
  gdtrLimit : BitVec 16
  idtrBase : Word
  idtrLimit : BitVec 16
  ldtr : BitVec 16
  tr : BitVec 16
  dr0 : Word
  dr1 : Word
  dr2 : Word
  dr3 : Word
  dr6 : Word
  dr7 : Word
  tr6 : Word
  tr7 : Word
deriving DecidableEq, Repr

/-- How a mapped byte may be accessed: the values `ro` and `rw` of `MEM_MAP` (00_scope.md R8). -/
inductive MapKind where
  | ro | rw
deriving DecidableEq, Repr

/-- One region of `MEM_MAP`: the bytes from `base`, `size` of them. -/
structure Region where
  base : Nat
  size : Nat
  kind : MapKind
deriving DecidableEq, Repr

/-- One span of `CODE`, the bytes that hold the program (00_scope.md R8). -/
structure Span where
  base : Nat
  size : Nat
deriving DecidableEq, Repr

/-- The state of the machine. -/
structure State where
  regs : Regs
  /-- EIP (10_state.md R27). -/
  pc : Word
  flags : Eflags
  segs : Segs
  sys : SysRegs
  /-- The current privilege level (60_exceptions.md R520). -/
  cpl : BitVec 2
  /-- The bytes of the linear address space that differ from what an unlisted byte reads as (log 5). -/
  mem : List Host.Cell
  /-- `MEM_MAP` (20_memory.md R75): the first region that holds an address decides; none means `unmapped`. -/
  memMap : List Region
  /-- `CODE` (20_memory.md R83). -/
  code : List Span
  /-- `HALT_ADDR` (70_reset_and_hazards.md R552), if the launch has set one. -/
  haltAddr : Option Word
  /-- The MODEL's own field (log 11): `len` of 00_scope.md R12, the length of the instruction being executed. -/
  ilen : Nat
  /-- The MODEL's own field (log 10): the number of the next draw of `undef(w)` (00_scope.md R15). -/
  draws : Nat
deriving DecidableEq, Repr

/-- The information an exception carries (60_exceptions.md R500). -/
inductive ExcInfo where
  | divideError | singleStep | softwareInterrupt
deriving DecidableEq, Repr

/-- The kind of an access (20_memory.md R75). -/
inductive AccessKind where
  | fetch | read | write
deriving DecidableEq, Repr

/-- Why a step stops with a fault. Both are terminal (60_exceptions.md R510, R504). -/
inductive Fault where
  /-- `Fault(vector, info)` of 00_scope.md R16, with the state R503 gives it. Raised by DIV and IDIV (vector 0), by the
  single step (1), INT 3 (3), INTO (4) and INT n. Safe: the chip enters a handler here, which the spec does not model
  (R510), so nothing is claimed of what follows. -/
  | exception (vector : Byte) (info : ExcInfo) (carried : State)
  /-- `MemFault(a, kind)`: `MEM_MAP` does not admit the access to `a` (R75). Raised by any instruction with a memory or
  stack operand and by the fetch. Safe: the state is that before the instruction, and nothing follows. -/
  | memFault (a : Nat) (kind : AccessKind)
deriving DecidableEq, Repr

/-- Why a step is refused: the reasons of 00_scope.md R16 and 30_encoding.md R120. Every one is safe: a refusal says
nothing of what the chip does. -/
inductive Refusal where
  /-- An arm of `exec` that has no meaning yet; raised by no meaning. Safe. -/
  | notModelled (mnemonic : String)
  /-- The operating mode is one that 00_scope.md R5 refuses; raised by the step before it fetches (log 9). Safe. -/
  | modeNotAdmitted
  /-- An access, an instruction or a branch passes the top of the address space (10_state.md R28, 20_memory.md R68,
  45_control_transfer.md R339); raised by the fetch, by every memory access and by every advance of pc. Safe. -/
  | addressWrap
  /-- A store into a byte of `CODE` (20_memory.md R83); raised by every memory write. Safe. -/
  | storeIntoCode
  /-- A prefix that is not admitted (30_encoding.md R103 to R106); raised by the prefix constructors. Safe. -/
  | prefixNotAdmitted
  /-- An undefined or undocumented encoding (30_encoding.md R125). Safe. -/
  | undefinedOpcode
  /-- A segment-register or far-transfer instruction (49_coprocessor_segment_misc.md R444). Safe. -/
  | segmentInstruction
  /-- A system instruction (49_coprocessor_segment_misc.md R445). Safe. -/
  | systemInstruction
  /-- IN, OUT, INS, OUTS (49_coprocessor_segment_misc.md R446). Safe. -/
  | ioInstruction
  /-- PUSHA, POPA, BOUND, AAM, AAD (40_data_movement.md R219 and 00_scope.md R5). Safe. -/
  | notNamedInSource
  /-- ESC (49_coprocessor_segment_misc.md R440). Safe. -/
  | coprocessorInstruction
deriving DecidableEq, Repr

/-! ### Reset -/

/-- The general registers after reset (10_state.md R45). EDX has DH = 3. DESIGN CHOICE (log 1, unsafe): the values the
spec leaves undefined are 0. -/
def Regs.reset : Regs where
  eax := 0x00000000#32
  ecx := 0x00000000#32
  edx := 0x00000300#32
  ebx := 0x00000000#32
  esp := 0x00000000#32
  ebp := 0x00000000#32
  esi := 0x00000000#32
  edi := 0x00000000#32

/-- EFLAGS = 0x00000002 after reset (10_state.md R37): every named bit is 0. -/
def Eflags.reset : Eflags where
  cf := false
  pf := false
  af := false
  zf := false
  sf := false
  tf := false
  ifl := false
  df := false
  ofl := false
  iopl := 0#2
  nt := false
  rf := false
  vm := false

/-- A data or stack segment after reset (10_state.md R45). PRESUMED (log 22, unsafe): the access rights. -/
def SegReg.reset : SegReg where
  selector := 0x0000#16
  base := 0x00000000#32
  limit := 0x0000FFFF#32
  rights := 0x93#8
  default32 := false

/-- CS after reset (10_state.md R45). -/
def SegReg.resetCs : SegReg := { SegReg.reset with selector := 0xF000#16, base := 0xFFFF0000#32 }

def Segs.reset : Segs where
  cs := .resetCs
  ss := .reset
  ds := .reset
  es := .reset
  fs := .reset
  gs := .reset

/-- The system registers after reset (10_state.md R45): PE = 0, paging off, IDTR base 0 and limit 0x03FF, DR7 = 0.
DESIGN CHOICE (log 2, unsafe): those the spec calls undefined are 0. -/
def SysRegs.reset : SysRegs where
  cr0 := ⟨false, false, false, false, false, false⟩
  cr2 := 0#32
  cr3 := 0#32
  gdtrBase := 0#32
  gdtrLimit := 0#16
  idtrBase := 0#32
  idtrLimit := 0x03FF#16
  ldtr := 0#16
  tr := 0#16
  dr0 := 0#32
  dr1 := 0#32
  dr2 := 0#32
  dr3 := 0#32
  dr6 := 0#32
  dr7 := 0#32
  tr6 := 0#32
  tr7 := 0#32

/-- The machine right after reset (10_state.md R45). The parameters of 00_scope.md R8 that a launch supplies have no
value there: DESIGN CHOICE (log 4, 6, 8, unsafe): all memory is `rw`, no `CODE`, no `HALT_ADDR`, CPL 3. -/
def State.reset : State where
  regs := .reset
  pc := 0x0000FFF0#32
  flags := .reset
  segs := .reset
  sys := .reset
  cpl := 3#2
  mem := []
  memMap := [⟨0, 4294967296, .rw⟩]
  code := []
  haltAddr := none
  ilen := 0
  draws := 0

end Sys2Proof.Machine
end

