-- ==== Sys2Proof/Machine/Flags.lean ====
section
/-! DEFINITION. EFLAGS as one value, the conditions, and every result-and-flag computation of the spec, as functions of
operand values (spec/10_state.md R30 to R36, 41_binary_arithmetic.md R230, 42, 43_logical.md R280, 44_shift_rotate.md,
45_control_transfer.md R340, 48_flag_control.md R425 to R429). Where the spec writes `undef(1)` a computation takes the
bit from its argument `u`, the draw of this step; bit `k` of the draw stands for the flag at EFLAGS bit `k`. -/

namespace Sys2Proof.Machine

/-! ### The flags register (10_state.md R30, R34) -/

/-- The 32-bit image of EFLAGS: bit 1 is 1, bits 3, 5, 15 and 31:18 are 0 (R34). -/
def Eflags.image (f : Eflags) : Word :=
  0#14 ++ BitVec.ofBool f.vm ++ BitVec.ofBool f.rf ++
  0#1 ++ BitVec.ofBool f.nt ++ f.iopl ++ BitVec.ofBool f.ofl ++ BitVec.ofBool f.df ++ BitVec.ofBool f.ifl ++
  BitVec.ofBool f.tf ++
  BitVec.ofBool f.sf ++ BitVec.ofBool f.zf ++ 0#1 ++ BitVec.ofBool f.af ++ 0#1 ++ BitVec.ofBool f.pf ++ 1#1 ++
  BitVec.ofBool f.cf

/-- The image PUSHFD pushes: RF and VM read as 0 (48_flag_control.md R428). -/
def Eflags.pushImage (f : Eflags) : Word := Eflags.image { f with rf := false, vm := false }

/-- The flags POPF and POPFD load from an image; IF only if CPL ≤ IOPL, IOPL only if CPL = 0, never RF or VM (R429). -/
def Eflags.load (f : Eflags) (cpl : BitVec 2) (img : Word) : Eflags :=
  { f with
    cf := img.getLsbD 0
    pf := img.getLsbD 2
    af := img.getLsbD 4
    zf := img.getLsbD 6
    sf := img.getLsbD 7
    tf := img.getLsbD 8
    df := img.getLsbD 10
    ofl := img.getLsbD 11
    nt := img.getLsbD 14
    ifl := if cpl ≤ f.iopl then img.getLsbD 9 else f.ifl
    iopl := if cpl = 0#2 then img.extractLsb' 12 2 else f.iopl }

/-- AH after LAHF: five flags, and bits 5, 3, 1 undefined (R426). -/
def Eflags.lahfByte (f : Eflags) (u : Nat → Bool) : Byte :=
  BitVec.ofBool f.sf ++ BitVec.ofBool f.zf ++ BitVec.ofBool (u 5) ++ BitVec.ofBool f.af ++ BitVec.ofBool (u 3) ++
  BitVec.ofBool f.pf ++ BitVec.ofBool (u 1) ++ BitVec.ofBool f.cf

/-- The five flags SAHF loads from AH (R427). -/
def Eflags.sahf (f : Eflags) (ah : Byte) : Eflags :=
  { f with
    cf := ah.getLsbD 0
    pf := ah.getLsbD 2
    af := ah.getLsbD 4
    zf := ah.getLsbD 6
    sf := ah.getLsbD 7 }

/-! ### Conditions (45_control_transfer.md R340) -/

/-- The sixteen conditions, in the order of their numbers. -/
inductive Cond where
  | o | no | b | ae | e | ne | be | a | s | ns | p | np | l | ge | le | g
deriving DecidableEq, Repr

/-- `cond(cc)`: the column "true when" of R340. -/
def Eflags.holds (f : Eflags) : Cond → Bool
  | .o => f.ofl
  | .no => !f.ofl
  | .b => f.cf
  | .ae => !f.cf
  | .e => f.zf
  | .ne => !f.zf
  | .be => f.cf || f.zf
  | .a => !f.cf && !f.zf
  | .s => f.sf
  | .ns => !f.sf
  | .p => f.pf
  | .np => !f.pf
  | .l => f.sf != f.ofl
  | .ge => f.sf == f.ofl
  | .le => f.zf || f.sf != f.ofl
  | .g => !f.zf && f.sf == f.ofl

/-! ### The six status flags of a result -/

/-- Values of the six status flags (10_state.md R31). -/
structure Status where
  cf : Bool
  pf : Bool
  af : Bool
  zf : Bool
  sf : Bool
  ofl : Bool
deriving DecidableEq, Repr

/-- The flags with all six status flags replaced. -/
def Eflags.withStatus (f : Eflags) (st : Status) : Eflags :=
  { f with cf := st.cf, pf := st.pf, af := st.af, zf := st.zf, sf := st.sf, ofl := st.ofl }

/-- The flags with the status flags but CF replaced (INC, DEC: R233, R236). -/
def Eflags.withStatusKeepCf (f : Eflags) (st : Status) : Eflags :=
  { f with pf := st.pf, af := st.af, zf := st.zf, sf := st.sf, ofl := st.ofl }

/-- The state with all six status flags replaced. -/
def State.setStatus (s : State) (st : Status) : State := { s with flags := s.flags.withStatus st }

/-- The flags with CF and OF replaced (rotates: 44_shift_rotate.md section 4). -/
def Eflags.withCfOf (f : Eflags) (cf ofl : Bool) : Eflags := { f with cf := cf, ofl := ofl }

/-- `parity8(v)`: an even number of 1 bits in the low byte (00_scope.md R11). -/
def parity8 {w : Nat} (v : BitVec w) : Bool :=
  !(v.getLsbD 0 ^^ v.getLsbD 1 ^^ v.getLsbD 2 ^^ v.getLsbD 3 ^^ v.getLsbD 4 ^^ v.getLsbD 5 ^^ v.getLsbD 6 ^^ v.getLsbD 7)

/-- Does an integer fit in `w` signed bits? -/
def fitsSigned (w : Nat) (n : Int) : Bool := decide (-(2 ^ (w - 1) : Int) ≤ n) && decide (n ≤ 2 ^ (w - 1) - 1)

/-- All six status flags undefined. -/
def undefStatus (u : Nat → Bool) : Status := ⟨u 0, u 2, u 4, u 6, u 7, u 11⟩

/-! ### Addition, subtraction, Boolean results (41_binary_arithmetic.md R230, 43_logical.md R280) -/

/-- `AddFlags_w(a, b, c)` (R230). -/
def addFlags {w : Nat} (a b : BitVec w) (c : Bool) : BitVec w × Status :=
  let n := a.toNat + b.toNat + c.toNat
  let r := BitVec.ofNat w n
  (r, { cf := decide (n ≥ 2 ^ w)
        pf := parity8 r
        af := decide (a.toNat % 16 + b.toNat % 16 + c.toNat ≥ 16)
        zf := r == 0#w
        sf := r.msb
        ofl := !fitsSigned w (a.toInt + b.toInt + c.toInt) })

/-- `SubFlags_w(a, b, c)`: a - b - c (R230). -/
def subFlags {w : Nat} (a b : BitVec w) (c : Bool) : BitVec w × Status :=
  let n : Int := (a.toNat : Int) - b.toNat - c.toInt
  let r := BitVec.ofInt w n
  (r, { cf := decide (n < 0)
        pf := parity8 r
        af := decide (((a.toNat % 16 : Nat) : Int) - ((b.toNat % 16 : Nat) : Int) - c.toInt < 0)
        zf := r == 0#w
        sf := r.msb
        ofl := !fitsSigned w (a.toInt - b.toInt - c.toInt) })

/-- `LogicFlags_w(r)` (R280). -/
def logicFlags {w : Nat} (r : BitVec w) (u : Nat → Bool) : Status :=
  { cf := false, pf := parity8 r, af := u 4, zf := r == 0#w, sf := r.msb, ofl := false }

/-- The flags after a multiplication: CF = OF, the other four undefined (R240 to R243). -/
def mulStatus (lost : Bool) (u : Nat → Bool) : Status :=
  { cf := lost, pf := u 2, af := u 4, zf := u 6, sf := u 7, ofl := lost }

/-- The flags after a bit test: CF, the other five undefined (43_logical.md R291 to R294). -/
def bitStatus (bit : Bool) (u : Nat → Bool) : Status :=
  { cf := bit, pf := u 2, af := u 4, zf := u 6, sf := u 7, ofl := u 11 }

/-- The flags after a bit scan: ZF, the other five undefined (R296, R297). -/
def scanStatus (zero : Bool) (u : Nat → Bool) : Status :=
  { cf := u 0, pf := u 2, af := u 4, zf := zero, sf := u 7, ofl := u 11 }

/-! ### Decimal adjusts (42_decimal_arithmetic.md) -/

/-- The adjust test of R270 to R273: the low nibble above 9, or AF. -/
def lowAdjust (al : Byte) (af : Bool) : Bool := decide (al.toNat % 16 > 9) || af

/-- AAA and AAS: AL, AH and the flag AF = CF after adding `d` to AL and `e` to AH where the test holds (R270, R271). -/
def asciiAdjust (al ah : Byte) (af : Bool) (d e : Byte) : Byte × Byte × Bool :=
  if lowAdjust al af then ((al + d) &&& 0x0F#8, ah + e, true) else (al &&& 0x0F#8, ah, false)

/-- The flags after AAA and AAS (R270, R271). -/
def asciiStatus (carry : Bool) (u : Nat → Bool) : Status :=
  { cf := carry, pf := u 2, af := carry, zf := u 6, sf := u 7, ofl := u 11 }

/-- The flags after DAA and DAS (R272, R273). -/
def packedStatus (al : Byte) (af cf : Bool) (u : Nat → Bool) : Status :=
  { cf := cf, pf := parity8 al, af := af, zf := al == 0#8, sf := al.msb, ofl := u 11 }

/-- The high adjust test of R272 and R273, on the original AL and CF. -/
def highAdjust (al : Byte) (cf : Bool) : Bool := decide (al.toNat > 0x99) || cf

/-- DAA: AL and the flags (R272). -/
def daaCalc (al : Byte) (af cf : Bool) (u : Nat → Bool) : Byte × Status :=
  let al1 := if lowAdjust al af then al + 6#8 else al
  let al2 := if highAdjust al cf then al1 + 0x60#8 else al1
  (al2, packedStatus al2 (lowAdjust al af) (highAdjust al cf) u)

/-- DAS: AL and the flags (R273). -/
def dasCalc (al : Byte) (af cf : Bool) (u : Nat → Bool) : Byte × Status :=
  let al1 := if lowAdjust al af then al - 6#8 else al
  let cf1 := lowAdjust al af && (cf || decide (al.toNat < 6))
  let al2 := if highAdjust al cf then al1 - 0x60#8 else al1
  (al2, packedStatus al2 (lowAdjust al af) (highAdjust al cf || cf1) u)

/-! ### Shifts (44_shift_rotate.md R310 to R313), for a masked count n ≥ 1 -/

/-- The masked count: the low five bits (R310). -/
def maskCount (c : Byte) : Nat := c.toNat % 32

/-- The flags of a shift: AF undefined, SF ZF PF from the result. -/
def shiftStatus {w : Nat} (r : BitVec w) (cf ofl : Bool) (u : Nat → Bool) : Status :=
  { cf := cf, pf := parity8 r, af := u 4, zf := r == 0#w, sf := r.msb, ofl := ofl }

/-- SHL (R311). -/
def shlCalc {w : Nat} (a : BitVec w) (n : Nat) (u : Nat → Bool) : BitVec w × Status :=
  let r := BitVec.ofNat w (a.toNat * 2 ^ n)
  let cf := if n < w then a.getLsbD (w - n) else u 0
  (r, shiftStatus r cf (if n = 1 then r.msb ^^ cf else u 11) u)

/-- SHR (R312). -/
def shrCalc {w : Nat} (a : BitVec w) (n : Nat) (u : Nat → Bool) : BitVec w × Status :=
  let r := BitVec.ofNat w (a.toNat / 2 ^ n)
  let cf := if n < w then a.getLsbD (n - 1) else u 0
  (r, shiftStatus r cf (if n = 1 then a.msb else u 11) u)

/-- SAR (R313). -/
def sarCalc {w : Nat} (a : BitVec w) (n : Nat) (u : Nat → Bool) : BitVec w × Status :=
  let r := BitVec.ofInt w (a.toInt / 2 ^ n)
  let cf := if n ≤ w - 1 then a.getLsbD (n - 1) else a.msb
  (r, shiftStatus r cf (if n = 1 then false else u 11) u)

/-- SHLD (R315): the pair a:b shifted left; undefined for n > w. `d` is the undefined destination. -/
def shldCalc {w : Nat} (a b : BitVec w) (n : Nat) (d : BitVec w) (u : Nat → Bool) : BitVec w × Status :=
  if n ≤ w then
    let r := BitVec.ofNat w ((a.toNat * 2 ^ w + b.toNat) * 2 ^ n / 2 ^ w)
    (r, shiftStatus r (a.getLsbD (w - n)) (u 11) u)
  else (d, undefStatus u)

/-- SHRD (R316): the pair b:a shifted right; undefined for n > w. -/
def shrdCalc {w : Nat} (a b : BitVec w) (n : Nat) (d : BitVec w) (u : Nat → Bool) : BitVec w × Status :=
  if n ≤ w then
    let r := BitVec.ofNat w ((b.toNat * 2 ^ w + a.toNat) / 2 ^ n)
    (r, shiftStatus r (a.getLsbD (n - 1)) (u 11) u)
  else (d, undefStatus u)

/-! ### Rotates (R320 to R323), for a masked count n ≥ 1: the result, CF, OF -/

/-- ROL (R320). -/
def rolCalc {w : Nat} (a : BitVec w) (_ : Bool) (n : Nat) (u : Nat → Bool) : BitVec w × Bool × Bool :=
  let m := n % w
  let r := BitVec.ofNat w (a.toNat * 2 ^ m) ||| BitVec.ofNat w (a.toNat / 2 ^ (w - m))
  let cf := r.getLsbD 0
  (r, cf, if n = 1 then r.msb ^^ cf else u 11)

/-- ROR (R321). -/
def rorCalc {w : Nat} (a : BitVec w) (_ : Bool) (n : Nat) (u : Nat → Bool) : BitVec w × Bool × Bool :=
  let m := n % w
  let r := BitVec.ofNat w (a.toNat / 2 ^ m) ||| BitVec.ofNat w (a.toNat * 2 ^ (w - m))
  (r, r.msb, if n = 1 then r.msb ^^ r.getLsbD (w - 2) else u 11)

/-- The `w+1`-bit string CF:operand rotated left by `m` (R322). -/
def rotateCarry (w x m : Nat) : Nat := (x * 2 ^ m ||| x / 2 ^ (w + 1 - m)) % 2 ^ (w + 1)

/-- RCL (R322). -/
def rclCalc {w : Nat} (a : BitVec w) (c : Bool) (n : Nat) (u : Nat → Bool) : BitVec w × Bool × Bool :=
  let y := rotateCarry w (c.toNat * 2 ^ w + a.toNat) (n % (w + 1))
  let r := BitVec.ofNat w y
  let cf := y.testBit w
  (r, cf, if n = 1 then r.msb ^^ cf else u 11)

/-- RCR (R323): `Y = ((X DIV 2^m) OR (X * 2^(w+1-m))) mod 2^(w+1)`. -/
def rcrCalc {w : Nat} (a : BitVec w) (c : Bool) (n : Nat) (u : Nat → Bool) : BitVec w × Bool × Bool :=
  let x := c.toNat * 2 ^ w + a.toNat
  let m := n % (w + 1)
  let y := (x / 2 ^ m ||| x * 2 ^ (w + 1 - m)) % 2 ^ (w + 1)
  let r := BitVec.ofNat w y
  (r, y.testBit w, if n = 1 then r.msb ^^ r.getLsbD (w - 2) else u 11)

/-! ### Bit scans (43_logical.md R296, R297) -/

/-- The least `i` below `w` with bit `i` of `x` set. -/
def lowestBit {w : Nat} (x : BitVec w) : Option Nat := (List.range w).find? fun i => x.getLsbD i

/-- The greatest `i` below `w` with bit `i` of `x` set. -/
def highestBit {w : Nat} (x : BitVec w) : Option Nat := (List.range w).reverse.find? fun i => x.getLsbD i

end Sys2Proof.Machine
end

