-- ==== Sys2Proof/Config.lean ====
section
/-! DEFINITION. What an implementation fixes and the spec leaves open: the draws `undef(w)` of 00_scope.md R15.
Both constants have no body: nothing in Lean can evaluate them or prove a value of them. -/

namespace Sys2Proof

/-- DESIGN CHOICE (log 10, safe). The one-bit draws `undef(1)` of R15: the first argument is the number of the draw
(the field `draws` of the state, which every step advances), the second says which bit of that draw. -/
opaque Config.undefBit : Nat → Nat → Bool

/-- DESIGN CHOICE (log 10, safe). The wide draws `undef(w)`, w at most 32, of R15: the destination of BSF and BSR after
a zero source (R296, R297) and of a 16-bit double shift by more than 16 (R315, R316). The low `w` bits are used. -/
opaque Config.undefWord : Nat → Word

/-- The size of the linear address space, 2^32 bytes (20_memory.md R61). -/
abbrev Config.addressSpace : Nat := 4294967296

end Sys2Proof
end

