-- ==== Sys2Proof/Machine/Ops.lean ====
section
/-! DEFINITION. The named operations over registers, memory, the stack and the program counter, and the raising of an
exception (spec/10_state.md, 20_memory.md, 60_exceptions.md). -/

namespace Sys2Proof.Machine

/-! ### Outcomes -/

/-- The outcome of a step (00_scope.md R16). -/
abbrev Outcome := Host.Outcome State Fault Refusal

/-- Why an instruction stops before its updates: `Fault` or `MemFault`, or `Refuse` (R16). -/
inductive Stop where
  | fault (f : Fault)
  | refuse (r : Refusal)
deriving DecidableEq, Repr

/-- A part of an instruction: a value, or the stop that ends the instruction with nothing kept (R14). -/
abbrev Res (α : Type) := Except Stop α

/-- The outcome of a whole instruction. -/
def Res.out : Res State → Outcome
  | .ok s => .next s
  | .error (.fault f) => .fault f
  | .error (.refuse r) => .refused r

/-! ### General registers (00_scope.md R12, 10_state.md R20 to R22) -/

def Regs.get (r : Regs) : GReg → Word
  | .eax => r.eax
  | .ecx => r.ecx
  | .edx => r.edx
  | .ebx => r.ebx
  | .esp => r.esp
  | .ebp => r.ebp
  | .esi => r.esi
  | .edi => r.edi

def Regs.set (r : Regs) (g : GReg) (v : Word) : Regs :=
  match g with
  | .eax => { r with eax := v }
  | .ecx => { r with ecx := v }
  | .edx => { r with edx := v }
  | .ebx => { r with ebx := v }
  | .esp => { r with esp := v }
  | .ebp => { r with ebp := v }
  | .esi => { r with esi := v }
  | .edi => { r with edi := v }

/-- Does the number name a high byte (AH CH DH BH) as a byte register (R21)? -/
def isHigh : GReg → Bool
  | .eax => false
  | .ecx => false
  | .edx => false
  | .ebx => false
  | .esp => true
  | .ebp => true
  | .esi => true
  | .edi => true

/-- The 32-bit register that holds the byte register of this number (R21). -/
def whole8 : GReg → GReg
  | .eax => .eax
  | .ecx => .ecx
  | .edx => .edx
  | .ebx => .ebx
  | .esp => .eax
  | .ebp => .ecx
  | .esi => .edx
  | .edi => .ebx

/-- The 32-bit register that holds `R(w, i)`. -/
def wholeReg (z : Size) (g : GReg) : GReg :=
  match z with
  | .byte => whole8 g
  | .word => g
  | .dword => g

/-- The value of a sub-register inside its 32-bit register (R12). -/
def subRead (z : Size) (high : Bool) (x : Word) : BitVec z.bits :=
  match z with
  | .byte => if high then x.extractLsb' 8 8 else x.extractLsb' 0 8
  | .word => x.extractLsb' 0 16
  | .dword => x

/-- A 32-bit register with one sub-register replaced and its other bits kept (R12, R22). -/
def subWrite (z : Size) (high : Bool) (x : Word) (v : BitVec z.bits) : Word :=
  match z with
  | .byte =>
    if high then x.extractLsb' 16 16 ++ v ++ x.extractLsb' 0 8 else x.extractLsb' 8 24 ++ v
  | .word => x.extractLsb' 16 16 ++ v
  | .dword => v

/-- `R(w, i)` (R12). -/
def Regs.read (r : Regs) (z : Size) (g : GReg) : BitVec z.bits := subRead z (isHigh g) (r.get (wholeReg z g))

/-- `R(w, i) <- v` (R12). -/
def Regs.write (r : Regs) (z : Size) (g : GReg) (v : BitVec z.bits) : Regs :=
  r.set (wholeReg z g) (subWrite z (isHigh g) (r.get (wholeReg z g)) v)

/-- `R(w, i)` in a state. -/
def State.reg (s : State) (z : Size) (g : GReg) : BitVec z.bits := s.regs.read z g

/-- `R(w, i) <- v` in a state. -/
def State.setReg (s : State) (z : Size) (g : GReg) (v : BitVec z.bits) : State :=
  { s with regs := s.regs.write z g v }

/-! ### Segments and linear addresses (20_memory.md R66) -/

def Segs.get (s : Segs) : Seg → SegReg
  | .cs => s.cs
  | .ss => s.ss
  | .ds => s.ds
  | .es => s.es
  | .fs => s.fs
  | .gs => s.gs

/-- `LA(seg, off)`: the segment's base plus the offset, modulo 2^32 (R66). -/
def State.la (s : State) (seg : Seg) (off : Word) : Word := (s.segs.get seg).base + off

/-! ### Memory contents (20_memory.md R70, R80) -/

/-- What a byte that no entry lists reads as. DESIGN CHOICE (log 5, unsafe): 0. -/
def Memory.unlisted : Byte := 0#8

/-- The byte at an address. -/
def Memory.get : List Host.Cell → Nat → Byte
  | [], _ => Memory.unlisted
  | (b, v) :: m, a => if b = a then v else Memory.get m a

/-- A cell put before the first one of a higher address. -/
def Memory.insert (c : Host.Cell) : List Host.Cell → List Host.Cell
  | [] => [c]
  | d :: m => if c.1 < d.1 then c :: d :: m else d :: Memory.insert c m

/-- The memory with one byte replaced. -/
def Memory.set (m : List Host.Cell) (a : Nat) (v : Byte) : List Host.Cell :=
  if v = Memory.unlisted then m.filter (fun c => c.1 != a)
  else Memory.insert (a, v) (m.filter (fun c => c.1 != a))

/-- The canonical form: addresses strictly rising and below 2^32, no entry equal to what an unlisted byte reads as. -/
def Memory.wf : List Host.Cell → Bool
  | [] => true
  | [c] => c.2 != Memory.unlisted && c.1 < Config.addressSpace
  | c :: d :: m => c.2 != Memory.unlisted && c.1 < d.1 && Memory.wf (d :: m)

/-- The number held little-endian in the `n` bytes from `a` (00_scope.md R13, R70). -/
def Memory.read (m : List Host.Cell) (a : Nat) : Nat → Nat
  | 0 => 0
  | n + 1 => (Memory.get m a).toNat + 256 * Memory.read m (a + 1) n

/-- The number `v` stored little-endian in the `n` bytes from `a`, in ascending address order (R13, R72). -/
def Memory.write (m : List Host.Cell) (a : Nat) (n : Nat) (v : Nat) : List Host.Cell :=
  match n with
  | 0 => m
  | n + 1 => Memory.write (Memory.set m a (BitVec.ofNat 8 v)) (a + 1) n (v / 256)

/-! ### Admission of an access (20_memory.md R68, R75, R83) -/

/-- `MEM_MAP` at an address; none is `unmapped` (R75). -/
def mapKind : List Region → Nat → Option MapKind
  | [], _ => none
  | r :: rs, a => if r.base ≤ a ∧ a < r.base + r.size then some r.kind else mapKind rs a

/-- May the byte be read or fetched (R75)? -/
def State.readable (s : State) (a : Nat) : Bool := (mapKind s.memMap a).isSome

/-- May the byte be written (R75)? -/
def State.writable (s : State) (a : Nat) : Bool := mapKind s.memMap a == some .rw

/-- Is the byte in `CODE` (R83)? -/
def State.inCode (s : State) (a : Nat) : Bool := s.code.any fun c => c.base ≤ a && a < c.base + c.size

/-- The first of the `n` addresses from `a` that does not satisfy `ok`. -/
def firstBad (ok : Nat → Bool) (a : Nat) : Nat → Option Nat
  | 0 => none
  | n + 1 => if ok a then firstBad ok (a + 1) n else some a

/-- Do the `n` bytes at `seg:off` stay below the top, as offsets and as linear addresses (R68, log 15)? -/
def State.inSpace (s : State) (seg : Seg) (off : Word) (n : Nat) : Bool :=
  off.toNat + n ≤ Config.addressSpace && (s.la seg off).toNat + n ≤ Config.addressSpace

/-- The linear address of an access of `n` bytes; one that straddles the top is refused (R68). -/
def State.linear (s : State) (seg : Seg) (off : Word) (n : Nat) : Res Nat :=
  if s.inSpace seg off n then .ok (s.la seg off).toNat else .error (.refuse .addressWrap)

/-- Every byte readable, or `MemFault(a, read)` at the first that is not (R75, log 20). -/
def State.checkRead (s : State) (a n : Nat) : Res Unit :=
  match firstBad s.readable a n with
  | none => .ok ()
  | some b => .error (.fault (.memFault b .read))

/-- Every byte writable, or `MemFault(a, write)` at the first that is not (R75, log 20). -/
def State.checkWrite (s : State) (a n : Nat) : Res Unit :=
  match firstBad s.writable a n with
  | none => .ok ()
  | some b => .error (.fault (.memFault b .write))

/-- No byte in `CODE`, or `Refuse(StoreIntoCode)` (R83). -/
def State.checkCode (s : State) (a n : Nat) : Res Unit :=
  match firstBad (fun b => !s.inCode b) a n with
  | none => .ok ()
  | some _ => .error (.refuse .storeIntoCode)

/-- `MemRead(LA(seg, off), n)` (00_scope.md R13). -/
def State.memRead (s : State) (seg : Seg) (off : Word) (z : Size) : Res (BitVec z.bits) := do
  let a ← s.linear seg off z.bytes
  s.checkRead a z.bytes
  .ok (BitVec.ofNat z.bits (Memory.read s.mem a z.bytes))

/-- The state with `v` in the bytes at linear address `a`, unchecked. -/
def State.poke (s : State) (a : Nat) (z : Size) (v : BitVec z.bits) : State :=
  { s with mem := Memory.write s.mem a z.bytes v.toNat }

/-- `MemWrite(LA(seg, off), n, v)` (R13), its checks in the order of 60_exceptions.md R507 item 5. -/
def State.memWrite (s : State) (seg : Seg) (off : Word) (z : Size) (v : BitVec z.bits) : Res State := do
  let a ← s.linear seg off z.bytes
  s.checkWrite a z.bytes
  s.checkCode a z.bytes
  .ok (s.poke a z v)

/-! ### The stack (20_memory.md R77, R78) -/

/-- `Push(n, v)`: the store first, then ESP (R78). -/
def State.push (s : State) (z : Size) (v : BitVec z.bits) : Res State := do
  let a := s.regs.esp - BitVec.ofNat 32 z.bytes
  let s ← s.memWrite .ss a z v
  .ok { s with regs := s.regs.set .esp a }

/-- `Pop(n)`: the value and the state with ESP incremented (R78). -/
def State.pop (s : State) (z : Size) : Res (BitVec z.bits × State) := do
  let v ← s.memRead .ss s.regs.esp z
  .ok (v, { s with regs := s.regs.set .esp (s.regs.esp + BitVec.ofNat 32 z.bytes) })

/-! ### The program counter (10_state.md R28, 45_control_transfer.md R339) -/

/-- `pc + len` before the reduction modulo 2^32 (R12). -/
def State.nextPc (s : State) : Nat := s.pc.toNat + s.ilen

/-- `npc` (00_scope.md R12). -/
def State.npc (s : State) : Word := BitVec.ofNat 32 s.nextPc

/-- `pc <- npc`; refused where it passes the top of the address space (R28, log 12). -/
def State.advance (s : State) : Res State :=
  if s.nextPc < Config.addressSpace then .ok { s with pc := s.npc } else .error (.refuse .addressWrap)

/-- The target of a relative branch: `npc + s(rel)`, refused where the arithmetic leaves [0, 2^32) (R339, R28, log 12). -/
def State.relTarget (s : State) (rel : Word) : Res Word :=
  if s.nextPc < Config.addressSpace ∧ 0 ≤ (s.nextPc : Int) + rel.toInt ∧
      (s.nextPc : Int) + rel.toInt < Config.addressSpace then
    .ok (BitVec.ofInt 32 ((s.nextPc : Int) + rel.toInt))
  else .error (.refuse .addressWrap)

/-- `pc <- npc + s(rel)`. -/
def State.branch (s : State) (rel : Word) : Res State := do
  let t ← s.relTarget rel
  .ok { s with pc := t }

/-! ### Exceptions (60_exceptions.md)

Taking an exception ends the run in this spec (R510): there is no handler entry and no return from one (R512). -/

/-- `raise Fault(vector, info)` with the state R503 lets the outcome carry. -/
def raise {α : Type} (vector : Byte) (info : ExcInfo) (carried : State) : Res α :=
  .error (.fault (.exception vector info carried))

/-- A software interrupt: `pc <- npc; raise Fault(n, SoftwareInterrupt)` (45_control_transfer.md R360). -/
def State.softInt (s : State) (n : Byte) : Res State := do
  let s ← s.advance
  raise n .softwareInterrupt s

/-- The divide error: vector 0, no state change, pc at the instruction (R503). -/
def State.divideError {α : Type} (s : State) : Res α := raise 0#8 .divideError s

/-- The single-step trap: an instruction that began with TF = 1 and completed ends in `Fault(1, SingleStep)` with the
completed state; any other outcome stands (R508). -/
def singleStep (tf : Bool) : Outcome → Outcome
  | .next t => if tf then .fault (.exception 1#8 .singleStep t) else .next t
  | .fault f => .fault f
  | .refused r => .refused r

/-! ### Draws (00_scope.md R15) -/

/-- Bit `k` of this step's draw: `undef(1)` (log 10). -/
def State.undefBit (s : State) (k : Nat) : Bool := Config.undefBit s.draws k

/-- This step's wide draw: `undef(w)` (log 10). -/
def State.undefBits (s : State) (z : Size) : BitVec z.bits := (Config.undefWord s.draws).setWidth z.bits

end Sys2Proof.Machine
end

