-- ==== Sys2Proof/Machine/Operands.lean ====
section
/-! DEFINITION. Operands: effective addresses, locations, and their reads and writes (spec/20_memory.md R64, R65,
40_data_movement.md R200). -/

namespace Sys2Proof.Machine

/-! ### Effective address (20_memory.md R64, R65) -/

def scaleFactor : Scale → Word
  | .x1 => 1#32
  | .x2 => 2#32
  | .x4 => 4#32
  | .x8 => 8#32

/-- The displacement's value: `sext_32(disp)`, or 0 where there is none. -/
def dispValue : Disp → Word
  | .none => 0#32
  | .d8 d => d.signExtend 32
  | .d32 d => d

/-- The base register's value, or 0. -/
def State.baseValue (s : State) : Option GReg → Word
  | none => 0#32
  | some g => s.regs.get g

/-- The index register's value times the scale factor, or 0. -/
def State.indexValue (s : State) : Option (GReg × Scale) → Word
  | none => 0#32
  | some (g, sc) => s.regs.get g * scaleFactor sc

/-- `EA`: base plus scaled index plus displacement, modulo 2^32 (R64). -/
def State.ea (s : State) (m : MemOp) : Word := s.baseValue m.base + s.indexValue m.index + dispValue m.disp

/-- The default segment: SS when the base is ESP or EBP, DS otherwise (R65). -/
def defaultSeg : Option GReg → Seg
  | some .esp => .ss
  | some .ebp => .ss
  | _ => .ds

/-- The segment of a memory operand: the override, or the default (R65, 30_encoding.md R106). -/
def operandSeg (m : MemOp) : Seg := m.ovr.getD (defaultSeg m.base)

/-! ### Locations (40_data_movement.md R200) -/

/-- Where an operand lives, its address computed once (R200). -/
inductive Loc where
  | reg (g : GReg)
  | mem (seg : Seg) (off : Word)
deriving DecidableEq, Repr

/-- The location of an `E` operand, from the register values of the state (R200). -/
def State.resolve (s : State) : RM → Loc
  | .reg g => .reg g
  | .mem m => .mem (operandSeg m) (s.ea m)

/-- `Read(op)` (R200). -/
def State.readLoc (s : State) (z : Size) : Loc → Res (BitVec z.bits)
  | .reg g => .ok (s.reg z g)
  | .mem seg off => s.memRead seg off z

/-- `Write(op, v)` (R200). -/
def State.writeLoc (s : State) (z : Size) (l : Loc) (v : BitVec z.bits) : Res State :=
  match l with
  | .reg g => .ok (s.setReg z g v)
  | .mem seg off => s.memWrite seg off z v

/-- `Read(E)`. -/
def State.readRM (s : State) (z : Size) (e : RM) : Res (BitVec z.bits) := s.readLoc z (s.resolve e)

/-- The segment of a moffs operand, of a string source or of XLAT's table: DS unless overridden (R65). -/
def srcSeg (ovr : Option Seg) : Seg := ovr.getD .ds

/-- `sext_w` of a byte immediate in a `v` form (30_encoding.md R115 `Ibs`). -/
def sextByte (z : Size) (i : Byte) : BitVec z.bits := i.signExtend z.bits

/-- The displacement of a branch as a 32-bit number (R115 `Jb`, `Jv`). -/
def relValue : Rel → Word
  | .b d => d.signExtend 32
  | .v d => d

/-! ### The two operands of an arithmetic or logical instruction (41_binary_arithmetic.md section 2) -/

/-- Where the first operand is. -/
def aluDst (s : State) : AluForm → Loc
  | .rmReg _ e _ => s.resolve e
  | .regRm _ g _ => .reg g
  | .accImm _ _ => .reg .eax
  | .rmImm _ e _ => s.resolve e
  | .rmImm8s _ e _ => s.resolve e

/-- The operand width. -/
@[reducible] def aluSize : AluForm → Size
  | .rmReg z _ _ => z
  | .regRm z _ _ => z
  | .accImm z _ => z
  | .rmImm z _ _ => z
  | .rmImm8s v _ _ => v.size

/-- `Read(src)`. -/
def aluSrc (s : State) : (f : AluForm) → Res (BitVec (aluSize f).bits)
  | .rmReg z _ g => .ok (s.reg z g)
  | .regRm z _ e => s.readRM z e
  | .accImm _ i => .ok i
  | .rmImm _ _ i => .ok i
  | .rmImm8s v _ i => .ok (sextByte v.size i)

end Sys2Proof.Machine
end

