-- ==== Sys2Proof/Machine/Arithmetic.lean ====
section
/-! DEFINITION. Binary arithmetic (spec/41_binary_arithmetic.md). The shared operation of the two-operand group serves
the Boolean instructions too. -/

namespace Sys2Proof.Machine

/-! ### Two operands (section 2) -/

/-- `(r, flags) <- op(Read(dst), Read(src)); Write(dst, r); pc <- npc`. -/
def aluWrite (f : AluForm)
    (op : BitVec (aluSize f).bits → BitVec (aluSize f).bits → BitVec (aluSize f).bits × Status) (s : State) :
    Res State := do
  let a ← s.readLoc (aluSize f) (aluDst s f)
  let b ← aluSrc s f
  let t ← s.writeLoc (aluSize f) (aluDst s f) (op a b).1
  (t.setStatus (op a b).2).advance

/-- ADD (R231). -/
def execAdd (f : AluForm) (s : State) : Outcome := Res.out (aluWrite f (fun a b => addFlags a b false) s)

/-- ADC (R232): CF is read before it is written. -/
def execAdc (f : AluForm) (s : State) : Outcome := Res.out (aluWrite f (fun a b => addFlags a b s.flags.cf) s)

/-- SUB (R234). -/
def execSub (f : AluForm) (s : State) : Outcome := Res.out (aluWrite f (fun a b => subFlags a b false) s)

/-- SBB (R235). -/
def execSbb (f : AluForm) (s : State) : Outcome := Res.out (aluWrite f (fun a b => subFlags a b s.flags.cf) s)

/-- CMP (R237): both operands are read, neither is written. -/
def execCmp (f : AluForm) (s : State) : Outcome := Res.out do
  let a ← s.readLoc (aluSize f) (aluDst s f)
  let b ← aluSrc s f
  (s.setStatus (subFlags a b false).2).advance

/-! ### One operand -/

/-- The width of an INC or DEC form. -/
@[reducible] def incSize : IncForm → Size
  | .reg v _ => v.size
  | .rm z _ => z

/-- Where the operand of an INC or DEC form is. -/
def incLoc (s : State) : IncForm → Loc
  | .reg _ g => .reg g
  | .rm _ e => s.resolve e

/-- `(r, flags) <- op(Read(dst)); Write(dst, r); pc <- npc`, CF unchanged. -/
def incDec (f : IncForm) (op : BitVec (incSize f).bits → BitVec (incSize f).bits × Status) (s : State) :
    Res State := do
  let a ← s.readLoc (incSize f) (incLoc s f)
  let t ← s.writeLoc (incSize f) (incLoc s f) (op a).1
  { t with flags := t.flags.withStatusKeepCf (op a).2 }.advance

/-- INC (R233): CF is unchanged. -/
def execInc (f : IncForm) (s : State) : Outcome := Res.out (incDec f (fun a => addFlags a 1 false) s)

/-- DEC (R236): CF is unchanged. -/
def execDec (f : IncForm) (s : State) : Outcome := Res.out (incDec f (fun a => subFlags a 1 false) s)

/-- NEG (R238): `SubFlags_w(0, a, 0)`. -/
def execNeg (z : Size) (e : RM) (s : State) : Outcome := Res.out do
  let a ← s.readRM z e
  let t ← s.writeLoc z (s.resolve e) (subFlags 0 a false).1
  (t.setStatus (subFlags 0 a false).2).advance

/-! ### Multiplication (section 4) -/

/-- The register of the high half of a double-length product or dividend: AH, DX or EDX (R240, R245). As a byte
register ESP's number 4 is AH (10_state.md R21). -/
def hiReg : Size → GReg
  | .byte => .esp
  | .word => .edx
  | .dword => .edx

/-- The double-length pair AH:AL, DX:AX or EDX:EAX written. -/
def State.setPair (s : State) (z : Size) (hi lo : BitVec z.bits) : State :=
  (s.setReg z (hiReg z) hi).setReg z .eax lo

/-- MUL (R240). -/
def execMul (z : Size) (e : RM) (s : State) : Outcome := Res.out do
  let b ← s.readRM z e
  let p := (s.reg z .eax).toNat * b.toNat
  let t := s.setPair z (BitVec.ofNat z.bits (p / 2 ^ z.bits)) (BitVec.ofNat z.bits p)
  (t.setStatus (mulStatus (decide (p ≥ 2 ^ z.bits)) s.undefBit)).advance

/-- Is the signed product not the sign extension of its low half (R241, R242)? -/
def losesBits (w : Nat) (p : Int) : Bool := decide (p ≠ (BitVec.ofInt w p).toInt)

/-- IMUL, one-operand form (R241). -/
def execImul1 (z : Size) (e : RM) (s : State) : Outcome := Res.out do
  let b ← s.readRM z e
  let p := (s.reg z .eax).toInt * b.toInt
  let t := s.setPair z (BitVec.ofInt z.bits (p / 2 ^ z.bits)) (BitVec.ofInt z.bits p)
  (t.setStatus (mulStatus (losesBits z.bits p) s.undefBit)).advance

/-- The truncated signed product into a register (R242, R243). -/
def mulInto (z : Size) (g : GReg) (a b : BitVec z.bits) (s : State) : Res State :=
  let p := a.toInt * b.toInt
  ((s.setReg z g (BitVec.ofInt z.bits p)).setStatus (mulStatus (losesBits z.bits p) s.undefBit)).advance

/-- IMUL, two-operand form (R242). -/
def execImul2 (v : VSize) (g : GReg) (e : RM) (s : State) : Outcome := Res.out do
  let b ← s.readRM v.size e
  mulInto v.size g (s.reg v.size g) b s

/-- IMUL, three-operand form (R243). -/
def execImul3 (f : Imul3Form) (s : State) : Outcome := Res.out <|
  match f with
  | .imm v g e i => do
    let b ← s.readRM v.size e
    mulInto v.size g b i s
  | .imm8s v g e i => do
    let b ← s.readRM v.size e
    mulInto v.size g b (sextByte v.size i) s

/-! ### Division (section 5) -/

/-- DIV (R245): the quotient to AL, AX or EAX, the remainder to AH, DX or EDX; all six flags undefined. -/
def execDiv (z : Size) (e : RM) (s : State) : Outcome := Res.out do
  let d ← s.readRM z e
  let n := (s.reg z (hiReg z)).toNat * 2 ^ z.bits + (s.reg z .eax).toNat
  if d.toNat = 0 then s.divideError
  else if n / d.toNat > 2 ^ z.bits - 1 then s.divideError
  else
    let t := s.setPair z (BitVec.ofNat z.bits (n % d.toNat)) (BitVec.ofNat z.bits (n / d.toNat))
    (t.setStatus (undefStatus s.undefBit)).advance

/-- IDIV (R246): truncation toward zero, the remainder with the sign of the dividend. -/
def execIdiv (z : Size) (e : RM) (s : State) : Outcome := Res.out do
  let d ← s.readRM z e
  let n := (s.reg z (hiReg z) ++ s.reg z .eax).toInt
  if d.toInt = 0 then s.divideError
  else if !fitsSigned z.bits (n.tdiv d.toInt) then s.divideError
  else
    let t := s.setPair z (BitVec.ofInt z.bits (n.tmod d.toInt)) (BitVec.ofInt z.bits (n.tdiv d.toInt))
    (t.setStatus (undefStatus s.undefBit)).advance

end Sys2Proof.Machine
end

