-- ==== Sys2Proof/Machine/Block.lean ====
section
/-! DEFINITION. ENTER and LEAVE (spec/47_block_structured.md). -/

namespace Sys2Proof.Machine

/-- A push of ENTER before its write checks: the state after it, and its linear address (log 16). -/
def State.pushRaw (s : State) (v : Word) : Res (State × Nat) := do
  let a ← s.linear .ss (s.regs.esp - 4#32) 4
  .ok ({ s.poke a .dword v with regs := s.regs.set .esp (s.regs.esp - 4#32) }, a)

/-- The `LEVEL - 1` pushes that copy the display, `t` the working copy of EBP, with the addresses pushed to (R410). -/
def copyDisplay : Nat → Word → State → Res (State × List Nat)
  | 0, _, s => .ok (s, [])
  | n + 1, t, s => do
    let v ← s.memRead .ss (t - 4#32) .dword
    let (s1, a) ← s.pushRaw v
    let (s2, as) ← copyDisplay n (t - 4#32) s1
    .ok (s2, a :: as)

/-- Every dword of a list of addresses may be written: `MEM_MAP` for all of them, then `CODE` (60_exceptions.md R507). -/
def State.checkWrites (s : State) : List Nat → Res Unit
  | [] => .ok ()
  | a :: as => do
    s.checkWrite a 4
    s.checkWrites as

def State.checkCodes (s : State) : List Nat → Res Unit
  | [] => .ok ()
  | a :: as => do
    s.checkCode a 4
    s.checkCodes as

/-- The pushes of ENTER at `level`: the saved EBP, the display, the new frame pointer (R410, Figure 3-16). -/
def enterPushes (level : Nat) (s : State) : Res (State × List Nat) := do
  let (s1, a1) ← s.pushRaw s.regs.ebp
  if level = 0 then .ok (s1, [a1])
  else
    let (s2, as) ← copyDisplay (level - 1) s.regs.ebp s1
    let (s3, a3) ← s2.pushRaw s1.regs.esp
    .ok (s3, a1 :: (as ++ [a3]))

/-- ENTER (R410): the level is taken modulo 32; EBP is left at the saved EBP, ESP below the display and the storage. -/
def execEnter (size : BitVec 16) (lvl : Byte) (s : State) : Outcome := Res.out do
  let (t, as) ← enterPushes (lvl.toNat % 32) s
  s.checkWrites as
  s.checkCodes as
  { t with
    regs := (t.regs.set .ebp (s.regs.esp - 4#32)).set .esp (t.regs.esp - size.setWidth 32) }.advance

/-- LEAVE (R411). -/
def execLeave (s : State) : Outcome := Res.out do
  let v ← s.memRead .ss s.regs.ebp .dword
  { s with regs := (s.regs.set .esp (s.regs.ebp + 4#32)).set .ebp v }.advance

end Sys2Proof.Machine
end

