-- ==== Sys2Proof/Machine/Control.lean ====
section
/-! DEFINITION. Near control transfers and software interrupts (spec/45_control_transfer.md). None writes a flag. -/

namespace Sys2Proof.Machine

/-- JMP, relative (R341). -/
def execJmpRel (d : Rel) (s : State) : Outcome := Res.out (s.branch (relValue d))

/-- JMP, indirect near (R342). -/
def execJmpInd (e : RM) (s : State) : Outcome := Res.out do
  let t ← s.readRM .dword e
  .ok { s with pc := t }

/-- Jcc (R343): the target arithmetic is checked only when the jump is taken. -/
def jumpIf (c : Cond) (d : Rel) (s : State) : Res State :=
  if s.flags.holds c then s.branch (relValue d) else s.advance

/-- JO (condition 0). -/
def execJo (d : Rel) (s : State) : Outcome := Res.out (jumpIf .o d s)

/-- JNO (condition 1). -/
def execJno (d : Rel) (s : State) : Outcome := Res.out (jumpIf .no d s)

/-- JB (condition 2). -/
def execJb (d : Rel) (s : State) : Outcome := Res.out (jumpIf .b d s)

/-- JAE (condition 3). -/
def execJae (d : Rel) (s : State) : Outcome := Res.out (jumpIf .ae d s)

/-- JE (condition 4). -/
def execJe (d : Rel) (s : State) : Outcome := Res.out (jumpIf .e d s)

/-- JNE (condition 5). -/
def execJne (d : Rel) (s : State) : Outcome := Res.out (jumpIf .ne d s)

/-- JBE (condition 6). -/
def execJbe (d : Rel) (s : State) : Outcome := Res.out (jumpIf .be d s)

/-- JA (condition 7). -/
def execJa (d : Rel) (s : State) : Outcome := Res.out (jumpIf .a d s)

/-- JS (condition 8). -/
def execJs (d : Rel) (s : State) : Outcome := Res.out (jumpIf .s d s)

/-- JNS (condition 9). -/
def execJns (d : Rel) (s : State) : Outcome := Res.out (jumpIf .ns d s)

/-- JP (condition 10). -/
def execJp (d : Rel) (s : State) : Outcome := Res.out (jumpIf .p d s)

/-- JNP (condition 11). -/
def execJnp (d : Rel) (s : State) : Outcome := Res.out (jumpIf .np d s)

/-- JL (condition 12). -/
def execJl (d : Rel) (s : State) : Outcome := Res.out (jumpIf .l d s)

/-- JGE (condition 13). -/
def execJge (d : Rel) (s : State) : Outcome := Res.out (jumpIf .ge d s)

/-- JLE (condition 14). -/
def execJle (d : Rel) (s : State) : Outcome := Res.out (jumpIf .le d s)

/-- JG (condition 15). -/
def execJg (d : Rel) (s : State) : Outcome := Res.out (jumpIf .g d s)

/-- CALL, relative near (R345): a refusal of the target happens before the push. -/
def execCallRel (d : Word) (s : State) : Outcome := Res.out do
  let t ← s.relTarget d
  let s1 ← s.push .dword s.npc
  .ok { s1 with pc := t }

/-- CALL, indirect near (R346): the target is read before the push. -/
def execCallInd (e : RM) (s : State) : Outcome := Res.out do
  let t ← s.readRM .dword e
  let s1 ← s.push .dword s.npc
  .ok { s1 with pc := t }

/-- RET, near (R347). -/
def execRet (s : State) : Outcome := Res.out do
  let (t, s1) ← s.pop .dword
  .ok { s1 with pc := t }

/-- RET n (R348): the bytes skipped are not accessed. -/
def execRetImm (n : BitVec 16) (s : State) : Outcome := Res.out do
  let (t, s1) ← s.pop .dword
  .ok { s1 with pc := t, regs := s1.regs.set .esp (s1.regs.esp + n.setWidth 32) }

/-- `ECX <- ECX - 1`, then the branch if ECX is not 0 and `c` holds (R350 to R352). -/
def loopWhile (c : Bool) (d : Byte) (s : State) : Res State :=
  let n := s.regs.ecx - 1#32
  let s1 := { s with regs := s.regs.set .ecx n }
  if n ≠ 0#32 ∧ c = true then s1.branch (d.signExtend 32) else s1.advance

/-- LOOP (R350). -/
def execLoop (d : Byte) (s : State) : Outcome := Res.out (loopWhile true d s)

/-- LOOPE (R351). -/
def execLoope (d : Byte) (s : State) : Outcome := Res.out (loopWhile s.flags.zf d s)

/-- LOOPNE (R352). -/
def execLoopne (d : Byte) (s : State) : Outcome := Res.out (loopWhile (!s.flags.zf) d s)

/-- JECXZ (R353). -/
def execJecxz (d : Byte) (s : State) : Outcome :=
  Res.out (if s.regs.ecx = 0#32 then s.branch (d.signExtend 32) else s.advance)

/-- INT n (R360): the run ends in `Fault(n, SoftwareInterrupt)` with pc = npc (60_exceptions.md R503, R510). -/
def execInt (n : Byte) (s : State) : Outcome := Res.out (s.softInt n)

/-- INT 3 (R361). -/
def execInt3 (s : State) : Outcome := Res.out (s.softInt 3#8)

/-- INTO (R362). -/
def execInto (s : State) : Outcome := Res.out (if s.flags.ofl then s.softInt 4#8 else s.advance)

end Sys2Proof.Machine
end

