-- ==== Sys2Proof/Machine/DataMovement.lean ====
section
/-! DEFINITION. Data movement and type conversion (spec/40_data_movement.md). No instruction here writes a flag. -/

namespace Sys2Proof.Machine

/-- MOV (R201): `Write(dst, Read(src)); pc <- npc`. -/
def execMov (f : MovForm) (s : State) : Outcome := Res.out <|
  match f with
  | .rmReg z e g => do
    let t ← s.writeLoc z (s.resolve e) (s.reg z g)
    t.advance
  | .regRm z g e => do
    let v ← s.readRM z e
    (s.setReg z g v).advance
  | .regImm z g i => (s.setReg z g i).advance
  | .rmImm z e i => do
    let t ← s.writeLoc z (s.resolve e) i
    t.advance
  | .accMoffs z o off => do
    let v ← s.memRead (srcSeg o) off z
    (s.setReg z .eax v).advance
  | .moffsAcc z o off => do
    let t ← s.memWrite (srcSeg o) off z (s.reg z .eax)
    t.advance

/-- Exchange of a location and a register: both reads before both writes (R204). -/
def exchange (z : Size) (l : Loc) (g : GReg) (s : State) : Res State := do
  let t ← s.readLoc z l
  let u := s.reg z g
  let s1 ← s.writeLoc z l u
  (s1.setReg z g t).advance

/-- XCHG (R204). -/
def execXchg (f : XchgForm) (s : State) : Outcome := Res.out <|
  match f with
  | .rmReg z e g => exchange z (s.resolve e) g s
  | .accReg v g => exchange v.size (.reg .eax) g s

/-- PUSH (R205): the source is read, with the old ESP, before the decrement. -/
def execPush (f : PushForm) (s : State) : Outcome := Res.out <|
  match f with
  | .reg v g => do
    let t ← s.push v.size (s.reg v.size g)
    t.advance
  | .rm v e => do
    let x ← s.readRM v.size e
    let t ← s.push v.size x
    t.advance
  | .imm v i => do
    let t ← s.push v.size i
    t.advance
  | .imm8s v i => do
    let t ← s.push v.size (sextByte v.size i)
    t.advance

/-- POP (R206): the destination is written after ESP is incremented, and its address is computed with the new ESP. -/
def execPop (f : PopForm) (s : State) : Outcome := Res.out <|
  match f with
  | .reg v g => do
    let (x, t) ← s.pop v.size
    (t.setReg v.size g x).advance
  | .rm v e => do
    let (x, t) ← s.pop v.size
    let t ← t.writeLoc v.size (t.resolve e) x
    t.advance

/-- CBW (R210): `AX <- sext_16(AL)`. -/
def execCbw (s : State) : Outcome :=
  Res.out (s.setReg .word .eax ((s.reg .byte .eax).signExtend 16)).advance

/-- CWDE (R211): `EAX <- sext_32(AX)`. -/
def execCwde (s : State) : Outcome :=
  Res.out (s.setReg .dword .eax ((s.reg .word .eax).signExtend 32)).advance

/-- CWD (R212): DX all copies of the sign of AX. -/
def execCwd (s : State) : Outcome :=
  Res.out (s.setReg .word .edx (if (s.reg .word .eax).msb then 0xFFFF#16 else 0x0000#16)).advance

/-- CDQ (R213): EDX all copies of the sign of EAX. -/
def execCdq (s : State) : Outcome :=
  Res.out (s.setReg .dword .edx (if (s.reg .dword .eax).msb then 0xFFFFFFFF#32 else 0x00000000#32)).advance

/-- MOVSX (R214). -/
def execMovsx (f : ExtForm) (s : State) : Outcome := Res.out <|
  match f with
  | .byte v g e => do
    let x ← s.readRM .byte e
    (s.setReg v.size g (x.signExtend v.size.bits)).advance
  | .word g e => do
    let x ← s.readRM .word e
    (s.setReg .dword g (x.signExtend 32)).advance

/-- MOVZX (R215). -/
def execMovzx (f : ExtForm) (s : State) : Outcome := Res.out <|
  match f with
  | .byte v g e => do
    let x ← s.readRM .byte e
    (s.setReg v.size g (x.setWidth v.size.bits)).advance
  | .word g e => do
    let x ← s.readRM .word e
    (s.setReg .dword g (x.setWidth 32)).advance

end Sys2Proof.Machine
end

