-- ==== Sys2Proof/Machine/Decimal.lean ====
section
/-! DEFINITION. Decimal adjusts (spec/42_decimal_arithmetic.md). AL is byte register number 0, AH number 4. -/

namespace Sys2Proof.Machine

/-- The result of AAA or AAS: AL, AH and the flags. -/
def asciiResult (s : State) (r : Byte × Byte × Bool) : Res State :=
  (((s.setReg .byte .eax r.1).setReg .byte .esp r.2.1).setStatus (asciiStatus r.2.2 s.undefBit)).advance

/-- AAA (R270). -/
def execAaa (s : State) : Outcome :=
  Res.out (asciiResult s (asciiAdjust (s.reg .byte .eax) (s.reg .byte .esp) s.flags.af 6#8 1#8))

/-- AAS (R271): subtracting 6 and 1 is adding their negations. -/
def execAas (s : State) : Outcome :=
  Res.out (asciiResult s (asciiAdjust (s.reg .byte .eax) (s.reg .byte .esp) s.flags.af (-6#8) (-1#8)))

/-- The result of DAA or DAS: AL and the flags. -/
def packedResult (s : State) (r : Byte × Status) : Res State :=
  ((s.setReg .byte .eax r.1).setStatus r.2).advance

/-- DAA (R272). -/
def execDaa (s : State) : Outcome :=
  Res.out (packedResult s (daaCalc (s.reg .byte .eax) s.flags.af s.flags.cf s.undefBit))

/-- DAS (R273). -/
def execDas (s : State) : Outcome :=
  Res.out (packedResult s (dasCalc (s.reg .byte .eax) s.flags.af s.flags.cf s.undefBit))

end Sys2Proof.Machine
end

