-- ==== Sys2Proof/Machine/FlagControl.lean ====
section
/-! DEFINITION. Flag control and flag transfer (spec/48_flag_control.md). -/

namespace Sys2Proof.Machine

/-- STC (R420). -/
def execStc (s : State) : Outcome := Res.out { s with flags := { s.flags with cf := true } }.advance

/-- CLC (R421). -/
def execClc (s : State) : Outcome := Res.out { s with flags := { s.flags with cf := false } }.advance

/-- CMC (R422). -/
def execCmc (s : State) : Outcome := Res.out { s with flags := { s.flags with cf := !s.flags.cf } }.advance

/-- CLD (R423). -/
def execCld (s : State) : Outcome := Res.out { s with flags := { s.flags with df := false } }.advance

/-- STD (R424). -/
def execStd (s : State) : Outcome := Res.out { s with flags := { s.flags with df := true } }.advance

/-- LAHF (R426): AH is byte register number 4. -/
def execLahf (s : State) : Outcome :=
  Res.out (s.setReg .byte .esp (s.flags.lahfByte s.undefBit)).advance

/-- SAHF (R427). -/
def execSahf (s : State) : Outcome := Res.out { s with flags := s.flags.sahf (s.reg .byte .esp) }.advance

/-- PUSHF (R428): the low word of EFLAGS. -/
def execPushf (s : State) : Outcome := Res.out do
  let t ← s.push .word (s.flags.image.extractLsb' 0 16)
  t.advance

/-- PUSHFD (R428): EFLAGS with RF and VM read as 0. -/
def execPushfd (s : State) : Outcome := Res.out do
  let t ← s.push .dword s.flags.pushImage
  t.advance

/-- POPF (R429). -/
def execPopf (s : State) : Outcome := Res.out do
  let (img, t) ← s.pop .word
  { t with flags := t.flags.load t.cpl (img.setWidth 32) }.advance

/-- POPFD (R429). -/
def execPopfd (s : State) : Outcome := Res.out do
  let (img, t) ← s.pop .dword
  { t with flags := t.flags.load t.cpl img }.advance

end Sys2Proof.Machine
end

