-- ==== Sys2Proof/Machine/Logic.lean ====
section
/-! DEFINITION. Boolean, bit and byte-set instructions (spec/43_logical.md). -/

namespace Sys2Proof.Machine

/-! ### Boolean operations and TEST (section 1) -/

/-- AND (R281). -/
def execAnd (f : AluForm) (s : State) : Outcome :=
  Res.out (aluWrite f (fun a b => (a &&& b, logicFlags (a &&& b) s.undefBit)) s)

/-- OR (R282). -/
def execOr (f : AluForm) (s : State) : Outcome :=
  Res.out (aluWrite f (fun a b => (a ||| b, logicFlags (a ||| b) s.undefBit)) s)

/-- XOR (R283). -/
def execXor (f : AluForm) (s : State) : Outcome :=
  Res.out (aluWrite f (fun a b => (a ^^^ b, logicFlags (a ^^^ b) s.undefBit)) s)

/-- NOT (R284): no flag changes. -/
def execNot (z : Size) (e : RM) (s : State) : Outcome := Res.out do
  let a ← s.readRM z e
  let t ← s.writeLoc z (s.resolve e) (~~~a)
  t.advance

/-- The flags of `first AND second`, nothing written (R285). -/
def testBits (z : Size) (a b : BitVec z.bits) (s : State) : Res State :=
  (s.setStatus (logicFlags (a &&& b) s.undefBit)).advance

/-- TEST (R285). -/
def execTest (f : TestForm) (s : State) : Outcome := Res.out <|
  match f with
  | .rmReg z e g => do
    let a ← s.readRM z e
    testBits z a (s.reg z g) s
  | .accImm z i => testBits z (s.reg z .eax) i s
  | .rmImm z e i => do
    let a ← s.readRM z e
    testBits z a i s

/-! ### Bit test and modify (section 2) -/

/-- The width of a bit instruction. -/
@[reducible] def bitSize : BitForm → Size
  | .reg v _ _ => v.size
  | .imm v _ _ => v.size

/-- `BitLoc`: the container and the number of the bit in it (R290). -/
def bitLoc (s : State) : BitForm → Loc × Nat
  | .imm v e i => (s.resolve e, i.toNat % v.size.bits)
  | .reg v (.reg r) g => (.reg r, (s.reg v.size g).toNat % v.size.bits)
  | .reg v (.mem m) g =>
    (.mem (operandSeg m)
      (s.ea m + BitVec.ofInt 32 (v.size.bytes * ((s.reg v.size g).toInt / v.size.bits))),
     ((s.reg v.size g).toInt % v.size.bits).toNat)

/-- BT (R291): CF is the bit, nothing is written. -/
def execBt (f : BitForm) (s : State) : Outcome := Res.out do
  let c ← s.readLoc (bitSize f) (bitLoc s f).1
  (s.setStatus (bitStatus (c.getLsbD (bitLoc s f).2) s.undefBit)).advance

/-- CF is the bit, and the container is written back with the bit changed by `upd` (R292 to R294). -/
def bitModify (f : BitForm) (upd : BitVec (bitSize f).bits → Nat → BitVec (bitSize f).bits) (s : State) :
    Res State := do
  let c ← s.readLoc (bitSize f) (bitLoc s f).1
  let t ← s.writeLoc (bitSize f) (bitLoc s f).1 (upd c (bitLoc s f).2)
  (t.setStatus (bitStatus (c.getLsbD (bitLoc s f).2) s.undefBit)).advance

/-- The value with bit `i` alone set. -/
def bitAt (w i : Nat) : BitVec w := 1#w <<< i

/-- BTS (R292). -/
def execBts (f : BitForm) (s : State) : Outcome := Res.out (bitModify f (fun c i => c ||| bitAt _ i) s)

/-- BTR (R293). -/
def execBtr (f : BitForm) (s : State) : Outcome := Res.out (bitModify f (fun c i => c &&& ~~~(bitAt _ i)) s)

/-- BTC (R294). -/
def execBtc (f : BitForm) (s : State) : Outcome := Res.out (bitModify f (fun c i => c ^^^ bitAt _ i) s)

/-! ### Bit scan (section 3) -/

/-- The index found into the register and ZF = 0, or ZF = 1 and the register undefined (R296, R297). -/
def scanInto (z : Size) (g : GReg) (found : Option Nat) (s : State) : Res State :=
  match found with
  | some i => ((s.setReg z g (BitVec.ofNat z.bits i)).setStatus (scanStatus false s.undefBit)).advance
  | none => ((s.setReg z g (s.undefBits z)).setStatus (scanStatus true s.undefBit)).advance

/-- BSF (R296). -/
def execBsf (v : VSize) (g : GReg) (e : RM) (s : State) : Outcome := Res.out do
  let x ← s.readRM v.size e
  scanInto v.size g (lowestBit x) s

/-- BSR (R297). -/
def execBsr (v : VSize) (g : GReg) (e : RM) (s : State) : Outcome := Res.out do
  let x ← s.readRM v.size e
  scanInto v.size g (highestBit x) s

/-! ### Byte set on condition (section 4, R300, R340) -/

/-- `Write_8(dst, if cond(cc) then 1 else 0)`. -/
def setByte (c : Cond) (e : RM) (s : State) : Res State := do
  let t ← s.writeLoc .byte (s.resolve e) (if s.flags.holds c then 0x01#8 else 0x00#8)
  t.advance

/-- SETO (condition 0). -/
def execSeto (e : RM) (s : State) : Outcome := Res.out (setByte .o e s)

/-- SETNO (condition 1). -/
def execSetno (e : RM) (s : State) : Outcome := Res.out (setByte .no e s)

/-- SETB (condition 2). -/
def execSetb (e : RM) (s : State) : Outcome := Res.out (setByte .b e s)

/-- SETAE (condition 3). -/
def execSetae (e : RM) (s : State) : Outcome := Res.out (setByte .ae e s)

/-- SETE (condition 4). -/
def execSete (e : RM) (s : State) : Outcome := Res.out (setByte .e e s)

/-- SETNE (condition 5). -/
def execSetne (e : RM) (s : State) : Outcome := Res.out (setByte .ne e s)

/-- SETBE (condition 6). -/
def execSetbe (e : RM) (s : State) : Outcome := Res.out (setByte .be e s)

/-- SETA (condition 7). -/
def execSeta (e : RM) (s : State) : Outcome := Res.out (setByte .a e s)

/-- SETS (condition 8). -/
def execSets (e : RM) (s : State) : Outcome := Res.out (setByte .s e s)

/-- SETNS (condition 9). -/
def execSetns (e : RM) (s : State) : Outcome := Res.out (setByte .ns e s)

/-- SETP (condition 10). -/
def execSetp (e : RM) (s : State) : Outcome := Res.out (setByte .p e s)

/-- SETNP (condition 11). -/
def execSetnp (e : RM) (s : State) : Outcome := Res.out (setByte .np e s)

/-- SETL (condition 12). -/
def execSetl (e : RM) (s : State) : Outcome := Res.out (setByte .l e s)

/-- SETGE (condition 13). -/
def execSetge (e : RM) (s : State) : Outcome := Res.out (setByte .ge e s)

/-- SETLE (condition 14). -/
def execSetle (e : RM) (s : State) : Outcome := Res.out (setByte .le e s)

/-- SETG (condition 15). -/
def execSetg (e : RM) (s : State) : Outcome := Res.out (setByte .g e s)

end Sys2Proof.Machine
end

