-- ==== Sys2Proof/Machine/Misc.lean ====
section
/-! DEFINITION. WAIT, LEA, NOP, XLAT (spec/49_coprocessor_segment_misc.md). -/

namespace Sys2Proof.Machine

/-- WAIT (R441): the BUSY pin is inactive, so it completes at once (log 19). -/
def execWait (s : State) : Outcome := Res.out s.advance

/-- LEA (R450): the offset, no memory access, no segment. -/
def execLea (v : VSize) (g : GReg) (m : MemOp) (s : State) : Outcome :=
  Res.out (s.setReg v.size g ((s.ea m).setWidth v.size.bits)).advance

/-- NOP (R451). -/
def execNop (s : State) : Outcome := Res.out s.advance

/-- XLAT (R452): AL is an unsigned index into the table at EBX. -/
def execXlat (ovr : Option Seg) (s : State) : Outcome := Res.out do
  let v ← s.memRead (srcSeg ovr) (s.regs.ebx + (s.reg .byte .eax).setWidth 32) .byte
  (s.setReg .byte .eax v).advance

end Sys2Proof.Machine
end

