-- ==== Sys2Proof/Machine/OutOfScope.lean ====
section
/-! DEFINITION. The encodings the spec refuses (spec/00_scope.md R5), each with the reason the spec gives it. -/

namespace Sys2Proof.Machine

/-! ### Segment instructions (49_coprocessor_segment_misc.md R444, 45_control_transfer.md R365) -/

/-- PUSH of a segment register (R444). -/
def execPushSeg (_ : Seg) (_ : State) : Outcome := .refused .segmentInstruction

/-- POP of a segment register (R444). -/
def execPopSeg (_ : Seg) (_ : State) : Outcome := .refused .segmentInstruction

/-- MOV with a segment register (R444). -/
def execMovSeg (_ : MovSegForm) (_ : State) : Outcome := .refused .segmentInstruction

/-- LES (R444). -/
def execLes (_ : State) : Outcome := .refused .segmentInstruction

/-- LDS (R444). -/
def execLds (_ : State) : Outcome := .refused .segmentInstruction

/-- LSS (R444). -/
def execLss (_ : State) : Outcome := .refused .segmentInstruction

/-- LFS (R444). -/
def execLfs (_ : State) : Outcome := .refused .segmentInstruction

/-- LGS (R444). -/
def execLgs (_ : State) : Outcome := .refused .segmentInstruction

/-- far CALL (R365). -/
def execCallFar (_ : FarForm) (_ : State) : Outcome := .refused .segmentInstruction

/-- far JMP (R365). -/
def execJmpFar (_ : FarForm) (_ : State) : Outcome := .refused .segmentInstruction

/-- far RET (R365). -/
def execRetFar (_ : FarRet) (_ : State) : Outcome := .refused .segmentInstruction

/-! ### System instructions (R445, R455, 48_flag_control.md R431) -/

/-- ARPL (R445). -/
def execArpl (_ : State) : Outcome := .refused .systemInstruction

/-- SLDT (R445). -/
def execSldt (_ : State) : Outcome := .refused .systemInstruction

/-- STR (R445). -/
def execStr (_ : State) : Outcome := .refused .systemInstruction

/-- LLDT (R445). -/
def execLldt (_ : State) : Outcome := .refused .systemInstruction

/-- LTR (R445). -/
def execLtr (_ : State) : Outcome := .refused .systemInstruction

/-- VERR (R445). -/
def execVerr (_ : State) : Outcome := .refused .systemInstruction

/-- VERW (R445). -/
def execVerw (_ : State) : Outcome := .refused .systemInstruction

/-- SGDT (R445). -/
def execSgdt (_ : State) : Outcome := .refused .systemInstruction

/-- SIDT (R445). -/
def execSidt (_ : State) : Outcome := .refused .systemInstruction

/-- LGDT (R445). -/
def execLgdt (_ : State) : Outcome := .refused .systemInstruction

/-- LIDT (R445). -/
def execLidt (_ : State) : Outcome := .refused .systemInstruction

/-- SMSW (R445). -/
def execSmsw (_ : State) : Outcome := .refused .systemInstruction

/-- LMSW (R445). -/
def execLmsw (_ : State) : Outcome := .refused .systemInstruction

/-- LAR (R445). -/
def execLar (_ : State) : Outcome := .refused .systemInstruction

/-- LSL (R445). -/
def execLsl (_ : State) : Outcome := .refused .systemInstruction

/-- CLTS (R445). -/
def execClts (_ : State) : Outcome := .refused .systemInstruction

/-- MOV with a control, debug or test register (R445). -/
def execMovSys (_ : MovSysForm) (_ : State) : Outcome := .refused .systemInstruction

/-- IRET (R365, R445). -/
def execIret (_ : State) : Outcome := .refused .systemInstruction

/-- CLI (R431). -/
def execCli (_ : State) : Outcome := .refused .systemInstruction

/-- STI (R431). -/
def execSti (_ : State) : Outcome := .refused .systemInstruction

/-- HLT (R455). -/
def execHlt (_ : State) : Outcome := .refused .systemInstruction

/-! ### Input and output (R446, 46_string.md R390) -/

/-- IN (R446). -/
def execInPort (_ : IoForm) (_ : State) : Outcome := .refused .ioInstruction

/-- OUT (R446). -/
def execOutPort (_ : IoForm) (_ : State) : Outcome := .refused .ioInstruction

/-- INSB (R390). -/
def execInsb (_ : State) : Outcome := .refused .ioInstruction

/-- INSD (R390). -/
def execInsd (_ : State) : Outcome := .refused .ioInstruction

/-- OUTSB (R390). -/
def execOutsb (_ : State) : Outcome := .refused .ioInstruction

/-- OUTSD (R390). -/
def execOutsd (_ : State) : Outcome := .refused .ioInstruction

/-! ### Not named in the source (40_data_movement.md R219, 45_control_transfer.md R366, 42_decimal_arithmetic.md R274) -/

/-- PUSHA (R219). -/
def execPusha (_ : State) : Outcome := .refused .notNamedInSource

/-- POPA (R219). -/
def execPopa (_ : State) : Outcome := .refused .notNamedInSource

/-- BOUND (R366). -/
def execBound (_ : State) : Outcome := .refused .notNamedInSource

/-- AAM (R274). -/
def execAam (_ : State) : Outcome := .refused .notNamedInSource

/-- AAD (R274). -/
def execAad (_ : State) : Outcome := .refused .notNamedInSource

/-! ### Coprocessor (R440) -/

/-- ESC (R440). -/
def execEsc (_ : BitVec 3) (_ : State) : Outcome := .refused .coprocessorInstruction

/-! ### Undefined and undocumented encodings (30_encoding.md R125) -/

/-- The undocumented alias 82 of 80 (R125). -/
def execAliasOf80 (_ : State) : Outcome := .refused .undefinedOpcode

/-- The undocumented opcodes D6 and F1 (R125). -/
def execUndocumented (_ : Undoc) (_ : State) : Outcome := .refused .undefinedOpcode

/-- An undefined encoding (R125). -/
def execUndefined (_ : UndefEnc) (_ : State) : Outcome := .refused .undefinedOpcode

/-! ### Prefixes that are not admitted where they stand (30_encoding.md R103 to R106) -/

/-- The prefix ES: (R103, R106). -/
def execPrefixEs (_ : State) : Outcome := .refused .prefixNotAdmitted

/-- The prefix CS: (R103, R106). -/
def execPrefixCs (_ : State) : Outcome := .refused .prefixNotAdmitted

/-- The prefix SS: (R103, R106). -/
def execPrefixSs (_ : State) : Outcome := .refused .prefixNotAdmitted

/-- The prefix DS: (R103, R106). -/
def execPrefixDs (_ : State) : Outcome := .refused .prefixNotAdmitted

/-- The prefix FS: (R103, R106). -/
def execPrefixFs (_ : State) : Outcome := .refused .prefixNotAdmitted

/-- The prefix GS: (R103, R106). -/
def execPrefixGs (_ : State) : Outcome := .refused .prefixNotAdmitted

/-- The operand-size prefix (R103, R104). -/
def execOpsize (_ : State) : Outcome := .refused .prefixNotAdmitted

/-- The address-size prefix (R105). -/
def execAddrsize (_ : State) : Outcome := .refused .prefixNotAdmitted

/-- The LOCK prefix (R105). -/
def execLock (_ : State) : Outcome := .refused .prefixNotAdmitted

/-- REP (R103, 46_string.md R381). -/
def execRepMisused (_ : State) : Outcome := .refused .prefixNotAdmitted

/-- REPNE (R103, 46_string.md R381). -/
def execRepneMisused (_ : State) : Outcome := .refused .prefixNotAdmitted

end Sys2Proof.Machine
end

