-- ==== Sys2Proof/Machine/Shift.lean ====
section
/-! DEFINITION. Shifts, double shifts and rotates (spec/44_shift_rotate.md). -/

namespace Sys2Proof.Machine

/-- The count operand of a shift or rotate (R310). -/
def State.count (s : State) : Count → Byte
  | .imm i => i
  | .one => 1#8
  | .cl => s.reg .byte .ecx

/-- The count operand of a double shift (R310). -/
def State.dcount (s : State) : DCount → Byte
  | .imm i => i
  | .cl => s.reg .byte .ecx

/-- A shift: the operand is read; for a masked count of 0 nothing is written and no flag changes (R310). -/
def shiftBy (z : Size) (e : RM) (c : Count)
    (op : BitVec z.bits → Nat → (Nat → Bool) → BitVec z.bits × Status) (s : State) : Res State := do
  let a ← s.readRM z e
  let n := maskCount (s.count c)
  if n = 0 then s.advance
  else
    let r := op a n s.undefBit
    let t ← s.writeLoc z (s.resolve e) r.1
    (t.setStatus r.2).advance

/-- SHL, SAL (R311). -/
def execShl (z : Size) (e : RM) (c : Count) (s : State) : Outcome := Res.out (shiftBy z e c shlCalc s)

/-- SHR (R312). -/
def execShr (z : Size) (e : RM) (c : Count) (s : State) : Outcome := Res.out (shiftBy z e c shrCalc s)

/-- SAR (R313). -/
def execSar (z : Size) (e : RM) (c : Count) (s : State) : Outcome := Res.out (shiftBy z e c sarCalc s)

/-- A double shift: as `shiftBy`, with the register operand (R315, R316). -/
def doubleShift (v : VSize) (e : RM) (g : GReg) (c : DCount)
    (op : BitVec v.size.bits → BitVec v.size.bits → Nat → BitVec v.size.bits → (Nat → Bool) →
      BitVec v.size.bits × Status) (s : State) : Res State := do
  let a ← s.readRM v.size e
  let n := maskCount (s.dcount c)
  if n = 0 then s.advance
  else
    let r := op a (s.reg v.size g) n (s.undefBits v.size) s.undefBit
    let t ← s.writeLoc v.size (s.resolve e) r.1
    (t.setStatus r.2).advance

/-- SHLD (R315). -/
def execShld (v : VSize) (e : RM) (g : GReg) (c : DCount) (s : State) : Outcome :=
  Res.out (doubleShift v e g c shldCalc s)

/-- SHRD (R316). -/
def execShrd (v : VSize) (e : RM) (g : GReg) (c : DCount) (s : State) : Outcome :=
  Res.out (doubleShift v e g c shrdCalc s)

/-- A rotate: CF and OF only (section 4); for a masked count of 0 nothing is written and no flag changes (R310). -/
def rotateBy (z : Size) (e : RM) (c : Count)
    (op : BitVec z.bits → Bool → Nat → (Nat → Bool) → BitVec z.bits × Bool × Bool) (s : State) : Res State := do
  let a ← s.readRM z e
  let n := maskCount (s.count c)
  if n = 0 then s.advance
  else
    let r := op a s.flags.cf n s.undefBit
    let t ← s.writeLoc z (s.resolve e) r.1
    { t with flags := t.flags.withCfOf r.2.1 r.2.2 }.advance

/-- ROL (R320). -/
def execRol (z : Size) (e : RM) (c : Count) (s : State) : Outcome := Res.out (rotateBy z e c rolCalc s)

/-- ROR (R321). -/
def execRor (z : Size) (e : RM) (c : Count) (s : State) : Outcome := Res.out (rotateBy z e c rorCalc s)

/-- RCL (R322). -/
def execRcl (z : Size) (e : RM) (c : Count) (s : State) : Outcome := Res.out (rotateBy z e c rclCalc s)

/-- RCR (R323). -/
def execRcr (z : Size) (e : RM) (c : Count) (s : State) : Outcome := Res.out (rotateBy z e c rcrCalc s)

end Sys2Proof.Machine
end

