-- ==== Sys2Proof/Machine/StringOps.lean ====
section
/-! DEFINITION. String primitives and repeat prefixes (spec/46_string.md). -/

namespace Sys2Proof.Machine

/-- What an index register is advanced by: `+z` if DF = 0, `-z` if DF = 1 (R380). -/
def State.strDelta (s : State) (z : Size) : Word :=
  if s.flags.df then -(BitVec.ofNat 32 z.bytes) else BitVec.ofNat 32 z.bytes

/-- ESI advanced past an element (R380). -/
def State.bumpEsi (s : State) (z : Size) : State :=
  { s with regs := s.regs.set .esi (s.regs.esi + s.strDelta z) }

/-- EDI advanced past an element (R380). -/
def State.bumpEdi (s : State) (z : Size) : State :=
  { s with regs := s.regs.set .edi (s.regs.edi + s.strDelta z) }

/-! ### The primitives, without the pc (R383 to R387) -/

/-- MOVS (R383). -/
def strMovs (z : Size) (ovr : Option Seg) (s : State) : Res State := do
  let v ← s.memRead (srcSeg ovr) s.regs.esi z
  let t ← s.memWrite .es s.regs.edi z v
  .ok ((t.bumpEsi z).bumpEdi z)

/-- CMPS (R384): the source element minus the destination element. -/
def strCmps (z : Size) (ovr : Option Seg) (s : State) : Res State := do
  let a ← s.memRead (srcSeg ovr) s.regs.esi z
  let b ← s.memRead .es s.regs.edi z
  .ok (((s.setStatus (subFlags a b false).2).bumpEsi z).bumpEdi z)

/-- SCAS (R385): the accumulator minus the destination element. -/
def strScas (z : Size) (s : State) : Res State := do
  let b ← s.memRead .es s.regs.edi z
  .ok ((s.setStatus (subFlags (s.reg z .eax) b false).2).bumpEdi z)

/-- LODS (R386). -/
def strLods (z : Size) (ovr : Option Seg) (s : State) : Res State := do
  let v ← s.memRead (srcSeg ovr) s.regs.esi z
  .ok ((s.setReg z .eax v).bumpEsi z)

/-- STOS (R387). -/
def strStos (z : Size) (s : State) : Res State := do
  let t ← s.memWrite .es s.regs.edi z (s.reg z .eax)
  .ok (t.bumpEdi z)

/-! ### One primitive alone: `pc <- npc` after it -/

/-- MOVSB (R383). -/
def execMovsb (ovr : Option Seg) (s : State) : Outcome := Res.out do
  let t ← strMovs .byte ovr s
  t.advance

/-- MOVSD, and MOVSW with the operand-size prefix (R383). -/
def execMovsd (v : VSize) (ovr : Option Seg) (s : State) : Outcome := Res.out do
  let t ← strMovs v.size ovr s
  t.advance

/-- CMPSB (R384). -/
def execCmpsb (ovr : Option Seg) (s : State) : Outcome := Res.out do
  let t ← strCmps .byte ovr s
  t.advance

/-- CMPSD, CMPSW (R384). -/
def execCmpsd (v : VSize) (ovr : Option Seg) (s : State) : Outcome := Res.out do
  let t ← strCmps v.size ovr s
  t.advance

/-- STOSB (R387). -/
def execStosb (s : State) : Outcome := Res.out do
  let t ← strStos .byte s
  t.advance

/-- STOSD, STOSW (R387). -/
def execStosd (v : VSize) (s : State) : Outcome := Res.out do
  let t ← strStos v.size s
  t.advance

/-- LODSB (R386). -/
def execLodsb (ovr : Option Seg) (s : State) : Outcome := Res.out do
  let t ← strLods .byte ovr s
  t.advance

/-- LODSD, LODSW (R386). -/
def execLodsd (v : VSize) (ovr : Option Seg) (s : State) : Outcome := Res.out do
  let t ← strLods v.size ovr s
  t.advance

/-- SCASB (R385). -/
def execScasb (s : State) : Outcome := Res.out do
  let t ← strScas .byte s
  t.advance

/-- SCASD, SCASW (R385). -/
def execScasd (v : VSize) (s : State) : Outcome := Res.out do
  let t ← strScas v.size s
  t.advance

/-! ### Repeat prefixes (R381): one iteration per step -/

/-- The primitive that REP repeats. -/
def strMove : StrMove → State → Res State
  | .movs z ovr, s => strMovs z ovr s
  | .lods z ovr, s => strLods z ovr s
  | .stos z, s => strStos z s

/-- The primitive that REPE or REPNE repeats. -/
def strCmp : StrCmp → State → Res State
  | .cmps z ovr, s => strCmps z ovr s
  | .scas z, s => strScas z s

/-- One iteration of a repeated primitive: none if ECX = 0; else the primitive, ECX decremented without touching the
flags, and pc left at the instruction unless ECX is now 0 or `stop` holds of the new flags (R381). -/
def repeatOnce (prim : State → Res State) (stop : Eflags → Bool) (s : State) : Res State :=
  if s.regs.ecx = 0#32 then s.advance
  else do
    let t ← prim s
    let t := { t with regs := t.regs.set .ecx (t.regs.ecx - 1#32) }
    if t.regs.ecx = 0#32 ∨ stop t.flags = true then t.advance else .ok t

/-- REP before MOVS, LODS, STOS (R381). -/
def execRep (p : StrMove) (s : State) : Outcome := Res.out (repeatOnce (strMove p) (fun _ => false) s)

/-- REPE before CMPS, SCAS: ends also when ZF = 0 (R381). -/
def execRepe (p : StrCmp) (s : State) : Outcome := Res.out (repeatOnce (strCmp p) (fun f => !f.zf) s)

/-- REPNE before CMPS, SCAS: ends also when ZF = 1 (R381). -/
def execRepne (p : StrCmp) (s : State) : Outcome := Res.out (repeatOnce (strCmp p) (fun f => f.zf) s)

end Sys2Proof.Machine
end

