-- ==== Sys2Proof/Machine/Dispatch.lean ====
section
/-! DEFINITION. One arm per instruction: the call of its meaning. -/

namespace Sys2Proof.Machine

def exec (i : Instr) (s : State) : Host.Outcome State Fault Refusal :=
  match i with
  | .add f => Sys2Proof.Machine.execAdd f s
  | .or f => Sys2Proof.Machine.execOr f s
  | .adc f => Sys2Proof.Machine.execAdc f s
  | .sbb f => Sys2Proof.Machine.execSbb f s
  | .and f => Sys2Proof.Machine.execAnd f s
  | .sub f => Sys2Proof.Machine.execSub f s
  | .xor f => Sys2Proof.Machine.execXor f s
  | .cmp f => Sys2Proof.Machine.execCmp f s
  | .inc f => Sys2Proof.Machine.execInc f s
  | .dec f => Sys2Proof.Machine.execDec f s
  | .neg z e => Sys2Proof.Machine.execNeg z e s
  | .not z e => Sys2Proof.Machine.execNot z e s
  | .test f => Sys2Proof.Machine.execTest f s
  | .mul z e => Sys2Proof.Machine.execMul z e s
  | .imul1 z e => Sys2Proof.Machine.execImul1 z e s
  | .imul2 v g e => Sys2Proof.Machine.execImul2 v g e s
  | .imul3 f => Sys2Proof.Machine.execImul3 f s
  | .div z e => Sys2Proof.Machine.execDiv z e s
  | .idiv z e => Sys2Proof.Machine.execIdiv z e s
  | .daa => Sys2Proof.Machine.execDaa s
  | .das => Sys2Proof.Machine.execDas s
  | .aaa => Sys2Proof.Machine.execAaa s
  | .aas => Sys2Proof.Machine.execAas s
  | .mov f => Sys2Proof.Machine.execMov f s
  | .xchg f => Sys2Proof.Machine.execXchg f s
  | .push f => Sys2Proof.Machine.execPush f s
  | .pop f => Sys2Proof.Machine.execPop f s
  | .cbw => Sys2Proof.Machine.execCbw s
  | .cwde => Sys2Proof.Machine.execCwde s
  | .cwd => Sys2Proof.Machine.execCwd s
  | .cdq => Sys2Proof.Machine.execCdq s
  | .movsx f => Sys2Proof.Machine.execMovsx f s
  | .movzx f => Sys2Proof.Machine.execMovzx f s
  | .bt f => Sys2Proof.Machine.execBt f s
  | .bts f => Sys2Proof.Machine.execBts f s
  | .btr f => Sys2Proof.Machine.execBtr f s
  | .btc f => Sys2Proof.Machine.execBtc f s
  | .bsf v g e => Sys2Proof.Machine.execBsf v g e s
  | .bsr v g e => Sys2Proof.Machine.execBsr v g e s
  | .seto e => Sys2Proof.Machine.execSeto e s
  | .setno e => Sys2Proof.Machine.execSetno e s
  | .setb e => Sys2Proof.Machine.execSetb e s
  | .setae e => Sys2Proof.Machine.execSetae e s
  | .sete e => Sys2Proof.Machine.execSete e s
  | .setne e => Sys2Proof.Machine.execSetne e s
  | .setbe e => Sys2Proof.Machine.execSetbe e s
  | .seta e => Sys2Proof.Machine.execSeta e s
  | .sets e => Sys2Proof.Machine.execSets e s
  | .setns e => Sys2Proof.Machine.execSetns e s
  | .setp e => Sys2Proof.Machine.execSetp e s
  | .setnp e => Sys2Proof.Machine.execSetnp e s
  | .setl e => Sys2Proof.Machine.execSetl e s
  | .setge e => Sys2Proof.Machine.execSetge e s
  | .setle e => Sys2Proof.Machine.execSetle e s
  | .setg e => Sys2Proof.Machine.execSetg e s
  | .rol z e c => Sys2Proof.Machine.execRol z e c s
  | .ror z e c => Sys2Proof.Machine.execRor z e c s
  | .rcl z e c => Sys2Proof.Machine.execRcl z e c s
  | .rcr z e c => Sys2Proof.Machine.execRcr z e c s
  | .shl z e c => Sys2Proof.Machine.execShl z e c s
  | .shr z e c => Sys2Proof.Machine.execShr z e c s
  | .sar z e c => Sys2Proof.Machine.execSar z e c s
  | .shld v e g c => Sys2Proof.Machine.execShld v e g c s
  | .shrd v e g c => Sys2Proof.Machine.execShrd v e g c s
  | .jmpRel d => Sys2Proof.Machine.execJmpRel d s
  | .jmpInd e => Sys2Proof.Machine.execJmpInd e s
  | .jo d => Sys2Proof.Machine.execJo d s
  | .jno d => Sys2Proof.Machine.execJno d s
  | .jb d => Sys2Proof.Machine.execJb d s
  | .jae d => Sys2Proof.Machine.execJae d s
  | .je d => Sys2Proof.Machine.execJe d s
  | .jne d => Sys2Proof.Machine.execJne d s
  | .jbe d => Sys2Proof.Machine.execJbe d s
  | .ja d => Sys2Proof.Machine.execJa d s
  | .js d => Sys2Proof.Machine.execJs d s
  | .jns d => Sys2Proof.Machine.execJns d s
  | .jp d => Sys2Proof.Machine.execJp d s
  | .jnp d => Sys2Proof.Machine.execJnp d s
  | .jl d => Sys2Proof.Machine.execJl d s
  | .jge d => Sys2Proof.Machine.execJge d s
  | .jle d => Sys2Proof.Machine.execJle d s
  | .jg d => Sys2Proof.Machine.execJg d s
  | .callRel d => Sys2Proof.Machine.execCallRel d s
  | .callInd e => Sys2Proof.Machine.execCallInd e s
  | .ret => Sys2Proof.Machine.execRet s
  | .retImm n => Sys2Proof.Machine.execRetImm n s
  | .loopne d => Sys2Proof.Machine.execLoopne d s
  | .loope d => Sys2Proof.Machine.execLoope d s
  | .loop d => Sys2Proof.Machine.execLoop d s
  | .jecxz d => Sys2Proof.Machine.execJecxz d s
  | .int3 => Sys2Proof.Machine.execInt3 s
  | .int n => Sys2Proof.Machine.execInt n s
  | .into => Sys2Proof.Machine.execInto s
  | .movsb ovr => Sys2Proof.Machine.execMovsb ovr s
  | .movsd v ovr => Sys2Proof.Machine.execMovsd v ovr s
  | .cmpsb ovr => Sys2Proof.Machine.execCmpsb ovr s
  | .cmpsd v ovr => Sys2Proof.Machine.execCmpsd v ovr s
  | .stosb => Sys2Proof.Machine.execStosb s
  | .stosd v => Sys2Proof.Machine.execStosd v s
  | .lodsb ovr => Sys2Proof.Machine.execLodsb ovr s
  | .lodsd v ovr => Sys2Proof.Machine.execLodsd v ovr s
  | .scasb => Sys2Proof.Machine.execScasb s
  | .scasd v => Sys2Proof.Machine.execScasd v s
  | .rep p => Sys2Proof.Machine.execRep p s
  | .repe p => Sys2Proof.Machine.execRepe p s
  | .repne p => Sys2Proof.Machine.execRepne p s
  | .enter size lvl => Sys2Proof.Machine.execEnter size lvl s
  | .leave => Sys2Proof.Machine.execLeave s
  | .clc => Sys2Proof.Machine.execClc s
  | .stc => Sys2Proof.Machine.execStc s
  | .cmc => Sys2Proof.Machine.execCmc s
  | .cld => Sys2Proof.Machine.execCld s
  | .std => Sys2Proof.Machine.execStd s
  | .lahf => Sys2Proof.Machine.execLahf s
  | .sahf => Sys2Proof.Machine.execSahf s
  | .pushf => Sys2Proof.Machine.execPushf s
  | .pushfd => Sys2Proof.Machine.execPushfd s
  | .popf => Sys2Proof.Machine.execPopf s
  | .popfd => Sys2Proof.Machine.execPopfd s
  | .wait => Sys2Proof.Machine.execWait s
  | .lea v g m => Sys2Proof.Machine.execLea v g m s
  | .nop => Sys2Proof.Machine.execNop s
  | .xlat ovr => Sys2Proof.Machine.execXlat ovr s
  | .pushSeg sg => Sys2Proof.Machine.execPushSeg sg s
  | .popSeg sg => Sys2Proof.Machine.execPopSeg sg s
  | .movSeg f => Sys2Proof.Machine.execMovSeg f s
  | .les => Sys2Proof.Machine.execLes s
  | .lds => Sys2Proof.Machine.execLds s
  | .lss => Sys2Proof.Machine.execLss s
  | .lfs => Sys2Proof.Machine.execLfs s
  | .lgs => Sys2Proof.Machine.execLgs s
  | .callFar f => Sys2Proof.Machine.execCallFar f s
  | .jmpFar f => Sys2Proof.Machine.execJmpFar f s
  | .retFar f => Sys2Proof.Machine.execRetFar f s
  | .arpl => Sys2Proof.Machine.execArpl s
  | .sldt => Sys2Proof.Machine.execSldt s
  | .str => Sys2Proof.Machine.execStr s
  | .lldt => Sys2Proof.Machine.execLldt s
  | .ltr => Sys2Proof.Machine.execLtr s
  | .verr => Sys2Proof.Machine.execVerr s
  | .verw => Sys2Proof.Machine.execVerw s
  | .sgdt => Sys2Proof.Machine.execSgdt s
  | .sidt => Sys2Proof.Machine.execSidt s
  | .lgdt => Sys2Proof.Machine.execLgdt s
  | .lidt => Sys2Proof.Machine.execLidt s
  | .smsw => Sys2Proof.Machine.execSmsw s
  | .lmsw => Sys2Proof.Machine.execLmsw s
  | .lar => Sys2Proof.Machine.execLar s
  | .lsl => Sys2Proof.Machine.execLsl s
  | .clts => Sys2Proof.Machine.execClts s
  | .movSys f => Sys2Proof.Machine.execMovSys f s
  | .iret => Sys2Proof.Machine.execIret s
  | .cli => Sys2Proof.Machine.execCli s
  | .sti => Sys2Proof.Machine.execSti s
  | .hlt => Sys2Proof.Machine.execHlt s
  | .inPort f => Sys2Proof.Machine.execInPort f s
  | .outPort f => Sys2Proof.Machine.execOutPort f s
  | .insb => Sys2Proof.Machine.execInsb s
  | .insd => Sys2Proof.Machine.execInsd s
  | .outsb => Sys2Proof.Machine.execOutsb s
  | .outsd => Sys2Proof.Machine.execOutsd s
  | .pusha => Sys2Proof.Machine.execPusha s
  | .popa => Sys2Proof.Machine.execPopa s
  | .bound => Sys2Proof.Machine.execBound s
  | .aam => Sys2Proof.Machine.execAam s
  | .aad => Sys2Proof.Machine.execAad s
  | .esc op => Sys2Proof.Machine.execEsc op s
  | .aliasOf80 => Sys2Proof.Machine.execAliasOf80 s
  | .undocumented u => Sys2Proof.Machine.execUndocumented u s
  | .undefined u => Sys2Proof.Machine.execUndefined u s
  | .prefixEs => Sys2Proof.Machine.execPrefixEs s
  | .prefixCs => Sys2Proof.Machine.execPrefixCs s
  | .prefixSs => Sys2Proof.Machine.execPrefixSs s
  | .prefixDs => Sys2Proof.Machine.execPrefixDs s
  | .prefixFs => Sys2Proof.Machine.execPrefixFs s
  | .prefixGs => Sys2Proof.Machine.execPrefixGs s
  | .opsize => Sys2Proof.Machine.execOpsize s
  | .addrsize => Sys2Proof.Machine.execAddrsize s
  | .lock => Sys2Proof.Machine.execLock s
  | .repMisused => Sys2Proof.Machine.execRepMisused s
  | .repneMisused => Sys2Proof.Machine.execRepneMisused s

end Sys2Proof.Machine
end

