-- ==== Sys2Proof/WellFormed.lean ====
section
/-! DEFINITION. Which instruction terms an encoding of spec/30_encoding.md can spell. -/

namespace Sys2Proof

/-- An addressing form of 30_encoding.md R111: ESP is never an index; without a base the displacement has 32 bits;
with EBP as base there is a displacement. -/
def MemOp.wf (m : MemOp) : Bool :=
  (match m.index with
    | some (.esp, _) => false
    | _ => true) &&
  (match m.base, m.disp with
    | none, .d32 _ => true
    | none, _ => false
    | some .ebp, .none => false
    | some _, _ => true)

def RM.wf : RM → Bool
  | .reg _ => true
  | .mem m => m.wf

def AluForm.wf : AluForm → Bool
  | .rmReg _ e _ => e.wf
  | .regRm _ _ e => e.wf
  | .accImm _ _ => true
  | .rmImm _ e _ => e.wf
  | .rmImm8s _ e _ => e.wf

def IncForm.wf : IncForm → Bool
  | .reg _ _ => true
  | .rm _ e => e.wf

def TestForm.wf : TestForm → Bool
  | .rmReg _ e _ => e.wf
  | .accImm _ _ => true
  | .rmImm _ e _ => e.wf

def MovForm.wf : MovForm → Bool
  | .rmReg _ e _ => e.wf
  | .regRm _ _ e => e.wf
  | .regImm _ _ _ => true
  | .rmImm _ e _ => e.wf
  | .accMoffs _ _ _ => true
  | .moffsAcc _ _ _ => true

/-- `90` is NOP: the accumulator form of XCHG has register number 1 to 7 (R204). -/
def XchgForm.wf : XchgForm → Bool
  | .rmReg _ e _ => e.wf
  | .accReg _ g => g != .eax

def PushForm.wf : PushForm → Bool
  | .reg _ _ => true
  | .rm _ e => e.wf
  | .imm _ _ => true
  | .imm8s _ _ => true

def PopForm.wf : PopForm → Bool
  | .reg _ _ => true
  | .rm _ e => e.wf

def Imul3Form.wf : Imul3Form → Bool
  | .imm _ _ e _ => e.wf
  | .imm8s _ _ e _ => e.wf

def ExtForm.wf : ExtForm → Bool
  | .byte _ _ e => e.wf
  | .word _ e => e.wf

def BitForm.wf : BitForm → Bool
  | .reg _ e _ => e.wf
  | .imm _ e _ => e.wf

/-- The second opcode bytes that 30_encoding.md R121 lists after `0F`. -/
def escapeListed (op : Byte) : Bool :=
  (op &&& 0xF0#8 == 0x80#8) || (op &&& 0xF0#8 == 0x90#8) ||
  [0x00#8, 0x01#8, 0x02#8, 0x03#8, 0x06#8, 0x20#8, 0x21#8, 0x22#8, 0x23#8, 0x24#8, 0x26#8,
   0xA0#8, 0xA1#8, 0xA3#8, 0xA4#8, 0xA5#8, 0xA8#8, 0xA9#8, 0xAB#8, 0xAC#8, 0xAD#8, 0xAF#8,
   0xB2#8, 0xB3#8, 0xB4#8, 0xB5#8, 0xB6#8, 0xB7#8, 0xBA#8, 0xBB#8, 0xBC#8, 0xBD#8, 0xBE#8, 0xBF#8].contains op

/-- The encodings that 30_encoding.md R120 to R122 and the undefined rows of spec/opcode_table.json (groups 6 and 7) give
`Refuse(UndefinedOpcode)`, and LEA with mod = 11 (R125). -/
def UndefEnc.wf : UndefEnc → Bool
  | .group op ext =>
    (op == 0x8F#8 && ext != 0#3) ||
    ([0xC0#8, 0xC1#8, 0xD0#8, 0xD1#8, 0xD2#8, 0xD3#8].contains op && ext == 6#3) ||
    ([0xC6#8, 0xC7#8].contains op && ext != 0#3) ||
    ([0xF6#8, 0xF7#8].contains op && ext == 1#3) ||
    (op == 0xFE#8 && ext != 0#3 && ext != 1#3) ||
    (op == 0xFF#8 && ext == 7#3)
  | .group0F op ext =>
    (op == 0x00#8 && (ext == 6#3 || ext == 7#3)) ||
    (op == 0x01#8 && (ext == 5#3 || ext == 7#3)) ||
    (op == 0xBA#8 && (ext == 0#3 || ext == 1#3 || ext == 2#3 || ext == 3#3))
  | .escape op => !escapeListed op
  | .leaReg m => m &&& 0xC0#8 == 0xC0#8

/-- CS is pushed (`0E`) but `0F` is no POP (30_encoding.md R120). -/
def Seg.popWf : Seg → Bool
  | .cs => false
  | .ss => true
  | .ds => true
  | .es => true
  | .fs => true
  | .gs => true

/-- The instruction terms that have an encoding. -/
def Instr.wf : Instr → Bool
  | .add f | .or f | .adc f | .sbb f | .and f | .sub f | .xor f | .cmp f => f.wf
  | .inc f | .dec f => f.wf
  | .neg _ e | .not _ e | .mul _ e | .imul1 _ e | .div _ e | .idiv _ e => e.wf
  | .test f => f.wf
  | .imul2 _ _ e => e.wf
  | .imul3 f => f.wf
  | .mov f => f.wf
  | .xchg f => f.wf
  | .push f => f.wf
  | .pop f => f.wf
  | .movsx f | .movzx f => f.wf
  | .bt f | .bts f | .btr f | .btc f => f.wf
  | .bsf _ _ e | .bsr _ _ e => e.wf
  | .seto e | .setno e | .setb e | .setae e | .sete e | .setne e | .setbe e | .seta e => e.wf
  | .sets e | .setns e | .setp e | .setnp e | .setl e | .setge e | .setle e | .setg e => e.wf
  | .rol _ e _ | .ror _ e _ | .rcl _ e _ | .rcr _ e _ | .shl _ e _ | .shr _ e _ | .sar _ e _ => e.wf
  | .shld _ e _ _ | .shrd _ e _ _ => e.wf
  | .jmpInd e | .callInd e => e.wf
  | .lea _ _ m => m.wf
  | .popSeg s => s.popWf
  | .undefined u => u.wf
  | .daa | .das | .aaa | .aas => true
  | .cbw | .cwde | .cwd | .cdq => true
  | .jmpRel _ | .callRel _ => true
  | .jo _ | .jno _ | .jb _ | .jae _ | .je _ | .jne _ | .jbe _ | .ja _ => true
  | .js _ | .jns _ | .jp _ | .jnp _ | .jl _ | .jge _ | .jle _ | .jg _ => true
  | .ret | .retImm _ | .loopne _ | .loope _ | .loop _ | .jecxz _ => true
  | .int3 | .int _ | .into => true
  | .movsb _ | .movsd _ _ | .cmpsb _ | .cmpsd _ _ | .stosb | .stosd _ => true
  | .lodsb _ | .lodsd _ _ | .scasb | .scasd _ => true
  | .rep _ | .repe _ | .repne _ => true
  | .enter _ _ | .leave => true
  | .clc | .stc | .cmc | .cld | .std | .lahf | .sahf | .pushf | .pushfd | .popf | .popfd => true
  | .wait | .nop | .xlat _ => true
  | .pushSeg _ | .movSeg _ | .les | .lds | .lss | .lfs | .lgs | .callFar _ | .jmpFar _ | .retFar _ => true
  | .arpl | .sldt | .str | .lldt | .ltr | .verr | .verw | .sgdt | .sidt | .lgdt | .lidt | .smsw | .lmsw => true
  | .lar | .lsl | .clts | .movSys _ | .iret | .cli | .sti | .hlt => true
  | .inPort _ | .outPort _ | .insb | .insd | .outsb | .outsd => true
  | .pusha | .popa | .bound | .aam | .aad => true
  | .esc _ | .aliasOf80 | .undocumented _ => true
  | .prefixEs | .prefixCs | .prefixSs | .prefixDs | .prefixFs | .prefixGs => true
  | .opsize | .addrsize | .lock | .repMisused | .repneMisused => true

end Sys2Proof
end

