-- ==== Sys2Proof/Decode.lean ====
section
/-! DEFINITION. The decoder, total on any bytes (spec/30_encoding.md), and after it the encoder. Every numeric encoding
is the spec's R100: general knowledge, tabulated in R103, R110, R111, R115 and R120 to R122. -/

namespace Sys2Proof

/-! ### Fields -/

/-- The register a 3-bit number names (30_encoding.md R114, 10_state.md R20). -/
def GReg.ofNum (n : BitVec 3) : GReg :=
  match n.toNat with
  | 0 => .eax
  | 1 => .ecx
  | 2 => .edx
  | 3 => .ebx
  | 4 => .esp
  | 5 => .ebp
  | 6 => .esi
  | _ => .edi

/-- The number of a register. -/
def GReg.num : GReg → BitVec 3
  | .eax => 0#3
  | .ecx => 1#3
  | .edx => 2#3
  | .ebx => 3#3
  | .esp => 4#3
  | .ebp => 5#3
  | .esi => 6#3
  | .edi => 7#3

/-- The scale factor of the SIB field `ss`: 2^ss (R110). -/
def Scale.ofNum (n : BitVec 2) : Scale :=
  match n.toNat with
  | 0 => .x1
  | 1 => .x2
  | 2 => .x4
  | _ => .x8

def Scale.num : Scale → BitVec 2
  | .x1 => 0#2
  | .x2 => 1#2
  | .x4 => 2#2
  | .x8 => 3#2

/-- Bits 7:6 of a modR/M or SIB byte: `mod`, `ss` (R110). -/
def fieldHi (b : Byte) : BitVec 2 := b.extractLsb' 6 2

/-- Bits 5:3 of a modR/M or SIB byte: `reg`, `index` (R110). -/
def fieldMid (b : Byte) : BitVec 3 := b.extractLsb' 3 3

/-- Bits 2:0 of a modR/M or SIB byte, or of a `+r` opcode: `rm`, `base`, register number (R110, R114). -/
def fieldLo (b : Byte) : BitVec 3 := b.extractLsb' 0 3

/-- The byte with those three fields. -/
def fieldsByte (hi : BitVec 2) (mid lo : BitVec 3) : Byte := hi ++ mid ++ lo

/-- Little-endian composition of an immediate or displacement (R112, R115). -/
def le16 (b0 b1 : Byte) : BitVec 16 := b1 ++ b0

def le32 (b0 b1 b2 b3 : Byte) : Word := b3 ++ b2 ++ b1 ++ b0

/-- The bytes of a 16-bit immediate, low byte first. -/
def bytes16 (v : BitVec 16) : List Byte := [v.extractLsb' 0 8, v.extractLsb' 8 8]

/-- The bytes of a 32-bit immediate or displacement, low byte first. -/
def bytes32 (v : Word) : List Byte :=
  [v.extractLsb' 0 8, v.extractLsb' 8 8, v.extractLsb' 16 8, v.extractLsb' 24 8]

/-! ### Reading operands -/

def read16 : List Byte → Option (BitVec 16 × List Byte)
  | b0 :: b1 :: bs => some (le16 b0 b1, bs)
  | _ => none

def read32 : List Byte → Option (Word × List Byte)
  | b0 :: b1 :: b2 :: b3 :: bs => some (le32 b0 b1 b2 b3, bs)
  | _ => none

/-- An immediate of the operand width: `Ib` or `Iv` (R115). -/
def readImm (z : Size) (bs : List Byte) : Option (BitVec z.bits × List Byte) :=
  match z with
  | .byte =>
    match bs with
    | b :: bs => some (b, bs)
    | [] => none
  | .word => read16 bs
  | .dword => read32 bs

/-- The base and displacement of an addressing form (R111), from `mod` and the base number (`rm`, or the SIB base). -/
def readAddr (ovr : Option Seg) (md : BitVec 2) (base : BitVec 3) (index : Option (GReg × Scale)) (bs : List Byte) :
    Option (MemOp × List Byte) :=
  if md = 0#2 then
    if base = 5#3 then
      match read32 bs with
      | some (d, bs) => some (⟨ovr, none, index, .d32 d⟩, bs)
      | none => none
    else some (⟨ovr, some (GReg.ofNum base), index, .none⟩, bs)
  else if md = 1#2 then
    match bs with
    | d :: bs => some (⟨ovr, some (GReg.ofNum base), index, .d8 d⟩, bs)
    | [] => none
  else
    match read32 bs with
    | some (d, bs) => some (⟨ovr, some (GReg.ofNum base), index, .d32 d⟩, bs)
    | none => none

/-- The index of a SIB byte: `100` means none, and `ss` is then ignored (R111). -/
def sibIndex (sib : Byte) : Option (GReg × Scale) :=
  if fieldMid sib = 4#3 then none else some (GReg.ofNum (fieldMid sib), Scale.ofNum (fieldHi sib))

/-- A modR/M byte with what follows it: its `reg` field, the `E` operand, the rest (R110, R111). -/
def readRM (ovr : Option Seg) (bs : List Byte) : Option (BitVec 3 × RM × List Byte) :=
  match bs with
  | [] => none
  | m :: bs =>
    if fieldHi m = 3#2 then some (fieldMid m, .reg (GReg.ofNum (fieldLo m)), bs)
    else if fieldLo m = 4#3 then
      match bs with
      | [] => none
      | sib :: bs =>
        match readAddr ovr (fieldHi m) (fieldLo sib) (sibIndex sib) bs with
        | some (a, bs) => some (fieldMid m, .mem a, bs)
        | none => none
    else
      match readAddr ovr (fieldHi m) (fieldLo m) none bs with
      | some (a, bs) => some (fieldMid m, .mem a, bs)
      | none => none

/-! ### Prefixes (R103) -/

/-- The two repeat prefixes: `F3` (REP, REPE) and `F2` (REPNE). -/
inductive RepPfx where
  | f3 | f2
deriving DecidableEq, Repr

/-- The prefixes in front of an opcode, at most one of each group. -/
structure Pfx where
  rep : Option RepPfx
  seg : Option Seg
  op16 : Bool
deriving DecidableEq, Repr

/-- No prefix. -/
def Pfx.none : Pfx := ⟨Option.none, Option.none, false⟩

/-- The width of a `v` form under these prefixes (R104). -/
def Pfx.v (p : Pfx) : VSize := if p.op16 then .v16 else .v32

/-- The prefix bytes (R103). -/
inductive PfxKind where
  | rep (r : RepPfx)
  | seg (s : Seg)
  | op16
  | addr
  | lock
deriving DecidableEq, Repr

/-- Which prefix a byte is, if any (R103). -/
def pfxKind (b : Byte) : Option PfxKind :=
  match b.toNat with
  | 0xF3 => some (.rep .f3)
  | 0xF2 => some (.rep .f2)
  | 0xF0 => some .lock
  | 0x2E => some (.seg .cs)
  | 0x36 => some (.seg .ss)
  | 0x3E => some (.seg .ds)
  | 0x26 => some (.seg .es)
  | 0x64 => some (.seg .fs)
  | 0x65 => some (.seg .gs)
  | 0x66 => some .op16
  | 0x67 => some .addr
  | _ => none

/-- The instruction a segment-override prefix is where it is not admitted. -/
def segMisused : Seg → Instr
  | .cs => .prefixCs
  | .ss => .prefixSs
  | .ds => .prefixDs
  | .es => .prefixEs
  | .fs => .prefixFs
  | .gs => .prefixGs

/-- The instruction a repeat prefix is where it is not admitted. -/
def repMisusedOf : RepPfx → Instr
  | .f3 => .repMisused
  | .f2 => .repneMisused

/-- What stands at the front of the bytes. -/
inductive Scanned where
  /-- The bytes end before an opcode. -/
  | more
  /-- A prefix that is never admitted, or a second one of its group (R103, R105). -/
  | bad (i : Instr) (rest : List Byte)
  /-- Prefixes, the first opcode byte, the rest. -/
  | opcode (p : Pfx) (op : Byte) (rest : List Byte)

/-- Strip the prefixes, in any order, at most one of each group (R103). -/
def scanPrefixes (p : Pfx) : List Byte → Scanned
  | [] => .more
  | b :: bs =>
    match pfxKind b with
    | none => .opcode p b bs
    | some (.rep r) => if p.rep.isSome then .bad (repMisusedOf r) bs else scanPrefixes { p with rep := some r } bs
    | some (.seg s) => if p.seg.isSome then .bad (segMisused s) bs else scanPrefixes { p with seg := some s } bs
    | some .op16 => if p.op16 then .bad .opsize bs else scanPrefixes { p with op16 := true } bs
    | some .addr => .bad .addrsize bs
    | some .lock => .bad .lock bs

/-! ### Rows of the opcode maps -/

/-- An instruction read from its bytes, with the prefixes its row admits (R128: `rep`, `prefix66`, `segovr`). -/
structure Parsed where
  instr : Instr
  rest : List Byte
  rep : Bool
  op16 : Bool
  seg : Bool

/-- Reads one row: the prefixes, the opcode byte that selected it, the bytes after that byte. -/
abbrev Body := Pfx → Byte → List Byte → Option Parsed

/-- A row of an opcode map: it is selected when `op AND mask = pat` (R128). -/
structure Row where
  mask : Byte
  pat : Byte
  body : Body

/-- A row for one opcode byte. -/
def Row.at (op : Byte) (body : Body) : Row := ⟨0xFF#8, op, body⟩

/-- The body of the first row that a byte selects. -/
def findBody : List Row → Byte → Option Body
  | [], _ => none
  | r :: rs, op => if op &&& r.mask == r.pat then some r.body else findBody rs op

/-- A refused row: it ends the decoding whatever prefixes precede it (R128). -/
def refusedBody (i : Instr) : Body := fun _ _ bs => some ⟨i, bs, true, true, true⟩

/-- A row without operand bytes that admits no prefix. -/
def plainBody (i : Instr) : Body := fun _ _ bs => some ⟨i, bs, false, false, false⟩

/-- A row whose instruction depends on the operand-size prefix and on nothing else. -/
def sizedBody (mk : VSize → Instr) : Body := fun p _ bs => some ⟨mk p.v, bs, false, true, false⟩

/-- A `+r` row of `v` width. -/
def plusRegBody (mk : VSize → GReg → Instr) : Body :=
  fun p op bs => some ⟨mk p.v (GReg.ofNum (fieldLo op)), bs, false, true, false⟩

/-- Is the operand in memory (mod ≠ 11)? Then a segment override is admitted (R106). -/
def RM.isMem : RM → Bool
  | .reg _ => false
  | .mem _ => true

/-- The operand-size prefix is admitted on the `v` forms, not on the byte forms (R104). -/
def Size.admits16 : Size → Bool
  | .byte => false
  | .word => true
  | .dword => true

/-- A modR/M row whose `reg` field is a register or is ignored. -/
def rmBody (z : Pfx → Size) (mk : Size → RM → GReg → Instr) : Body := fun p _ bs =>
  match readRM p.seg bs with
  | some (x, e, bs) => some ⟨mk (z p) e (GReg.ofNum x), bs, false, (z p).admits16, e.isMem⟩
  | none => none

/-- As `rmBody`, of a `v` form. -/
def rmvBody (mk : VSize → RM → GReg → Instr) : Body := fun p _ bs =>
  match readRM p.seg bs with
  | some (x, e, bs) => some ⟨mk p.v e (GReg.ofNum x), bs, false, true, e.isMem⟩
  | none => none

/-- A modR/M row that does not allow the operand-size prefix and ignores the `reg` field, or names a register by it. -/
def rmNo16Body (mk : RM → GReg → Instr) : Body := fun p _ bs =>
  match readRM p.seg bs with
  | some (x, e, bs) => some ⟨mk e (GReg.ofNum x), bs, false, false, e.isMem⟩
  | none => none

/-- A modR/M row of a `v` form with an immediate of the operand width after it. -/
def rmvImmBody (mk : (v : VSize) → RM → GReg → BitVec v.size.bits → Instr) : Body := fun p _ bs =>
  match readRM p.seg bs with
  | some (x, e, bs) =>
    match readImm p.v.size bs with
    | some (i, bs) => some ⟨mk p.v e (GReg.ofNum x) i, bs, false, true, e.isMem⟩
    | none => none
  | none => none

/-- A modR/M row of a `v` form with an immediate byte after it. -/
def rmvByteBody (mk : VSize → RM → GReg → Byte → Instr) : Body := fun p _ bs =>
  match readRM p.seg bs with
  | some (x, e, i :: bs) => some ⟨mk p.v e (GReg.ofNum x) i, bs, false, true, e.isMem⟩
  | _ => none

/-- A row with an immediate of the operand width and no modR/M byte. -/
def immBody (z : Pfx → Size) (mk : (z : Size) → BitVec z.bits → Instr) : Body := fun p _ bs =>
  match readImm (z p) bs with
  | some (i, bs) => some ⟨mk (z p) i, bs, false, (z p).admits16, false⟩
  | none => none

/-- As `immBody`, of a `v` form. -/
def immVBody (mk : (v : VSize) → BitVec v.size.bits → Instr) : Body := fun p _ bs =>
  match readImm p.v.size bs with
  | some (i, bs) => some ⟨mk p.v i, bs, false, true, false⟩
  | none => none

/-- A `+r` row with an immediate of the operand width. -/
def plusRegImmBody (z : Pfx → Size) (mk : (z : Size) → GReg → BitVec z.bits → Instr) : Body := fun p op bs =>
  match readImm (z p) bs with
  | some (i, bs) => some ⟨mk (z p) (GReg.ofNum (fieldLo op)) i, bs, false, (z p).admits16, false⟩
  | none => none

/-- A row with an immediate byte; `op16` says whether the operand-size prefix is admitted. -/
def byteBody (op16 : Bool) (mk : VSize → Byte → Instr) : Body := fun p _ bs =>
  match bs with
  | i :: bs => some ⟨mk p.v i, bs, false, op16, false⟩
  | [] => none

/-- A row with a 16-bit immediate (RET Iw). -/
def imm16Body (mk : BitVec 16 → Instr) : Body := fun _ _ bs =>
  match read16 bs with
  | some (i, bs) => some ⟨mk i, bs, false, false, false⟩
  | none => none

/-- A row with a 32-bit branch displacement (R115 `Jv`). -/
def jvBody (mk : Word → Instr) : Body := fun _ _ bs =>
  match read32 bs with
  | some (d, bs) => some ⟨mk d, bs, false, false, false⟩
  | none => none

/-- ENTER: a 16-bit and then an 8-bit immediate (R102). -/
def enterBody : Body := fun _ _ bs =>
  match read16 bs with
  | some (n, l :: bs) => some ⟨.enter n l, bs, false, false, false⟩
  | _ => none

/-- A moffs row: a 32-bit offset (R116). -/
def moffsBody (z : Pfx → Size) (mk : Size → Option Seg → Word → Instr) : Body := fun p _ bs =>
  match read32 bs with
  | some (off, bs) => some ⟨mk (z p) p.seg off, bs, false, (z p).admits16, true⟩
  | none => none

/-- A row of a string primitive (R103, R381): alone, or under the repeat prefix its row admits; `seg` says whether it
has an element at `seg:[ESI]`. -/
def strBody (z : Pfx → Size) (seg : Bool) (alone : Pfx → Instr) (rep repne : Size → Option Seg → Option Instr) : Body :=
  fun p _ bs =>
    match p.rep with
    | none => some ⟨alone p, bs, false, (z p).admits16, seg⟩
    | some .f3 =>
      match rep (z p) p.seg with
      | some i => some ⟨i, bs, true, (z p).admits16, seg⟩
      | none => some ⟨alone p, bs, false, (z p).admits16, seg⟩
    | some .f2 =>
      match repne (z p) p.seg with
      | some i => some ⟨i, bs, true, (z p).admits16, seg⟩
      | none => some ⟨alone p, bs, false, (z p).admits16, seg⟩

/-- A group row (R122): the `reg` field of the modR/M byte selects the member. -/
def groupBody (member : BitVec 3 → Body) : Body := fun p op bs =>
  match bs with
  | [] => none
  | m :: _ => member (fieldMid m) p op bs

/-- Byte width. -/
def zB : Pfx → Size := fun _ => .byte

/-- The `v` width. -/
def zV : Pfx → Size := fun p => p.v.size

/-! ### Groups (R122) -/

/-- A group member with an `E` operand only. -/
def memberRM (z : Pfx → Size) (mk : Size → RM → Instr) : Body := rmBody z fun z e _ => mk z e

/-- A group member with an `E` operand and an immediate of its width. -/
def memberImm (z : Pfx → Size) (mk : (z : Size) → RM → BitVec z.bits → Instr) : Body := fun p _ bs =>
  match readRM p.seg bs with
  | some (_, e, bs) =>
    match readImm (z p) bs with
    | some (i, bs) => some ⟨mk (z p) e i, bs, false, (z p).admits16, e.isMem⟩
    | none => none
  | none => none

/-- A group member with an `E` operand and an immediate byte. -/
def memberByte (z : Pfx → Size) (mk : Size → RM → Byte → Instr) : Body := fun p _ bs =>
  match readRM p.seg bs with
  | some (_, e, i :: bs) => some ⟨mk (z p) e i, bs, false, (z p).admits16, e.isMem⟩
  | _ => none

/-- Group 1: ADD OR ADC SBB AND SUB XOR CMP. -/
def group1 (x : BitVec 3) (f : AluForm) : Instr :=
  match x.toNat with
  | 0 => .add f
  | 1 => .or f
  | 2 => .adc f
  | 3 => .sbb f
  | 4 => .and f
  | 5 => .sub f
  | 6 => .xor f
  | _ => .cmp f

/-- Group 2: ROL ROR RCL RCR SHL SHR, undefined, SAR. -/
def group2 (x : BitVec 3) : Option (Size → RM → Count → Instr) :=
  match x.toNat with
  | 0 => some .rol
  | 1 => some .ror
  | 2 => some .rcl
  | 3 => some .rcr
  | 4 => some .shl
  | 5 => some .shr
  | 6 => none
  | _ => some .sar

/-- The undefined member of a one-byte group. -/
def undefMember (x : BitVec 3) : Body := fun p op bs => refusedBody (.undefined (.group op x)) p op (bs.drop 1)

/-- The undefined member of a two-byte group. -/
def undefMember0F (x : BitVec 3) : Body := fun p op bs => refusedBody (.undefined (.group0F op x)) p op (bs.drop 1)

/-- A refused group member: its modR/M byte is among the matched bytes (R128). -/
def refusedMember (i : Instr) : Body := fun p op bs => refusedBody i p op (bs.drop 1)

/-- A group 2 row with a fixed count (1 or CL). -/
def group2Body (z : Pfx → Size) (c : Count) : Body := groupBody fun x =>
  match group2 x with
  | none => undefMember x
  | some mk => memberRM z fun z e => mk z e c

/-- A group 2 row with an immediate count. -/
def group2ImmBody (z : Pfx → Size) : Body := groupBody fun x =>
  match group2 x with
  | none => undefMember x
  | some mk => memberByte z fun z e i => mk z e (.imm i)

/-- Group 3 (`F6`, `F7`). -/
def group3Body (z : Pfx → Size) : Body := groupBody fun x =>
  match x.toNat with
  | 0 => memberImm z fun z e i => .test (.rmImm z e i)
  | 1 => undefMember x
  | 2 => memberRM z fun z e => .not z e
  | 3 => memberRM z fun z e => .neg z e
  | 4 => memberRM z fun z e => .mul z e
  | 5 => memberRM z fun z e => .imul1 z e
  | 6 => memberRM z fun z e => .div z e
  | _ => memberRM z fun z e => .idiv z e

/-- Group 4 (`FE`). -/
def group4Body : Body := groupBody fun x =>
  match x.toNat with
  | 0 => memberRM zB fun z e => .inc (.rm z e)
  | 1 => memberRM zB fun z e => .dec (.rm z e)
  | _ => undefMember x

/-- Group 5 (`FF`). -/
def group5Body : Body := groupBody fun x =>
  match x.toNat with
  | 0 => memberRM zV fun z e => .inc (.rm z e)
  | 1 => memberRM zV fun z e => .dec (.rm z e)
  | 2 => rmNo16Body fun e _ => .callInd e
  | 3 => refusedMember (.callFar .mp)
  | 4 => rmNo16Body fun e _ => .jmpInd e
  | 5 => refusedMember (.jmpFar .mp)
  | 6 => rmvBody fun v e _ => .push (.rm v e)
  | _ => undefMember x

/-- Group 6 (`0F 00`): the rows `0F 00` of spec/opcode_table.json, `/6` and `/7` among its undefined rows. -/
def group6Body : Body := groupBody fun x =>
  match x.toNat with
  | 0 => refusedMember .sldt
  | 1 => refusedMember .str
  | 2 => refusedMember .lldt
  | 3 => refusedMember .ltr
  | 4 => refusedMember .verr
  | 5 => refusedMember .verw
  | _ => undefMember0F x

/-- Group 7 (`0F 01`): the rows `0F 01` of spec/opcode_table.json, `/5` and `/7` among its undefined rows. -/
def group7Body : Body := groupBody fun x =>
  match x.toNat with
  | 0 => refusedMember .sgdt
  | 1 => refusedMember .sidt
  | 2 => refusedMember .lgdt
  | 3 => refusedMember .lidt
  | 4 => refusedMember .smsw
  | 6 => refusedMember .lmsw
  | _ => undefMember0F x

/-- Group 8 (`0F BA`). -/
def group8Body : Body := groupBody fun x =>
  match x.toNat with
  | 4 => rmvByteBody fun v e _ i => .bt (.imm v e i)
  | 5 => rmvByteBody fun v e _ i => .bts (.imm v e i)
  | 6 => rmvByteBody fun v e _ i => .btr (.imm v e i)
  | 7 => rmvByteBody fun v e _ i => .btc (.imm v e i)
  | _ => undefMember0F x

/-- Group 11 (`C6`, `C7`). -/
def group11Body (z : Pfx → Size) : Body := groupBody fun x =>
  if x = 0#3 then memberImm z fun z e i => .mov (.rmImm z e i) else undefMember x

/-- Group 1A (`8F`). -/
def group1ABody : Body := groupBody fun x =>
  if x = 0#3 then rmvBody fun v e _ => .pop (.rm v e) else undefMember x

/-- LEA (`8D`): mod = 11 is undefined (R125, 49_coprocessor_segment_misc.md R450). -/
def leaBody : Body := fun p op bs =>
  match bs with
  | [] => none
  | m :: rest =>
    if fieldHi m = 3#2 then refusedBody (.undefined (.leaReg m)) p op rest
    else
      match readRM p.seg bs with
      | some (x, .mem a, bs) => some ⟨.lea p.v (GReg.ofNum x) a, bs, false, true, true⟩
      | _ => none

/-! ### The one-byte opcode map (R120) -/

/-- The six forms of a two-operand arithmetic or logical instruction. -/
def aluRows (b : Byte) (mk : AluForm → Instr) : List Row := [
  .at b (rmBody zB fun z e g => mk (.rmReg z e g)),
  .at (b + 1#8) (rmBody zV fun z e g => mk (.rmReg z e g)),
  .at (b + 2#8) (rmBody zB fun z e g => mk (.regRm z g e)),
  .at (b + 3#8) (rmBody zV fun z e g => mk (.regRm z g e)),
  .at (b + 4#8) (immBody zB fun z i => mk (.accImm z i)),
  .at (b + 5#8) (immBody zV fun z i => mk (.accImm z i))]

/-- `00` to `3F`. -/
def rows00 : List Row :=
  aluRows 0x00#8 .add ++ aluRows 0x08#8 .or ++ aluRows 0x10#8 .adc ++ aluRows 0x18#8 .sbb ++
  aluRows 0x20#8 .and ++ aluRows 0x28#8 .sub ++ aluRows 0x30#8 .xor ++ aluRows 0x38#8 .cmp ++ [
  .at 0x06#8 (refusedBody (.pushSeg .es)),
  .at 0x07#8 (refusedBody (.popSeg .es)),
  .at 0x0E#8 (refusedBody (.pushSeg .cs)),
  .at 0x16#8 (refusedBody (.pushSeg .ss)),
  .at 0x17#8 (refusedBody (.popSeg .ss)),
  .at 0x1E#8 (refusedBody (.pushSeg .ds)),
  .at 0x1F#8 (refusedBody (.popSeg .ds)),
  .at 0x27#8 (plainBody .daa),
  .at 0x2F#8 (plainBody .das),
  .at 0x37#8 (plainBody .aaa),
  .at 0x3F#8 (plainBody .aas)]

/-- `40` to `7F`. -/
def rows40 : List Row := [
  ⟨0xF8#8, 0x40#8, plusRegBody fun v g => .inc (.reg v g)⟩,
  ⟨0xF8#8, 0x48#8, plusRegBody fun v g => .dec (.reg v g)⟩,
  ⟨0xF8#8, 0x50#8, plusRegBody fun v g => .push (.reg v g)⟩,
  ⟨0xF8#8, 0x58#8, plusRegBody fun v g => .pop (.reg v g)⟩,
  .at 0x60#8 (refusedBody .pusha),
  .at 0x61#8 (refusedBody .popa),
  .at 0x62#8 (refusedBody .bound),
  .at 0x63#8 (refusedBody .arpl),
  .at 0x68#8 (immVBody fun v i => .push (.imm v i)),
  .at 0x69#8 (rmvImmBody fun v e g i => .imul3 (.imm v g e i)),
  .at 0x6A#8 (byteBody true fun v i => .push (.imm8s v i)),
  .at 0x6B#8 (rmvByteBody fun v e g i => .imul3 (.imm8s v g e i)),
  .at 0x6C#8 (refusedBody .insb),
  .at 0x6D#8 (refusedBody .insd),
  .at 0x6E#8 (refusedBody .outsb),
  .at 0x6F#8 (refusedBody .outsd),
  .at 0x70#8 (byteBody false fun _ d => .jo (.b d)),
  .at 0x71#8 (byteBody false fun _ d => .jno (.b d)),
  .at 0x72#8 (byteBody false fun _ d => .jb (.b d)),
  .at 0x73#8 (byteBody false fun _ d => .jae (.b d)),
  .at 0x74#8 (byteBody false fun _ d => .je (.b d)),
  .at 0x75#8 (byteBody false fun _ d => .jne (.b d)),
  .at 0x76#8 (byteBody false fun _ d => .jbe (.b d)),
  .at 0x77#8 (byteBody false fun _ d => .ja (.b d)),
  .at 0x78#8 (byteBody false fun _ d => .js (.b d)),
  .at 0x79#8 (byteBody false fun _ d => .jns (.b d)),
  .at 0x7A#8 (byteBody false fun _ d => .jp (.b d)),
  .at 0x7B#8 (byteBody false fun _ d => .jnp (.b d)),
  .at 0x7C#8 (byteBody false fun _ d => .jl (.b d)),
  .at 0x7D#8 (byteBody false fun _ d => .jge (.b d)),
  .at 0x7E#8 (byteBody false fun _ d => .jle (.b d)),
  .at 0x7F#8 (byteBody false fun _ d => .jg (.b d))]

/-- `80` to `BF`. -/
def rows80 : List Row := [
  .at 0x80#8 (groupBody fun x => memberImm zB fun z e i => group1 x (.rmImm z e i)),
  .at 0x81#8 (groupBody fun x => memberImm zV fun z e i => group1 x (.rmImm z e i)),
  .at 0x82#8 (refusedBody .aliasOf80),
  .at 0x83#8 (groupBody fun x => rmvByteBody fun v e _ i => group1 x (.rmImm8s v e i)),
  .at 0x84#8 (rmBody zB fun z e g => .test (.rmReg z e g)),
  .at 0x85#8 (rmBody zV fun z e g => .test (.rmReg z e g)),
  .at 0x86#8 (rmBody zB fun z e g => .xchg (.rmReg z e g)),
  .at 0x87#8 (rmBody zV fun z e g => .xchg (.rmReg z e g)),
  .at 0x88#8 (rmBody zB fun z e g => .mov (.rmReg z e g)),
  .at 0x89#8 (rmBody zV fun z e g => .mov (.rmReg z e g)),
  .at 0x8A#8 (rmBody zB fun z e g => .mov (.regRm z g e)),
  .at 0x8B#8 (rmBody zV fun z e g => .mov (.regRm z g e)),
  .at 0x8C#8 (refusedBody (.movSeg .fromSeg)),
  .at 0x8D#8 leaBody,
  .at 0x8E#8 (refusedBody (.movSeg .toSeg)),
  .at 0x8F#8 group1ABody,
  .at 0x90#8 (plainBody .nop),
  ⟨0xF8#8, 0x90#8, plusRegBody fun v g => .xchg (.accReg v g)⟩,
  .at 0x98#8 (sizedBody fun v => match v with | .v16 => .cbw | .v32 => .cwde),
  .at 0x99#8 (sizedBody fun v => match v with | .v16 => .cwd | .v32 => .cdq),
  .at 0x9A#8 (refusedBody (.callFar .ap)),
  .at 0x9B#8 (plainBody .wait),
  .at 0x9C#8 (sizedBody fun v => match v with | .v16 => .pushf | .v32 => .pushfd),
  .at 0x9D#8 (sizedBody fun v => match v with | .v16 => .popf | .v32 => .popfd),
  .at 0x9E#8 (plainBody .sahf),
  .at 0x9F#8 (plainBody .lahf),
  .at 0xA0#8 (moffsBody zB fun z s off => .mov (.accMoffs z s off)),
  .at 0xA1#8 (moffsBody zV fun z s off => .mov (.accMoffs z s off)),
  .at 0xA2#8 (moffsBody zB fun z s off => .mov (.moffsAcc z s off)),
  .at 0xA3#8 (moffsBody zV fun z s off => .mov (.moffsAcc z s off)),
  .at 0xA4#8 (strBody zB true (fun p => .movsb p.seg) (fun z s => some (.rep (.movs z s))) fun _ _ => none),
  .at 0xA5#8 (strBody zV true (fun p => .movsd p.v p.seg) (fun z s => some (.rep (.movs z s))) fun _ _ => none),
  .at 0xA6#8 (strBody zB true (fun p => .cmpsb p.seg) (fun z s => some (.repe (.cmps z s)))
    fun z s => some (.repne (.cmps z s))),
  .at 0xA7#8 (strBody zV true (fun p => .cmpsd p.v p.seg) (fun z s => some (.repe (.cmps z s)))
    fun z s => some (.repne (.cmps z s))),
  .at 0xA8#8 (immBody zB fun z i => .test (.accImm z i)),
  .at 0xA9#8 (immBody zV fun z i => .test (.accImm z i)),
  .at 0xAA#8 (strBody zB false (fun _ => .stosb) (fun z _ => some (.rep (.stos z))) fun _ _ => none),
  .at 0xAB#8 (strBody zV false (fun p => .stosd p.v) (fun z _ => some (.rep (.stos z))) fun _ _ => none),
  .at 0xAC#8 (strBody zB true (fun p => .lodsb p.seg) (fun z s => some (.rep (.lods z s))) fun _ _ => none),
  .at 0xAD#8 (strBody zV true (fun p => .lodsd p.v p.seg) (fun z s => some (.rep (.lods z s))) fun _ _ => none),
  .at 0xAE#8 (strBody zB false (fun _ => .scasb) (fun z _ => some (.repe (.scas z)))
    fun z _ => some (.repne (.scas z))),
  .at 0xAF#8 (strBody zV false (fun p => .scasd p.v) (fun z _ => some (.repe (.scas z)))
    fun z _ => some (.repne (.scas z))),
  ⟨0xF8#8, 0xB0#8, plusRegImmBody zB fun z g i => .mov (.regImm z g i)⟩,
  ⟨0xF8#8, 0xB8#8, plusRegImmBody zV fun z g i => .mov (.regImm z g i)⟩]

/-- `C0` to `FF`. -/
def rowsC0 : List Row := [
  .at 0xC0#8 (group2ImmBody zB),
  .at 0xC1#8 (group2ImmBody zV),
  .at 0xC2#8 (imm16Body fun n => .retImm n),
  .at 0xC3#8 (plainBody .ret),
  .at 0xC4#8 (refusedBody .les),
  .at 0xC5#8 (refusedBody .lds),
  .at 0xC6#8 (group11Body zB),
  .at 0xC7#8 (group11Body zV),
  .at 0xC8#8 enterBody,
  .at 0xC9#8 (plainBody .leave),
  .at 0xCA#8 (refusedBody (.retFar .imm)),
  .at 0xCB#8 (refusedBody (.retFar .plain)),
  .at 0xCC#8 (plainBody .int3),
  .at 0xCD#8 (byteBody false fun _ n => .int n),
  .at 0xCE#8 (plainBody .into),
  .at 0xCF#8 (refusedBody .iret),
  .at 0xD0#8 (group2Body zB .one),
  .at 0xD1#8 (group2Body zV .one),
  .at 0xD2#8 (group2Body zB .cl),
  .at 0xD3#8 (group2Body zV .cl),
  .at 0xD4#8 (refusedBody .aam),
  .at 0xD5#8 (refusedBody .aad),
  .at 0xD6#8 (refusedBody (.undocumented .d6)),
  .at 0xD7#8 (fun p _ bs => some ⟨.xlat p.seg, bs, false, false, true⟩),
  ⟨0xF8#8, 0xD8#8, fun p op bs => refusedBody (.esc (fieldLo op)) p op bs⟩,
  .at 0xE0#8 (byteBody false fun _ d => .loopne d),
  .at 0xE1#8 (byteBody false fun _ d => .loope d),
  .at 0xE2#8 (byteBody false fun _ d => .loop d),
  .at 0xE3#8 (byteBody false fun _ d => .jecxz d),
  .at 0xE4#8 (refusedBody (.inPort .immByte)),
  .at 0xE5#8 (refusedBody (.inPort .immAcc)),
  .at 0xE6#8 (refusedBody (.outPort .immByte)),
  .at 0xE7#8 (refusedBody (.outPort .immAcc)),
  .at 0xE8#8 (jvBody fun d => .callRel d),
  .at 0xE9#8 (jvBody fun d => .jmpRel (.v d)),
  .at 0xEA#8 (refusedBody (.jmpFar .ap)),
  .at 0xEB#8 (byteBody false fun _ d => .jmpRel (.b d)),
  .at 0xEC#8 (refusedBody (.inPort .dxByte)),
  .at 0xED#8 (refusedBody (.inPort .dxAcc)),
  .at 0xEE#8 (refusedBody (.outPort .dxByte)),
  .at 0xEF#8 (refusedBody (.outPort .dxAcc)),
  .at 0xF1#8 (refusedBody (.undocumented .f1)),
  .at 0xF4#8 (refusedBody .hlt),
  .at 0xF5#8 (plainBody .cmc),
  .at 0xF6#8 (group3Body zB),
  .at 0xF7#8 (group3Body zV),
  .at 0xF8#8 (plainBody .clc),
  .at 0xF9#8 (plainBody .stc),
  .at 0xFA#8 (refusedBody .cli),
  .at 0xFB#8 (refusedBody .sti),
  .at 0xFC#8 (plainBody .cld),
  .at 0xFD#8 (plainBody .std),
  .at 0xFE#8 group4Body,
  .at 0xFF#8 group5Body]

/-! ### The two-byte opcode map (R121) -/

/-- `0F 00` to `0F 8F`. -/
def rows0F00 : List Row := [
  .at 0x00#8 group6Body,
  .at 0x01#8 group7Body,
  .at 0x02#8 (refusedBody .lar),
  .at 0x03#8 (refusedBody .lsl),
  .at 0x06#8 (refusedBody .clts),
  .at 0x20#8 (refusedBody (.movSys .fromCr)),
  .at 0x21#8 (refusedBody (.movSys .fromDr)),
  .at 0x22#8 (refusedBody (.movSys .toCr)),
  .at 0x23#8 (refusedBody (.movSys .toDr)),
  .at 0x24#8 (refusedBody (.movSys .fromTr)),
  .at 0x26#8 (refusedBody (.movSys .toTr)),
  .at 0x80#8 (jvBody fun d => .jo (.v d)),
  .at 0x81#8 (jvBody fun d => .jno (.v d)),
  .at 0x82#8 (jvBody fun d => .jb (.v d)),
  .at 0x83#8 (jvBody fun d => .jae (.v d)),
  .at 0x84#8 (jvBody fun d => .je (.v d)),
  .at 0x85#8 (jvBody fun d => .jne (.v d)),
  .at 0x86#8 (jvBody fun d => .jbe (.v d)),
  .at 0x87#8 (jvBody fun d => .ja (.v d)),
  .at 0x88#8 (jvBody fun d => .js (.v d)),
  .at 0x89#8 (jvBody fun d => .jns (.v d)),
  .at 0x8A#8 (jvBody fun d => .jp (.v d)),
  .at 0x8B#8 (jvBody fun d => .jnp (.v d)),
  .at 0x8C#8 (jvBody fun d => .jl (.v d)),
  .at 0x8D#8 (jvBody fun d => .jge (.v d)),
  .at 0x8E#8 (jvBody fun d => .jle (.v d)),
  .at 0x8F#8 (jvBody fun d => .jg (.v d))]

/-- `0F 90` to `0F FF`; the `reg` field of SETcc is ignored (R125). -/
def rows0F90 : List Row := [
  .at 0x90#8 (rmNo16Body fun e _ => .seto e),
  .at 0x91#8 (rmNo16Body fun e _ => .setno e),
  .at 0x92#8 (rmNo16Body fun e _ => .setb e),
  .at 0x93#8 (rmNo16Body fun e _ => .setae e),
  .at 0x94#8 (rmNo16Body fun e _ => .sete e),
  .at 0x95#8 (rmNo16Body fun e _ => .setne e),
  .at 0x96#8 (rmNo16Body fun e _ => .setbe e),
  .at 0x97#8 (rmNo16Body fun e _ => .seta e),
  .at 0x98#8 (rmNo16Body fun e _ => .sets e),
  .at 0x99#8 (rmNo16Body fun e _ => .setns e),
  .at 0x9A#8 (rmNo16Body fun e _ => .setp e),
  .at 0x9B#8 (rmNo16Body fun e _ => .setnp e),
  .at 0x9C#8 (rmNo16Body fun e _ => .setl e),
  .at 0x9D#8 (rmNo16Body fun e _ => .setge e),
  .at 0x9E#8 (rmNo16Body fun e _ => .setle e),
  .at 0x9F#8 (rmNo16Body fun e _ => .setg e),
  .at 0xA0#8 (refusedBody (.pushSeg .fs)),
  .at 0xA1#8 (refusedBody (.popSeg .fs)),
  .at 0xA3#8 (rmvBody fun v e g => .bt (.reg v e g)),
  .at 0xA4#8 (rmvByteBody fun v e g i => .shld v e g (.imm i)),
  .at 0xA5#8 (rmvBody fun v e g => .shld v e g .cl),
  .at 0xA8#8 (refusedBody (.pushSeg .gs)),
  .at 0xA9#8 (refusedBody (.popSeg .gs)),
  .at 0xAB#8 (rmvBody fun v e g => .bts (.reg v e g)),
  .at 0xAC#8 (rmvByteBody fun v e g i => .shrd v e g (.imm i)),
  .at 0xAD#8 (rmvBody fun v e g => .shrd v e g .cl),
  .at 0xAF#8 (rmvBody fun v e g => .imul2 v g e),
  .at 0xB2#8 (refusedBody .lss),
  .at 0xB3#8 (rmvBody fun v e g => .btr (.reg v e g)),
  .at 0xB4#8 (refusedBody .lfs),
  .at 0xB5#8 (refusedBody .lgs),
  .at 0xB6#8 (rmvBody fun v e g => .movzx (.byte v g e)),
  .at 0xB7#8 (rmNo16Body fun e g => .movzx (.word g e)),
  .at 0xBA#8 group8Body,
  .at 0xBB#8 (rmvBody fun v e g => .btc (.reg v e g)),
  .at 0xBC#8 (rmvBody fun v e g => .bsf v g e),
  .at 0xBD#8 (rmvBody fun v e g => .bsr v g e),
  .at 0xBE#8 (rmvBody fun v e g => .movsx (.byte v g e)),
  .at 0xBF#8 (rmNo16Body fun e g => .movsx (.word g e))]

/-- The body that a first opcode byte selects; `0F` escapes to the two-byte map, and a second byte that R121 does not
list is undefined, the bytes after it not decoded. Every first byte that is no prefix and not `0F` selects a row. -/
def bodyOf (op : Byte) : Body :=
  if op = 0x0F#8 then fun p _ bs =>
    match bs with
    | [] => none
    | op2 :: bs =>
      ((findBody (rows0F00 ++ rows0F90) op2).getD (refusedBody (.undefined (.escape op2)))) p op2 bs
  else (findBody (rows00 ++ rows40 ++ rows80 ++ rowsC0) op).getD (refusedBody (.undefined (.escape op)))

/-! ### The decoder -/

/-- The instruction, unless a prefix stands before it that its row does not allow (R103 to R106): then that prefix. -/
def checkPrefixes (p : Pfx) (d : Parsed) : Instr :=
  match p.rep, d.rep with
  | some r, false => repMisusedOf r
  | _, _ =>
    if p.op16 && !d.op16 then .opsize
    else
      match p.seg, d.seg with
      | some s, false => segMisused s
      | _, _ => d.instr

/-- The instruction at the front of the bytes and its length in bytes; `none` when more bytes are needed. -/
def decode (bs : List Byte) : Option (Instr × Nat) :=
  match scanPrefixes .none bs with
  | .more => none
  | .bad i rest => some (i, bs.length - rest.length)
  | .opcode p op rest =>
    match bodyOf op p op rest with
    | none => none
    | some d => some (checkPrefixes p d, bs.length - d.rest.length)

/-- The first `n` bytes of a number, least significant first. -/
def bytesOfNat : Nat → Nat → List Byte
  | 0, _ => []
  | n + 1, w => BitVec.ofNat 8 w :: bytesOfNat n (w / 256)

/-- The instruction the decoder reads from the low `nbits` bits of `w`, bit 0 in the first byte, zero bytes after them. -/
def decodeTableWord (nbits w : Nat) : Option Instr :=
  match decode (bytesOfNat 15 (w % 2 ^ nbits)) with
  | some (i, _) => some i
  | none => none

/-! ### The encoder

One canonical spelling of each term (log 21): prefixes in the order repeat, segment, operand size; a SIB byte only
where an index or ESP as base needs one, with `ss` = 0 and `index` = 100 for no index; the `reg` field of SETcc, of
one-operand groups the group member. -/

def segByte : Seg → Byte
  | .cs => 0x2E#8
  | .ss => 0x36#8
  | .ds => 0x3E#8
  | .es => 0x26#8
  | .fs => 0x64#8
  | .gs => 0x65#8

/-- The segment-override prefix of an operand. -/
def encSeg : Option Seg → List Byte
  | none => []
  | some s => [segByte s]

/-- The operand-size prefix a width needs in a `v` form. -/
def Size.encPfx : Size → List Byte
  | .byte => []
  | .word => [0x66#8]
  | .dword => []

/-- The low opcode bit: 0 for the byte form, 1 for the `v` form. -/
def Size.opBit : Size → Byte
  | .byte => 0#8
  | .word => 1#8
  | .dword => 1#8

/-- The segment override an `E` operand carries. -/
def RM.ovr : RM → Option Seg
  | .reg _ => none
  | .mem m => m.ovr

/-- The prefixes of a modR/M form: segment override, operand size. -/
def encPre (o : Option Seg) (z : Size) : List Byte := encSeg o ++ z.encPfx

/-- The displacement and the `mod` field that announces it (R111). -/
def MemOp.encDisp (m : MemOp) : BitVec 2 × List Byte :=
  match m.disp with
  | .none => (0#2, [])
  | .d8 d => (1#2, [d])
  | .d32 d =>
    match m.base with
    | none => (0#2, bytes32 d)
    | some _ => (2#2, bytes32 d)

/-- The base number: 101 with mod = 00 means no base (R111). -/
def MemOp.baseNum (m : MemOp) : BitVec 3 :=
  match m.base with
  | none => 5#3
  | some b => b.num

/-- The `E` operand with the `reg` field `x`: modR/M, SIB, displacement (R110, R111). -/
def encRM (x : BitVec 3) : RM → List Byte
  | .reg r => [fieldsByte 3#2 x r.num]
  | .mem m =>
    match m.index with
    | some (i, sc) => fieldsByte m.encDisp.1 x 4#3 :: fieldsByte sc.num i.num m.baseNum :: m.encDisp.2
    | none =>
      if m.base = some .esp then fieldsByte m.encDisp.1 x 4#3 :: fieldsByte 0#2 4#3 m.baseNum :: m.encDisp.2
      else fieldsByte m.encDisp.1 x m.baseNum :: m.encDisp.2

def encImm (z : Size) (i : BitVec z.bits) : List Byte :=
  match z with
  | .byte => [i]
  | .word => bytes16 i
  | .dword => bytes32 i

/-- A modR/M form: prefixes, opcode (with the width bit), modR/M. -/
def encForm (z : Size) (op : Byte) (x : BitVec 3) (e : RM) : List Byte :=
  encPre e.ovr z ++ (op + z.opBit) :: encRM x e

/-- A modR/M form of the two-byte map and of `v` width. -/
def encForm0F (v : VSize) (op : Byte) (x : BitVec 3) (e : RM) : List Byte :=
  encPre e.ovr v.size ++ 0x0F#8 :: op :: encRM x e

/-- A modR/M form of the two-byte map without the operand-size prefix. -/
def encNo16 (op : Byte) (x : BitVec 3) (e : RM) : List Byte := encSeg e.ovr ++ 0x0F#8 :: op :: encRM x e

/-- The opcode byte of a `+r` form. -/
def plusReg (op : Byte) (g : GReg) : Byte := op + g.num.setWidth 8

/-- A two-operand form: base opcode `b`, group 1 member `x`. -/
def AluForm.enc (b : Byte) (x : BitVec 3) : AluForm → List Byte
  | .rmReg z e g => encForm z b g.num e
  | .regRm z g e => encForm z (b + 2#8) g.num e
  | .accImm z i => z.encPfx ++ (b + 4#8 + z.opBit) :: encImm z i
  | .rmImm z e i => encForm z 0x80#8 x e ++ encImm z i
  | .rmImm8s v e i => encPre e.ovr v.size ++ 0x83#8 :: encRM x e ++ [i]

def IncForm.enc (b : Byte) (x : BitVec 3) : IncForm → List Byte
  | .reg v g => v.size.encPfx ++ [plusReg b g]
  | .rm z e => encForm z 0xFE#8 x e

def TestForm.enc : TestForm → List Byte
  | .rmReg z e g => encForm z 0x84#8 g.num e
  | .accImm z i => z.encPfx ++ (0xA8#8 + z.opBit) :: encImm z i
  | .rmImm z e i => encForm z 0xF6#8 0#3 e ++ encImm z i

def MovForm.enc : MovForm → List Byte
  | .rmReg z e g => encForm z 0x88#8 g.num e
  | .regRm z g e => encForm z 0x8A#8 g.num e
  | .regImm z g i => z.encPfx ++ plusReg (match z with | .byte => 0xB0#8 | _ => 0xB8#8) g :: encImm z i
  | .rmImm z e i => encForm z 0xC6#8 0#3 e ++ encImm z i
  | .accMoffs z s off => encPre s z ++ (0xA0#8 + z.opBit) :: bytes32 off
  | .moffsAcc z s off => encPre s z ++ (0xA2#8 + z.opBit) :: bytes32 off

def XchgForm.enc : XchgForm → List Byte
  | .rmReg z e g => encForm z 0x86#8 g.num e
  | .accReg v g => v.size.encPfx ++ [plusReg 0x90#8 g]

def PushForm.enc : PushForm → List Byte
  | .reg v g => v.size.encPfx ++ [plusReg 0x50#8 g]
  | .rm v e => encPre e.ovr v.size ++ 0xFF#8 :: encRM 6#3 e
  | .imm v i => v.size.encPfx ++ 0x68#8 :: encImm v.size i
  | .imm8s v i => v.size.encPfx ++ [0x6A#8, i]

def PopForm.enc : PopForm → List Byte
  | .reg v g => v.size.encPfx ++ [plusReg 0x58#8 g]
  | .rm v e => encPre e.ovr v.size ++ 0x8F#8 :: encRM 0#3 e

def Imul3Form.enc : Imul3Form → List Byte
  | .imm v g e i => encPre e.ovr v.size ++ 0x69#8 :: encRM g.num e ++ encImm v.size i
  | .imm8s v g e i => encPre e.ovr v.size ++ 0x6B#8 :: encRM g.num e ++ [i]

def ExtForm.enc (op : Byte) : ExtForm → List Byte
  | .byte v g e => encForm0F v op g.num e
  | .word g e => encNo16 (op + 1#8) g.num e

def BitForm.enc (op : Byte) (x : BitVec 3) : BitForm → List Byte
  | .reg v e g => encForm0F v op g.num e
  | .imm v e i => encForm0F v 0xBA#8 x e ++ [i]

/-- A shift or rotate: group 2 member `x`. -/
def encShift (x : BitVec 3) (z : Size) (e : RM) : Count → List Byte
  | .imm i => encForm z 0xC0#8 x e ++ [i]
  | .one => encForm z 0xD0#8 x e
  | .cl => encForm z 0xD2#8 x e

/-- A double shift: opcode `op` with an immediate count, `op + 1` with CL. -/
def encDShift (op : Byte) (v : VSize) (e : RM) (g : GReg) : DCount → List Byte
  | .imm i => encForm0F v op g.num e ++ [i]
  | .cl => encForm0F v (op + 1#8) g.num e

/-- A conditional jump with condition number `cc` (R343). -/
def encJcc (cc : Byte) : Rel → List Byte
  | .b d => [0x70#8 + cc, d]
  | .v d => 0x0F#8 :: (0x80#8 + cc) :: bytes32 d

/-- A string primitive: the even opcode for bytes, the odd one for words and doublewords (R380). -/
def encStr (o : Option Seg) (z : Size) (op : Byte) : List Byte := encPre o z ++ [op + z.opBit]

def StrMove.enc : StrMove → List Byte
  | .movs z o => encStr o z 0xA4#8
  | .lods z o => encStr o z 0xAC#8
  | .stos z => encStr none z 0xAA#8

def StrCmp.enc : StrCmp → List Byte
  | .cmps z o => encStr o z 0xA6#8
  | .scas z => encStr none z 0xAE#8

def Seg.encPush : Seg → List Byte
  | .es => [0x06#8]
  | .cs => [0x0E#8]
  | .ss => [0x16#8]
  | .ds => [0x1E#8]
  | .fs => [0x0F#8, 0xA0#8]
  | .gs => [0x0F#8, 0xA8#8]

def Seg.encPop : Seg → List Byte
  | .es => [0x07#8]
  | .cs => []
  | .ss => [0x17#8]
  | .ds => [0x1F#8]
  | .fs => [0x0F#8, 0xA1#8]
  | .gs => [0x0F#8, 0xA9#8]

/-- The matched bytes of an undefined encoding. -/
def UndefEnc.enc : UndefEnc → List Byte
  | .group op x => [op, fieldsByte 0#2 x 0#3]
  | .group0F op x => [0x0F#8, op, fieldsByte 0#2 x 0#3]
  | .escape op => [0x0F#8, op]
  | .leaReg m => [0x8D#8, m]

/-- A refused member of group 6 or 7, as far as its matched bytes. -/
def enc0FGroup (op : Byte) (x : BitVec 3) : List Byte := [0x0F#8, op, fieldsByte 0#2 x 0#3]

/-- The bytes of an instruction. Of a refused one, the bytes its row matches (log 18); of a prefix that is not admitted,
the shortest bytes in which it is not (log 17). -/
def encode : Instr → List Byte
  | .add f => f.enc 0x00#8 0#3
  | .or f => f.enc 0x08#8 1#3
  | .adc f => f.enc 0x10#8 2#3
  | .sbb f => f.enc 0x18#8 3#3
  | .and f => f.enc 0x20#8 4#3
  | .sub f => f.enc 0x28#8 5#3
  | .xor f => f.enc 0x30#8 6#3
  | .cmp f => f.enc 0x38#8 7#3
  | .inc f => f.enc 0x40#8 0#3
  | .dec f => f.enc 0x48#8 1#3
  | .neg z e => encForm z 0xF6#8 3#3 e
  | .not z e => encForm z 0xF6#8 2#3 e
  | .test f => f.enc
  | .mul z e => encForm z 0xF6#8 4#3 e
  | .imul1 z e => encForm z 0xF6#8 5#3 e
  | .imul2 v g e => encForm0F v 0xAF#8 g.num e
  | .imul3 f => f.enc
  | .div z e => encForm z 0xF6#8 6#3 e
  | .idiv z e => encForm z 0xF6#8 7#3 e
  | .daa => [0x27#8]
  | .das => [0x2F#8]
  | .aaa => [0x37#8]
  | .aas => [0x3F#8]
  | .mov f => f.enc
  | .xchg f => f.enc
  | .push f => f.enc
  | .pop f => f.enc
  | .cbw => [0x66#8, 0x98#8]
  | .cwde => [0x98#8]
  | .cwd => [0x66#8, 0x99#8]
  | .cdq => [0x99#8]
  | .movsx f => f.enc 0xBE#8
  | .movzx f => f.enc 0xB6#8
  | .bt f => f.enc 0xA3#8 4#3
  | .bts f => f.enc 0xAB#8 5#3
  | .btr f => f.enc 0xB3#8 6#3
  | .btc f => f.enc 0xBB#8 7#3
  | .bsf v g e => encForm0F v 0xBC#8 g.num e
  | .bsr v g e => encForm0F v 0xBD#8 g.num e
  | .seto e => encNo16 0x90#8 0#3 e
  | .setno e => encNo16 0x91#8 0#3 e
  | .setb e => encNo16 0x92#8 0#3 e
  | .setae e => encNo16 0x93#8 0#3 e
  | .sete e => encNo16 0x94#8 0#3 e
  | .setne e => encNo16 0x95#8 0#3 e
  | .setbe e => encNo16 0x96#8 0#3 e
  | .seta e => encNo16 0x97#8 0#3 e
  | .sets e => encNo16 0x98#8 0#3 e
  | .setns e => encNo16 0x99#8 0#3 e
  | .setp e => encNo16 0x9A#8 0#3 e
  | .setnp e => encNo16 0x9B#8 0#3 e
  | .setl e => encNo16 0x9C#8 0#3 e
  | .setge e => encNo16 0x9D#8 0#3 e
  | .setle e => encNo16 0x9E#8 0#3 e
  | .setg e => encNo16 0x9F#8 0#3 e
  | .rol z e c => encShift 0#3 z e c
  | .ror z e c => encShift 1#3 z e c
  | .rcl z e c => encShift 2#3 z e c
  | .rcr z e c => encShift 3#3 z e c
  | .shl z e c => encShift 4#3 z e c
  | .shr z e c => encShift 5#3 z e c
  | .sar z e c => encShift 7#3 z e c
  | .shld v e g c => encDShift 0xA4#8 v e g c
  | .shrd v e g c => encDShift 0xAC#8 v e g c
  | .jmpRel (.b d) => [0xEB#8, d]
  | .jmpRel (.v d) => 0xE9#8 :: bytes32 d
  | .jmpInd e => encSeg e.ovr ++ 0xFF#8 :: encRM 4#3 e
  | .jo d => encJcc 0#8 d
  | .jno d => encJcc 1#8 d
  | .jb d => encJcc 2#8 d
  | .jae d => encJcc 3#8 d
  | .je d => encJcc 4#8 d
  | .jne d => encJcc 5#8 d
  | .jbe d => encJcc 6#8 d
  | .ja d => encJcc 7#8 d
  | .js d => encJcc 8#8 d
  | .jns d => encJcc 9#8 d
  | .jp d => encJcc 10#8 d
  | .jnp d => encJcc 11#8 d
  | .jl d => encJcc 12#8 d
  | .jge d => encJcc 13#8 d
  | .jle d => encJcc 14#8 d
  | .jg d => encJcc 15#8 d
  | .callRel d => 0xE8#8 :: bytes32 d
  | .callInd e => encSeg e.ovr ++ 0xFF#8 :: encRM 2#3 e
  | .ret => [0xC3#8]
  | .retImm n => 0xC2#8 :: bytes16 n
  | .loopne d => [0xE0#8, d]
  | .loope d => [0xE1#8, d]
  | .loop d => [0xE2#8, d]
  | .jecxz d => [0xE3#8, d]
  | .int3 => [0xCC#8]
  | .int n => [0xCD#8, n]
  | .into => [0xCE#8]
  | .movsb o => encStr o .byte 0xA4#8
  | .movsd v o => encStr o v.size 0xA4#8
  | .cmpsb o => encStr o .byte 0xA6#8
  | .cmpsd v o => encStr o v.size 0xA6#8
  | .stosb => encStr none .byte 0xAA#8
  | .stosd v => encStr none v.size 0xAA#8
  | .lodsb o => encStr o .byte 0xAC#8
  | .lodsd v o => encStr o v.size 0xAC#8
  | .scasb => encStr none .byte 0xAE#8
  | .scasd v => encStr none v.size 0xAE#8
  | .rep p => 0xF3#8 :: p.enc
  | .repe p => 0xF3#8 :: p.enc
  | .repne p => 0xF2#8 :: p.enc
  | .enter n l => 0xC8#8 :: bytes16 n ++ [l]
  | .leave => [0xC9#8]
  | .clc => [0xF8#8]
  | .stc => [0xF9#8]
  | .cmc => [0xF5#8]
  | .cld => [0xFC#8]
  | .std => [0xFD#8]
  | .lahf => [0x9F#8]
  | .sahf => [0x9E#8]
  | .pushf => [0x66#8, 0x9C#8]
  | .pushfd => [0x9C#8]
  | .popf => [0x66#8, 0x9D#8]
  | .popfd => [0x9D#8]
  | .wait => [0x9B#8]
  | .lea v g m => encPre m.ovr v.size ++ 0x8D#8 :: encRM g.num (.mem m)
  | .nop => [0x90#8]
  | .xlat o => encSeg o ++ [0xD7#8]
  | .pushSeg s => s.encPush
  | .popSeg s => s.encPop
  | .movSeg .fromSeg => [0x8C#8]
  | .movSeg .toSeg => [0x8E#8]
  | .les => [0xC4#8]
  | .lds => [0xC5#8]
  | .lss => [0x0F#8, 0xB2#8]
  | .lfs => [0x0F#8, 0xB4#8]
  | .lgs => [0x0F#8, 0xB5#8]
  | .callFar .ap => [0x9A#8]
  | .callFar .mp => [0xFF#8, fieldsByte 0#2 3#3 0#3]
  | .jmpFar .ap => [0xEA#8]
  | .jmpFar .mp => [0xFF#8, fieldsByte 0#2 5#3 0#3]
  | .retFar .imm => [0xCA#8]
  | .retFar .plain => [0xCB#8]
  | .arpl => [0x63#8]
  | .sldt => enc0FGroup 0x00#8 0#3
  | .str => enc0FGroup 0x00#8 1#3
  | .lldt => enc0FGroup 0x00#8 2#3
  | .ltr => enc0FGroup 0x00#8 3#3
  | .verr => enc0FGroup 0x00#8 4#3
  | .verw => enc0FGroup 0x00#8 5#3
  | .sgdt => enc0FGroup 0x01#8 0#3
  | .sidt => enc0FGroup 0x01#8 1#3
  | .lgdt => enc0FGroup 0x01#8 2#3
  | .lidt => enc0FGroup 0x01#8 3#3
  | .smsw => enc0FGroup 0x01#8 4#3
  | .lmsw => enc0FGroup 0x01#8 6#3
  | .lar => [0x0F#8, 0x02#8]
  | .lsl => [0x0F#8, 0x03#8]
  | .clts => [0x0F#8, 0x06#8]
  | .movSys .fromCr => [0x0F#8, 0x20#8]
  | .movSys .fromDr => [0x0F#8, 0x21#8]
  | .movSys .toCr => [0x0F#8, 0x22#8]
  | .movSys .toDr => [0x0F#8, 0x23#8]
  | .movSys .fromTr => [0x0F#8, 0x24#8]
  | .movSys .toTr => [0x0F#8, 0x26#8]
  | .iret => [0xCF#8]
  | .cli => [0xFA#8]
  | .sti => [0xFB#8]
  | .hlt => [0xF4#8]
  | .inPort .immByte => [0xE4#8]
  | .inPort .immAcc => [0xE5#8]
  | .inPort .dxByte => [0xEC#8]
  | .inPort .dxAcc => [0xED#8]
  | .outPort .immByte => [0xE6#8]
  | .outPort .immAcc => [0xE7#8]
  | .outPort .dxByte => [0xEE#8]
  | .outPort .dxAcc => [0xEF#8]
  | .insb => [0x6C#8]
  | .insd => [0x6D#8]
  | .outsb => [0x6E#8]
  | .outsd => [0x6F#8]
  | .pusha => [0x60#8]
  | .popa => [0x61#8]
  | .bound => [0x62#8]
  | .aam => [0xD4#8]
  | .aad => [0xD5#8]
  | .esc n => [0xD8#8 + n.setWidth 8]
  | .aliasOf80 => [0x82#8]
  | .undocumented .d6 => [0xD6#8]
  | .undocumented .f1 => [0xF1#8]
  | .undefined u => u.enc
  | .prefixEs => [0x26#8, 0x26#8]
  | .prefixCs => [0x2E#8, 0x2E#8]
  | .prefixSs => [0x36#8, 0x36#8]
  | .prefixDs => [0x3E#8, 0x3E#8]
  | .prefixFs => [0x64#8, 0x64#8]
  | .prefixGs => [0x65#8, 0x65#8]
  | .opsize => [0x66#8, 0x66#8]
  | .addrsize => [0x67#8]
  | .lock => [0xF0#8]
  | .repMisused => [0xF3#8, 0xF3#8]
  | .repneMisused => [0xF2#8, 0xF2#8]

end Sys2Proof
end

