-- ==== Sys2Proof/Machine/Fetch.lean ====
section
/-! DEFINITION. Fetching and decoding the instruction at pc, the operating mode, the end of a run, and the placing of an
instruction (spec/60_exceptions.md R507, 20_memory.md R75, 00_scope.md R5, 70_reset_and_hazards.md R551, R552). -/

namespace Sys2Proof.Machine

/-! ### Mode and end of a run -/

/-- The one operating mode the spec admits: protected mode, not virtual-8086, a 32-bit code segment and a 32-bit stack
segment (R5, D1, D21; log 9). -/
def State.modeAdmitted (s : State) : Bool :=
  s.sys.cr0.pe && !s.flags.vm && s.segs.cs.default32 && s.segs.ss.default32

/-- The run has ended normally: pc = `HALT_ADDR` (R552). -/
def State.halted (s : State) : Bool := s.haltAddr == some s.pc

/-! ### Fetch (R507 item 1) -/

/-- The `k`-th byte from pc, or why it cannot be fetched. -/
def State.fetchByte (s : State) (k : Nat) : Res Byte :=
  if s.pc.toNat + k < Config.addressSpace ∧ (s.la .cs s.pc).toNat + k < Config.addressSpace then
    if s.readable ((s.la .cs s.pc).toNat + k) then .ok (Memory.get s.mem ((s.la .cs s.pc).toNat + k))
    else .error (.fault (.memFault ((s.la .cs s.pc).toNat + k) .fetch))
  else .error (.refuse .addressWrap)

/-- At most `n` bytes from the `k`-th on, and why there is no further one: a byte that cannot be fetched, or the limit of
15 bytes (30_encoding.md R102). -/
def State.window (s : State) (k : Nat) : Nat → List Byte × Stop
  | 0 => ([], .refuse .prefixNotAdmitted)
  | n + 1 =>
    match s.fetchByte k with
    | .error e => ([], e)
    | .ok b =>
      match s.window (k + 1) n with
      | (bs, e) => (b :: bs, e)

/-- The instruction at pc and its length, read as far as decoding needs bytes (R507 items 1 and 2). -/
def State.fetch (s : State) : Res (Instr × Nat) :=
  match s.window 0 15 with
  | (bs, e) =>
    match decode bs with
    | some r => .ok r
    | none => .error e

/-- The state in which the meaning of an instruction of `n` bytes runs: its length, and a new draw (log 10, log 11). -/
def State.begin (s : State) (n : Nat) : State := { s with ilen := n, draws := s.draws + 1 }

/-! ### Placing an instruction -/

/-- A flat 32-bit segment: base 0, limit 4 GB (R551 item 2). -/
def SegReg.flat (r : SegReg) : SegReg := { r with base := 0#32, limit := 0xFFFFFFFF#32, default32 := true }

/-- The state with the launch premises 1 and 2 of R551: protected mode, VM = 0, all six segments flat and 32-bit. -/
def State.protectedFlat (s : State) : State :=
  { s with
    sys := { s.sys with cr0 := { s.sys.cr0 with pe := true } }
    flags := { s.flags with vm := false }
    segs := ⟨s.segs.cs.flat, s.segs.ss.flat, s.segs.ds.flat, s.segs.es.flat, s.segs.fs.flat, s.segs.gs.flat⟩ }

/-- The state with `w` in the 15 bytes at pc, little-endian, where it is fetched: the bytes mapped, and pc not the end of
the run. -/
def State.placeAtPc (s : State) (w : Nat) : State :=
  let a := (s.la .cs s.pc).toNat
  { s with
    mem := Memory.write s.mem a 15 w
    memMap := if (firstBad s.readable a 15).isNone then s.memMap else ⟨a, 15, .rw⟩ :: s.memMap
    haltAddr := if s.haltAddr = some s.pc then none else s.haltAddr }

end Sys2Proof.Machine
end

