-- ==== Sys2Proof/Machine/Step.lean ====
section
/-! DEFINITION. One step of the machine (spec/60_exceptions.md R507) and the placing of an instruction at pc. -/

namespace Sys2Proof.Machine

/-- One step. At `HALT_ADDR` the run has ended and the state stands (70_reset_and_hazards.md R552, log 7); in a mode the
spec refuses, a refusal (00_scope.md R5, log 9); else fetch, decode, execute, and the single-step trap if the step
began with TF = 1 (R507, R508). -/
def step (s : State) : Host.Outcome State Fault Refusal :=
  if s.halted then .next s
  else if !s.modeAdmitted then .refused .modeNotAdmitted
  else
    match s.fetch with
    | .error (.fault f) => .fault f
    | .error (.refuse r) => .refused r
    | .ok (i, n) => singleStep s.flags.tf (exec i (s.begin n))

/-- `s` with the low `nbits` bits of `w` as the instruction the next step fetches: stored at LA(CS, pc), zero bytes after
them up to 15, in the mode and with the flat segments a launch has (log 3). -/
def State.withFetchWord (s : State) (nbits w : Nat) : State := s.protectedFlat.placeAtPc (w % 2 ^ nbits)

end Sys2Proof.Machine
end

