-- ==== Sys2Proof/Safety.lean ====
section
/-! DEFINITION. The vocabulary of the statements: when an access is admitted, what a step leaves as it was, and what a
launched and a safe run are (spec/20_memory.md R68, R75, R83, 70_reset_and_hazards.md R551, R552). -/

namespace Sys2Proof.Machine

/-! ### When an access is admitted -/

/-- The `n` bytes at `seg:off` lie below the top and may be read (R68, R75). -/
abbrev State.CanRead (s : State) (seg : Seg) (off : Word) (n : Nat) : Prop :=
  s.inSpace seg off n = true ∧ ∀ k < n, s.readable ((s.la seg off).toNat + k) = true

/-- The `n` bytes at `seg:off` lie below the top, may be written, and are not in `CODE` (R68, R75, R83). -/
abbrev State.CanWrite (s : State) (seg : Seg) (off : Word) (n : Nat) : Prop :=
  s.inSpace seg off n = true ∧
    ∀ k < n, s.writable ((s.la seg off).toNat + k) = true ∧ s.inCode ((s.la seg off).toNat + k) = false

/-- A register, or memory that may be read. -/
def State.locReadable (s : State) (z : Size) : Loc → Bool
  | .reg _ => true
  | .mem seg off => decide (s.CanRead seg off z.bytes)

/-- A register, or memory that may be written. -/
def State.locWritable (s : State) (z : Size) : Loc → Bool
  | .reg _ => true
  | .mem seg off => decide (s.CanWrite seg off z.bytes)

/-- The instruction does not end at or past the top of the address space (10_state.md R28, log 12). -/
abbrev State.HasNext (s : State) : Prop := s.nextPc < Config.addressSpace

/-- A relative branch by `rel` stays in the address space (45_control_transfer.md R339, log 12). -/
abbrev State.CanBranch (s : State) (rel : Word) : Prop :=
  s.HasNext ∧ 0 ≤ (s.nextPc : Int) + rel.toInt ∧ (s.nextPc : Int) + rel.toInt < Config.addressSpace

/-! ### Operand values, where the access is admitted -/

/-- The value in memory at `seg:off`. -/
def State.memValue (s : State) (seg : Seg) (off : Word) (z : Size) : BitVec z.bits :=
  BitVec.ofNat z.bits (Memory.read s.mem (s.la seg off).toNat z.bytes)

/-- The value at a location. -/
def State.valueAt (s : State) (z : Size) : Loc → BitVec z.bits
  | .reg g => s.reg z g
  | .mem seg off => s.memValue seg off z

/-- May the source of a two-operand instruction be read? -/
def aluSrcReadable (s : State) : AluForm → Bool
  | .rmReg _ _ _ => true
  | .regRm z _ e => s.locReadable z (s.resolve e)
  | .accImm _ _ => true
  | .rmImm _ _ _ => true
  | .rmImm8s _ _ _ => true

/-- The value of the source of a two-operand instruction. -/
def aluSrcValue (s : State) : (f : AluForm) → BitVec (aluSize f).bits
  | .rmReg z _ g => s.reg z g
  | .regRm z _ e => s.valueAt z (s.resolve e)
  | .accImm _ i => i
  | .rmImm _ _ i => i
  | .rmImm8s v _ i => i.signExtend v.size.bits

/-! ### What a step leaves as it was -/

/-- Every byte of memory reads as before. -/
def MemSame (s t : State) : Prop := ∀ a, Memory.get t.mem a = Memory.get s.mem a

/-- The `n` bytes from `a` hold `v`, low byte first; every other byte of memory reads as before. -/
def MemStored (s t : State) (a n v : Nat) : Prop :=
  ∀ b, Memory.get t.mem b =
    if a ≤ b ∧ b < a + n then BitVec.ofNat 8 (v / 256 ^ (b - a)) else Memory.get s.mem b

/-- Everything but the general registers, pc, the flags and memory is as before: the segment and system registers, the
privilege level, the launch parameters, and the model's own two counters. -/
structure EnvSame (s t : State) : Prop where
  segs : t.segs = s.segs
  sys : t.sys = s.sys
  cpl : t.cpl = s.cpl
  memMap : t.memMap = s.memMap
  code : t.code = s.code
  haltAddr : t.haltAddr = s.haltAddr
  ilen : t.ilen = s.ilen
  draws : t.draws = s.draws

/-- `v` is written to a location and no other register or byte changes. -/
def LocWritten (s t : State) (z : Size) (l : Loc) (v : BitVec z.bits) : Prop :=
  match l with
  | .reg g => t.regs = s.regs.write z g v ∧ MemSame s t
  | .mem seg off => t.regs = s.regs ∧ MemStored s t (s.la seg off).toNat z.bytes v.toNat

/-- The instruction ends as one that transfers no control: pc is the next instruction's address (10_state.md R28), and
what `EnvSame` lists is as before. -/
structure Falls (s t : State) : Prop where
  pc : t.pc = s.npc
  env : EnvSame s t

/-- Neither a general register nor a byte of memory changes. -/
structure DataSame (s t : State) : Prop where
  regs : t.regs = s.regs
  mem : MemSame s t

/-- A value of `n` bytes is pushed: ESP is lowered by `n`, the bytes there hold the value, no other register or byte
changes (20_memory.md R78). -/
structure Pushed (s t : State) (n v : Nat) : Prop where
  regs : t.regs = s.regs.set .esp (s.regs.esp - BitVec.ofNat 32 n)
  mem : MemStored s t (s.la .ss (s.regs.esp - BitVec.ofNat 32 n)).toNat n v

/-- May `n` bytes be pushed? -/
abbrev State.CanPush (s : State) (n : Nat) : Prop := s.CanWrite .ss (s.regs.esp - BitVec.ofNat 32 n) n

/-- An even number of ones in the low byte (00_scope.md R11 `parity8`). -/
def evenParity {w : Nat} (v : BitVec w) : Bool := (List.range 8).countP (fun i => v.getLsbD i) % 2 == 0

/-! ### The flag rules as relations between operands, result and flags -/

/-- `(r, flags) <- AddFlags_w(a, b, c)` (41_binary_arithmetic.md R230). -/
def AddRule {w : Nat} (a b : BitVec w) (c : Bool) (r : BitVec w) (f g : Eflags) : Prop :=
  r.toNat = (a.toNat + b.toNat + c.toNat) % 2 ^ w ∧
  g = { f with
    cf := decide (2 ^ w ≤ a.toNat + b.toNat + c.toNat)
    ofl := decide (2 ^ (w - 1) ≤ a.toInt + b.toInt + c.toInt ∨ a.toInt + b.toInt + c.toInt < -2 ^ (w - 1))
    af := decide (16 ≤ a.toNat % 16 + b.toNat % 16 + c.toNat)
    sf := r.getLsbD (w - 1)
    zf := decide (r.toNat = 0)
    pf := evenParity r }

/-- `(r, flags) <- SubFlags_w(a, b, c)` (R230). -/
def SubRule {w : Nat} (a b : BitVec w) (c : Bool) (r : BitVec w) (f g : Eflags) : Prop :=
  (r.toNat : Int) = ((a.toNat : Int) - b.toNat - c.toNat) % 2 ^ w ∧
  g = { f with
    cf := decide (a.toNat < b.toNat + c.toNat)
    ofl := decide (2 ^ (w - 1) ≤ a.toInt - b.toInt - c.toInt ∨ a.toInt - b.toInt - c.toInt < -2 ^ (w - 1))
    af := decide (a.toNat % 16 < b.toNat % 16 + c.toNat)
    sf := r.getLsbD (w - 1)
    zf := decide (r.toNat = 0)
    pf := evenParity r }

/-- `LogicFlags_w(r)` (43_logical.md R280): AF is left open. -/
def LogicRule {w : Nat} (r : BitVec w) (f g : Eflags) : Prop :=
  g = { f with
    cf := false
    ofl := false
    af := g.af
    sf := r.getLsbD (w - 1)
    zf := decide (r.toNat = 0)
    pf := evenParity r }

/-- CF and OF are `lost`; SF, ZF, AF and PF are left open (R240 to R243). -/
def MulFlagRule (lost : Bool) (f g : Eflags) : Prop :=
  g = { f with cf := lost, ofl := lost, sf := g.sf, zf := g.zf, af := g.af, pf := g.pf }

/-- CF is `c`; OF, SF, ZF, AF and PF are left open (43_logical.md R291 to R294). -/
def BitFlagRule (c : Bool) (f g : Eflags) : Prop :=
  g = { f with cf := c, ofl := g.ofl, sf := g.sf, zf := g.zf, af := g.af, pf := g.pf }

/-- ZF is `z`; CF, OF, SF, AF and PF are left open (R296, R297). -/
def ScanFlagRule (z : Bool) (f g : Eflags) : Prop :=
  g = { f with zf := z, cf := g.cf, ofl := g.ofl, sf := g.sf, af := g.af, pf := g.pf }

/-- SF, ZF and PF follow the result `r`; AF is left open; CF and OF are those of `g`, to be said beside it
(44_shift_rotate.md R311 to R316). -/
def ShiftFlagRule {w : Nat} (r : BitVec w) (f g : Eflags) : Prop :=
  g = { f with
    cf := g.cf
    ofl := g.ofl
    af := g.af
    sf := r.getLsbD (w - 1)
    zf := decide (r.toNat = 0)
    pf := evenParity r }

/-- The six status flags are left open; no other flag changes (R245, R246). -/
def StatusFree (f g : Eflags) : Prop :=
  g = { f with cf := g.cf, pf := g.pf, af := g.af, zf := g.zf, sf := g.sf, ofl := g.ofl }

/-- Only CF and OF may differ (R320 to R323). -/
def RotateFlagRule (f g : Eflags) : Prop := g = { f with cf := g.cf, ofl := g.ofl }

/-! ### Tables of the spec -/

/-- The 32-bit register that a register name of a width is part of, and the lowest bit it covers (10_state.md R21). -/
def namePlace : Size → GReg → GReg × Nat
  | .byte, .eax => (.eax, 0)
  | .byte, .ecx => (.ecx, 0)
  | .byte, .edx => (.edx, 0)
  | .byte, .ebx => (.ebx, 0)
  | .byte, .esp => (.eax, 8)
  | .byte, .ebp => (.ecx, 8)
  | .byte, .esi => (.edx, 8)
  | .byte, .edi => (.ebx, 8)
  | .word, g => (g, 0)
  | .dword, g => (g, 0)

/-- The sixteen conditions in the order of their numbers: SETcc, Jcc, and when they are true (45_control_transfer.md
R340). -/
def conditionTable : List ((RM → Instr) × (Rel → Instr) × (Eflags → Bool)) :=
  [(.seto, .jo, fun f => f.ofl), (.setno, .jno, fun f => !f.ofl),
   (.setb, .jb, fun f => f.cf), (.setae, .jae, fun f => !f.cf),
   (.sete, .je, fun f => f.zf), (.setne, .jne, fun f => !f.zf),
   (.setbe, .jbe, fun f => f.cf || f.zf), (.seta, .ja, fun f => !f.cf && !f.zf),
   (.sets, .js, fun f => f.sf), (.setns, .jns, fun f => !f.sf),
   (.setp, .jp, fun f => f.pf), (.setnp, .jnp, fun f => !f.pf),
   (.setl, .jl, fun f => f.sf != f.ofl), (.setge, .jge, fun f => f.sf == f.ofl),
   (.setle, .jle, fun f => f.zf || f.sf != f.ofl), (.setg, .jg, fun f => !f.zf && f.sf == f.ofl)]

/-- Bit `k` of the flag image (10_state.md R30, R34). -/
def flagBit (f : Eflags) : Nat → Bool
  | 0 => f.cf
  | 1 => true
  | 2 => f.pf
  | 4 => f.af
  | 6 => f.zf
  | 7 => f.sf
  | 8 => f.tf
  | 9 => f.ifl
  | 10 => f.df
  | 11 => f.ofl
  | 12 => f.iopl.getLsbD 0
  | 13 => f.iopl.getLsbD 1
  | 14 => f.nt
  | 16 => f.rf
  | 17 => f.vm
  | _ => false

/-- The reason each refused instruction is refused with; none for an instruction that is not (30_encoding.md R120 to
R122). -/
def refusalOf : Instr → Option Refusal
  | .pushSeg _ | .popSeg _ | .movSeg _ | .les | .lds | .lss | .lfs | .lgs => some .segmentInstruction
  | .callFar _ | .jmpFar _ | .retFar _ => some .segmentInstruction
  | .arpl | .sldt | .str | .lldt | .ltr | .verr | .verw | .sgdt | .sidt | .lgdt | .lidt => some .systemInstruction
  | .smsw | .lmsw | .lar | .lsl | .clts | .movSys _ | .iret | .cli | .sti | .hlt => some .systemInstruction
  | .inPort _ | .outPort _ | .insb | .insd | .outsb | .outsd => some .ioInstruction
  | .pusha | .popa | .bound | .aam | .aad => some .notNamedInSource
  | .esc _ => some .coprocessorInstruction
  | .aliasOf80 | .undocumented _ | .undefined _ => some .undefinedOpcode
  | .prefixEs | .prefixCs | .prefixSs | .prefixDs | .prefixFs | .prefixGs => some .prefixNotAdmitted
  | .opsize | .addrsize | .lock | .repMisused | .repneMisused => some .prefixNotAdmitted
  | _ => none

/-! ### Instructions by what they may change -/

/-- The instructions that change no flag (10_state.md R35). -/
def leavesFlags : Instr → Bool
  | .mov _ | .xchg _ | .push _ | .pop _ | .lea _ _ _ | .movsx _ | .movzx _ | .cbw | .cwde | .cwd | .cdq | .xlat _ => true
  | .not _ _ | .nop | .wait | .jmpRel _ | .jmpInd _ | .callRel _ | .callInd _ | .ret | .retImm _ => true
  | .loop _ | .loope _ | .loopne _ | .jecxz _ | .into | .enter _ _ | .leave | .lahf | .pushf | .pushfd => true
  | .jo _ | .jno _ | .jb _ | .jae _ | .je _ | .jne _ | .jbe _ | .ja _ => true
  | .js _ | .jns _ | .jp _ | .jnp _ | .jl _ | .jge _ | .jle _ | .jg _ => true
  | .seto _ | .setno _ | .setb _ | .setae _ | .sete _ | .setne _ | .setbe _ | .seta _ => true
  | .sets _ | .setns _ | .setp _ | .setnp _ | .setl _ | .setge _ | .setle _ | .setg _ => true
  | .movsb _ | .movsd _ _ | .lodsb _ | .lodsd _ _ | .stosb | .stosd _ | .rep _ => true
  | _ => false

/-- The instructions that store to no byte of memory in any form (files 40 to 49). -/
def storesNothing : Instr → Bool
  | .cmp _ | .test _ | .mul _ _ | .imul1 _ _ | .imul2 _ _ _ | .imul3 _ | .div _ _ | .idiv _ _ => true
  | .daa | .das | .aaa | .aas | .cbw | .cwde | .cwd | .cdq | .movsx _ | .movzx _ => true
  | .bt _ | .bsf _ _ _ | .bsr _ _ _ | .jmpRel _ | .jmpInd _ | .ret | .retImm _ => true
  | .loop _ | .loope _ | .loopne _ | .jecxz _ | .into | .leave => true
  | .jo _ | .jno _ | .jb _ | .jae _ | .je _ | .jne _ | .jbe _ | .ja _ => true
  | .js _ | .jns _ | .jp _ | .jnp _ | .jl _ | .jge _ | .jle _ | .jg _ => true
  | .cmpsb _ | .cmpsd _ _ | .scasb | .scasd _ | .lodsb _ | .lodsd _ _ | .repe _ | .repne _ => true
  | .clc | .stc | .cmc | .cld | .std | .lahf | .sahf | .popf | .popfd | .wait | .lea _ _ _ | .nop | .xlat _ => true
  | _ => false

/-- The prefix constructors (30_encoding.md R103 to R106, log 17). -/
def isPrefix : Instr → Bool
  | .prefixEs | .prefixCs | .prefixSs | .prefixDs | .prefixFs | .prefixGs => true
  | .opsize | .addrsize | .lock | .repMisused | .repneMisused => true
  | _ => false

/-! ### The accesses of an instruction and their checks, in order (files 40 to 49, 60_exceptions.md R507 items 3 and 5) -/

/-- A check that an instruction makes before it changes anything. -/
inductive Check where
  /-- The bytes at `seg:off` do not straddle the top (20_memory.md R68). -/
  | space (seg : Seg) (off : Word) (z : Size)
  /-- They may be read (R75). -/
  | read (seg : Seg) (off : Word) (z : Size)
  /-- They may be written (R75). -/
  | write (seg : Seg) (off : Word) (z : Size)
  /-- None of them is in `CODE` (R83). -/
  | code (seg : Seg) (off : Word) (z : Size)
  /-- The target of a relative CALL lies in the address space (45_control_transfer.md R339, R345, log 12). -/
  | target (rel : Word)
deriving DecidableEq, Repr

/-- The outcome that a check ends the instruction with, or none where it holds: the lowest byte that is not admitted is
named (log 20). -/
def Check.stop (s : State) : Check → Option Stop
  | .space seg off z => if s.inSpace seg off z.bytes then none else some (.refuse .addressWrap)
  | .read seg off z =>
    ((List.range z.bytes).find? fun k => !s.readable ((s.la seg off).toNat + k)).map fun k =>
      .fault (.memFault ((s.la seg off).toNat + k) .read)
  | .write seg off z =>
    ((List.range z.bytes).find? fun k => !s.writable ((s.la seg off).toNat + k)).map fun k =>
      .fault (.memFault ((s.la seg off).toNat + k) .write)
  | .code seg off z =>
    if (List.range z.bytes).any fun k => s.inCode ((s.la seg off).toNat + k) then some (.refuse .storeIntoCode) else none
  | .target rel => if s.CanBranch rel then none else some (.refuse .addressWrap)

/-- The checks of one read. -/
def readChecks (seg : Seg) (off : Word) (z : Size) : List Check := [.space seg off z, .read seg off z]

/-- The checks of one write. -/
def writeChecks (seg : Seg) (off : Word) (z : Size) : List Check := [.space seg off z, .write seg off z, .code seg off z]

/-- The checks of reading a location: none for a register. -/
def Loc.readChecks (z : Size) : Loc → List Check
  | .reg _ => []
  | .mem seg off => Machine.readChecks seg off z

/-- The checks of writing a location: none for a register. -/
def Loc.writeChecks (z : Size) : Loc → List Check
  | .reg _ => []
  | .mem seg off => Machine.writeChecks seg off z

/-- The checks of an operand that is read and then written. -/
def Loc.updateChecks (z : Size) (l : Loc) : List Check := l.readChecks z ++ l.writeChecks z

/-- The checks of the source of a two-operand instruction. -/
def aluSrcChecks (s : State) : AluForm → List Check
  | .regRm z _ e => (s.resolve e).readChecks z
  | .rmReg _ _ _ | .accImm _ _ | .rmImm _ _ _ | .rmImm8s _ _ _ => []

/-- The checks of `Push(n, v)` (20_memory.md R78). -/
def pushChecks (s : State) (z : Size) : List Check := writeChecks .ss (s.regs.esp - BitVec.ofNat 32 z.bytes) z

/-- The checks of `Pop(n)` (R78). -/
def popChecks (s : State) (z : Size) : List Check := readChecks .ss s.regs.esp z

/-- The state in which POP computes the address of its destination: ESP raised (40_data_movement.md R206). -/
def State.espRaised (s : State) (z : Size) : State :=
  { s with regs := s.regs.set .esp (s.regs.esp + BitVec.ofNat 32 z.bytes) }

/-- The stack offset of ENTER's push number `k` (47_block_structured.md R410). -/
def enterSlot (s : State) (k : Nat) : Word := s.regs.esp - BitVec.ofNat 32 (4 * (k + 1))

/-- How many doublewords ENTER pushes at a level (R410). -/
def enterCount (lev : Nat) : Nat := if lev = 0 then 1 else lev + 1

/-- The checks of ENTER: the pushes and the reads of the display in the order of R410; whether the pushed bytes may be
written comes after all of them, for every push, and then `CODE` (log 16). -/
def enterChecks (s : State) (lev : Nat) : List Check :=
  .space .ss (enterSlot s 0) .dword ::
    (List.range (lev - 1)).flatMap (fun j =>
      readChecks .ss (s.regs.ebp - BitVec.ofNat 32 (4 * (j + 1))) .dword ++ [.space .ss (enterSlot s (j + 1)) .dword]) ++
    (if lev = 0 then [] else [.space .ss (enterSlot s lev) .dword]) ++
    (List.range (enterCount lev)).map (fun k => .write .ss (enterSlot s k) .dword) ++
    (List.range (enterCount lev)).map (fun k => .code .ss (enterSlot s k) .dword)

/-- The checks of one iteration of a repeated MOVS, LODS or STOS (46_string.md R383, R386, R387). -/
def strMoveChecks (s : State) : StrMove → List Check
  | .movs z ovr => readChecks (ovr.getD .ds) s.regs.esi z ++ writeChecks .es s.regs.edi z
  | .lods z ovr => readChecks (ovr.getD .ds) s.regs.esi z
  | .stos z => writeChecks .es s.regs.edi z

/-- The checks of one iteration of a repeated CMPS or SCAS (R384, R385). -/
def strCmpChecks (s : State) : StrCmp → List Check
  | .cmps z ovr => readChecks (ovr.getD .ds) s.regs.esi z ++ readChecks .es s.regs.edi z
  | .scas z => readChecks .es s.regs.edi z

/-- The checks of a shift or rotate by `c`: by a masked count of 0 its operand is read only (44_shift_rotate.md R310). -/
def shiftChecks (z : Size) (l : Loc) (c : Byte) : List Check :=
  if c.toNat % 32 = 0 then l.readChecks z else l.updateChecks z

/-- The checks of MOV (40_data_movement.md R201). -/
def movChecks (s : State) : MovForm → List Check
  | .rmReg z e _ => (s.resolve e).writeChecks z
  | .regRm z _ e => (s.resolve e).readChecks z
  | .regImm _ _ _ => []
  | .rmImm z e _ => (s.resolve e).writeChecks z
  | .accMoffs z o off => readChecks (o.getD .ds) off z
  | .moffsAcc z o off => writeChecks (o.getD .ds) off z

/-- The checks of XCHG (R204). -/
def xchgChecks (s : State) : XchgForm → List Check
  | .rmReg z e _ => (s.resolve e).updateChecks z
  | .accReg _ _ => []

/-- The operand width of a PUSH. -/
def pushSize : PushForm → Size
  | .reg v _ => v.size
  | .rm v _ => v.size
  | .imm v _ => v.size
  | .imm8s v _ => v.size

/-- The checks of the source of a PUSH (R205). -/
def pushSrcChecks (s : State) : PushForm → List Check
  | .rm v e => (s.resolve e).readChecks v.size
  | .reg _ _ | .imm _ _ | .imm8s _ _ => []

/-- The operand width of a POP. -/
def popSize : PopForm → Size
  | .reg v _ => v.size
  | .rm v _ => v.size

/-- The checks of the destination of a POP, its address computed with ESP raised (R206). -/
def popDstChecks (s : State) : PopForm → List Check
  | .reg _ _ => []
  | .rm v e => ((s.espRaised v.size).resolve e).writeChecks v.size

/-- The checks of MOVSX and MOVZX (R214, R215). -/
def extChecks (s : State) : ExtForm → List Check
  | .byte _ _ e => (s.resolve e).readChecks .byte
  | .word _ e => (s.resolve e).readChecks .word

/-- The checks of three-operand IMUL (41_binary_arithmetic.md R243). -/
def imul3Checks (s : State) : Imul3Form → List Check
  | .imm v _ e _ => (s.resolve e).readChecks v.size
  | .imm8s v _ e _ => (s.resolve e).readChecks v.size

/-- The checks of TEST (43_logical.md R285). -/
def testChecks (s : State) : TestForm → List Check
  | .rmReg z e _ => (s.resolve e).readChecks z
  | .accImm _ _ => []
  | .rmImm z e _ => (s.resolve e).readChecks z

/-- The checks that an instruction makes of its accesses to memory, in the order in which they decide (R507); none for an
instruction that accesses no memory. -/
def accessChecks (s : State) : Instr → List Check
  | .add f | .or f | .adc f | .sbb f | .and f | .sub f | .xor f =>
    (aluDst s f).readChecks (aluSize f) ++ aluSrcChecks s f ++ (aluDst s f).writeChecks (aluSize f)
  | .cmp f => (aluDst s f).readChecks (aluSize f) ++ aluSrcChecks s f
  | .inc f | .dec f => (incLoc s f).updateChecks (incSize f)
  | .neg z e | .not z e => (s.resolve e).updateChecks z
  | .test f => testChecks s f
  | .mul z e | .imul1 z e | .div z e | .idiv z e => (s.resolve e).readChecks z
  | .imul2 v _ e => (s.resolve e).readChecks v.size
  | .imul3 f => imul3Checks s f
  | .mov f => movChecks s f
  | .xchg f => xchgChecks s f
  | .push f => pushSrcChecks s f ++ pushChecks s (pushSize f)
  | .pop f => popChecks s (popSize f) ++ popDstChecks s f
  | .movsx f | .movzx f => extChecks s f
  | .bt f => (bitLoc s f).1.readChecks (bitSize f)
  | .bts f | .btr f | .btc f => (bitLoc s f).1.updateChecks (bitSize f)
  | .bsf v _ e | .bsr v _ e => (s.resolve e).readChecks v.size
  | .seto e | .setno e | .setb e | .setae e | .sete e | .setne e | .setbe e | .seta e
  | .sets e | .setns e | .setp e | .setnp e | .setl e | .setge e | .setle e | .setg e => (s.resolve e).writeChecks .byte
  | .rol z e c | .ror z e c | .rcl z e c | .rcr z e c | .shl z e c | .shr z e c | .sar z e c =>
    shiftChecks z (s.resolve e) (s.count c)
  | .shld v e _ c | .shrd v e _ c => shiftChecks v.size (s.resolve e) (s.dcount c)
  | .jmpInd e => (s.resolve e).readChecks .dword
  | .callRel d => .target d :: pushChecks s .dword
  | .callInd e => (s.resolve e).readChecks .dword ++ pushChecks s .dword
  | .ret | .retImm _ | .popfd => popChecks s .dword
  | .movsb o => strMoveChecks s (.movs .byte o)
  | .movsd v o => strMoveChecks s (.movs v.size o)
  | .lodsb o => strMoveChecks s (.lods .byte o)
  | .lodsd v o => strMoveChecks s (.lods v.size o)
  | .stosb => strMoveChecks s (.stos .byte)
  | .stosd v => strMoveChecks s (.stos v.size)
  | .cmpsb o => strCmpChecks s (.cmps .byte o)
  | .cmpsd v o => strCmpChecks s (.cmps v.size o)
  | .scasb => strCmpChecks s (.scas .byte)
  | .scasd v => strCmpChecks s (.scas v.size)
  | .rep p => if s.regs.ecx = 0#32 then [] else strMoveChecks s p
  | .repe p | .repne p => if s.regs.ecx = 0#32 then [] else strCmpChecks s p
  | .enter _ lvl => enterChecks s (lvl.toNat % 32)
  | .leave => readChecks .ss s.regs.ebp .dword
  | .pushf => pushChecks s .word
  | .pushfd => pushChecks s .dword
  | .popf => popChecks s .word
  | .xlat o => readChecks (o.getD .ds) (s.regs.ebx + (s.reg .byte .eax).setWidth 32) .byte
  | _ => []

/-- The stack accesses of an instruction, pushes and pops, as offsets in the stack segment (20_memory.md R77, R78,
47_block_structured.md R410, R411). -/
def stackAccesses (s : State) : Instr → List (Word × Size)
  | .push f => [(s.regs.esp - BitVec.ofNat 32 (pushSize f).bytes, pushSize f)]
  | .callRel _ | .callInd _ | .pushfd => [(s.regs.esp - 4#32, .dword)]
  | .pushf => [(s.regs.esp - 2#32, .word)]
  | .pop f => [(s.regs.esp, popSize f)]
  | .ret | .retImm _ | .popfd => [(s.regs.esp, .dword)]
  | .popf => [(s.regs.esp, .word)]
  | .enter _ lvl => (List.range (enterCount (lvl.toNat % 32))).map fun k => (enterSlot s k, .dword)
  | .leave => [(s.regs.ebp, .dword)]
  | _ => []

/-! ### Runs -/

/-- The bytes from pc on: each lies below the top, may be fetched, and holds what the list says (60_exceptions.md R507
item 1). -/
def BytesAt (s : State) (bs : List Byte) : Prop :=
  ∀ k (h : k < bs.length), s.pc.toNat + k < Config.addressSpace ∧ (s.la .cs s.pc).toNat + k < Config.addressSpace ∧
    s.readable ((s.la .cs s.pc).toNat + k) = true ∧ Memory.get s.mem ((s.la .cs s.pc).toNat + k) = bs[k]

/-- A step is taken at all: the run has not ended and the mode is the admitted one (70_reset_and_hazards.md R552,
00_scope.md R5). -/
structure Running (s : State) : Prop where
  notHalted : s.halted = false
  mode : s.modeAdmitted = true

/-- `t` is reached from `s` by steps that answer next states. -/
inductive Reaches (s : State) : State → Prop where
  | start : Reaches s s
  | step {t u : State} : Reaches s t → Machine.step t = .next u → Reaches s u

/-- An instruction that a program means to execute: where it starts, and all its bytes (70_reset_and_hazards.md R551). -/
structure ProgramInstr where
  addr : Word
  bytes : List Byte
deriving DecidableEq, Repr

/-- What a launch fixes beside the state itself: the parameters `CPL` and `IOPL0` (00_scope.md R8, with their defaults),
and what the host says of its program and its page tables (70_reset_and_hazards.md R551). `HAS_NPX` is false and no
parameter (log 19); `MEM_MAP`, `CODE` and `HALT_ADDR` are in the state. -/
structure LaunchParams where
  cpl : BitVec 2 := 3#2
  iopl0 : BitVec 2 := 0#2
  /-- The program's bytes, by address (R551 item 5, 00_scope.md R8 `CODE`). -/
  image : List Host.Cell
  /-- The instructions that the program means to execute (R551 items 5 and 10). -/
  program : List ProgramInstr
  /-- Paging, if it is on, is an identity the program cannot see (R551 item 2). -/
  identityPaging : Bool := false
deriving DecidableEq, Repr

/-- The premises of 70_reset_and_hazards.md R551, by their numbers there. Item 4 and item 7 ask nothing of the state, nor
does bit 1 and the other reserved bits of item 3, which are no state (10_state.md R34); of item 8 the absent coprocessor
and the inactive BUSY pin hold in every state (log 19). Item 6 speaks of the stack accesses of the program, so of every
instruction that the run reaches (log 27). -/
structure Launched (p : LaunchParams) (s : State) : Prop where
  /-- Item 1: protected mode, 32-bit code segment, VM = 0 (and a 32-bit stack segment: log 9). -/
  mode : s.modeAdmitted = true
  /-- Item 2: all bases 0, all limits 4 GB. -/
  flat : ∀ g, (s.segs.get g).base = 0#32 ∧ (s.segs.get g).limit = 0xFFFFFFFF#32
  /-- Item 2: paging off, or an identity. -/
  paging : s.sys.cr0.pg = false ∨ p.identityPaging = true
  /-- Item 3: the system flags. -/
  flags : s.flags.vm = false ∧ s.flags.rf = false ∧ s.flags.nt = false ∧ s.flags.tf = false ∧ s.flags.ifl = true
  /-- Item 3: `IOPL0`; and the parameter `CPL`. -/
  level : s.flags.iopl = p.iopl0 ∧ s.cpl = p.cpl
  /-- Item 5: pc is at an instruction of the program. -/
  entry : ∃ x ∈ p.program, x.addr = s.pc
  /-- The bytes of an instruction of the program are those of one whole instruction. -/
  whole : ∀ x ∈ p.program, ∃ i, decode x.bytes = some (i, x.bytes.length)
  /-- Every one of them, the first and the last, is a byte of the program. -/
  bytes : ∀ x ∈ p.program, ∀ k (h : k < x.bytes.length), (x.addr.toNat + k, x.bytes[k]) ∈ p.image
  /-- Item 5: the program's bytes are in `CODE`, below the top, and memory holds them. -/
  holds : ∀ c ∈ p.image, c.1 < Config.addressSpace ∧ s.inCode c.1 = true ∧ Memory.get s.mem c.1 = c.2
  /-- Item 5: `CODE` has no other byte than the program's. -/
  codeIsImage : ∀ a < Config.addressSpace, s.inCode a = true → ∃ c ∈ p.image, c.1 = a
  /-- Item 5: every byte of `CODE` is `ro` or `rw`. -/
  mapped : ∀ a < Config.addressSpace, s.inCode a = true → s.readable a = true
  /-- Item 6: every push and pop of the run lies in `rw` bytes outside `CODE`. -/
  stack : ∀ (t : State) (i : Instr) (n : Nat), Reaches s t → t.halted = false → t.fetch = .ok (i, n) →
    ∀ a ∈ stackAccesses t i, t.CanWrite .ss a.1 a.2.bytes
  /-- Item 8: MP and TS are such that WAIT does not trap (49_coprocessor_segment_misc.md R441; EM does not bear on WAIT). -/
  waitFree : ¬(s.sys.cr0.mp = true ∧ s.sys.cr0.ts = true)
  /-- Item 9: all breakpoints disabled, by the one image of DR7 of which the spec says so (10_state.md R45, log 23). -/
  breakpoints : s.sys.dr7 = 0#32
  /-- Item 10: there is a `HALT_ADDR`, and no instruction of the program is there. -/
  halt : ∃ h, s.haltAddr = some h ∧ ∀ x ∈ p.program, x.addr ≠ h
  /-- The model's own canonical form of memory (log 5). -/
  memory : Memory.wf s.mem = true

/-- A safe run: from `s` on no step ends in a fault or a refusal (70_reset_and_hazards.md R552). -/
def SafeRun (s : State) : Prop := ∀ t, Reaches s t → ∃ u, Machine.step t = .next u

end Sys2Proof.Machine
end

