-- ==== Sys2Proof/Certificates/Slice0/Obligations.lean ====
section
/-! DEFINITION. The statements for the provers. Each docstring names the rules of spec/ the statement rests on. -/

open Sys2Proof Sys2Proof.Machine

/-! ### Reset -/

/-- The reset column of 10_state.md R45, where it gives a value: EIP, EFLAGS, DH of EDX, EAX for a self-test that passed
or was not run, the six segment registers, CR0 but for ET, IDTR, DR7. -/
def Obligations.ResetGivesSpecValues : Prop :=
  State.reset.pc = 0x0000FFF0#32 ∧ State.reset.flags.image = 0x00000002#32 ∧
  State.reset.regs.read .byte .esi = 3#8 ∧ State.reset.regs.eax = 0#32 ∧
  State.reset.segs.cs.selector = 0xF000#16 ∧ State.reset.segs.cs.base = 0xFFFF0000#32 ∧
  (∀ g, (State.reset.segs.get g).limit = 0x0000FFFF#32) ∧
  (∀ g, g ≠ .cs → (State.reset.segs.get g).selector = 0#16 ∧ (State.reset.segs.get g).base = 0#32) ∧
  State.reset.sys.cr0.pe = false ∧ State.reset.sys.cr0.pg = false ∧ State.reset.sys.cr0.mp = false ∧
  State.reset.sys.cr0.em = false ∧ State.reset.sys.cr0.ts = false ∧
  State.reset.sys.idtrBase = 0#32 ∧ State.reset.sys.idtrLimit = 0x03FF#16 ∧ State.reset.sys.dr7 = 0#32

/-- The canonical form of memory (the model's own invariant, 20_memory.md R61, log 5) holds after reset. -/
def Obligations.ResetMemoryCanonical : Prop := Memory.wf State.reset.mem = true

/-! ### Encoding -/

/-- Decoding the encoding of a well-formed instruction, whatever follows it, gives the instruction and its length
(30_encoding.md R103, R104, R106, R110, R111, R115, R120 to R122). -/
def Obligations.DecodeEncode : Prop :=
  ∀ (i : Instr) (rest : List Byte), i.wf = true → decode (encode i ++ rest) = some (i, (encode i).length)

/-- Example encodings the instruction rules print, one or more of each family (files 40 to 49). -/
def Obligations.DecodeSpecWords : Prop :=
  decode [0xB0#8, 0x7F#8] = some (.mov (.regImm .byte .eax 0x7F#8), 2) ∧
  decode [0x04#8, 0x01#8] = some (.add (.accImm .byte 1#8), 2) ∧
  decode [0x6B#8, 0xD1#8, 0xFE#8] = some (.imul3 (.imm8s .v32 .edx (.reg .ecx) 0xFE#8), 3) ∧
  decode [0x37#8] = some (.aaa, 1) ∧
  decode [0x0F#8, 0xA3#8, 0x0B#8] =
    some (.bt (.reg .v32 (.mem ⟨none, some .ebx, none, .none⟩) .ecx), 3) ∧
  decode [0x0F#8, 0x9C#8, 0xC1#8] = some (.setl (.reg .ecx), 3) ∧
  decode [0xC1#8, 0xE7#8, 0x02#8] = some (.shl .dword (.reg .edi) (.imm 2#8), 3) ∧
  decode [0x0F#8, 0xAD#8, 0xD0#8] = some (.shrd .v32 (.reg .eax) .edx .cl, 3) ∧
  decode [0xE8#8, 0x0B#8, 0x00#8, 0x00#8, 0x00#8] = some (.callRel 0x0B#32, 5) ∧
  decode [0xF2#8, 0xAE#8] = some (.repne (.scas .byte), 2) ∧
  decode [0xC8#8, 0x00#8, 0x08#8, 0x03#8] = some (.enter 2048#16 3#8, 4) ∧
  decode [0x66#8, 0x9D#8] = some (.popf, 2) ∧
  decode [0x8D#8, 0x44#8, 0xB3#8, 0x08#8] =
    some (.lea .v32 .eax ⟨none, some .ebx, some (.esi, .x4), .d8 8#8⟩, 4) ∧
  decode [0x66#8, 0x90#8] = some (.opsize, 2) ∧
  decode [0xFA#8] = some (.cli, 1)

/-- What the decoder answers is a term that has an encoding (no ESP as index, no reserved group member as an
instruction), of at least one byte and no more than were given (30_encoding.md R102, R111, R125). -/
def Obligations.DecodeWellFormed : Prop :=
  ∀ (bs : List Byte) (i : Instr) (n : Nat), decode bs = some (i, n) → i.wf = true ∧ 0 < n ∧ n ≤ bs.length

/-- An admitted instruction has at most 12 bytes, a refused prefix sequence is recognised within 15, and 15 bytes always
suffice to decide (30_encoding.md R102). -/
def Obligations.DecodeLength : Prop :=
  (∀ (bs : List Byte) (i : Instr) (n : Nat), decode bs = some (i, n) →
    n ≤ 15 ∧ (isPrefix i = false → n ≤ 12)) ∧
  (∀ bs : List Byte, 15 ≤ bs.length → ∃ r, decode bs = some r)

/-- Decoding looks at the bytes of the instruction and at no others (30_encoding.md R102, 60_exceptions.md R507 item 1:
bytes are read as decoding needs them). -/
def Obligations.DecodeLocal : Prop :=
  (∀ (bs tail : List Byte) (i : Instr) (n : Nat), decode bs = some (i, n) →
    decode (bs.take n ++ tail) = some (i, n)) ∧
  (∀ (bs tail : List Byte), decode (bs ++ tail) = none → decode bs = none)

/-! ### The step -/

/-- Fetchable bytes at pc decode to an instruction, whatever encoding of it they are and whether or not more bytes can be
fetched: the step runs it, in the state with the model's own two counters moved on (log 10, log 11); with TF = 0 nothing
else is added (60_exceptions.md R507, R508). -/
def Obligations.StepRunsDecoded : Prop :=
  ∀ (s : State) (bs : List Byte) (i : Instr) (n : Nat), Running s → s.flags.tf = false → BytesAt s bs →
    decode bs = some (i, n) → step s = exec i { s with ilen := n, draws := s.draws + 1 }

/-- Where the bytes that the encoder writes for a well-formed instruction stand at pc, and no more need to, the step runs
it (60_exceptions.md R507). -/
def Obligations.StepRunsEncoded : Prop :=
  ∀ (s : State) (i : Instr), Running s → s.flags.tf = false → i.wf = true → BytesAt s (encode i) →
    step s = exec i { s with ilen := (encode i).length, draws := s.draws + 1 }

/-- When the fetchable bytes do not yet make an instruction, the first byte that cannot be fetched decides:
`MemFault(a, fetch)` where it is unmapped, `Refuse(AddressWrap)` where it lies past the top (60_exceptions.md R507 item
1, 20_memory.md R75, 10_state.md R28; of a segment base that is not 0: log 15). -/
def Obligations.FetchStopsAtUnreadableByte : Prop :=
  ∀ (s : State) (bs : List Byte), Running s → BytesAt s bs → decode bs = none →
    (s.pc.toNat + bs.length < Config.addressSpace → (s.la .cs s.pc).toNat + bs.length < Config.addressSpace →
      s.readable ((s.la .cs s.pc).toNat + bs.length) = false →
      step s = .fault (.memFault ((s.la .cs s.pc).toNat + bs.length) .fetch)) ∧
    (Config.addressSpace ≤ s.pc.toNat + bs.length ∨ Config.addressSpace ≤ (s.la .cs s.pc).toNat + bs.length →
      step s = .refused .addressWrap)

/-- At `HALT_ADDR` no byte is fetched and, the model's choice (log 7), the state stands; in any mode but protected mode
with 32-bit code and, the model's reading (log 9), a 32-bit stack, the step is refused; so is the step from reset
(70_reset_and_hazards.md R552, 00_scope.md R5, 10_state.md R45). -/
def Obligations.HaltedStandsModeRefused : Prop :=
  (∀ s : State, s.haltAddr = some s.pc → step s = .next s) ∧
  (∀ s : State, s.haltAddr ≠ some s.pc →
    ¬(s.sys.cr0.pe = true ∧ s.flags.vm = false ∧ s.segs.cs.default32 = true ∧ s.segs.ss.default32 = true) →
    step s = .refused .modeNotAdmitted) ∧
  step State.reset = .refused .modeNotAdmitted

/-- The single step (60_exceptions.md R508): a step that begins with TF = 1 runs its instruction, in whatever encoding, by
the ordinary rules, a next state becomes `Fault(1, SingleStep)` with that state, any other outcome stands; no instruction
but POPF and POPFD changes TF. -/
def Obligations.SingleStepEndsInTrap : Prop :=
  (∀ (s : State) (bs : List Byte) (i : Instr) (n : Nat), Running s → s.flags.tf = true → BytesAt s bs →
    decode bs = some (i, n) →
    (∀ t, exec i { s with ilen := n, draws := s.draws + 1 } = .next t → step s = .fault (.exception 1#8 .singleStep t)) ∧
    (∀ f, exec i { s with ilen := n, draws := s.draws + 1 } = .fault f → step s = .fault f) ∧
    (∀ r, exec i { s with ilen := n, draws := s.draws + 1 } = .refused r → step s = .refused r)) ∧
  (∀ (s t : State) (i : Instr), exec i s = .next t → i ≠ .popf → i ≠ .popfd → t.flags.tf = s.flags.tf)

/-- The exceptions a step reports, and the state each carries (60_exceptions.md R500, R503): a divide error carries the
state before the instruction; a software interrupt that state with pc = npc; the single step the completed state. The
model's own two counters are those of the instruction (log 14). -/
def Obligations.ExceptionsPrecise : Prop :=
  ∀ (s c : State) (v : Byte) (info : ExcInfo), step s = .fault (.exception v info c) →
    ∃ (i : Instr) (n : Nat), s.fetch = .ok (i, n) ∧
      ((info = .divideError ∧ v = 0#8 ∧ c = { s with ilen := n, draws := s.draws + 1 } ∧
          ∃ z e, i = .div z e ∨ i = .idiv z e) ∨
       (info = .softwareInterrupt ∧
          c = { s with ilen := n, draws := s.draws + 1, pc := BitVec.ofNat 32 (s.pc.toNat + n) } ∧
          (i = .int v ∨ (i = .int3 ∧ v = 3#8) ∨ (i = .into ∧ v = 4#8 ∧ s.flags.ofl = true))) ∨
       (info = .singleStep ∧ v = 1#8 ∧ s.flags.tf = true ∧
          exec i { s with ilen := n, draws := s.draws + 1 } = .next c))

/-- A memory fault names an address below the top that the memory map does not admit for its kind of access, and an
instruction that is running faults on reads and writes only (20_memory.md R75). -/
def Obligations.MemFaultAddress : Prop :=
  (∀ (i : Instr) (s : State) (a : Nat) (k : AccessKind), exec i s = .fault (.memFault a k) →
    a < Config.addressSpace ∧ k ≠ .fetch ∧ (k = .read → s.readable a = false) ∧
      (k = .write → s.writable a = false)) ∧
  (∀ (s : State) (a : Nat), step s = .fault (.memFault a .fetch) → a < Config.addressSpace ∧ s.readable a = false)

/-! ### What every step keeps -/

/-- The canonical form of memory (log 5) is kept by every step. -/
def Obligations.StepKeepsMemoryCanonical : Prop :=
  ∀ s t : State, Memory.wf s.mem = true → step s = .next t → Memory.wf t.mem = true

/-- The segment registers, the system registers, the privilege level, the launch parameters, RF and VM never change
(10_state.md R40, R41, 48_flag_control.md R429, 49_coprocessor_segment_misc.md R444, 60_exceptions.md R520), so the mode
stays the admitted one. -/
def Obligations.StepKeepsEnvironment : Prop :=
  ∀ s t : State, step s = .next t →
    t.segs = s.segs ∧ t.sys = s.sys ∧ t.cpl = s.cpl ∧ t.memMap = s.memMap ∧ t.code = s.code ∧
    t.haltAddr = s.haltAddr ∧ t.flags.rf = s.flags.rf ∧ t.flags.vm = s.flags.vm ∧
    (s.modeAdmitted = true → t.modeAdmitted = true)

/-- No step changes a byte that is not `rw` in the memory map or that is in `CODE` (20_memory.md R75, R83,
70_reset_and_hazards.md R561: fetched bytes are constant for the whole run). -/
def Obligations.ProtectedBytesConstant : Prop :=
  ∀ (s t : State) (a : Nat), step s = .next t → s.writable a = false ∨ s.inCode a = true →
    Memory.get t.mem a = Memory.get s.mem a

/-- Which instructions write which flags (10_state.md R35): those the table marks with no entry change no flag; DF is
changed by CLD, STD, POPF, POPFD only; TF, NT, IF and IOPL by POPF and POPFD only. -/
def Obligations.FlagsChangeOnlyUnderTheirWriters : Prop :=
  ∀ (i : Instr) (s t : State), exec i s = .next t →
    (leavesFlags i = true → t.flags = s.flags) ∧
    (t.flags.df ≠ s.flags.df → i = .cld ∨ i = .std ∨ i = .popf ∨ i = .popfd) ∧
    (t.flags.tf ≠ s.flags.tf ∨ t.flags.nt ≠ s.flags.nt ∨ t.flags.ifl ≠ s.flags.ifl ∨ t.flags.iopl ≠ s.flags.iopl →
      i = .popf ∨ i = .popfd)

/-- A run from a launched state (70_reset_and_hazards.md R551), for every `CPL` and `IOPL0`: as long as its steps answer
next states, the mode, the flat segments, CPL, VM, RF and the bytes of `CODE` are as at the launch, IOPL is `IOPL0` unless
CPL is 0, IF is 1 where CPL is above `IOPL0`, memory is canonical, and wherever pc is at an instruction of the program the
run has not ended and all bytes of that instruction stand there and can be fetched (10_state.md R33, 20_memory.md R83,
48_flag_control.md R429). How the premises that speak of the program are written is the model's reading (log 27). -/
def Obligations.LaunchedRunInvariant : Prop :=
  ∀ (p : LaunchParams) (s t : State), Launched p s → Reaches s t →
    t.modeAdmitted = true ∧ t.segs = s.segs ∧ t.sys = s.sys ∧ t.cpl = p.cpl ∧
    (p.cpl ≠ 0#2 → t.flags.iopl = p.iopl0) ∧ (p.iopl0.toNat < p.cpl.toNat → t.flags.ifl = true) ∧
    t.flags.vm = false ∧ t.flags.rf = false ∧ Memory.wf t.mem = true ∧
    (∀ a, s.inCode a = true → Memory.get t.mem a = Memory.get s.mem a) ∧
    ∀ x ∈ p.program, x.addr = t.pc → Running t ∧ BytesAt t x.bytes

/-! ### Registers, memory, addresses, flags -/

/-- Reading and writing a register name touches the bits that name covers and no other (10_state.md R21, R22). -/
def Obligations.RegisterNameReadsWritesCoveredBits : Prop :=
  ∀ (r : Regs) (z : Size) (g : GReg) (v : BitVec z.bits),
    (∀ k < z.bits, (r.read z g).getLsbD k = (r.get (namePlace z g).1).getLsbD ((namePlace z g).2 + k)) ∧
    (∀ (h : GReg) (k : Nat), k < 32 → ((r.write z g v).get h).getLsbD k =
      if h = (namePlace z g).1 ∧ (namePlace z g).2 ≤ k ∧ k < (namePlace z g).2 + z.bits then
        v.getLsbD (k - (namePlace z g).2)
      else (r.get h).getLsbD k)

/-- Little-endian memory (20_memory.md R70, 00_scope.md R13): what a write stores is read back; byte `k` of the access
holds bits `8k+7` to `8k`; a narrower read sees the low part, and the word two bytes on the high part. -/
def Obligations.StoreThenLoadReturnsValue : Prop :=
  (∀ (s t : State) (seg : Seg) (off : Word) (z : Size) (v : BitVec z.bits), s.memWrite seg off z v = .ok t →
    t.memRead seg off z = .ok v ∧
    (∀ k < z.bytes, Memory.get t.mem ((s.la seg off).toNat + k) = v.extractLsb' (8 * k) 8) ∧
    ∀ b, b < (s.la seg off).toNat ∨ (s.la seg off).toNat + z.bytes ≤ b →
      Memory.get t.mem b = Memory.get s.mem b) ∧
  (∀ (s : State) (seg : Seg) (off v : Word), s.memRead seg off .dword = .ok v →
    s.memRead seg off .byte = .ok (v.extractLsb' 0 8) ∧ s.memRead seg off .word = .ok (v.extractLsb' 0 16) ∧
    s.memRead seg (off + 2#32) .word = .ok (v.extractLsb' 16 16))

/-- When an access is admitted, and how one that is not ends (20_memory.md R68, R75, R83, 60_exceptions.md R507): past the
top `Refuse(AddressWrap)`, else a fault at the lowest byte not admitted (log 20), else `Refuse(StoreIntoCode)`. And every
instruction whose accesses are not all admitted stops so, at the first check that fails in the order in which it reads and
writes (R507 items 3 and 5; the relative CALL's target is checked first, log 12; ENTER, log 16); where every check holds,
no instruction stops at an access. -/
def Obligations.AccessAdmittedOrStops : Prop :=
  (∀ (s : State) (seg : Seg) (off : Word) (z : Size) (v : BitVec z.bits),
    (¬(off.toNat + z.bytes ≤ 4294967296 ∧ (s.la seg off).toNat + z.bytes ≤ 4294967296) →
      s.memRead seg off z = .error (.refuse .addressWrap) ∧
      s.memWrite seg off z v = .error (.refuse .addressWrap)) ∧
    (off.toNat + z.bytes ≤ 4294967296 → (s.la seg off).toNat + z.bytes ≤ 4294967296 →
      ((∀ k < z.bytes, s.readable ((s.la seg off).toNat + k) = true) → ∃ x, s.memRead seg off z = .ok x) ∧
      (∀ k < z.bytes, s.readable ((s.la seg off).toNat + k) = false →
        (∀ j < k, s.readable ((s.la seg off).toNat + j) = true) →
        s.memRead seg off z = .error (.fault (.memFault ((s.la seg off).toNat + k) .read))) ∧
      (∀ k < z.bytes, s.writable ((s.la seg off).toNat + k) = false →
        (∀ j < k, s.writable ((s.la seg off).toNat + j) = true) →
        s.memWrite seg off z v = .error (.fault (.memFault ((s.la seg off).toNat + k) .write))) ∧
      ((∀ k < z.bytes, s.writable ((s.la seg off).toNat + k) = true) →
        ((∃ k < z.bytes, s.inCode ((s.la seg off).toNat + k) = true) →
          s.memWrite seg off z v = .error (.refuse .storeIntoCode)) ∧
        ((∀ k < z.bytes, s.inCode ((s.la seg off).toNat + k) = false) → ∃ t, s.memWrite seg off z v = .ok t)))) ∧
  (∀ (i : Instr) (s : State),
    (∀ f, (accessChecks s i).findSome? (Check.stop s) = some (.fault f) → exec i s = .fault f) ∧
    (∀ r, (accessChecks s i).findSome? (Check.stop s) = some (.refuse r) → exec i s = .refused r) ∧
    ((accessChecks s i).findSome? (Check.stop s) = none →
      (∀ a k, exec i s ≠ .fault (.memFault a k)) ∧ exec i s ≠ .refused .storeIntoCode))

/-- The effective address is the sum of the components modulo 2^32, the scale 1, 2, 4 or 8, the displacement signed; the
default segment is SS for ESP or EBP as base and DS otherwise; the linear address adds the segment base
(20_memory.md R64, R65, R66). -/
def Obligations.EffectiveAddressSumAndSegment : Prop :=
  ∀ (s : State) (m : MemOp),
    ((s.ea m).toNat : Int) =
      ((match m.base with
          | none => 0
          | some b => ((s.regs.get b).toNat : Int)) +
        (match m.index with
          | none => 0
          | some (x, .x1) => ((s.regs.get x).toNat : Int)
          | some (x, .x2) => 2 * ((s.regs.get x).toNat : Int)
          | some (x, .x4) => 4 * ((s.regs.get x).toNat : Int)
          | some (x, .x8) => 8 * ((s.regs.get x).toNat : Int)) +
        (match m.disp with
          | .none => 0
          | .d8 d => d.toInt
          | .d32 d => d.toInt)) % 4294967296 ∧
    (m.ovr = none → operandSeg m = if m.base = some .esp ∨ m.base = some .ebp then .ss else .ds) ∧
    (∀ g, m.ovr = some g → operandSeg m = g) ∧
    ∀ (g : Seg) (off : Word), (s.la g off).toNat = ((s.segs.get g).base.toNat + off.toNat) % 4294967296

/-! ### Binary arithmetic (41_binary_arithmetic.md) -/

/-- ADD and ADC (R231, R232): where the operands are admitted they answer a next state in which the destination holds the
sum, the six status flags are those of the sum, and nothing else but pc changes. -/
def Obligations.AddAdcSumFlagsFrame : Prop :=
  ∀ (f : AluForm) (s : State), s.HasNext → s.locWritable (aluSize f) (aluDst s f) = true →
    aluSrcReadable s f = true →
    (∃ t r, exec (.add f) s = .next t ∧
      AddRule (s.valueAt (aluSize f) (aluDst s f)) (aluSrcValue s f) false r s.flags t.flags ∧
      LocWritten s t (aluSize f) (aluDst s f) r ∧ Falls s t) ∧
    (∃ t r, exec (.adc f) s = .next t ∧
      AddRule (s.valueAt (aluSize f) (aluDst s f)) (aluSrcValue s f) s.flags.cf r s.flags t.flags ∧
      LocWritten s t (aluSize f) (aluDst s f) r ∧ Falls s t)

/-- SUB, SBB and NEG likewise with the difference (R234, R235, R238); CMP writes the flags only, and its first operand
need only be readable (R237). -/
def Obligations.SubSbbCmpNegDifferenceFlagsFrame : Prop :=
  (∀ (f : AluForm) (s : State), s.HasNext → s.locWritable (aluSize f) (aluDst s f) = true →
    aluSrcReadable s f = true →
    (∃ t r, exec (.sub f) s = .next t ∧
      SubRule (s.valueAt (aluSize f) (aluDst s f)) (aluSrcValue s f) false r s.flags t.flags ∧
      LocWritten s t (aluSize f) (aluDst s f) r ∧ Falls s t) ∧
    (∃ t r, exec (.sbb f) s = .next t ∧
      SubRule (s.valueAt (aluSize f) (aluDst s f)) (aluSrcValue s f) s.flags.cf r s.flags t.flags ∧
      LocWritten s t (aluSize f) (aluDst s f) r ∧ Falls s t)) ∧
  (∀ (f : AluForm) (s : State), s.HasNext → s.locReadable (aluSize f) (aluDst s f) = true →
    aluSrcReadable s f = true →
    ∃ t r, exec (.cmp f) s = .next t ∧
      SubRule (s.valueAt (aluSize f) (aluDst s f)) (aluSrcValue s f) false r s.flags t.flags ∧
      DataSame s t ∧ Falls s t) ∧
  (∀ (z : Size) (e : RM) (s : State), s.HasNext → s.locWritable z (s.resolve e) = true →
    ∃ t r, exec (.neg z e) s = .next t ∧ SubRule 0 (s.valueAt z (s.resolve e)) false r s.flags t.flags ∧
      LocWritten s t z (s.resolve e) r ∧ Falls s t)

/-- INC and DEC (R233, R236): the sum or difference with 1 and its flags, but CF as before. -/
def Obligations.IncDecKeepCarry : Prop :=
  ∀ (f : IncForm) (s : State), s.HasNext → s.locWritable (incSize f) (incLoc s f) = true →
    (∃ t r g, exec (.inc f) s = .next t ∧ AddRule (s.valueAt (incSize f) (incLoc s f)) 1 false r s.flags g ∧
      t.flags = { g with cf := s.flags.cf } ∧ LocWritten s t (incSize f) (incLoc s f) r ∧ Falls s t) ∧
    (∃ t r g, exec (.dec f) s = .next t ∧ SubRule (s.valueAt (incSize f) (incLoc s f)) 1 false r s.flags g ∧
      t.flags = { g with cf := s.flags.cf } ∧ LocWritten s t (incSize f) (incLoc s f) r ∧ Falls s t)

/-- MUL and one-operand IMUL (R240, R241): the register pair holds the whole product, unsigned or signed, and CF = OF say
whether its upper half matters. -/
def Obligations.MulImulWholeProductInPair : Prop :=
  ∀ (z : Size) (e : RM) (s : State), s.HasNext → s.locReadable z (s.resolve e) = true →
    (∃ t hi lo, exec (.mul z e) s = .next t ∧
      hi.toNat * 2 ^ z.bits + lo.toNat = (s.reg z .eax).toNat * (s.valueAt z (s.resolve e)).toNat ∧
      t.regs = (s.regs.write z (hiReg z) hi).write z .eax lo ∧ MemSame s t ∧
      MulFlagRule (decide (hi.toNat ≠ 0)) s.flags t.flags ∧ Falls s t) ∧
    (∃ t hi lo, exec (.imul1 z e) s = .next t ∧
      (hi ++ lo).toInt = (s.reg z .eax).toInt * (s.valueAt z (s.resolve e)).toInt ∧
      t.regs = (s.regs.write z (hiReg z) hi).write z .eax lo ∧ MemSame s t ∧
      MulFlagRule (decide ((hi ++ lo).toInt ≠ lo.toInt)) s.flags t.flags ∧ Falls s t)

/-- Two- and three-operand IMUL (R242, R243): the destination register holds the product truncated to the operand width
(the same for the signed and the unsigned reading), CF = OF say whether the signed product was lost. -/
def Obligations.ImulTruncatedProduct : Prop :=
  (∀ (v : VSize) (g : GReg) (e : RM) (s : State), s.HasNext → s.locReadable v.size (s.resolve e) = true →
    ∃ t r, exec (.imul2 v g e) s = .next t ∧
      r.toNat = (s.reg v.size g).toNat * (s.valueAt v.size (s.resolve e)).toNat % 2 ^ v.size.bits ∧
      t.regs = s.regs.write v.size g r ∧ MemSame s t ∧
      MulFlagRule (decide (r.toInt ≠ (s.reg v.size g).toInt * (s.valueAt v.size (s.resolve e)).toInt))
        s.flags t.flags ∧ Falls s t) ∧
  (∀ (v : VSize) (g : GReg) (e : RM) (i : BitVec v.size.bits) (s : State), s.HasNext →
    s.locReadable v.size (s.resolve e) = true →
    ∃ t r, exec (.imul3 (.imm v g e i)) s = .next t ∧
      r.toNat = (s.valueAt v.size (s.resolve e)).toNat * i.toNat % 2 ^ v.size.bits ∧
      t.regs = s.regs.write v.size g r ∧ MemSame s t ∧
      MulFlagRule (decide (r.toInt ≠ (s.valueAt v.size (s.resolve e)).toInt * i.toInt)) s.flags t.flags ∧
      Falls s t) ∧
  (∀ (v : VSize) (g : GReg) (e : RM) (i : Byte) (s : State), s.HasNext →
    s.locReadable v.size (s.resolve e) = true →
    ∃ t r, exec (.imul3 (.imm8s v g e i)) s = .next t ∧
      ((s.valueAt v.size (s.resolve e)).toInt * i.toInt - r.toInt) % 2 ^ v.size.bits = 0 ∧
      t.regs = s.regs.write v.size g r ∧ MemSame s t ∧
      MulFlagRule (decide (r.toInt ≠ (s.valueAt v.size (s.resolve e)).toInt * i.toInt)) s.flags t.flags ∧
      Falls s t)

/-- DIV and IDIV where they do not fault (R245, R246): quotient and remainder with `n = q*d + m`, the remainder smaller
than the divisor and with the sign of the dividend; the six status flags are left open. -/
def Obligations.DivIdivQuotientRemainder : Prop :=
  (∀ (z : Size) (e : RM) (s : State), s.HasNext → s.locReadable z (s.resolve e) = true →
    (s.reg z (hiReg z)).toNat < (s.valueAt z (s.resolve e)).toNat →
    ∃ t q m, exec (.div z e) s = .next t ∧
      (s.reg z (hiReg z)).toNat * 2 ^ z.bits + (s.reg z .eax).toNat =
        q.toNat * (s.valueAt z (s.resolve e)).toNat + m.toNat ∧
      m.toNat < (s.valueAt z (s.resolve e)).toNat ∧
      t.regs = (s.regs.write z (hiReg z) m).write z .eax q ∧ MemSame s t ∧ StatusFree s.flags t.flags ∧ Falls s t) ∧
  (∀ (z : Size) (e : RM) (s : State), s.HasNext → s.locReadable z (s.resolve e) = true →
    (s.valueAt z (s.resolve e)).toInt ≠ 0 →
    -2 ^ (z.bits - 1) ≤ (s.reg z (hiReg z) ++ s.reg z .eax).toInt.tdiv (s.valueAt z (s.resolve e)).toInt →
    (s.reg z (hiReg z) ++ s.reg z .eax).toInt.tdiv (s.valueAt z (s.resolve e)).toInt < 2 ^ (z.bits - 1) →
    ∃ t q m, exec (.idiv z e) s = .next t ∧
      (s.reg z (hiReg z) ++ s.reg z .eax).toInt = q.toInt * (s.valueAt z (s.resolve e)).toInt + m.toInt ∧
      m.toInt.natAbs < (s.valueAt z (s.resolve e)).toInt.natAbs ∧
      (m.toInt = 0 ∨ (m.toInt < 0 ↔ (s.reg z (hiReg z) ++ s.reg z .eax).toInt < 0)) ∧
      t.regs = (s.regs.write z (hiReg z) m).write z .eax q ∧ MemSame s t ∧ StatusFree s.flags t.flags ∧ Falls s t)

/-- The divide error (R245, R246, 60_exceptions.md R503): vector 0 and the state as it was, exactly when the divisor is 0
or the quotient does not fit; for DIV that is when the high half of the dividend is not below the divisor. -/
def Obligations.DivideErrorRaisedWhen : Prop :=
  (∀ (z : Size) (e : RM) (s : State), s.locReadable z (s.resolve e) = true →
    (s.valueAt z (s.resolve e)).toNat ≤ (s.reg z (hiReg z)).toNat →
    exec (.div z e) s = .fault (.exception 0#8 .divideError s)) ∧
  (∀ (z : Size) (e : RM) (s : State), s.locReadable z (s.resolve e) = true →
    ((s.valueAt z (s.resolve e)).toInt = 0 ∨
      2 ^ (z.bits - 1) ≤ (s.reg z (hiReg z) ++ s.reg z .eax).toInt.tdiv (s.valueAt z (s.resolve e)).toInt ∨
      (s.reg z (hiReg z) ++ s.reg z .eax).toInt.tdiv (s.valueAt z (s.resolve e)).toInt < -2 ^ (z.bits - 1)) →
    exec (.idiv z e) s = .fault (.exception 0#8 .divideError s))

/-! ### Decimal adjusts (42_decimal_arithmetic.md) -/

/-- AAA and AAS (R270, R271): AL becomes a digit, AH takes the carry or the borrow, CF = AF say whether there was one; the
other four status flags are left open. Byte register ESP is AH.

DAA and DAS (R272, R273): AL is adjusted by 6 and by 0x60, the second test on the original AL and CF; OF is left
open. -/
def Obligations.DecimalAdjustResultFlags : Prop :=
  ∀ s : State, s.HasNext →
    (∃ t al ah, exec .aaa s = .next t ∧
      al.toNat = (if 9 < (s.reg .byte .eax).toNat % 16 ∨ s.flags.af = true then (s.reg .byte .eax).toNat + 6
        else (s.reg .byte .eax).toNat) % 16 ∧
      ah.toNat = (if 9 < (s.reg .byte .eax).toNat % 16 ∨ s.flags.af = true then (s.reg .byte .esp).toNat + 1
        else (s.reg .byte .esp).toNat) % 256 ∧
      t.regs = (s.regs.write .byte .eax al).write .byte .esp ah ∧ MemSame s t ∧ StatusFree s.flags t.flags ∧
      t.flags.cf = decide (9 < (s.reg .byte .eax).toNat % 16 ∨ s.flags.af = true) ∧
      t.flags.af = decide (9 < (s.reg .byte .eax).toNat % 16 ∨ s.flags.af = true) ∧ Falls s t) ∧
    (∃ t al ah, exec .aas s = .next t ∧
      (al.toNat : Int) = (if 9 < (s.reg .byte .eax).toNat % 16 ∨ s.flags.af = true then
          ((s.reg .byte .eax).toNat : Int) - 6 else (s.reg .byte .eax).toNat) % 16 ∧
      (ah.toNat : Int) = (if 9 < (s.reg .byte .eax).toNat % 16 ∨ s.flags.af = true then
          ((s.reg .byte .esp).toNat : Int) - 1 else (s.reg .byte .esp).toNat) % 256 ∧
      t.regs = (s.regs.write .byte .eax al).write .byte .esp ah ∧ MemSame s t ∧ StatusFree s.flags t.flags ∧
      t.flags.cf = decide (9 < (s.reg .byte .eax).toNat % 16 ∨ s.flags.af = true) ∧
      t.flags.af = decide (9 < (s.reg .byte .eax).toNat % 16 ∨ s.flags.af = true) ∧ Falls s t) ∧
    (∃ t al, exec .daa s = .next t ∧
      al.toNat = ((s.reg .byte .eax).toNat +
        (if 9 < (s.reg .byte .eax).toNat % 16 ∨ s.flags.af = true then 6 else 0) +
        (if 0x99 < (s.reg .byte .eax).toNat ∨ s.flags.cf = true then 0x60 else 0)) % 256 ∧
      t.regs = s.regs.write .byte .eax al ∧ MemSame s t ∧
      t.flags = { s.flags with
        cf := decide (0x99 < (s.reg .byte .eax).toNat ∨ s.flags.cf = true)
        af := decide (9 < (s.reg .byte .eax).toNat % 16 ∨ s.flags.af = true)
        sf := al.getLsbD 7
        zf := decide (al.toNat = 0)
        pf := evenParity al
        ofl := t.flags.ofl } ∧ Falls s t) ∧
    (∃ t al, exec .das s = .next t ∧
      (al.toNat : Int) = (((s.reg .byte .eax).toNat : Int) -
        (if 9 < (s.reg .byte .eax).toNat % 16 ∨ s.flags.af = true then 6 else 0) -
        (if 0x99 < (s.reg .byte .eax).toNat ∨ s.flags.cf = true then 0x60 else 0)) % 256 ∧
      t.regs = s.regs.write .byte .eax al ∧ MemSame s t ∧
      t.flags = { s.flags with
        cf := decide (0x99 < (s.reg .byte .eax).toNat ∨ s.flags.cf = true ∨
          ((s.reg .byte .eax).toNat < 6 ∧ s.flags.af = true))
        af := decide (9 < (s.reg .byte .eax).toNat % 16 ∨ s.flags.af = true)
        sf := al.getLsbD 7
        zf := decide (al.toNat = 0)
        pf := evenParity al
        ofl := t.flags.ofl } ∧ Falls s t)

/-! ### Data movement and conversion (40_data_movement.md) -/

/-- MOV (R201): the destination holds the source's value, no flag changes. Every form. -/
def Obligations.MovCopiesValueOnly : Prop :=
  ∀ (s : State) (z : Size), s.HasNext →
    (∀ e g, s.locWritable z (s.resolve e) = true → ∃ t, exec (.mov (.rmReg z e g)) s = .next t ∧
      LocWritten s t z (s.resolve e) (s.reg z g) ∧ t.flags = s.flags ∧ Falls s t) ∧
    (∀ g e, s.locReadable z (s.resolve e) = true → ∃ t, exec (.mov (.regRm z g e)) s = .next t ∧
      LocWritten s t z (.reg g) (s.valueAt z (s.resolve e)) ∧ t.flags = s.flags ∧ Falls s t) ∧
    (∀ g i, ∃ t, exec (.mov (.regImm z g i)) s = .next t ∧
      LocWritten s t z (.reg g) i ∧ t.flags = s.flags ∧ Falls s t) ∧
    (∀ e i, s.locWritable z (s.resolve e) = true → ∃ t, exec (.mov (.rmImm z e i)) s = .next t ∧
      LocWritten s t z (s.resolve e) i ∧ t.flags = s.flags ∧ Falls s t) ∧
    (∀ (o : Option Seg) off, s.CanRead (o.getD .ds) off z.bytes →
      ∃ t, exec (.mov (.accMoffs z o off)) s = .next t ∧
        LocWritten s t z (.reg .eax) (s.memValue (o.getD .ds) off z) ∧ t.flags = s.flags ∧ Falls s t) ∧
    (∀ (o : Option Seg) off, s.CanWrite (o.getD .ds) off z.bytes →
      ∃ t, exec (.mov (.moffsAcc z o off)) s = .next t ∧
        LocWritten s t z (.mem (o.getD .ds) off) (s.reg z .eax) ∧ t.flags = s.flags ∧ Falls s t)

/-- XCHG (R204): both operands hold the other's old value, and nothing else changes but pc. -/
def Obligations.XchgSwapsOperands : Prop :=
  (∀ (s : State) (z : Size) (r g : GReg), s.HasNext → ∃ t, exec (.xchg (.rmReg z (.reg r) g)) s = .next t ∧
    t.regs = (s.regs.write z r (s.reg z g)).write z g (s.reg z r) ∧ t.reg z r = s.reg z g ∧
    t.reg z g = s.reg z r ∧ MemSame s t ∧ t.flags = s.flags ∧ Falls s t) ∧
  (∀ (s : State) (z : Size) (m : MemOp) (g : GReg), s.HasNext → s.CanWrite (operandSeg m) (s.ea m) z.bytes →
    ∃ t, exec (.xchg (.rmReg z (.mem m) g)) s = .next t ∧
      t.regs = s.regs.write z g (s.memValue (operandSeg m) (s.ea m) z) ∧
      MemStored s t (s.la (operandSeg m) (s.ea m)).toNat z.bytes (s.reg z g).toNat ∧ t.flags = s.flags ∧
      Falls s t) ∧
  (∀ (s : State) (v : VSize) (g : GReg), s.HasNext → ∃ t, exec (.xchg (.accReg v g)) s = .next t ∧
    t.regs = (s.regs.write v.size .eax (s.reg v.size g)).write v.size g (s.reg v.size .eax) ∧
    t.reg v.size .eax = s.reg v.size g ∧ t.reg v.size g = s.reg v.size .eax ∧ MemSame s t ∧
    t.flags = s.flags ∧ Falls s t)

/-- PUSH (R205): the source, read with ESP as it is before, is stored below ESP, and ESP is lowered by its width.

POP (R206): the value at ESP goes to the destination after ESP is raised; an address that uses ESP sees it raised. -/
def Obligations.PushPopMoveThroughStack : Prop :=
  (∀ (s : State) (v : VSize), s.HasNext → s.CanPush v.size.bytes →
    (∀ g, ∃ t, exec (.push (.reg v g)) s = .next t ∧ Pushed s t v.size.bytes (s.reg v.size g).toNat ∧
      t.flags = s.flags ∧ Falls s t) ∧
    (∀ e, s.locReadable v.size (s.resolve e) = true → ∃ t, exec (.push (.rm v e)) s = .next t ∧
      Pushed s t v.size.bytes (s.valueAt v.size (s.resolve e)).toNat ∧ t.flags = s.flags ∧ Falls s t) ∧
    (∀ i, ∃ t, exec (.push (.imm v i)) s = .next t ∧ Pushed s t v.size.bytes i.toNat ∧
      t.flags = s.flags ∧ Falls s t) ∧
    (∀ i : Byte, ∃ t x, exec (.push (.imm8s v i)) s = .next t ∧
      (x : BitVec v.size.bits).toInt = i.toInt ∧ Pushed s t v.size.bytes x.toNat ∧ t.flags = s.flags ∧ Falls s t)) ∧
  (∀ (s : State) (v : VSize), s.HasNext → s.CanRead .ss s.regs.esp v.size.bytes →
    (∀ g, ∃ t, exec (.pop (.reg v g)) s = .next t ∧
      t.regs = (s.regs.set .esp (s.regs.esp + BitVec.ofNat 32 v.size.bytes)).write v.size g
        (s.memValue .ss s.regs.esp v.size) ∧ MemSame s t ∧ t.flags = s.flags ∧ Falls s t) ∧
    (∀ (e : RM) (u : State), u = { s with regs := s.regs.set .esp (s.regs.esp + BitVec.ofNat 32 v.size.bytes) } →
      u.locWritable v.size (u.resolve e) = true → ∃ t, exec (.pop (.rm v e)) s = .next t ∧
        LocWritten u t v.size (u.resolve e) (s.memValue .ss s.regs.esp v.size) ∧ t.flags = s.flags ∧ Falls s t))

/-- CBW, CWDE, CWD, CDQ, MOVSX and MOVZX (R210 to R215): the destination has the source's signed value, for MOVZX its
unsigned value; no flag changes. -/
def Obligations.ConversionsKeepValue : Prop :=
  ∀ s : State, s.HasNext →
    (∃ t x, exec .cbw s = .next t ∧ x.toInt = (s.reg .byte .eax).toInt ∧
      LocWritten s t .word (.reg .eax) x ∧ t.flags = s.flags ∧ Falls s t) ∧
    (∃ t x, exec .cwde s = .next t ∧ x.toInt = (s.reg .word .eax).toInt ∧
      LocWritten s t .dword (.reg .eax) x ∧ t.flags = s.flags ∧ Falls s t) ∧
    (∃ t x, exec .cwd s = .next t ∧ (x ++ s.reg .word .eax).toInt = (s.reg .word .eax).toInt ∧
      LocWritten s t .word (.reg .edx) x ∧ t.flags = s.flags ∧ Falls s t) ∧
    (∃ t x, exec .cdq s = .next t ∧ (x ++ s.reg .dword .eax).toInt = (s.reg .dword .eax).toInt ∧
      LocWritten s t .dword (.reg .edx) x ∧ t.flags = s.flags ∧ Falls s t) ∧
    (∀ (v : VSize) g e, s.locReadable .byte (s.resolve e) = true →
      (∃ t x, exec (.movsx (.byte v g e)) s = .next t ∧
        (x : BitVec v.size.bits).toInt = (s.valueAt .byte (s.resolve e)).toInt ∧
        LocWritten s t v.size (.reg g) x ∧ t.flags = s.flags ∧ Falls s t) ∧
      (∃ t x, exec (.movzx (.byte v g e)) s = .next t ∧
        (x : BitVec v.size.bits).toNat = (s.valueAt .byte (s.resolve e)).toNat ∧
        LocWritten s t v.size (.reg g) x ∧ t.flags = s.flags ∧ Falls s t)) ∧
    (∀ g e, s.locReadable .word (s.resolve e) = true →
      (∃ t x, exec (.movsx (.word g e)) s = .next t ∧ x.toInt = (s.valueAt .word (s.resolve e)).toInt ∧
        LocWritten s t .dword (.reg g) x ∧ t.flags = s.flags ∧ Falls s t) ∧
      (∃ t x, exec (.movzx (.word g e)) s = .next t ∧ x.toNat = (s.valueAt .word (s.resolve e)).toNat ∧
        LocWritten s t .dword (.reg g) x ∧ t.flags = s.flags ∧ Falls s t))

/-! ### Logic and bits (43_logical.md) -/

/-- AND, OR, XOR, NOT and TEST (R280 to R285), bit by bit; NOT changes no flag, TEST writes the flags only. -/
def Obligations.BooleanBitwiseResultFlags : Prop :=
  (∀ (f : AluForm) (s : State), s.HasNext → s.locWritable (aluSize f) (aluDst s f) = true →
    aluSrcReadable s f = true →
    (∃ t r, exec (.and f) s = .next t ∧
      (∀ k, r.getLsbD k = ((s.valueAt (aluSize f) (aluDst s f)).getLsbD k && (aluSrcValue s f).getLsbD k)) ∧
      LogicRule r s.flags t.flags ∧ LocWritten s t (aluSize f) (aluDst s f) r ∧ Falls s t) ∧
    (∃ t r, exec (.or f) s = .next t ∧
      (∀ k, r.getLsbD k = ((s.valueAt (aluSize f) (aluDst s f)).getLsbD k || (aluSrcValue s f).getLsbD k)) ∧
      LogicRule r s.flags t.flags ∧ LocWritten s t (aluSize f) (aluDst s f) r ∧ Falls s t) ∧
    (∃ t r, exec (.xor f) s = .next t ∧
      (∀ k, r.getLsbD k = ((s.valueAt (aluSize f) (aluDst s f)).getLsbD k ^^ (aluSrcValue s f).getLsbD k)) ∧
      LogicRule r s.flags t.flags ∧ LocWritten s t (aluSize f) (aluDst s f) r ∧ Falls s t)) ∧
  (∀ (z : Size) (e : RM) (s : State), s.HasNext → s.locWritable z (s.resolve e) = true →
    ∃ t r, exec (.not z e) s = .next t ∧ r.toNat = 2 ^ z.bits - 1 - (s.valueAt z (s.resolve e)).toNat ∧
      LocWritten s t z (s.resolve e) r ∧ t.flags = s.flags ∧ Falls s t) ∧
  (∀ (z : Size) (s : State), s.HasNext →
    (∀ e g, s.locReadable z (s.resolve e) = true → ∃ t, exec (.test (.rmReg z e g)) s = .next t ∧
      LogicRule (s.valueAt z (s.resolve e) &&& s.reg z g) s.flags t.flags ∧ DataSame s t ∧ Falls s t) ∧
    (∀ i, ∃ t, exec (.test (.accImm z i)) s = .next t ∧
      LogicRule (s.reg z .eax &&& i) s.flags t.flags ∧ DataSame s t ∧ Falls s t) ∧
    (∀ e i, s.locReadable z (s.resolve e) = true → ∃ t, exec (.test (.rmImm z e i)) s = .next t ∧
      LogicRule (s.valueAt z (s.resolve e) &&& i) s.flags t.flags ∧ DataSame s t ∧ Falls s t))

/-- BT, BTS, BTR and BTC (R291 to R294): CF is the selected bit as it was; then it is left, set, cleared, complemented; the
other bits of the container stay, the other five status flags are left open.

Where the selected bit is (R290): within the register, within the operand at an immediate offset, or in the bit
string that a signed register offset reaches either side of the operand, in units of the operand width. -/
def Obligations.BitTestSelectsAndChangesBit : Prop :=
  (∀ (f : BitForm) (s : State), s.HasNext →
    (s.locReadable (bitSize f) (bitLoc s f).1 = true → ∃ t, exec (.bt f) s = .next t ∧
      BitFlagRule ((s.valueAt (bitSize f) (bitLoc s f).1).getLsbD (bitLoc s f).2) s.flags t.flags ∧
      DataSame s t ∧ Falls s t) ∧
    (s.locWritable (bitSize f) (bitLoc s f).1 = true →
      (∃ t r, exec (.bts f) s = .next t ∧ LocWritten s t (bitSize f) (bitLoc s f).1 r ∧
        (∀ k < (bitSize f).bits, r.getLsbD k = if k = (bitLoc s f).2 then true
          else (s.valueAt (bitSize f) (bitLoc s f).1).getLsbD k) ∧
        BitFlagRule ((s.valueAt (bitSize f) (bitLoc s f).1).getLsbD (bitLoc s f).2) s.flags t.flags ∧ Falls s t) ∧
      (∃ t r, exec (.btr f) s = .next t ∧ LocWritten s t (bitSize f) (bitLoc s f).1 r ∧
        (∀ k < (bitSize f).bits, r.getLsbD k = if k = (bitLoc s f).2 then false
          else (s.valueAt (bitSize f) (bitLoc s f).1).getLsbD k) ∧
        BitFlagRule ((s.valueAt (bitSize f) (bitLoc s f).1).getLsbD (bitLoc s f).2) s.flags t.flags ∧ Falls s t) ∧
      (∃ t r, exec (.btc f) s = .next t ∧ LocWritten s t (bitSize f) (bitLoc s f).1 r ∧
        (∀ k < (bitSize f).bits, r.getLsbD k =
          if k = (bitLoc s f).2 then !(s.valueAt (bitSize f) (bitLoc s f).1).getLsbD k
          else (s.valueAt (bitSize f) (bitLoc s f).1).getLsbD k) ∧
        BitFlagRule ((s.valueAt (bitSize f) (bitLoc s f).1).getLsbD (bitLoc s f).2) s.flags t.flags ∧ Falls s t))) ∧
  (∀ (s : State) (v : VSize),
    (∀ e (i : Byte), bitLoc s (.imm v e i) = (s.resolve e, i.toNat % v.size.bits)) ∧
    (∀ r g, bitLoc s (.reg v (.reg r) g) = (.reg r, (s.reg v.size g).toNat % v.size.bits)) ∧
    (∀ m g, ∃ (off : Word) (i : Nat) (k : Int), bitLoc s (.reg v (.mem m) g) = (.mem (operandSeg m) off, i) ∧
      i < v.size.bits ∧ (s.reg v.size g).toInt = k * v.size.bits + i ∧
      (off.toNat : Int) = ((s.ea m).toNat + v.size.bytes * k) % 4294967296))

/-- BSF and BSR (R296, R297): the lowest or the highest set bit's number and ZF = 0, or ZF = 1 and a destination left open;
the other five status flags are left open. -/
def Obligations.BitScanFindsSetBit : Prop :=
  ∀ (v : VSize) (g : GReg) (e : RM) (s : State), s.HasNext → s.locReadable v.size (s.resolve e) = true →
    (s.valueAt v.size (s.resolve e) = 0 →
      (∃ t d, exec (.bsf v g e) s = .next t ∧ LocWritten s t v.size (.reg g) d ∧
        ScanFlagRule true s.flags t.flags ∧ Falls s t) ∧
      (∃ t d, exec (.bsr v g e) s = .next t ∧ LocWritten s t v.size (.reg g) d ∧
        ScanFlagRule true s.flags t.flags ∧ Falls s t)) ∧
    (s.valueAt v.size (s.resolve e) ≠ 0 →
      (∃ t d, exec (.bsf v g e) s = .next t ∧ LocWritten s t v.size (.reg g) d ∧ d.toNat < v.size.bits ∧
        (s.valueAt v.size (s.resolve e)).getLsbD d.toNat = true ∧
        (∀ k < d.toNat, (s.valueAt v.size (s.resolve e)).getLsbD k = false) ∧
        ScanFlagRule false s.flags t.flags ∧ Falls s t) ∧
      (∃ t d, exec (.bsr v g e) s = .next t ∧ LocWritten s t v.size (.reg g) d ∧ d.toNat < v.size.bits ∧
        (s.valueAt v.size (s.resolve e)).getLsbD d.toNat = true ∧
        (∀ k, d.toNat < k → (s.valueAt v.size (s.resolve e)).getLsbD k = false) ∧
        ScanFlagRule false s.flags t.flags ∧ Falls s t))

/-- SETcc, all sixteen (R300, 45_control_transfer.md R340): the byte is 1 where the condition holds and 0 where it does
not. -/
def Obligations.SetByteOnCondition : Prop :=
  ∀ c ∈ conditionTable, ∀ (e : RM) (s : State), s.HasNext → s.locWritable .byte (s.resolve e) = true →
    ∃ t, exec (c.1 e) s = .next t ∧ LocWritten s t .byte (s.resolve e) (if c.2.2 s.flags then 1#8 else 0#8) ∧
      t.flags = s.flags ∧ Falls s t

/-! ### Shifts and rotates (44_shift_rotate.md) -/

/-- A masked count of 0 (R310): the operand is read, nothing is written and no flag changes, in all nine instructions. -/
def Obligations.ShiftByZeroChangesNothing : Prop :=
  (∀ (z : Size) (e : RM) (c : Count) (s : State), s.HasNext → s.locReadable z (s.resolve e) = true →
    (s.count c).toNat % 32 = 0 →
    ∀ i ∈ [Instr.shl z e c, .shr z e c, .sar z e c, .rol z e c, .ror z e c, .rcl z e c, .rcr z e c],
      ∃ t, exec i s = .next t ∧ DataSame s t ∧ t.flags = s.flags ∧ Falls s t) ∧
  (∀ (v : VSize) (e : RM) (g : GReg) (c : DCount) (s : State), s.HasNext →
    s.locReadable v.size (s.resolve e) = true → (s.dcount c).toNat % 32 = 0 →
    ∀ i ∈ [Instr.shld v e g c, .shrd v e g c],
      ∃ t, exec i s = .next t ∧ DataSame s t ∧ t.flags = s.flags ∧ Falls s t)

/-- SHL, SHR and SAR by a masked count `n` of at least 1 (R311 to R313): the result, CF where it is defined, OF for
`n = 1`, SF ZF PF of the result. -/
def Obligations.ShiftsResultFlags : Prop :=
  ∀ (z : Size) (e : RM) (c : Count) (s : State) (n : Nat), s.HasNext → s.locWritable z (s.resolve e) = true →
    n = (s.count c).toNat % 32 → 1 ≤ n →
    (∃ t r, exec (.shl z e c) s = .next t ∧
      r.toNat = (s.valueAt z (s.resolve e)).toNat * 2 ^ n % 2 ^ z.bits ∧
      (n < z.bits → t.flags.cf = (s.valueAt z (s.resolve e)).getLsbD (z.bits - n)) ∧
      (n = 1 → t.flags.ofl = (r.getLsbD (z.bits - 1) ^^ t.flags.cf)) ∧
      ShiftFlagRule r s.flags t.flags ∧ LocWritten s t z (s.resolve e) r ∧ Falls s t) ∧
    (∃ t r, exec (.shr z e c) s = .next t ∧
      r.toNat = (s.valueAt z (s.resolve e)).toNat / 2 ^ n ∧
      (n < z.bits → t.flags.cf = (s.valueAt z (s.resolve e)).getLsbD (n - 1)) ∧
      (n = 1 → t.flags.ofl = (s.valueAt z (s.resolve e)).getLsbD (z.bits - 1)) ∧
      ShiftFlagRule r s.flags t.flags ∧ LocWritten s t z (s.resolve e) r ∧ Falls s t) ∧
    (∃ t r, exec (.sar z e c) s = .next t ∧
      r.toInt = (s.valueAt z (s.resolve e)).toInt.fdiv (2 ^ n) ∧
      (n ≤ z.bits - 1 → t.flags.cf = (s.valueAt z (s.resolve e)).getLsbD (n - 1)) ∧
      (z.bits ≤ n → t.flags.cf = (s.valueAt z (s.resolve e)).getLsbD (z.bits - 1)) ∧
      (n = 1 → t.flags.ofl = false) ∧
      ShiftFlagRule r s.flags t.flags ∧ LocWritten s t z (s.resolve e) r ∧ Falls s t)

/-- SHLD and SHRD by a masked count `n` of at least 1 (R315, R316): bits come in from the register operand, bit by bit; OF
and AF are left open. For `n` above the width the destination and all six status flags are left open. -/
def Obligations.DoubleShiftsResultFlags : Prop :=
  ∀ (v : VSize) (e : RM) (g : GReg) (c : DCount) (s : State) (n : Nat), s.HasNext →
    s.locWritable v.size (s.resolve e) = true → n = (s.dcount c).toNat % 32 → 1 ≤ n →
    (n ≤ v.size.bits →
      (∃ t r, exec (.shld v e g c) s = .next t ∧
        (∀ k < v.size.bits, r.getLsbD k = if n ≤ k then (s.valueAt v.size (s.resolve e)).getLsbD (k - n)
          else (s.reg v.size g).getLsbD (v.size.bits - n + k)) ∧
        t.flags.cf = (s.valueAt v.size (s.resolve e)).getLsbD (v.size.bits - n) ∧
        ShiftFlagRule r s.flags t.flags ∧ LocWritten s t v.size (s.resolve e) r ∧ Falls s t) ∧
      (∃ t r, exec (.shrd v e g c) s = .next t ∧
        (∀ k < v.size.bits, r.getLsbD k = if k + n < v.size.bits then
            (s.valueAt v.size (s.resolve e)).getLsbD (k + n)
          else (s.reg v.size g).getLsbD (k + n - v.size.bits)) ∧
        t.flags.cf = (s.valueAt v.size (s.resolve e)).getLsbD (n - 1) ∧
        ShiftFlagRule r s.flags t.flags ∧ LocWritten s t v.size (s.resolve e) r ∧ Falls s t)) ∧
    (v.size.bits < n →
      (∃ t r, exec (.shld v e g c) s = .next t ∧ StatusFree s.flags t.flags ∧
        LocWritten s t v.size (s.resolve e) r ∧ Falls s t) ∧
      (∃ t r, exec (.shrd v e g c) s = .next t ∧ StatusFree s.flags t.flags ∧
        LocWritten s t v.size (s.resolve e) r ∧ Falls s t))

/-- ROL and ROR by a masked count `n` of at least 1 (R320, R321), bit by bit: every bit moves by `n` modulo the width; CF
is the bit that came round last, OF is defined for `n = 1`, no other flag changes. -/
def Obligations.RotatesMoveEveryBit : Prop :=
  ∀ (z : Size) (e : RM) (c : Count) (s : State) (n : Nat), s.HasNext → s.locWritable z (s.resolve e) = true →
    n = (s.count c).toNat % 32 → 1 ≤ n →
    (∃ t r, exec (.rol z e c) s = .next t ∧
      (∀ k < z.bits, r.getLsbD ((k + n) % z.bits) = (s.valueAt z (s.resolve e)).getLsbD k) ∧
      t.flags.cf = r.getLsbD 0 ∧ (n = 1 → t.flags.ofl = (r.getLsbD (z.bits - 1) ^^ r.getLsbD 0)) ∧
      RotateFlagRule s.flags t.flags ∧ LocWritten s t z (s.resolve e) r ∧ Falls s t) ∧
    (∃ t r, exec (.ror z e c) s = .next t ∧
      (∀ k < z.bits, r.getLsbD k = (s.valueAt z (s.resolve e)).getLsbD ((k + n) % z.bits)) ∧
      t.flags.cf = r.getLsbD (z.bits - 1) ∧
      (n = 1 → t.flags.ofl = (r.getLsbD (z.bits - 1) ^^ r.getLsbD (z.bits - 2))) ∧
      RotateFlagRule s.flags t.flags ∧ LocWritten s t z (s.resolve e) r ∧ Falls s t)

/-- RCL and RCR by a masked count `n` of at least 1 (R322, R323), bit by bit: the string of the operand with CF above it is
rotated by `n` modulo its length. -/
def Obligations.RotatesThroughCarryMoveEveryBit : Prop :=
  ∀ (z : Size) (e : RM) (c : Count) (s : State) (n : Nat), s.HasNext → s.locWritable z (s.resolve e) = true →
    n = (s.count c).toNat % 32 → 1 ≤ n →
    (∃ t r, exec (.rcl z e c) s = .next t ∧
      (∀ k < z.bits + 1, (BitVec.ofBool t.flags.cf ++ r).getLsbD ((k + n) % (z.bits + 1)) =
        (BitVec.ofBool s.flags.cf ++ s.valueAt z (s.resolve e)).getLsbD k) ∧
      (n = 1 → t.flags.ofl = (r.getLsbD (z.bits - 1) ^^ t.flags.cf)) ∧
      RotateFlagRule s.flags t.flags ∧ LocWritten s t z (s.resolve e) r ∧ Falls s t) ∧
    (∃ t r, exec (.rcr z e c) s = .next t ∧
      (∀ k < z.bits + 1, (BitVec.ofBool t.flags.cf ++ r).getLsbD k =
        (BitVec.ofBool s.flags.cf ++ s.valueAt z (s.resolve e)).getLsbD ((k + n) % (z.bits + 1))) ∧
      (n = 1 → t.flags.ofl = (r.getLsbD (z.bits - 1) ^^ r.getLsbD (z.bits - 2))) ∧
      RotateFlagRule s.flags t.flags ∧ LocWritten s t z (s.resolve e) r ∧ Falls s t)

/-! ### Control transfer (45_control_transfer.md) -/

/-- JMP and the sixteen Jcc (R339 to R343): pc alone changes, to the target where the jump is taken; a taken relative
jump whose target arithmetic leaves the address space is refused. -/
def Obligations.JumpsGoToTarget : Prop :=
  (∀ (d : Rel) (s : State), s.CanBranch (relValue d) →
    exec (.jmpRel d) s = .next { s with pc := s.npc + relValue d }) ∧
  (∀ (d : Rel) (s : State), ¬s.CanBranch (relValue d) → exec (.jmpRel d) s = .refused .addressWrap) ∧
  (∀ (e : RM) (s : State), s.locReadable .dword (s.resolve e) = true →
    exec (.jmpInd e) s = .next { s with pc := s.valueAt .dword (s.resolve e) }) ∧
  (∀ c ∈ conditionTable, ∀ (d : Rel) (s : State),
    (c.2.2 s.flags = true → s.CanBranch (relValue d) →
      exec (c.2.1 d) s = .next { s with pc := s.npc + relValue d }) ∧
    (c.2.2 s.flags = true → ¬s.CanBranch (relValue d) → exec (c.2.1 d) s = .refused .addressWrap) ∧
    (c.2.2 s.flags = false → s.HasNext → exec (c.2.1 d) s = .next { s with pc := s.npc }))

/-- CALL and RET, near (R345 to R348): the return address is pushed and pc is the target; pc is popped, and RET n raises
ESP by n more. Where an indirect CALL ends exactly at the top of the address space, the npc it pushes is taken modulo
2^32: the model's reading, log 12 (DEDUCED, unsafe). -/
def Obligations.CallPushesRetPops : Prop :=
  (∀ (d : Word) (s : State), s.CanBranch d → s.CanPush 4 → ∃ t, exec (.callRel d) s = .next t ∧
    Pushed s t 4 s.npc.toNat ∧ t.pc = s.npc + d ∧ t.flags = s.flags ∧ EnvSame s t) ∧
  (∀ (e : RM) (s : State), s.locReadable .dword (s.resolve e) = true → s.CanPush 4 →
    ∃ t, exec (.callInd e) s = .next t ∧ Pushed s t 4 s.npc.toNat ∧ t.pc = s.valueAt .dword (s.resolve e) ∧
      t.flags = s.flags ∧ EnvSame s t) ∧
  (∀ s : State, s.CanRead .ss s.regs.esp 4 →
    exec .ret s = .next { s with
      pc := s.memValue .ss s.regs.esp .dword
      regs := s.regs.set .esp (s.regs.esp + 4#32) }) ∧
  (∀ (n : BitVec 16) (s : State), s.CanRead .ss s.regs.esp 4 →
    exec (.retImm n) s = .next { s with
      pc := s.memValue .ss s.regs.esp .dword
      regs := s.regs.set .esp (s.regs.esp + 4#32 + BitVec.ofNat 32 n.toNat) })

/-- LOOP, LOOPE, LOOPNE and JECXZ (R350 to R353): ECX is lowered without touching the flags, and the branch is taken
while it is not 0 (and ZF is 1, or 0); JECXZ branches where ECX is 0 and lowers nothing. -/
def Obligations.LoopsCountDownAndBranch : Prop :=
  ∀ (d : Byte) (s : State),
    (s.regs.ecx ≠ 1#32 → s.CanBranch (d.signExtend 32) →
      exec (.loop d) s = .next { s with
        regs := s.regs.set .ecx (s.regs.ecx - 1#32), pc := s.npc + d.signExtend 32 } ∧
      (s.flags.zf = true → exec (.loope d) s = .next { s with
        regs := s.regs.set .ecx (s.regs.ecx - 1#32), pc := s.npc + d.signExtend 32 }) ∧
      (s.flags.zf = false → exec (.loopne d) s = .next { s with
        regs := s.regs.set .ecx (s.regs.ecx - 1#32), pc := s.npc + d.signExtend 32 })) ∧
    (s.HasNext →
      (s.regs.ecx = 1#32 → exec (.loop d) s = .next { s with
        regs := s.regs.set .ecx 0#32, pc := s.npc }) ∧
      (s.regs.ecx = 1#32 ∨ s.flags.zf = false → exec (.loope d) s = .next { s with
        regs := s.regs.set .ecx (s.regs.ecx - 1#32), pc := s.npc }) ∧
      (s.regs.ecx = 1#32 ∨ s.flags.zf = true → exec (.loopne d) s = .next { s with
        regs := s.regs.set .ecx (s.regs.ecx - 1#32), pc := s.npc }) ∧
      (s.regs.ecx ≠ 0#32 → exec (.jecxz d) s = .next { s with pc := s.npc })) ∧
    (s.regs.ecx = 0#32 → s.CanBranch (d.signExtend 32) →
      exec (.jecxz d) s = .next { s with pc := s.npc + d.signExtend 32 })

/-- INT n, INT 3 and INTO (R360 to R362): the fault with the vector and the state with pc = npc; INTO with OF = 0 goes on
at the next instruction. -/
def Obligations.SoftwareInterruptsRaiseVector : Prop :=
  ∀ s : State, s.HasNext →
    (∀ n : Byte, exec (.int n) s = .fault (.exception n .softwareInterrupt { s with pc := s.npc })) ∧
    exec .int3 s = .fault (.exception 3#8 .softwareInterrupt { s with pc := s.npc }) ∧
    (s.flags.ofl = true → exec .into s = .fault (.exception 4#8 .softwareInterrupt { s with pc := s.npc })) ∧
    (s.flags.ofl = false → exec .into s = .next { s with pc := s.npc })

/-! ### Strings (46_string.md) -/

/-- MOVS, LODS and STOS alone (R380, R383, R386, R387): the element is moved, the index registers advance by its size in
the direction of DF, no flag changes. -/
def Obligations.StringMovesMoveElement : Prop :=
  (∀ (z : Size) (o : Option Seg) (s : State) (i : Instr), s.HasNext →
    (z = .byte ∧ i = .movsb o ∨ ∃ v : VSize, z = v.size ∧ i = .movsd v o) →
    s.CanRead (o.getD .ds) s.regs.esi z.bytes → s.CanWrite .es s.regs.edi z.bytes →
    ∃ t, exec i s = .next t ∧
      MemStored s t (s.la .es s.regs.edi).toNat z.bytes (s.memValue (o.getD .ds) s.regs.esi z).toNat ∧
      t.regs = (s.regs.set .esi (s.regs.esi + s.strDelta z)).set .edi (s.regs.edi + s.strDelta z) ∧
      t.flags = s.flags ∧ Falls s t) ∧
  (∀ (z : Size) (o : Option Seg) (s : State) (i : Instr), s.HasNext →
    (z = .byte ∧ i = .lodsb o ∨ ∃ v : VSize, z = v.size ∧ i = .lodsd v o) →
    s.CanRead (o.getD .ds) s.regs.esi z.bytes →
    ∃ t, exec i s = .next t ∧ MemSame s t ∧
      t.regs = (s.regs.write z .eax (s.memValue (o.getD .ds) s.regs.esi z)).set .esi
        (s.regs.esi + s.strDelta z) ∧ t.flags = s.flags ∧ Falls s t) ∧
  (∀ (z : Size) (s : State) (i : Instr), s.HasNext →
    (z = .byte ∧ i = .stosb ∨ ∃ v : VSize, z = v.size ∧ i = .stosd v) →
    s.CanWrite .es s.regs.edi z.bytes →
    ∃ t, exec i s = .next t ∧ MemStored s t (s.la .es s.regs.edi).toNat z.bytes (s.reg z .eax).toNat ∧
      t.regs = s.regs.set .edi (s.regs.edi + s.strDelta z) ∧ t.flags = s.flags ∧ Falls s t)

/-- CMPS and SCAS alone (R380, R384, R385): the six status flags of the difference, the index registers advanced, nothing
stored. -/
def Obligations.StringComparesSetFlags : Prop :=
  (∀ (z : Size) (o : Option Seg) (s : State) (i : Instr), s.HasNext →
    (z = .byte ∧ i = .cmpsb o ∨ ∃ v : VSize, z = v.size ∧ i = .cmpsd v o) →
    s.CanRead (o.getD .ds) s.regs.esi z.bytes → s.CanRead .es s.regs.edi z.bytes →
    ∃ t r, exec i s = .next t ∧
      SubRule (s.memValue (o.getD .ds) s.regs.esi z) (s.memValue .es s.regs.edi z) false r s.flags t.flags ∧
      t.regs = (s.regs.set .esi (s.regs.esi + s.strDelta z)).set .edi (s.regs.edi + s.strDelta z) ∧
      MemSame s t ∧ Falls s t) ∧
  (∀ (z : Size) (s : State) (i : Instr), s.HasNext →
    (z = .byte ∧ i = .scasb ∨ ∃ v : VSize, z = v.size ∧ i = .scasd v) →
    s.CanRead .es s.regs.edi z.bytes →
    ∃ t r, exec i s = .next t ∧
      SubRule (s.reg z .eax) (s.memValue .es s.regs.edi z) false r s.flags t.flags ∧
      t.regs = s.regs.set .edi (s.regs.edi + s.strDelta z) ∧ MemSame s t ∧ Falls s t)

/-- REP (R381, R383, R386, R387, 45_control_transfer.md R355). With ECX = 0 there is no iteration and pc alone moves on.
Else a step is one iteration: the element is moved as by the primitive alone, ECX is
lowered, and pc stays at the instruction unless ECX is now 0. -/
def Obligations.RepeatMovesOneIterationAStep : Prop :=
  ∀ (z : Size) (s : State), s.HasNext →
    (s.regs.ecx = 0#32 → ∀ p, exec (.rep p) s = .next { s with pc := s.npc }) ∧
    (s.regs.ecx ≠ 0#32 →
    (∀ o : Option Seg, s.CanRead (o.getD .ds) s.regs.esi z.bytes → s.CanWrite .es s.regs.edi z.bytes →
      ∃ t, exec (.rep (.movs z o)) s = .next t ∧
        MemStored s t (s.la .es s.regs.edi).toNat z.bytes (s.memValue (o.getD .ds) s.regs.esi z).toNat ∧
        t.regs = ((s.regs.set .esi (s.regs.esi + s.strDelta z)).set .edi (s.regs.edi + s.strDelta z)).set .ecx
          (s.regs.ecx - 1#32) ∧
        t.pc = (if s.regs.ecx = 1#32 then s.npc else s.pc) ∧ t.flags = s.flags ∧ EnvSame s t) ∧
    (∀ o : Option Seg, s.CanRead (o.getD .ds) s.regs.esi z.bytes →
      ∃ t, exec (.rep (.lods z o)) s = .next t ∧ MemSame s t ∧
        t.regs = ((s.regs.write z .eax (s.memValue (o.getD .ds) s.regs.esi z)).set .esi
          (s.regs.esi + s.strDelta z)).set .ecx (s.regs.ecx - 1#32) ∧
        t.pc = (if s.regs.ecx = 1#32 then s.npc else s.pc) ∧ t.flags = s.flags ∧ EnvSame s t) ∧
    (s.CanWrite .es s.regs.edi z.bytes →
      ∃ t, exec (.rep (.stos z)) s = .next t ∧
        MemStored s t (s.la .es s.regs.edi).toNat z.bytes (s.reg z .eax).toNat ∧
        t.regs = (s.regs.set .edi (s.regs.edi + s.strDelta z)).set .ecx (s.regs.ecx - 1#32) ∧
        t.pc = (if s.regs.ecx = 1#32 then s.npc else s.pc) ∧ t.flags = s.flags ∧ EnvSame s t))

/-- REPE and REPNE (R381, R384, R385, R355). With ECX = 0 there is no iteration and pc alone moves on. Else a step is one
iteration: the comparison as by the primitive alone, ECX
lowered, and the instruction ends when ECX is now 0 or the ZF of this comparison is 0 (REPE) or 1 (REPNE). -/
def Obligations.RepeatComparesOneIterationAStep : Prop :=
  (∀ s : State, s.HasNext → s.regs.ecx = 0#32 →
    (∀ p, exec (.repe p) s = .next { s with pc := s.npc }) ∧
    (∀ p, exec (.repne p) s = .next { s with pc := s.npc })) ∧
  (∀ (z : Size) (o : Option Seg) (s : State), s.HasNext → s.regs.ecx ≠ 0#32 →
    s.CanRead (o.getD .ds) s.regs.esi z.bytes → s.CanRead .es s.regs.edi z.bytes →
    ∀ p ∈ [(Instr.repe (.cmps z o), false), (Instr.repne (.cmps z o), true)],
      ∃ t r, exec p.1 s = .next t ∧
        SubRule (s.memValue (o.getD .ds) s.regs.esi z) (s.memValue .es s.regs.edi z) false r s.flags t.flags ∧
        t.regs = ((s.regs.set .esi (s.regs.esi + s.strDelta z)).set .edi (s.regs.edi + s.strDelta z)).set .ecx
          (s.regs.ecx - 1#32) ∧
        t.pc = (if s.regs.ecx = 1#32 ∨ t.flags.zf = p.2 then s.npc else s.pc) ∧ MemSame s t ∧ EnvSame s t) ∧
  (∀ (z : Size) (s : State), s.HasNext → s.regs.ecx ≠ 0#32 → s.CanRead .es s.regs.edi z.bytes →
    ∀ p ∈ [(Instr.repe (.scas z), false), (Instr.repne (.scas z), true)],
      ∃ t r, exec p.1 s = .next t ∧
        SubRule (s.reg z .eax) (s.memValue .es s.regs.edi z) false r s.flags t.flags ∧
        t.regs = (s.regs.set .edi (s.regs.edi + s.strDelta z)).set .ecx (s.regs.ecx - 1#32) ∧
        t.pc = (if s.regs.ecx = 1#32 ∨ t.flags.zf = p.2 then s.npc else s.pc) ∧ MemSame s t ∧ EnvSame s t)

/-! ### Block structure and stack round trips (47_block_structured.md, 45, 48) -/

/-- ENTER (R410): with level `L` modulo 32 it pushes `L + 1` doublewords (one for level 0): the old EBP, the `L - 1`
entries of the display, which lie below EBP, and the new frame pointer; EBP is left at the saved EBP, ESP below the
frame and the storage; every other byte and register is as before. -/
def Obligations.EnterBuildsFrame : Prop :=
  ∀ (size : BitVec 16) (lvl : Byte) (s : State) (lev cnt : Nat), s.HasNext → lev = lvl.toNat % 32 →
    cnt = (if lev = 0 then 1 else lev + 1) →
    (∀ k < cnt, s.CanWrite .ss (s.regs.esp - BitVec.ofNat 32 (4 * (k + 1))) 4) →
    (∀ j < lev - 1, s.CanRead .ss (s.regs.ebp - BitVec.ofNat 32 (4 * (j + 1))) 4) →
    ∃ t, exec (.enter size lvl) s = .next t ∧
      t.regs = (s.regs.set .ebp (s.regs.esp - 4#32)).set .esp
        (s.regs.esp - BitVec.ofNat 32 (4 * cnt) - BitVec.ofNat 32 size.toNat) ∧
      t.flags = s.flags ∧ Falls s t ∧
      (∀ a, (∀ k < cnt, a < (s.la .ss (s.regs.esp - BitVec.ofNat 32 (4 * (k + 1)))).toNat ∨
          (s.la .ss (s.regs.esp - BitVec.ofNat 32 (4 * (k + 1)))).toNat + 4 ≤ a) →
        Memory.get t.mem a = Memory.get s.mem a) ∧
      t.memValue .ss (s.regs.esp - 4#32) .dword = s.regs.ebp ∧
      (0 < lev → t.memValue .ss (s.regs.esp - BitVec.ofNat 32 (4 * cnt)) .dword = s.regs.esp - 4#32) ∧
      ((∀ j < lev - 1, ∀ k < cnt,
          (s.la .ss (s.regs.ebp - BitVec.ofNat 32 (4 * (j + 1)))).toNat + 4 ≤
              (s.la .ss (s.regs.esp - BitVec.ofNat 32 (4 * (k + 1)))).toNat ∨
            (s.la .ss (s.regs.esp - BitVec.ofNat 32 (4 * (k + 1)))).toNat + 4 ≤
              (s.la .ss (s.regs.ebp - BitVec.ofNat 32 (4 * (j + 1)))).toNat) →
        ∀ j < lev - 1, t.memValue .ss (s.regs.esp - BitVec.ofNat 32 (4 * (j + 2))) .dword =
          s.memValue .ss (s.regs.ebp - BitVec.ofNat 32 (4 * (j + 1))) .dword)

/-- LEAVE right after ENTER, whatever its size and level (R411): it answers a next state, and ESP, EBP and every other
register have their values from before the ENTER. -/
def Obligations.EnterLeaveRoundTrip : Prop :=
  ∀ (size : BitVec 16) (lvl : Byte) (s t : State), exec (.enter size lvl) s = .next t → t.HasNext →
    ∃ u, exec .leave t = .next u ∧ u.regs = s.regs ∧ u.flags = s.flags ∧ MemSame t u

/-- Returning right after a call (R345, R346, R347) continues behind the call with every register as before it; POPFD
right after PUSHFD (48_flag_control.md R428, R429) leaves every register and flag as before; POP undoes PUSH. -/
def Obligations.StackPairsRestore : Prop :=
  (∀ (i : Instr) (s t : State), ((∃ d, i = .callRel d) ∨ ∃ e, i = .callInd e) → exec i s = .next t →
    ∃ u, exec .ret t = .next u ∧ u.pc = s.npc ∧ u.regs = s.regs ∧ u.flags = s.flags ∧ MemSame t u) ∧
  (∀ s t : State, exec .pushfd s = .next t → t.HasNext →
    ∃ u, exec .popfd t = .next u ∧ u.regs = s.regs ∧ u.flags = s.flags ∧ MemSame t u) ∧
  (∀ (v : VSize) (g : GReg) (s t : State), exec (.push (.reg v g)) s = .next t → t.HasNext →
    ∃ u, exec (.pop (.reg v g)) t = .next u ∧ u.regs = s.regs ∧ u.flags = s.flags ∧ MemSame t u)

/-! ### Flag control (48_flag_control.md) -/

/-- STC, CLC, CMC, CLD and STD (R420 to R424): their one-byte encodings, with which an operand-size prefix is refused;
each changes its one flag, and pc. -/
def Obligations.FlagControlSetsOneFlag : Prop :=
  (decode [0xF9#8] = some (.stc, 1) ∧ decode [0xF8#8] = some (.clc, 1) ∧ decode [0xF5#8] = some (.cmc, 1) ∧
    decode [0xFC#8] = some (.cld, 1) ∧ decode [0xFD#8] = some (.std, 1)) ∧
  (∀ b ∈ [0xF9#8, 0xF8#8, 0xF5#8, 0xFC#8, 0xFD#8], decode [0x66#8, b] = some (.opsize, 2)) ∧
  (∀ s : State, exec .opsize s = .refused .prefixNotAdmitted) ∧
  ∀ s : State, s.HasNext →
    exec .stc s = .next { s with flags := { s.flags with cf := true }, pc := s.npc } ∧
    exec .clc s = .next { s with flags := { s.flags with cf := false }, pc := s.npc } ∧
    exec .cmc s = .next { s with flags := { s.flags with cf := !s.flags.cf }, pc := s.npc } ∧
    exec .cld s = .next { s with flags := { s.flags with df := false }, pc := s.npc } ∧
    exec .std s = .next { s with flags := { s.flags with df := true }, pc := s.npc }

/-- LAHF and SAHF (R426, R427): five flags to and from the bits of AH that have their numbers; AH bits 5, 3 and 1 are left
open by LAHF and ignored by SAHF. Byte register ESP is AH. -/
def Obligations.LahfSahfMoveStatusByte : Prop :=
  ∀ s : State, s.HasNext →
    (∃ t ah, exec .lahf s = .next t ∧ LocWritten s t .byte (.reg .esp) ah ∧
      ah.getLsbD 7 = s.flags.sf ∧ ah.getLsbD 6 = s.flags.zf ∧ ah.getLsbD 4 = s.flags.af ∧
      ah.getLsbD 2 = s.flags.pf ∧ ah.getLsbD 0 = s.flags.cf ∧ t.flags = s.flags ∧ Falls s t) ∧
    exec .sahf s = .next { s with
      flags := { s.flags with
        sf := (s.reg .byte .esp).getLsbD 7
        zf := (s.reg .byte .esp).getLsbD 6
        af := (s.reg .byte .esp).getLsbD 4
        pf := (s.reg .byte .esp).getLsbD 2
        cf := (s.reg .byte .esp).getLsbD 0 }
      pc := s.npc }

/-- PUSHF and PUSHFD (R428, 10_state.md R30, R34): the image has each flag at its bit, reserved bits as fixed, RF and VM
read as 0; PUSHF pushes its low word.

POPF and POPFD (R429): every flag is loaded from its bit, IF only where CPL is at most IOPL, IOPL only at CPL 0, RF and
VM never; ESP is raised by 2 or 4. -/
def Obligations.FlagStackPushPopImage : Prop :=
  (∀ s : State, s.HasNext →
    (s.CanPush 2 → ∃ t x, exec .pushf s = .next t ∧ Pushed s t 2 (x : BitVec 16).toNat ∧
      (∀ k < 16, x.getLsbD k = flagBit s.flags k) ∧ t.flags = s.flags ∧ Falls s t) ∧
    (s.CanPush 4 → ∃ t x, exec .pushfd s = .next t ∧ Pushed s t 4 (x : Word).toNat ∧
      (∀ k < 32, x.getLsbD k = (flagBit s.flags k && k != 16 && k != 17)) ∧ t.flags = s.flags ∧ Falls s t)) ∧
  (∀ (s : State) (v : VSize) (x : BitVec v.size.bits), s.HasNext → s.CanRead .ss s.regs.esp v.size.bytes →
    x = s.memValue .ss s.regs.esp v.size →
    exec (match v with | .v16 => .popf | .v32 => .popfd) s = .next { s with
      regs := s.regs.set .esp (s.regs.esp + BitVec.ofNat 32 v.size.bytes)
      pc := s.npc
      flags := {
        cf := x.getLsbD 0
        pf := x.getLsbD 2
        af := x.getLsbD 4
        zf := x.getLsbD 6
        sf := x.getLsbD 7
        tf := x.getLsbD 8
        ifl := if s.cpl.toNat ≤ s.flags.iopl.toNat then x.getLsbD 9 else s.flags.ifl
        df := x.getLsbD 10
        ofl := x.getLsbD 11
        iopl := if s.cpl = 0#2 then x.extractLsb' 12 2 else s.flags.iopl
        nt := x.getLsbD 14
        rf := s.flags.rf
        vm := s.flags.vm } })

/-! ### Miscellaneous (49_coprocessor_segment_misc.md), refusals -/

/-- WAIT, LEA, NOP and XLAT (R441, R450 to R452) and LEAVE (47_block_structured.md R411). -/
def Obligations.WaitNopLeaXlatLeaveEffects : Prop :=
  ∀ s : State, s.HasNext →
    exec .wait s = .next { s with pc := s.npc } ∧
    exec .nop s = .next { s with pc := s.npc } ∧
    (∀ (v : VSize) g m, ∃ t x, exec (.lea v g m) s = .next t ∧
      (x : BitVec v.size.bits).toNat = (s.ea m).toNat % 2 ^ v.size.bits ∧
      LocWritten s t v.size (.reg g) x ∧ t.flags = s.flags ∧ Falls s t) ∧
    (∀ (o : Option Seg) (a : Word), a.toNat = (s.regs.ebx.toNat + (s.reg .byte .eax).toNat) % 4294967296 →
      s.CanRead (o.getD .ds) a 1 → ∃ t, exec (.xlat o) s = .next t ∧
        LocWritten s t .byte (.reg .eax) (s.memValue (o.getD .ds) a .byte) ∧ t.flags = s.flags ∧ Falls s t) ∧
    (s.CanRead .ss s.regs.ebp 4 → exec .leave s = .next { s with
      regs := (s.regs.set .esp (s.regs.ebp + 4#32)).set .ebp (s.memValue .ss s.regs.ebp .dword)
      pc := s.npc })

/-- The encodings the spec refuses, each with its reason, in every state (30_encoding.md R105, R120 to R122, R125,
40_data_movement.md R219, 42_decimal_arithmetic.md R274, 45_control_transfer.md R365, R366, 48_flag_control.md R431,
49_coprocessor_segment_misc.md R440, R444 to R446, R455).

An instruction that is not among them is refused for two reasons only: its addresses pass the top of the space, or it
stores into `CODE` (10_state.md R28, 20_memory.md R68, R83). -/
def Obligations.RefusalsHaveSpecReason : Prop :=
  (∀ (i : Instr) (r : Refusal) (s : State), refusalOf i = some r → exec i s = .refused r) ∧
  (∀ (i : Instr) (r : Refusal) (s : State), refusalOf i = none → exec i s = .refused r →
    r = .addressWrap ∨ (r = .storeIntoCode ∧ storesNothing i = false))
end

