-- ==== Sys2Proof/Laws/State.lean ====
section
/-! SUPPORT. One lemma per field per update of the state, true by `rfl`: no later proof unfolds a record update. -/

namespace Sys2Proof.Laws

open Sys2Proof Sys2Proof.Machine

variable (s : State) (z : Size) (g : GReg) (n a w : Nat)

/-! ### A register write -/

@[simp] theorem setReg_regs (v : BitVec z.bits) : (s.setReg z g v).regs = s.regs.write z g v := rfl
@[simp] theorem setReg_pc (v : BitVec z.bits) : (s.setReg z g v).pc = s.pc := rfl
@[simp] theorem setReg_flags (v : BitVec z.bits) : (s.setReg z g v).flags = s.flags := rfl
@[simp] theorem setReg_segs (v : BitVec z.bits) : (s.setReg z g v).segs = s.segs := rfl
@[simp] theorem setReg_sys (v : BitVec z.bits) : (s.setReg z g v).sys = s.sys := rfl
@[simp] theorem setReg_cpl (v : BitVec z.bits) : (s.setReg z g v).cpl = s.cpl := rfl
@[simp] theorem setReg_mem (v : BitVec z.bits) : (s.setReg z g v).mem = s.mem := rfl
@[simp] theorem setReg_memMap (v : BitVec z.bits) : (s.setReg z g v).memMap = s.memMap := rfl
@[simp] theorem setReg_code (v : BitVec z.bits) : (s.setReg z g v).code = s.code := rfl
@[simp] theorem setReg_haltAddr (v : BitVec z.bits) : (s.setReg z g v).haltAddr = s.haltAddr := rfl
@[simp] theorem setReg_ilen (v : BitVec z.bits) : (s.setReg z g v).ilen = s.ilen := rfl
@[simp] theorem setReg_draws (v : BitVec z.bits) : (s.setReg z g v).draws = s.draws := rfl
@[simp] theorem setReg_nextPc (v : BitVec z.bits) : (s.setReg z g v).nextPc = s.nextPc := rfl
@[simp] theorem setReg_npc (v : BitVec z.bits) : (s.setReg z g v).npc = s.npc := rfl

/-! ### The status flags written -/

@[simp] theorem setStatus_regs (st : Status) : (s.setStatus st).regs = s.regs := rfl
@[simp] theorem setStatus_pc (st : Status) : (s.setStatus st).pc = s.pc := rfl
@[simp] theorem setStatus_flags (st : Status) : (s.setStatus st).flags = s.flags.withStatus st := rfl
@[simp] theorem setStatus_segs (st : Status) : (s.setStatus st).segs = s.segs := rfl
@[simp] theorem setStatus_sys (st : Status) : (s.setStatus st).sys = s.sys := rfl
@[simp] theorem setStatus_cpl (st : Status) : (s.setStatus st).cpl = s.cpl := rfl
@[simp] theorem setStatus_mem (st : Status) : (s.setStatus st).mem = s.mem := rfl
@[simp] theorem setStatus_memMap (st : Status) : (s.setStatus st).memMap = s.memMap := rfl
@[simp] theorem setStatus_code (st : Status) : (s.setStatus st).code = s.code := rfl
@[simp] theorem setStatus_haltAddr (st : Status) : (s.setStatus st).haltAddr = s.haltAddr := rfl
@[simp] theorem setStatus_ilen (st : Status) : (s.setStatus st).ilen = s.ilen := rfl
@[simp] theorem setStatus_draws (st : Status) : (s.setStatus st).draws = s.draws := rfl
@[simp] theorem setStatus_nextPc (st : Status) : (s.setStatus st).nextPc = s.nextPc := rfl
@[simp] theorem setStatus_npc (st : Status) : (s.setStatus st).npc = s.npc := rfl

/-! ### A store to memory -/

@[simp] theorem poke_regs (v : BitVec z.bits) : (s.poke a z v).regs = s.regs := rfl
@[simp] theorem poke_pc (v : BitVec z.bits) : (s.poke a z v).pc = s.pc := rfl
@[simp] theorem poke_flags (v : BitVec z.bits) : (s.poke a z v).flags = s.flags := rfl
@[simp] theorem poke_segs (v : BitVec z.bits) : (s.poke a z v).segs = s.segs := rfl
@[simp] theorem poke_sys (v : BitVec z.bits) : (s.poke a z v).sys = s.sys := rfl
@[simp] theorem poke_cpl (v : BitVec z.bits) : (s.poke a z v).cpl = s.cpl := rfl
@[simp] theorem poke_mem (v : BitVec z.bits) : (s.poke a z v).mem = Memory.write s.mem a z.bytes v.toNat := rfl
@[simp] theorem poke_memMap (v : BitVec z.bits) : (s.poke a z v).memMap = s.memMap := rfl
@[simp] theorem poke_code (v : BitVec z.bits) : (s.poke a z v).code = s.code := rfl
@[simp] theorem poke_haltAddr (v : BitVec z.bits) : (s.poke a z v).haltAddr = s.haltAddr := rfl
@[simp] theorem poke_ilen (v : BitVec z.bits) : (s.poke a z v).ilen = s.ilen := rfl
@[simp] theorem poke_draws (v : BitVec z.bits) : (s.poke a z v).draws = s.draws := rfl
@[simp] theorem poke_nextPc (v : BitVec z.bits) : (s.poke a z v).nextPc = s.nextPc := rfl
@[simp] theorem poke_npc (v : BitVec z.bits) : (s.poke a z v).npc = s.npc := rfl

/-! ### A double-length pair -/

@[simp] theorem setPair_regs (hi lo : BitVec z.bits) :
    (s.setPair z hi lo).regs = (s.regs.write z (hiReg z) hi).write z .eax lo := rfl
@[simp] theorem setPair_pc (hi lo : BitVec z.bits) : (s.setPair z hi lo).pc = s.pc := rfl
@[simp] theorem setPair_flags (hi lo : BitVec z.bits) : (s.setPair z hi lo).flags = s.flags := rfl
@[simp] theorem setPair_segs (hi lo : BitVec z.bits) : (s.setPair z hi lo).segs = s.segs := rfl
@[simp] theorem setPair_sys (hi lo : BitVec z.bits) : (s.setPair z hi lo).sys = s.sys := rfl
@[simp] theorem setPair_cpl (hi lo : BitVec z.bits) : (s.setPair z hi lo).cpl = s.cpl := rfl
@[simp] theorem setPair_mem (hi lo : BitVec z.bits) : (s.setPair z hi lo).mem = s.mem := rfl
@[simp] theorem setPair_memMap (hi lo : BitVec z.bits) : (s.setPair z hi lo).memMap = s.memMap := rfl
@[simp] theorem setPair_code (hi lo : BitVec z.bits) : (s.setPair z hi lo).code = s.code := rfl
@[simp] theorem setPair_haltAddr (hi lo : BitVec z.bits) : (s.setPair z hi lo).haltAddr = s.haltAddr := rfl
@[simp] theorem setPair_ilen (hi lo : BitVec z.bits) : (s.setPair z hi lo).ilen = s.ilen := rfl
@[simp] theorem setPair_draws (hi lo : BitVec z.bits) : (s.setPair z hi lo).draws = s.draws := rfl
@[simp] theorem setPair_nextPc (hi lo : BitVec z.bits) : (s.setPair z hi lo).nextPc = s.nextPc := rfl
@[simp] theorem setPair_npc (hi lo : BitVec z.bits) : (s.setPair z hi lo).npc = s.npc := rfl

/-! ### A string index advanced -/

@[simp] theorem bumpEsi_regs : (s.bumpEsi z).regs = s.regs.set .esi (s.regs.esi + s.strDelta z) := rfl
@[simp] theorem bumpEsi_pc : (s.bumpEsi z).pc = s.pc := rfl
@[simp] theorem bumpEsi_flags : (s.bumpEsi z).flags = s.flags := rfl
@[simp] theorem bumpEsi_segs : (s.bumpEsi z).segs = s.segs := rfl
@[simp] theorem bumpEsi_sys : (s.bumpEsi z).sys = s.sys := rfl
@[simp] theorem bumpEsi_cpl : (s.bumpEsi z).cpl = s.cpl := rfl
@[simp] theorem bumpEsi_mem : (s.bumpEsi z).mem = s.mem := rfl
@[simp] theorem bumpEsi_memMap : (s.bumpEsi z).memMap = s.memMap := rfl
@[simp] theorem bumpEsi_code : (s.bumpEsi z).code = s.code := rfl
@[simp] theorem bumpEsi_haltAddr : (s.bumpEsi z).haltAddr = s.haltAddr := rfl
@[simp] theorem bumpEsi_ilen : (s.bumpEsi z).ilen = s.ilen := rfl
@[simp] theorem bumpEsi_draws : (s.bumpEsi z).draws = s.draws := rfl
@[simp] theorem bumpEsi_nextPc : (s.bumpEsi z).nextPc = s.nextPc := rfl
@[simp] theorem bumpEsi_npc : (s.bumpEsi z).npc = s.npc := rfl
@[simp] theorem bumpEsi_strDelta (y : Size) : (s.bumpEsi z).strDelta y = s.strDelta y := rfl
@[simp] theorem bumpEdi_regs : (s.bumpEdi z).regs = s.regs.set .edi (s.regs.edi + s.strDelta z) := rfl
@[simp] theorem bumpEdi_pc : (s.bumpEdi z).pc = s.pc := rfl
@[simp] theorem bumpEdi_flags : (s.bumpEdi z).flags = s.flags := rfl
@[simp] theorem bumpEdi_segs : (s.bumpEdi z).segs = s.segs := rfl
@[simp] theorem bumpEdi_sys : (s.bumpEdi z).sys = s.sys := rfl
@[simp] theorem bumpEdi_cpl : (s.bumpEdi z).cpl = s.cpl := rfl
@[simp] theorem bumpEdi_mem : (s.bumpEdi z).mem = s.mem := rfl
@[simp] theorem bumpEdi_memMap : (s.bumpEdi z).memMap = s.memMap := rfl
@[simp] theorem bumpEdi_code : (s.bumpEdi z).code = s.code := rfl
@[simp] theorem bumpEdi_haltAddr : (s.bumpEdi z).haltAddr = s.haltAddr := rfl
@[simp] theorem bumpEdi_ilen : (s.bumpEdi z).ilen = s.ilen := rfl
@[simp] theorem bumpEdi_draws : (s.bumpEdi z).draws = s.draws := rfl
@[simp] theorem bumpEdi_nextPc : (s.bumpEdi z).nextPc = s.nextPc := rfl
@[simp] theorem bumpEdi_npc : (s.bumpEdi z).npc = s.npc := rfl

/-! ### The beginning of an instruction -/

@[simp] theorem begin_regs : (s.begin n).regs = s.regs := rfl
@[simp] theorem begin_pc : (s.begin n).pc = s.pc := rfl
@[simp] theorem begin_flags : (s.begin n).flags = s.flags := rfl
@[simp] theorem begin_segs : (s.begin n).segs = s.segs := rfl
@[simp] theorem begin_sys : (s.begin n).sys = s.sys := rfl
@[simp] theorem begin_cpl : (s.begin n).cpl = s.cpl := rfl
@[simp] theorem begin_mem : (s.begin n).mem = s.mem := rfl
@[simp] theorem begin_memMap : (s.begin n).memMap = s.memMap := rfl
@[simp] theorem begin_code : (s.begin n).code = s.code := rfl
@[simp] theorem begin_haltAddr : (s.begin n).haltAddr = s.haltAddr := rfl
@[simp] theorem begin_ilen : (s.begin n).ilen = n := rfl
@[simp] theorem begin_draws : (s.begin n).draws = s.draws + 1 := rfl
@[simp] theorem begin_nextPc : (s.begin n).nextPc = s.pc.toNat + n := rfl

/-! ### The placing of an instruction -/

@[simp] theorem protectedFlat_regs : s.protectedFlat.regs = s.regs := rfl
@[simp] theorem protectedFlat_pc : s.protectedFlat.pc = s.pc := rfl
@[simp] theorem protectedFlat_flags : s.protectedFlat.flags = { s.flags with vm := false } := rfl
@[simp] theorem protectedFlat_cpl : s.protectedFlat.cpl = s.cpl := rfl
@[simp] theorem protectedFlat_mem : s.protectedFlat.mem = s.mem := rfl
@[simp] theorem protectedFlat_memMap : s.protectedFlat.memMap = s.memMap := rfl
@[simp] theorem protectedFlat_code : s.protectedFlat.code = s.code := rfl
@[simp] theorem protectedFlat_haltAddr : s.protectedFlat.haltAddr = s.haltAddr := rfl
@[simp] theorem protectedFlat_ilen : s.protectedFlat.ilen = s.ilen := rfl
@[simp] theorem protectedFlat_draws : s.protectedFlat.draws = s.draws := rfl
@[simp] theorem placeAtPc_regs : (s.placeAtPc w).regs = s.regs := rfl
@[simp] theorem placeAtPc_pc : (s.placeAtPc w).pc = s.pc := rfl
@[simp] theorem placeAtPc_flags : (s.placeAtPc w).flags = s.flags := rfl
@[simp] theorem placeAtPc_segs : (s.placeAtPc w).segs = s.segs := rfl
@[simp] theorem placeAtPc_sys : (s.placeAtPc w).sys = s.sys := rfl
@[simp] theorem placeAtPc_cpl : (s.placeAtPc w).cpl = s.cpl := rfl
@[simp] theorem placeAtPc_mem :
    (s.placeAtPc w).mem = Memory.write s.mem (s.la .cs s.pc).toNat 15 w := rfl
@[simp] theorem placeAtPc_code : (s.placeAtPc w).code = s.code := rfl
@[simp] theorem placeAtPc_ilen : (s.placeAtPc w).ilen = s.ilen := rfl
@[simp] theorem placeAtPc_draws : (s.placeAtPc w).draws = s.draws := rfl

/-! ### What a segment and an address read of a state -/

@[simp] theorem setReg_la (v : BitVec z.bits) (seg : Seg) (off : Word) : (s.setReg z g v).la seg off = s.la seg off := rfl
@[simp] theorem setStatus_la (st : Status) (seg : Seg) (off : Word) : (s.setStatus st).la seg off = s.la seg off := rfl
@[simp] theorem poke_la (v : BitVec z.bits) (seg : Seg) (off : Word) : (s.poke a z v).la seg off = s.la seg off := rfl
@[simp] theorem setStatus_reg (st : Status) : (s.setStatus st).reg z g = s.reg z g := rfl
@[simp] theorem poke_reg (y : Size) (v : BitVec z.bits) : (s.poke a z v).reg y g = s.reg y g := rfl
@[simp] theorem begin_reg : (s.begin n).reg z g = s.reg z g := rfl

/-! ### The flags -/

variable (f : Eflags) (st : Status)

@[simp] theorem withStatus_cf : (f.withStatus st).cf = st.cf := rfl
@[simp] theorem withStatus_pf : (f.withStatus st).pf = st.pf := rfl
@[simp] theorem withStatus_af : (f.withStatus st).af = st.af := rfl
@[simp] theorem withStatus_zf : (f.withStatus st).zf = st.zf := rfl
@[simp] theorem withStatus_sf : (f.withStatus st).sf = st.sf := rfl
@[simp] theorem withStatus_ofl : (f.withStatus st).ofl = st.ofl := rfl
@[simp] theorem withStatus_tf : (f.withStatus st).tf = f.tf := rfl
@[simp] theorem withStatus_ifl : (f.withStatus st).ifl = f.ifl := rfl
@[simp] theorem withStatus_df : (f.withStatus st).df = f.df := rfl
@[simp] theorem withStatus_iopl : (f.withStatus st).iopl = f.iopl := rfl
@[simp] theorem withStatus_nt : (f.withStatus st).nt = f.nt := rfl
@[simp] theorem withStatus_rf : (f.withStatus st).rf = f.rf := rfl
@[simp] theorem withStatus_vm : (f.withStatus st).vm = f.vm := rfl
@[simp] theorem withStatusKeepCf_cf : (f.withStatusKeepCf st).cf = f.cf := rfl
@[simp] theorem withStatusKeepCf_pf : (f.withStatusKeepCf st).pf = st.pf := rfl
@[simp] theorem withStatusKeepCf_af : (f.withStatusKeepCf st).af = st.af := rfl
@[simp] theorem withStatusKeepCf_zf : (f.withStatusKeepCf st).zf = st.zf := rfl
@[simp] theorem withStatusKeepCf_sf : (f.withStatusKeepCf st).sf = st.sf := rfl
@[simp] theorem withStatusKeepCf_ofl : (f.withStatusKeepCf st).ofl = st.ofl := rfl
@[simp] theorem withStatusKeepCf_tf : (f.withStatusKeepCf st).tf = f.tf := rfl
@[simp] theorem withStatusKeepCf_ifl : (f.withStatusKeepCf st).ifl = f.ifl := rfl
@[simp] theorem withStatusKeepCf_df : (f.withStatusKeepCf st).df = f.df := rfl
@[simp] theorem withStatusKeepCf_iopl : (f.withStatusKeepCf st).iopl = f.iopl := rfl
@[simp] theorem withStatusKeepCf_nt : (f.withStatusKeepCf st).nt = f.nt := rfl
@[simp] theorem withStatusKeepCf_rf : (f.withStatusKeepCf st).rf = f.rf := rfl
@[simp] theorem withStatusKeepCf_vm : (f.withStatusKeepCf st).vm = f.vm := rfl
@[simp] theorem load_rf (cpl : BitVec 2) (img : Word) : (f.load cpl img).rf = f.rf := rfl
@[simp] theorem load_vm (cpl : BitVec 2) (img : Word) : (f.load cpl img).vm = f.vm := rfl

end Sys2Proof.Laws
end

