-- ==== Sys2Proof/Laws/Memory.lean ====
section
/-! SUPPORT. Memory contents: reading after writing, little-endian bytes, and the canonical form, which every operation
keeps. -/

namespace Sys2Proof.Laws

open Sys2Proof Sys2Proof.Machine

/-! ### One byte -/

/-- Taking an address's entries out leaves the others readable as before. -/
theorem get_filter_ne (m : List Host.Cell) {a b : Nat} (h : b ≠ a) :
    Memory.get (m.filter (fun c => c.1 != a)) b = Memory.get m b := by
  induction m with
  | nil => rfl
  | cons c m ih =>
    by_cases hc : c.1 = a
    · simp [hc, ih, Memory.get, Ne.symm h]
    · by_cases hb : c.1 = b
      · subst hb; simp [hc, Memory.get]
      · simp [hc, ih, Memory.get, hb]

/-- An address whose entries are taken out reads as unlisted. -/
theorem get_filter_eq (m : List Host.Cell) (a : Nat) :
    Memory.get (m.filter (fun c => c.1 != a)) a = Memory.unlisted := by
  induction m with
  | nil => rfl
  | cons c m ih => by_cases hc : c.1 = a <;> simp [hc, ih, Memory.get]

/-- An entry put into a memory without that address is read there, and nowhere else. -/
theorem get_insert (m : List Host.Cell) (c : Host.Cell) (b : Nat) (h : ∀ d ∈ m, d.1 ≠ c.1) :
    Memory.get (Memory.insert c m) b = if b = c.1 then c.2 else Memory.get m b := by
  induction m with
  | nil => simp [Memory.insert, Memory.get, @eq_comm _ b]
  | cons d m ih =>
    obtain ⟨hd, hm⟩ := List.forall_mem_cons.mp h
    rw [Memory.insert]
    split
    · simp [Memory.get, @eq_comm _ b]
    · by_cases hb : d.1 = b
      · subst hb; simp [Memory.get, hd]
      · simp [Memory.get, hb, ih hm]

/-- Reading after writing one byte. -/
theorem get_set (m : List Host.Cell) (a b : Nat) (v : Byte) :
    Memory.get (Memory.set m a v) b = if b = a then v else Memory.get m b := by
  unfold Memory.set
  by_cases hb : b = a
  · subst hb
    by_cases hv : v = Memory.unlisted
    · simp [hv, get_filter_eq]
    · rw [if_neg hv, get_insert _ _ _ (by simp)]; simp
  · by_cases hv : v = Memory.unlisted
    · simp [hv, hb, get_filter_ne]
    · rw [if_neg hv, get_insert _ _ _ (by simp)]; simp [hb, get_filter_ne]

@[simp] theorem get_set_same (m : List Host.Cell) (a : Nat) (v : Byte) : Memory.get (Memory.set m a v) a = v := by
  simp [get_set]

theorem get_set_other (m : List Host.Cell) {a b : Nat} (v : Byte) (h : b ≠ a) :
    Memory.get (Memory.set m a v) b = Memory.get m b := by
  simp [get_set, h]

/-! ### The canonical form -/

/-- A memory in canonical form is strictly rising, its entries are below the top and none is as an unlisted byte. -/
theorem wf_iff (m : List Host.Cell) :
    Memory.wf m = true ↔
      m.Pairwise (fun c d => c.1 < d.1) ∧ ∀ c ∈ m, c.2 ≠ Memory.unlisted ∧ c.1 < Config.addressSpace := by
  induction m with
  | nil => simp [Memory.wf]
  | cons c m ih =>
    cases m with
    | nil => simp [Memory.wf]
    | cons d m =>
      simp only [Memory.wf, Bool.and_eq_true, bne_iff_ne, ne_eq, decide_eq_true_eq, ih]
      constructor
      · rintro ⟨⟨hc, hcd⟩, hp, hm⟩
        refine ⟨List.pairwise_cons.mpr ⟨fun e he => ?_, hp⟩, fun e he => ?_⟩
        · rcases List.mem_cons.mp he with rfl | he'
          · exact hcd
          · exact lt_trans hcd ((List.pairwise_cons.mp hp).1 e he')
        · rcases List.mem_cons.mp he with rfl | he'
          · exact ⟨hc, lt_trans hcd (hm d (List.mem_cons_self ..)).2⟩
          · exact hm e he'
      · rintro ⟨hp, hm⟩
        obtain ⟨hc, hp⟩ := List.pairwise_cons.mp hp
        exact ⟨⟨(hm c (List.mem_cons_self ..)).1, hc d (List.mem_cons_self ..)⟩, hp,
          fun e he => hm e (List.mem_cons_of_mem _ he)⟩

/-- Taking an address's entries out keeps the canonical form. -/
theorem wf_filter {m : List Host.Cell} (p : Host.Cell → Bool) (h : Memory.wf m = true) :
    Memory.wf (m.filter p) = true := by
  rw [wf_iff] at h ⊢
  exact ⟨h.1.filter p, fun c hc => h.2 c (List.mem_filter.mp hc).1⟩

theorem mem_insert {c d : Host.Cell} {m : List Host.Cell} : d ∈ Memory.insert c m ↔ d = c ∨ d ∈ m := by
  induction m with
  | nil => simp [Memory.insert]
  | cons e m ih =>
    rw [Memory.insert]
    split
    · simp
    · simp only [List.mem_cons, ih]; tauto

/-- Putting in an entry of a new address keeps the entries rising. -/
theorem pairwise_insert {c : Host.Cell} {m : List Host.Cell} (h : m.Pairwise (fun c d => c.1 < d.1))
    (hc : ∀ d ∈ m, d.1 ≠ c.1) : (Memory.insert c m).Pairwise (fun c d => c.1 < d.1) := by
  induction m with
  | nil => simp [Memory.insert]
  | cons d m ih =>
    obtain ⟨hd, hm⟩ := List.pairwise_cons.mp h
    obtain ⟨hdc, hmc⟩ := List.forall_mem_cons.mp hc
    rw [Memory.insert]
    split
    · rename_i hlt
      exact List.pairwise_cons.mpr ⟨fun e he => by
        rcases List.mem_cons.mp he with rfl | he'
        · exact hlt
        · exact lt_trans hlt (hd e he'), h⟩
    · rename_i hlt
      refine List.pairwise_cons.mpr ⟨fun e he => ?_, ih hm hmc⟩
      rcases mem_insert.mp he with rfl | he'
      · omega
      · exact hd e he'

/-- Writing one byte below the top keeps the canonical form. -/
theorem wf_set {m : List Host.Cell} {a : Nat} (v : Byte) (ha : a < Config.addressSpace) (h : Memory.wf m = true) :
    Memory.wf (Memory.set m a v) = true := by
  have hf := wf_filter (fun c => c.1 != a) h
  unfold Memory.set
  split
  · exact hf
  · rename_i hv
    rw [wf_iff] at hf ⊢
    refine ⟨pairwise_insert hf.1 (by simp), fun c hc => ?_⟩
    rcases mem_insert.mp hc with rfl | hc
    · exact ⟨hv, ha⟩
    · exact hf.2 c hc

/-! ### Several bytes, low byte first (20_memory.md R70) -/

/-- Reading one byte after writing `n`. -/
theorem get_write (m : List Host.Cell) (a n v b : Nat) :
    Memory.get (Memory.write m a n v) b =
      if a ≤ b ∧ b < a + n then BitVec.ofNat 8 (v / 256 ^ (b - a)) else Memory.get m b := by
  induction n generalizing m a v with
  | zero => rw [Memory.write]; split <;> [omega; rfl]
  | succ n ih =>
    rw [Memory.write, ih]
    by_cases h : a + 1 ≤ b ∧ b < a + 1 + n
    · have hb : a ≤ b ∧ b < a + (n + 1) := by omega
      rw [if_pos h, if_pos hb, Nat.div_div_eq_div_mul, ← pow_succ', show b - (a + 1) + 1 = b - a by omega]
    · rw [if_neg h, get_set]
      by_cases hb : b = a
      · subst hb; simp
      · rw [if_neg hb, if_neg (by omega)]

theorem get_write_outside (m : List Host.Cell) {a n b : Nat} (v : Nat) (h : ¬(a ≤ b ∧ b < a + n)) :
    Memory.get (Memory.write m a n v) b = Memory.get m b := by
  rw [get_write, if_neg h]

/-- Writing bytes below the top keeps the canonical form. -/
theorem wf_write {m : List Host.Cell} {a n : Nat} (v : Nat) (ha : a + n ≤ Config.addressSpace)
    (h : Memory.wf m = true) : Memory.wf (Memory.write m a n v) = true := by
  induction n generalizing m a v with
  | zero => exact h
  | succ n ih => exact ih _ (by omega) (wf_set _ (by omega) h)

/-- A number read is below 256 to the number of its bytes. -/
theorem read_lt (m : List Host.Cell) (a n : Nat) : Memory.read m a n < 256 ^ n := by
  induction n generalizing a with
  | zero => simp [Memory.read]
  | succ n ih =>
    have h1 := ih (a + 1)
    have h2 := (Memory.get m a).isLt
    rw [Memory.read, pow_succ]
    omega

/-- Byte `k` of a number read is the byte at address `a + k`. -/
theorem read_byte (m : List Host.Cell) (a n k : Nat) (hk : k < n) :
    BitVec.ofNat 8 (Memory.read m a n / 256 ^ k) = Memory.get m (a + k) := by
  induction n generalizing a k with
  | zero => omega
  | succ n ih =>
    have hb := (Memory.get m a).isLt
    cases k with
    | zero =>
      rw [Memory.read, pow_zero, Nat.div_one, Nat.add_zero]
      apply BitVec.eq_of_toNat_eq
      simp only [BitVec.toNat_ofNat, Nat.add_zero]
      omega
    | succ k =>
      have h := ih (a + 1) k (by omega)
      rw [Memory.read, pow_succ', ← Nat.div_div_eq_div_mul,
        show ((Memory.get m a).toNat + 256 * Memory.read m (a + 1) n) / 256 = Memory.read m (a + 1) n by omega, h,
        show a + 1 + k = a + (k + 1) by omega]

/-- Two memories that agree on the bytes read give the same number. -/
theorem read_congr {m m' : List Host.Cell} {a n : Nat}
    (h : ∀ k < n, Memory.get m (a + k) = Memory.get m' (a + k)) : Memory.read m a n = Memory.read m' a n := by
  induction n generalizing a with
  | zero => rfl
  | succ n ih =>
    have h0 : Memory.get m a = Memory.get m' a := h 0 (by omega)
    rw [Memory.read, Memory.read, h0,
      ih (a := a + 1) fun k hk => by simpa [Nat.add_assoc, Nat.add_comm 1 k] using h (k + 1) (by omega)]

/-- A number written is read back. -/
theorem read_write (m : List Host.Cell) (a n v : Nat) : Memory.read (Memory.write m a n v) a n = v % 256 ^ n := by
  induction n generalizing m a v with
  | zero => simp [Memory.read, Nat.mod_one]
  | succ n ih =>
    rw [Memory.read, Memory.write, ih, get_write_outside _ _ (by omega), get_set_same, pow_succ']
    simp only [BitVec.toNat_ofNat]
    have h := Nat.mod_mul (x := v) (a := 256) (b := 256 ^ n)
    omega

/-- Two numbers read in memories whose bytes differ only outside the bytes read. -/
theorem read_write_disjoint (m : List Host.Cell) {a n b k : Nat} (v : Nat) (h : a + n ≤ b ∨ b + k ≤ a) :
    Memory.read (Memory.write m a n v) b k = Memory.read m b k :=
  read_congr fun i hi => get_write_outside _ _ (by omega)

/-- A byte is unchanged unless written. -/
theorem memSame_refl (s : State) : MemSame s s := fun _ => rfl

/-- A store leaves its bytes and no other. -/
theorem memStored_poke (s : State) (a : Nat) (z : Size) (v : BitVec z.bits) :
    MemStored s (s.poke a z v) a z.bytes v.toNat := fun b => get_write s.mem a z.bytes v.toNat b

/-! ### The first bad address -/

theorem firstBad_none {ok : Nat → Bool} {a n : Nat} : firstBad ok a n = none ↔ ∀ k < n, ok (a + k) = true := by
  induction n generalizing a with
  | zero => simp [firstBad]
  | succ n ih =>
    rw [firstBad]
    by_cases h : ok a = true
    · rw [if_pos h, ih]
      constructor
      · intro hk k hkn
        cases k with
        | zero => exact h
        | succ k => simpa [Nat.add_assoc, Nat.add_comm 1 k] using hk k (by omega)
      · intro hk k hkn
        simpa [Nat.add_assoc, Nat.add_comm 1 k] using hk (k + 1) (by omega)
    · rw [if_neg h]
      simp only [reduceCtorEq, false_iff, not_forall]
      exact ⟨0, by omega, h⟩

/-- The lowest address that fails, as an offset. -/
theorem firstBad_find {ok : Nat → Bool} {a n : Nat} :
    firstBad ok a n = ((List.range n).find? fun k => !ok (a + k)).map fun k => a + k := by
  induction n generalizing a with
  | zero => rfl
  | succ n ih =>
    rw [firstBad, List.range_succ_eq_map, List.find?_cons]
    by_cases h : ok a = true
    · rw [if_pos h, ih, List.find?_map]
      simp only [Nat.add_zero, h, Bool.not_true, Option.map_map, Function.comp_def, Nat.succ_eq_add_one,
        Nat.add_assoc, Nat.add_comm 1]
    · simp [h]

theorem firstBad_some {ok : Nat → Bool} {a n b : Nat} (h : firstBad ok a n = some b) :
    a ≤ b ∧ b < a + n ∧ ok b = false ∧ ∀ c, a ≤ c → c < b → ok c = true := by
  induction n generalizing a with
  | zero => simp [firstBad] at h
  | succ n ih =>
    rw [firstBad] at h
    by_cases hk : ok a = true
    · rw [if_pos hk] at h
      obtain ⟨h1, h2, h3, h4⟩ := ih h
      refine ⟨by omega, by omega, h3, fun c hc hcb => ?_⟩
      by_cases hca : c = a
      · subst hca; exact hk
      · exact h4 c (by omega) hcb
    · rw [if_neg hk] at h
      cases h
      exact ⟨le_refl _, by omega, by simpa using hk, fun c h1 h2 => by omega⟩

end Sys2Proof.Laws
end

