-- ==== Sys2Proof/Laws/Registers.lean ====
section
/-! SUPPORT. General registers: reading after writing, sub-registers (spec/00_scope.md R12, 10_state.md R21, R22). -/

namespace Sys2Proof.Laws

open Sys2Proof Sys2Proof.Machine

@[simp] theorem get_set_reg (r : Regs) (g h : GReg) (v : Word) :
    (r.set g v).get h = if h = g then v else r.get h := by
  cases g <;> cases h <;> rfl

theorem get_set_reg_same (r : Regs) (g : GReg) (v : Word) : (r.set g v).get g = v := by simp

theorem get_set_reg_other (r : Regs) {g h : GReg} (v : Word) (hn : h ≠ g) : (r.set g v).get h = r.get h := by
  simp [hn]

/-- Two register files with the same eight values are equal. -/
theorem regs_ext {r r' : Regs} (h : ∀ g, r.get g = r'.get g) : r = r' := by
  have h1 := h .eax; have h2 := h .ecx; have h3 := h .edx; have h4 := h .ebx
  have h5 := h .esp; have h6 := h .ebp; have h7 := h .esi; have h8 := h .edi
  cases r; cases r'
  simp only [Regs.get] at h1 h2 h3 h4 h5 h6 h7 h8
  subst h1 h2 h3 h4 h5 h6 h7 h8
  rfl

/-- The registers are those the accessor names. -/
theorem set_set_same (r : Regs) (g : GReg) (v w : Word) : (r.set g v).set g w = r.set g w := by
  cases g <;> rfl

theorem set_get_self (r : Regs) (g : GReg) : r.set g (r.get g) = r := by cases g <;> rfl

section fields
variable (r : Regs) (v : Word)
@[simp] theorem set_esp_esp : (r.set .esp v).esp = v := rfl
@[simp] theorem set_esp_ebp : (r.set .esp v).ebp = r.ebp := rfl
@[simp] theorem set_esp_ecx : (r.set .esp v).ecx = r.ecx := rfl
@[simp] theorem set_ebp_ebp : (r.set .ebp v).ebp = v := rfl
@[simp] theorem set_ebp_esp : (r.set .ebp v).esp = r.esp := rfl
@[simp] theorem set_ecx_ecx : (r.set .ecx v).ecx = v := rfl
@[simp] theorem set_ecx_esi : (r.set .ecx v).esi = r.esi := rfl
@[simp] theorem set_ecx_edi : (r.set .ecx v).edi = r.edi := rfl
@[simp] theorem set_esi_esi : (r.set .esi v).esi = v := rfl
@[simp] theorem set_esi_edi : (r.set .esi v).edi = r.edi := rfl
@[simp] theorem set_esi_ecx : (r.set .esi v).ecx = r.ecx := rfl
@[simp] theorem set_edi_edi : (r.set .edi v).edi = v := rfl
@[simp] theorem set_edi_esi : (r.set .edi v).esi = r.esi := rfl
@[simp] theorem set_edi_ecx : (r.set .edi v).ecx = r.ecx := rfl
end fields

/-- The lowest bit of a sub-register inside its 32-bit register. -/
def subLow (z : Size) (high : Bool) : Nat :=
  match z with
  | .byte => if high then 8 else 0
  | .word => 0
  | .dword => 0

theorem getLsbD_subRead (z : Size) (hi : Bool) (x : Word) (i : Nat) :
    (subRead z hi x).getLsbD i = (decide (i < z.bits) && x.getLsbD (i + subLow z hi)) := by
  cases z <;> cases hi <;>
    simp [subRead, subLow, Size.bits, Nat.add_comm] <;> (try intro h; exact BitVec.lt_of_getLsbD h)

theorem getLsbD_low8 (x : Word) (v : Byte) (i : Nat) (h : i < 32) :
    (x.extractLsb' 8 24 ++ v : Word).getLsbD i = if i < 8 then v.getLsbD i else x.getLsbD i := by
  refine (BitVec.getLsbD_append (x := x.extractLsb' 8 24) (y := v)).trans ?_
  by_cases h8 : i < 8
  · simp [h8]
  · simp [h8, show 8 + (i - 8) = i by omega, show i - 8 < 24 by omega]

theorem getLsbD_high8 (x : Word) (v : Byte) (i : Nat) (h : i < 32) :
    (x.extractLsb' 16 16 ++ v ++ x.extractLsb' 0 8 : Word).getLsbD i =
      if 8 ≤ i ∧ i < 16 then v.getLsbD (i - 8) else x.getLsbD i := by
  refine (BitVec.getLsbD_append (x := x.extractLsb' 16 16 ++ v) (y := x.extractLsb' 0 8)).trans ?_
  rw [BitVec.getLsbD_append]
  by_cases h8 : i < 8
  · simp [h8, show ¬8 ≤ i by omega]
  · by_cases h16 : i < 16
    · simp [h8, h16, show i - 8 < 8 by omega, show 8 ≤ i by omega]
    · simp [h8, h16, show 16 + (i - 8 - 8) = i by omega, show ¬i - 8 < 8 by omega, show i - 8 - 8 < 16 by omega]

theorem getLsbD_low16 (x : Word) (v : BitVec 16) (i : Nat) (h : i < 32) :
    (x.extractLsb' 16 16 ++ v : Word).getLsbD i = if i < 16 then v.getLsbD i else x.getLsbD i := by
  refine (BitVec.getLsbD_append (x := x.extractLsb' 16 16) (y := v)).trans ?_
  by_cases h16 : i < 16
  · simp [h16]
  · simp [h16, show 16 + (i - 16) = i by omega, show i - 16 < 16 by omega]

theorem getLsbD_subWrite (z : Size) (hi : Bool) (x : Word) (v : BitVec z.bits) (i : Nat) (h : i < 32) :
    (subWrite z hi x v).getLsbD i =
      if subLow z hi ≤ i ∧ i < subLow z hi + z.bits then v.getLsbD (i - subLow z hi) else x.getLsbD i := by
  cases z
  · cases hi
    · exact (getLsbD_low8 x v i h).trans (by simp [subLow, Size.bits])
    · exact (getLsbD_high8 x v i h).trans (by simp [subLow, Size.bits])
  · exact (getLsbD_low16 x v i h).trans (by simp [subLow, Size.bits])
  · simp [subWrite, subLow, Size.bits, h]

/-- A sub-register written is read back. -/
@[simp] theorem subRead_subWrite (z : Size) (hi : Bool) (x : Word) (v : BitVec z.bits) :
    subRead z hi (subWrite z hi x v) = v := by
  apply BitVec.eq_of_getLsbD_eq
  intro i hi'
  have hb : i + subLow z hi < 32 := by
    cases z <;> cases hi <;> simp [subLow, Size.bits] at * <;> omega
  rw [getLsbD_subRead, getLsbD_subWrite _ _ _ _ _ hb, if_pos (by omega)]
  simp [hi', show i + subLow z hi - subLow z hi = i by omega]

/-- `R(w, i)` reads what was written to it. -/
@[simp] theorem read_write_reg_same (r : Regs) (z : Size) (g : GReg) (v : BitVec z.bits) :
    (r.write z g v).read z g = v := by
  simp [Regs.read, Regs.write]

/-- A write changes no other 32-bit register. -/
theorem get_write_other (r : Regs) (z : Size) (g h : GReg) (v : BitVec z.bits) (hn : h ≠ wholeReg z g) :
    (r.write z g v).get h = r.get h := by
  simp [Regs.write, hn]

@[simp] theorem write_dword (r : Regs) (g : GReg) (v : Word) : r.write .dword g v = r.set g v := rfl

@[simp] theorem read_dword (r : Regs) (g : GReg) : r.read .dword g = r.get g := rfl

/-- Writing a register back leaves the file as it was. -/
theorem write_read_self (r : Regs) (z : Size) (g : GReg) : r.write z g (r.read z g) = r := by
  apply regs_ext
  intro h
  by_cases hh : h = wholeReg z g
  · subst hh
    rw [Regs.write, get_set_reg_same]
    apply BitVec.eq_of_getLsbD_eq
    intro i hi
    rw [getLsbD_subWrite _ _ _ _ _ hi, Regs.read]
    split
    · rename_i hr
      rw [getLsbD_subRead, show i - subLow z (isHigh g) + subLow z (isHigh g) = i by omega]
      simp; omega
    · rfl
  · exact get_write_other r z g h _ hh

end Sys2Proof.Laws
end

