-- ==== Sys2Proof/Laws/Access.lean ====
section
/-! SUPPORT. One lemma per shared operation over memory, the stack, pc and operands: when it answers a value, and which
(spec/20_memory.md R68, R75, R78, R83, 40_data_movement.md R200). -/

namespace Sys2Proof.Laws

open Sys2Proof Sys2Proof.Machine

/-! ### Sequencing and outcomes -/

/-- A sequence answers exactly when both parts do. -/
theorem bind_ok {α β : Type} {x : Res α} {f : α → Res β} {b : β} :
    (x >>= f) = Except.ok b ↔ ∃ a, x = .ok a ∧ f a = .ok b := by
  cases x with
  | error e => exact ⟨fun h => (by cases h), fun ⟨_, h, _⟩ => by cases h⟩
  | ok a => exact ⟨fun h => ⟨a, rfl, h⟩, fun ⟨_, h, hf⟩ => by cases h; exact hf⟩

theorem ok_bind {α β : Type} (a : α) (f : α → Res β) : ((Except.ok a : Res α) >>= f) = f a := rfl

theorem error_bind {α β : Type} (e : Stop) (f : α → Res β) : ((Except.error e : Res α) >>= f) = .error e := rfl

/-- A sequence stops when its first part stops, or its second. -/
theorem bind_error {α β : Type} {x : Res α} {f : α → Res β} {e : Stop} :
    (x >>= f) = Except.error e ↔ x = .error e ∨ ∃ a, x = .ok a ∧ f a = .error e := by
  cases x with
  | error e' =>
    rw [error_bind]
    constructor
    · intro h; cases h; exact .inl rfl
    · rintro (h | ⟨_, h, _⟩)
      · cases h; rfl
      · cases h
  | ok a =>
    rw [ok_bind]
    exact ⟨fun h => .inr ⟨a, rfl, h⟩, fun h => h.elim (fun h => by cases h) fun ⟨_, h, hf⟩ => by cases h; exact hf⟩

/-- An instruction answers a next state exactly when its parts do. -/
@[simp] theorem out_next {r : Res State} {t : State} : Res.out r = .next t ↔ r = .ok t := by
  match r with
  | .ok u => simp [Res.out]
  | .error (.fault f) => simp [Res.out]
  | .error (.refuse q) => simp [Res.out]

@[simp] theorem out_fault {r : Res State} {f : Fault} : Res.out r = .fault f ↔ r = .error (.fault f) := by
  match r with
  | .ok u => simp [Res.out]
  | .error (.fault f') => simp [Res.out]
  | .error (.refuse q) => simp [Res.out]

@[simp] theorem out_refused {r : Res State} {q : Refusal} : Res.out r = .refused q ↔ r = .error (.refuse q) := by
  match r with
  | .ok u => simp [Res.out]
  | .error (.fault f) => simp [Res.out]
  | .error (.refuse q') => simp [Res.out]

/-! ### Admission -/

theorem linear_ok {s : State} {seg : Seg} {off : Word} {n a : Nat} :
    s.linear seg off n = .ok a ↔ s.inSpace seg off n = true ∧ a = (s.la seg off).toNat := by
  unfold State.linear
  by_cases h : s.inSpace seg off n = true <;> simp [h, eq_comm]

theorem checkRead_ok {s : State} {a n : Nat} {u : Unit} :
    s.checkRead a n = .ok u ↔ ∀ k < n, s.readable (a + k) = true := by
  unfold State.checkRead
  rw [← firstBad_none]
  split <;> simp_all

theorem checkWrite_ok {s : State} {a n : Nat} {u : Unit} :
    s.checkWrite a n = .ok u ↔ ∀ k < n, s.writable (a + k) = true := by
  unfold State.checkWrite
  rw [← firstBad_none]
  split <;> simp_all

theorem checkCode_ok {s : State} {a n : Nat} {u : Unit} :
    s.checkCode a n = .ok u ↔ ∀ k < n, s.inCode (a + k) = false := by
  unfold State.checkCode
  have h := firstBad_none (ok := fun b => !s.inCode b) (a := a) (n := n)
  simp only [Bool.not_eq_true'] at h
  rw [← h]
  split <;> simp_all

/-- What may be written may be read. -/
theorem readable_of_writable {s : State} {a : Nat} (h : s.writable a = true) : s.readable a = true := by
  unfold State.writable at h
  unfold State.readable
  cases hk : mapKind s.memMap a <;> simp_all

theorem canRead_of_canWrite {s : State} {seg : Seg} {off : Word} {n : Nat} (h : s.CanWrite seg off n) :
    s.CanRead seg off n := ⟨h.1, fun k hk => readable_of_writable (h.2 k hk).1⟩

theorem locReadable_of_locWritable {s : State} {z : Size} {l : Loc} (h : s.locWritable z l = true) :
    s.locReadable z l = true := by
  cases l with
  | reg g => rfl
  | mem seg off =>
    simp only [State.locWritable, State.locReadable, decide_eq_true_eq] at h ⊢
    exact canRead_of_canWrite h

/-! ### Memory accesses -/

/-- A read answers exactly when it is admitted, and then the value in memory. -/
theorem memRead_ok {s : State} {seg : Seg} {off : Word} {z : Size} {v : BitVec z.bits} :
    s.memRead seg off z = .ok v ↔ s.CanRead seg off z.bytes ∧ v = s.memValue seg off z := by
  simp only [State.memRead, bind_ok, linear_ok, checkRead_ok, State.CanRead, State.memValue]
  constructor
  · rintro ⟨a, ⟨h1, rfl⟩, -, h2, h3⟩
    exact ⟨⟨h1, h2⟩, by injection h3 with h3; exact h3.symm⟩
  · rintro ⟨⟨h1, h2⟩, rfl⟩
    exact ⟨_, ⟨h1, rfl⟩, (), h2, rfl⟩

/-- A write answers exactly when it is admitted, and then stores its bytes and nothing else. -/
theorem memWrite_ok {s t : State} {seg : Seg} {off : Word} {z : Size} {v : BitVec z.bits} :
    s.memWrite seg off z v = .ok t ↔ s.CanWrite seg off z.bytes ∧ t = s.poke (s.la seg off).toNat z v := by
  simp only [State.memWrite, bind_ok, linear_ok, checkWrite_ok, checkCode_ok, State.CanWrite]
  constructor
  · rintro ⟨a, ⟨h1, rfl⟩, -, h2, -, h3, h4⟩
    exact ⟨⟨h1, fun k hk => ⟨h2 k hk, h3 k hk⟩⟩, by injection h4 with h4; exact h4.symm⟩
  · rintro ⟨⟨h1, h2⟩, rfl⟩
    exact ⟨_, ⟨h1, rfl⟩, (), fun k hk => (h2 k hk).1, (), fun k hk => (h2 k hk).2, rfl⟩

/-- A push answers exactly when its store is admitted; then the value is stored and ESP lowered. -/
theorem push_ok {s t : State} {z : Size} {v : BitVec z.bits} :
    s.push z v = .ok t ↔ s.CanWrite .ss (s.regs.esp - BitVec.ofNat 32 z.bytes) z.bytes ∧
      t = { s.poke (s.la .ss (s.regs.esp - BitVec.ofNat 32 z.bytes)).toNat z v with
            regs := s.regs.set .esp (s.regs.esp - BitVec.ofNat 32 z.bytes) } := by
  simp only [State.push, bind_ok, memWrite_ok]
  constructor
  · rintro ⟨u, ⟨h, rfl⟩, h'⟩
    exact ⟨h, by injection h' with h'; exact h'.symm⟩
  · rintro ⟨h, rfl⟩
    exact ⟨_, ⟨h, rfl⟩, rfl⟩

/-- A pop answers exactly when its read is admitted; then the value at ESP, and ESP raised. -/
theorem pop_ok {s t : State} {z : Size} {v : BitVec z.bits} :
    s.pop z = .ok (v, t) ↔ s.CanRead .ss s.regs.esp z.bytes ∧ v = s.memValue .ss s.regs.esp z ∧
      t = { s with regs := s.regs.set .esp (s.regs.esp + BitVec.ofNat 32 z.bytes) } := by
  simp only [State.pop, bind_ok, memRead_ok]
  constructor
  · rintro ⟨u, ⟨h, rfl⟩, h'⟩
    injection h' with h'
    injection h' with h1 h2
    exact ⟨h, h1.symm, h2.symm⟩
  · rintro ⟨h, rfl, rfl⟩
    exact ⟨_, ⟨h, rfl⟩, rfl⟩

/-! ### Where an access stops (60_exceptions.md R507) -/

/-- The answer of a check that stands alone. -/
def resOf {α : Type} (a : α) : Option Stop → Res α
  | none => .ok a
  | some e => .error e

theorem linear_stop {s : State} {seg : Seg} {off : Word} {z : Size} :
    s.linear seg off z.bytes = resOf (s.la seg off).toNat (Check.stop s (.space seg off z)) := by
  simp only [State.linear, Check.stop]
  by_cases h : s.inSpace seg off z.bytes = true <;> simp [h, resOf]

theorem checkRead_stop {s : State} {seg : Seg} {off : Word} {z : Size} :
    s.checkRead (s.la seg off).toNat z.bytes = resOf () (Check.stop s (.read seg off z)) := by
  simp only [State.checkRead, Check.stop, firstBad_find]
  cases (List.range z.bytes).find? fun k => !s.readable ((s.la seg off).toNat + k) <;> rfl

theorem checkWrite_stop {s : State} {seg : Seg} {off : Word} {z : Size} :
    s.checkWrite (s.la seg off).toNat z.bytes = resOf () (Check.stop s (.write seg off z)) := by
  simp only [State.checkWrite, Check.stop, firstBad_find]
  cases (List.range z.bytes).find? fun k => !s.writable ((s.la seg off).toNat + k) <;> rfl

theorem checkCode_stop {s : State} {seg : Seg} {off : Word} {z : Size} :
    s.checkCode (s.la seg off).toNat z.bytes = resOf () (Check.stop s (.code seg off z)) := by
  simp only [State.checkCode, Check.stop, firstBad_find]
  simp only [Bool.not_not]
  by_cases h : ((List.range z.bytes).any fun k => s.inCode ((s.la seg off).toNat + k)) = true
  · rw [if_pos h]
    obtain ⟨k, hk⟩ := Option.isSome_iff_exists.mp (List.find?_isSome.mpr (List.any_eq_true.mp h))
    rw [hk]
    rfl
  · rw [if_neg h, List.find?_eq_none.mpr fun k hk hc => h (List.any_eq_true.mpr ⟨k, hk, hc⟩)]
    rfl

/-- A read stops exactly with the first of its checks that fails. -/
theorem memRead_error {s : State} {seg : Seg} {off : Word} {z : Size} {e : Stop} :
    s.memRead seg off z = .error e ↔ (readChecks seg off z).findSome? (Check.stop s) = some e := by
  simp only [State.memRead, bind_error, readChecks, List.findSome?, linear_stop]
  cases h1 : Check.stop s (.space seg off z) with
  | some e1 => simp [resOf]
  | none => cases h2 : Check.stop s (.read seg off z) <;> simp [resOf, checkRead_stop, h2]

/-- A write stops exactly with the first of its checks that fails. -/
theorem memWrite_error {s : State} {seg : Seg} {off : Word} {z : Size} {v : BitVec z.bits} {e : Stop} :
    s.memWrite seg off z v = .error e ↔ (writeChecks seg off z).findSome? (Check.stop s) = some e := by
  simp only [State.memWrite, bind_error, writeChecks, List.findSome?, linear_stop]
  cases h1 : Check.stop s (.space seg off z) with
  | some e1 => simp [resOf]
  | none =>
    cases h2 : Check.stop s (.write seg off z) with
    | some e2 => simp [resOf, checkWrite_stop, h2]
    | none => cases h3 : Check.stop s (.code seg off z) <;> simp [resOf, checkWrite_stop, checkCode_stop, h2, h3]

theorem readLoc_error {s : State} {z : Size} {l : Loc} {e : Stop} :
    s.readLoc z l = .error e ↔ (l.readChecks z).findSome? (Check.stop s) = some e := by
  cases l with
  | reg g => simp [State.readLoc, Loc.readChecks]
  | mem seg off => exact memRead_error

theorem writeLoc_error {s : State} {z : Size} {l : Loc} {v : BitVec z.bits} {e : Stop} :
    s.writeLoc z l v = .error e ↔ (l.writeChecks z).findSome? (Check.stop s) = some e := by
  cases l with
  | reg g => simp [State.writeLoc, Loc.writeChecks]
  | mem seg off => exact memWrite_error

/-- A push stops exactly where its store does. -/
theorem push_error {s : State} {z : Size} {v : BitVec z.bits} {e : Stop} :
    s.push z v = .error e ↔ (pushChecks s z).findSome? (Check.stop s) = some e := by
  rw [pushChecks, ← memWrite_error (v := v)]
  simp [State.push, bind_error]

/-- A pop stops exactly where its load does. -/
theorem pop_error {s : State} {z : Size} {e : Stop} :
    s.pop z = .error e ↔ (popChecks s z).findSome? (Check.stop s) = some e := by
  rw [popChecks, ← memRead_error]
  simp [State.pop, bind_error]

/-! ### The program counter -/

/-- The sequential advance answers exactly below the top; then pc alone changes. -/
theorem advance_ok {s t : State} : s.advance = .ok t ↔ s.HasNext ∧ t = { s with pc := s.npc } := by
  unfold State.advance State.HasNext
  by_cases h : s.nextPc < Config.addressSpace <;> simp [h, eq_comm]

theorem npc_congr {s u : State} (hp : u.pc = s.pc) (hi : u.ilen = s.ilen) : u.npc = s.npc := by
  unfold State.npc State.nextPc; rw [hp, hi]

theorem hasNext_congr {s u : State} (hp : u.pc = s.pc) (hi : u.ilen = s.ilen) : u.HasNext ↔ s.HasNext := by
  unfold State.HasNext State.nextPc; rw [hp, hi]

/-- The advance of a state that has the pc and the length of `s`. -/
theorem advance_ok_of {s u t : State} (hp : u.pc = s.pc) (hi : u.ilen = s.ilen) :
    u.advance = .ok t ↔ s.HasNext ∧ t = { u with pc := s.npc } := by
  rw [advance_ok, hasNext_congr hp hi, npc_congr hp hi]

/-- The advance refuses at the top and does nothing else. -/
theorem advance_error {s : State} {e : Stop} : s.advance = .error e → e = .refuse .addressWrap ∧ ¬s.HasNext := by
  unfold State.advance State.HasNext
  by_cases h : s.nextPc < Config.addressSpace <;> simp [h, eq_comm]

theorem relTarget_ok {s : State} {rel t : Word} :
    s.relTarget rel = .ok t ↔ s.CanBranch rel ∧ t = BitVec.ofInt 32 ((s.nextPc : Int) + rel.toInt) := by
  unfold State.relTarget State.CanBranch State.HasNext
  split
  · rename_i h
    exact ⟨fun he => ⟨h, by cases he; rfl⟩, fun he => by rw [he.2]⟩
  · rename_i h
    exact ⟨fun he => (by cases he), fun he => absurd he.1 h⟩

/-- A relative branch answers exactly when its target is in the space; then pc alone changes. -/
theorem branch_ok {s t : State} {rel : Word} :
    s.branch rel = .ok t ↔
      s.CanBranch rel ∧ t = { s with pc := BitVec.ofInt 32 ((s.nextPc : Int) + rel.toInt) } := by
  simp only [State.branch, bind_ok, relTarget_ok]
  constructor
  · rintro ⟨u, ⟨h, rfl⟩, h'⟩
    exact ⟨h, by injection h' with h'; exact h'.symm⟩
  · rintro ⟨h, rfl⟩
    exact ⟨_, ⟨h, rfl⟩, rfl⟩

/-- A target that is in the space is `npc + rel` modulo 2^32. -/
theorem branch_target (s : State) (rel : Word) : BitVec.ofInt 32 ((s.nextPc : Int) + rel.toInt) = s.npc + rel := by
  rw [BitVec.ofInt_add, BitVec.ofInt_toInt]
  rfl

/-- The single-step trap replaces a next state and nothing else (60_exceptions.md R508). -/
theorem singleStep_next {tf : Bool} {o : Outcome} {t : State} :
    singleStep tf o = .next t ↔ tf = false ∧ o = .next t := by
  cases o <;> cases tf <;> simp [singleStep]

/-! ### Operand locations -/

/-- The state after a write to a location. -/
def stored (s : State) (z : Size) (l : Loc) (v : BitVec z.bits) : State :=
  match l with
  | .reg g => s.setReg z g v
  | .mem seg off => s.poke (s.la seg off).toNat z v

theorem readLoc_ok {s : State} {z : Size} {l : Loc} {v : BitVec z.bits} :
    s.readLoc z l = .ok v ↔ s.locReadable z l = true ∧ v = s.valueAt z l := by
  cases l with
  | reg g => simp [State.readLoc, State.locReadable, State.valueAt, eq_comm]
  | mem seg off => simp only [State.readLoc, memRead_ok, State.locReadable, State.valueAt, decide_eq_true_eq]

theorem readRM_ok {s : State} {z : Size} {e : RM} {v : BitVec z.bits} :
    s.readRM z e = .ok v ↔ s.locReadable z (s.resolve e) = true ∧ v = s.valueAt z (s.resolve e) := readLoc_ok

theorem writeLoc_ok {s t : State} {z : Size} {l : Loc} {v : BitVec z.bits} :
    s.writeLoc z l v = .ok t ↔ s.locWritable z l = true ∧ t = stored s z l v := by
  cases l with
  | reg g => simp [State.writeLoc, State.locWritable, stored, eq_comm]
  | mem seg off => simp only [State.writeLoc, memWrite_ok, State.locWritable, stored, decide_eq_true_eq]

theorem aluSrc_ok {s : State} {f : AluForm} {v : BitVec (aluSize f).bits} :
    aluSrc s f = .ok v ↔ aluSrcReadable s f = true ∧ v = aluSrcValue s f := by
  cases f with
  | rmReg z e g => simp [aluSrc, aluSrcReadable, aluSrcValue, eq_comm]
  | regRm z g e => exact readRM_ok
  | accImm z i => simp [aluSrc, aluSrcReadable, aluSrcValue, eq_comm]
  | rmImm z e i => simp [aluSrc, aluSrcReadable, aluSrcValue, eq_comm]
  | rmImm8s v e i => simp [aluSrc, aluSrcReadable, aluSrcValue, sextByte, eq_comm]

section stored
variable (s : State) (z : Size) (l : Loc) (v : BitVec z.bits)

@[simp] theorem stored_pc : (stored s z l v).pc = s.pc := by cases l <;> rfl
@[simp] theorem stored_flags : (stored s z l v).flags = s.flags := by cases l <;> rfl
@[simp] theorem stored_segs : (stored s z l v).segs = s.segs := by cases l <;> rfl
@[simp] theorem stored_sys : (stored s z l v).sys = s.sys := by cases l <;> rfl
@[simp] theorem stored_cpl : (stored s z l v).cpl = s.cpl := by cases l <;> rfl
@[simp] theorem stored_memMap : (stored s z l v).memMap = s.memMap := by cases l <;> rfl
@[simp] theorem stored_code : (stored s z l v).code = s.code := by cases l <;> rfl
@[simp] theorem stored_haltAddr : (stored s z l v).haltAddr = s.haltAddr := by cases l <;> rfl
@[simp] theorem stored_ilen : (stored s z l v).ilen = s.ilen := by cases l <;> rfl
@[simp] theorem stored_draws : (stored s z l v).draws = s.draws := by cases l <;> rfl
@[simp] theorem stored_nextPc : (stored s z l v).nextPc = s.nextPc := by cases l <;> rfl
@[simp] theorem stored_npc : (stored s z l v).npc = s.npc := by cases l <;> rfl

/-- A write to a location writes that location and nothing else. -/
theorem locWritten_stored : LocWritten s (stored s z l v) z l v := by
  cases l with
  | reg g => exact ⟨rfl, memSame_refl s⟩
  | mem seg off => exact ⟨rfl, memStored_poke s _ z v⟩

end stored

/-- `LocWritten` looks at registers and memory only. -/
theorem locWritten_congr {s t u : State} {z : Size} {l : Loc} {v : BitVec z.bits} (hr : u.regs = t.regs)
    (hm : u.mem = t.mem) (h : LocWritten s t z l v) : LocWritten s u z l v := by
  cases l with
  | reg g => exact ⟨hr.trans h.1, fun a => by rw [hm]; exact h.2 a⟩
  | mem seg off => exact ⟨hr.trans h.1, fun b => by rw [hm]; exact h.2 b⟩

/-- Equal environments, from equal fields. -/
theorem envSame_refl (s : State) : EnvSame s s := ⟨rfl, rfl, rfl, rfl, rfl, rfl, rfl, rfl⟩

end Sys2Proof.Laws
end

