-- ==== Sys2Proof/Laws/Families.lean ====
section
/-! SUPPORT. One lemma per operation that several instructions share: when it answers a state, and which
(spec/40 to 48). -/

namespace Sys2Proof.Laws

open Sys2Proof Sys2Proof.Machine

/-! ### Data movement and arithmetic -/

/-- An exchange answers exactly when the location can be read and written; then both hold the other's value. -/
theorem exchange_ok {z : Size} {l : Loc} {g : GReg} {s t : State} :
    exchange z l g s = .ok t ↔ s.locReadable z l = true ∧ s.locWritable z l = true ∧ s.HasNext ∧
      t = { (stored s z l (s.reg z g)).setReg z g (s.valueAt z l) with pc := s.npc } := by
  simp only [exchange, bind_ok, readLoc_ok, writeLoc_ok]
  constructor
  · rintro ⟨_, ⟨h1, rfl⟩, _, ⟨h2, rfl⟩, h⟩
    exact ⟨h1, h2, (advance_ok_of (by simp) (by simp)).mp h⟩
  · rintro ⟨h1, h2, h⟩
    exact ⟨_, ⟨h1, rfl⟩, _, ⟨h2, rfl⟩, (advance_ok_of (by simp) (by simp)).mpr h⟩

/-- The state after a result is stored and the flags are replaced. -/
def storedWith (s : State) (z : Size) (l : Loc) (v : BitVec z.bits) (f : Eflags) : State :=
  { stored s z l v with flags := f, pc := s.npc }

@[simp] theorem storedWith_flags (s : State) (z : Size) (l : Loc) (v : BitVec z.bits) (f : Eflags) :
    (storedWith s z l v f).flags = f := rfl

/-- After such an instruction pc is the next instruction's address, and what `EnvSame` lists is as before. -/
theorem falls_storedWith (s : State) (z : Size) (l : Loc) (v : BitVec z.bits) (f : Eflags) :
    Falls s (storedWith s z l v f) := by
  refine ⟨rfl, ?_⟩
  constructor <;> simp [storedWith]

/-- After such an instruction the location holds the value and no other register or byte has changed. -/
theorem locWritten_storedWith (s : State) (z : Size) (l : Loc) (v : BitVec z.bits) (f : Eflags) :
    LocWritten s (storedWith s z l v f) z l v :=
  locWritten_congr (t := stored s z l v) (by simp [storedWith]) (by simp [storedWith]) (locWritten_stored s z l v)

/-- A store, then the status flags, then the advance. -/
theorem finish_ok {s t : State} {z : Size} {l : Loc} {v : BitVec z.bits} {st : Status} :
    ((stored s z l v).setStatus st).advance = .ok t ↔
      s.HasNext ∧ t = storedWith s z l v (s.flags.withStatus st) := by
  rw [advance_ok_of (s := s) (by simp) (by simp)]
  simp [State.setStatus, storedWith]

/-- A two-operand instruction answers exactly when its operands are admitted; then the result is in the destination and
the flags are those of the result. -/
theorem aluWrite_ok {f : AluForm}
    {op : BitVec (aluSize f).bits → BitVec (aluSize f).bits → BitVec (aluSize f).bits × Status} {s t : State} :
    aluWrite f op s = .ok t ↔ s.locReadable (aluSize f) (aluDst s f) = true ∧ aluSrcReadable s f = true ∧
      s.locWritable (aluSize f) (aluDst s f) = true ∧ s.HasNext ∧
      t = storedWith s (aluSize f) (aluDst s f) (op (s.valueAt (aluSize f) (aluDst s f)) (aluSrcValue s f)).1
            (s.flags.withStatus (op (s.valueAt (aluSize f) (aluDst s f)) (aluSrcValue s f)).2) := by
  simp only [aluWrite, bind_ok, readLoc_ok, aluSrc_ok, writeLoc_ok]
  constructor
  · rintro ⟨_, ⟨h1, rfl⟩, _, ⟨h2, rfl⟩, _, ⟨h3, rfl⟩, h⟩
    exact ⟨h1, h2, h3, finish_ok.mp h⟩
  · rintro ⟨h1, h2, h3, h⟩
    exact ⟨_, ⟨h1, rfl⟩, _, ⟨h2, rfl⟩, _, ⟨h3, rfl⟩, finish_ok.mpr h⟩

/-- INC and DEC answer exactly when the operand is admitted; CF stays. -/
theorem incDec_ok {f : IncForm} {op : BitVec (incSize f).bits → BitVec (incSize f).bits × Status} {s t : State} :
    incDec f op s = .ok t ↔ s.locReadable (incSize f) (incLoc s f) = true ∧
      s.locWritable (incSize f) (incLoc s f) = true ∧ s.HasNext ∧
      t = storedWith s (incSize f) (incLoc s f) (op (s.valueAt (incSize f) (incLoc s f))).1
            (s.flags.withStatusKeepCf (op (s.valueAt (incSize f) (incLoc s f))).2) := by
  simp only [incDec, bind_ok, readLoc_ok, writeLoc_ok]
  constructor
  · rintro ⟨_, ⟨h1, rfl⟩, _, ⟨h2, rfl⟩, h⟩
    obtain ⟨hn, rfl⟩ := (advance_ok_of (s := s) (by simp) (by simp)).mp h
    exact ⟨h1, h2, hn, by simp [storedWith]⟩
  · rintro ⟨h1, h2, hn, rfl⟩
    exact ⟨_, ⟨h1, rfl⟩, _, ⟨h2, rfl⟩,
      (advance_ok_of (s := s) (by simp) (by simp)).mpr ⟨hn, by simp [storedWith]⟩⟩

/-- A truncated product answers exactly below the top. -/
theorem mulInto_ok {z : Size} {g : GReg} {a b : BitVec z.bits} {s t : State} :
    mulInto z g a b s = .ok t ↔ s.HasNext ∧
      t = { s.setReg z g (BitVec.ofInt z.bits (a.toInt * b.toInt)) with
            flags := s.flags.withStatus (mulStatus (losesBits z.bits (a.toInt * b.toInt)) s.undefBit)
            pc := s.npc } := by
  simp only [mulInto, advance_ok]
  exact Iff.rfl

/-- AAA and AAS: AL, AH and the flags. -/
theorem asciiResult_ok {s t : State} {r : Byte × Byte × Bool} :
    asciiResult s r = .ok t ↔ s.HasNext ∧
      t = { (s.setReg .byte .eax r.1).setReg .byte .esp r.2.1 with
            flags := s.flags.withStatus (asciiStatus r.2.2 s.undefBit), pc := s.npc } := by
  simp only [asciiResult, advance_ok]
  exact Iff.rfl

/-- DAA and DAS: AL and the flags. -/
theorem packedResult_ok {s t : State} {r : Byte × Status} :
    packedResult s r = .ok t ↔ s.HasNext ∧
      t = { s.setReg .byte .eax r.1 with flags := s.flags.withStatus r.2, pc := s.npc } := by
  simp only [packedResult, advance_ok]
  exact Iff.rfl

/-! ### Logic and bits -/

/-- TEST writes the flags only. -/
theorem testBits_ok {z : Size} {a b : BitVec z.bits} {s t : State} :
    testBits z a b s = .ok t ↔ s.HasNext ∧
      t = { s with flags := s.flags.withStatus (logicFlags (a &&& b) s.undefBit), pc := s.npc } := by
  simp only [testBits, advance_ok]
  exact Iff.rfl

/-- BTS, BTR, BTC: the container is read, changed and written back; CF is the old bit. -/
theorem bitModify_ok {f : BitForm} {upd : BitVec (bitSize f).bits → Nat → BitVec (bitSize f).bits} {s t : State} :
    bitModify f upd s = .ok t ↔ s.locReadable (bitSize f) (bitLoc s f).1 = true ∧
      s.locWritable (bitSize f) (bitLoc s f).1 = true ∧ s.HasNext ∧
      t = storedWith s (bitSize f) (bitLoc s f).1 (upd (s.valueAt (bitSize f) (bitLoc s f).1) (bitLoc s f).2)
            (s.flags.withStatus
              (bitStatus ((s.valueAt (bitSize f) (bitLoc s f).1).getLsbD (bitLoc s f).2) s.undefBit)) := by
  simp only [bitModify, bind_ok, readLoc_ok, writeLoc_ok]
  constructor
  · rintro ⟨_, ⟨h1, rfl⟩, _, ⟨h2, rfl⟩, h⟩
    exact ⟨h1, h2, finish_ok.mp h⟩
  · rintro ⟨h1, h2, h⟩
    exact ⟨_, ⟨h1, rfl⟩, _, ⟨h2, rfl⟩, finish_ok.mpr h⟩

/-- A bit scan writes the index, or a free value with ZF = 1. -/
theorem scanInto_ok {z : Size} {g : GReg} {r : Option Nat} {s t : State} :
    scanInto z g r s = .ok t ↔ s.HasNext ∧
      t = { s.setReg z g (match r with | some i => BitVec.ofNat z.bits i | none => s.undefBits z) with
            flags := s.flags.withStatus (scanStatus r.isNone s.undefBit), pc := s.npc } := by
  cases r <;> simp only [scanInto, advance_ok] <;> exact Iff.rfl

/-- SETcc writes one byte. -/
theorem setByte_ok {c : Cond} {e : RM} {s t : State} :
    setByte c e s = .ok t ↔ s.locWritable .byte (s.resolve e) = true ∧ s.HasNext ∧
      t = { stored s .byte (s.resolve e) (if s.flags.holds c then 0x01#8 else 0x00#8) with pc := s.npc } := by
  simp only [setByte, bind_ok, writeLoc_ok]
  constructor
  · rintro ⟨_, ⟨h1, rfl⟩, h⟩
    exact ⟨h1, (advance_ok_of (by simp) (by simp)).mp h⟩
  · rintro ⟨h1, h⟩
    exact ⟨_, ⟨h1, rfl⟩, (advance_ok_of (by simp) (by simp)).mpr h⟩

/-! ### Shifts and rotates -/

/-- What a shift of a masked count leaves: nothing but pc for 0, else a result and its flags. -/
theorem counted_ok {z : Size} {l : Loc} {n : Nat} {r : BitVec z.bits × Status} {s t : State} :
    (if n = 0 then s.advance else do
      let t ← s.writeLoc z l r.1
      (t.setStatus r.2).advance) = .ok t ↔
    s.HasNext ∧ ((n = 0 ∧ t = { s with pc := s.npc }) ∨
      (n ≠ 0 ∧ s.locWritable z l = true ∧ t = storedWith s z l r.1 (s.flags.withStatus r.2))) := by
  by_cases h0 : n = 0
  · rw [if_pos h0, advance_ok]
    exact ⟨fun ⟨h, e⟩ => ⟨h, .inl ⟨h0, e⟩⟩, fun ⟨h, e⟩ => ⟨h, (e.resolve_right fun e => e.1 h0).2⟩⟩
  · rw [if_neg h0]
    simp only [bind_ok, writeLoc_ok]
    constructor
    · rintro ⟨_, ⟨h1, rfl⟩, h⟩
      exact ⟨(finish_ok.mp h).1, .inr ⟨h0, h1, (finish_ok.mp h).2⟩⟩
    · rintro ⟨hn, ⟨h, _⟩ | ⟨_, h1, h⟩⟩
      · exact absurd h h0
      · exact ⟨_, ⟨h1, rfl⟩, finish_ok.mpr ⟨hn, h⟩⟩

/-- A shift: nothing but pc for a masked count of 0, else the result and its flags. -/
theorem shiftBy_ok {z : Size} {e : RM} {c : Count}
    {op : BitVec z.bits → Nat → (Nat → Bool) → BitVec z.bits × Status} {s t : State} :
    shiftBy z e c op s = .ok t ↔ s.locReadable z (s.resolve e) = true ∧ s.HasNext ∧
      ((maskCount (s.count c) = 0 ∧ t = { s with pc := s.npc }) ∨
       (maskCount (s.count c) ≠ 0 ∧ s.locWritable z (s.resolve e) = true ∧
        t = storedWith s z (s.resolve e) (op (s.valueAt z (s.resolve e)) (maskCount (s.count c)) s.undefBit).1
              (s.flags.withStatus (op (s.valueAt z (s.resolve e)) (maskCount (s.count c)) s.undefBit).2))) := by
  rw [shiftBy, bind_ok]
  constructor
  · rintro ⟨_, hr, h⟩
    obtain ⟨h1, rfl⟩ := readRM_ok.mp hr
    exact ⟨h1, counted_ok.mp h⟩
  · rintro ⟨h1, h⟩
    exact ⟨_, readRM_ok.mpr ⟨h1, rfl⟩, counted_ok.mpr h⟩

/-- A double shift, likewise. -/
theorem doubleShift_ok {v : VSize} {e : RM} {g : GReg} {c : DCount}
    {op : BitVec v.size.bits → BitVec v.size.bits → Nat → BitVec v.size.bits → (Nat → Bool) →
      BitVec v.size.bits × Status} {s t : State} :
    doubleShift v e g c op s = .ok t ↔ s.locReadable v.size (s.resolve e) = true ∧ s.HasNext ∧
      ((maskCount (s.dcount c) = 0 ∧ t = { s with pc := s.npc }) ∨
       (maskCount (s.dcount c) ≠ 0 ∧ s.locWritable v.size (s.resolve e) = true ∧
        t = storedWith s v.size (s.resolve e) (op (s.valueAt v.size (s.resolve e)) (s.reg v.size g)
                (maskCount (s.dcount c)) (s.undefBits v.size) s.undefBit).1
              (s.flags.withStatus (op (s.valueAt v.size (s.resolve e)) (s.reg v.size g)
                (maskCount (s.dcount c)) (s.undefBits v.size) s.undefBit).2))) := by
  rw [doubleShift, bind_ok]
  constructor
  · rintro ⟨_, hr, h⟩
    obtain ⟨h1, rfl⟩ := readRM_ok.mp hr
    exact ⟨h1, counted_ok.mp h⟩
  · rintro ⟨h1, h⟩
    exact ⟨_, readRM_ok.mpr ⟨h1, rfl⟩, counted_ok.mpr h⟩

/-- A rotate, likewise, with CF and OF only. -/
theorem rotateBy_ok {z : Size} {e : RM} {c : Count}
    {op : BitVec z.bits → Bool → Nat → (Nat → Bool) → BitVec z.bits × Bool × Bool} {s t : State} :
    rotateBy z e c op s = .ok t ↔ s.locReadable z (s.resolve e) = true ∧ s.HasNext ∧
      ((maskCount (s.count c) = 0 ∧ t = { s with pc := s.npc }) ∨
       (maskCount (s.count c) ≠ 0 ∧ s.locWritable z (s.resolve e) = true ∧
        t = storedWith s z (s.resolve e)
              (op (s.valueAt z (s.resolve e)) s.flags.cf (maskCount (s.count c)) s.undefBit).1
              (s.flags.withCfOf
                (op (s.valueAt z (s.resolve e)) s.flags.cf (maskCount (s.count c)) s.undefBit).2.1
                (op (s.valueAt z (s.resolve e)) s.flags.cf (maskCount (s.count c)) s.undefBit).2.2))) := by
  simp only [rotateBy, bind_ok, readRM_ok]
  by_cases h0 : maskCount (s.count c) = 0
  · constructor
    · rintro ⟨_, ⟨h1, rfl⟩, h⟩
      rw [if_pos h0, advance_ok] at h
      exact ⟨h1, h.1, .inl ⟨h0, h.2⟩⟩
    · rintro ⟨h1, h2, h⟩
      refine ⟨_, ⟨h1, rfl⟩, ?_⟩
      rw [if_pos h0, advance_ok]
      exact ⟨h2, (h.resolve_right fun e => e.1 h0).2⟩
  · constructor
    · rintro ⟨_, ⟨h1, rfl⟩, h⟩
      rw [if_neg h0, bind_ok] at h
      obtain ⟨_, hw, h⟩ := h
      obtain ⟨h2, rfl⟩ := writeLoc_ok.mp hw
      obtain ⟨hn, rfl⟩ := (advance_ok_of (s := s) (by simp) (by simp)).mp h
      exact ⟨h1, hn, .inr ⟨h0, h2, by simp [storedWith]⟩⟩
    · rintro ⟨h1, hn, ⟨h, _⟩ | ⟨_, h2, rfl⟩⟩
      · exact absurd h h0
      · refine ⟨_, ⟨h1, rfl⟩, ?_⟩
        rw [if_neg h0, bind_ok]
        exact ⟨_, writeLoc_ok.mpr ⟨h2, rfl⟩,
          (advance_ok_of (s := s) (by simp) (by simp)).mpr ⟨hn, by simp [storedWith]⟩⟩

/-! ### Control transfer -/

/-- A conditional jump changes pc only. -/
theorem jumpIf_ok {c : Cond} {d : Rel} {s t : State} :
    jumpIf c d s = .ok t ↔
      (s.flags.holds c = true ∧ s.CanBranch (relValue d) ∧ t = { s with pc := s.npc + relValue d }) ∨
      (s.flags.holds c = false ∧ s.HasNext ∧ t = { s with pc := s.npc }) := by
  unfold jumpIf
  by_cases h : s.flags.holds c = true
  · simp only [h, if_true, branch_ok, branch_target]; simp
  · simp only [h]; simp [advance_ok]

/-- LOOP, LOOPE, LOOPNE: ECX lowered, then the branch or the advance. -/
theorem loopWhile_ok {c : Bool} {d : Byte} {s t : State} :
    loopWhile c d s = .ok t ↔
      (s.regs.ecx - 1#32 ≠ 0#32 ∧ c = true ∧ s.CanBranch (d.signExtend 32) ∧
        t = { s with regs := s.regs.set .ecx (s.regs.ecx - 1#32), pc := s.npc + d.signExtend 32 }) ∨
      (¬(s.regs.ecx - 1#32 ≠ 0#32 ∧ c = true) ∧ s.HasNext ∧
        t = { s with regs := s.regs.set .ecx (s.regs.ecx - 1#32), pc := s.npc }) := by
  unfold loopWhile
  by_cases h : s.regs.ecx - 1#32 ≠ 0#32 ∧ c = true
  · rw [if_pos h, branch_ok, branch_target]
    constructor
    · rintro ⟨h1, rfl⟩; exact .inl ⟨h.1, h.2, h1, rfl⟩
    · rintro (⟨_, _, h1, rfl⟩ | ⟨h', _⟩)
      · exact ⟨h1, rfl⟩
      · exact absurd h h'
  · rw [if_neg h, advance_ok]
    constructor
    · rintro ⟨h1, rfl⟩; exact .inr ⟨h, h1, rfl⟩
    · rintro (⟨h1, h2, _⟩ | ⟨_, h1, rfl⟩)
      · exact absurd ⟨h1, h2⟩ h
      · exact ⟨h1, rfl⟩

/-! ### Strings -/

theorem strMovs_ok {z : Size} {o : Option Seg} {s t : State} :
    strMovs z o s = .ok t ↔ s.CanRead (srcSeg o) s.regs.esi z.bytes ∧ s.CanWrite .es s.regs.edi z.bytes ∧
      t = ((s.poke (s.la .es s.regs.edi).toNat z (s.memValue (srcSeg o) s.regs.esi z)).bumpEsi z).bumpEdi z := by
  simp only [strMovs, bind_ok, memRead_ok, memWrite_ok]
  constructor
  · rintro ⟨_, ⟨h1, rfl⟩, _, ⟨h2, rfl⟩, h3⟩; cases h3; exact ⟨h1, h2, rfl⟩
  · rintro ⟨h1, h2, rfl⟩; exact ⟨_, ⟨h1, rfl⟩, _, ⟨h2, rfl⟩, rfl⟩

theorem strCmps_ok {z : Size} {o : Option Seg} {s t : State} :
    strCmps z o s = .ok t ↔ s.CanRead (srcSeg o) s.regs.esi z.bytes ∧ s.CanRead .es s.regs.edi z.bytes ∧
      t = ((s.setStatus (subFlags (s.memValue (srcSeg o) s.regs.esi z) (s.memValue .es s.regs.edi z) false).2).bumpEsi
            z).bumpEdi z := by
  simp only [strCmps, bind_ok, memRead_ok]
  constructor
  · rintro ⟨_, ⟨h1, rfl⟩, _, ⟨h2, rfl⟩, h3⟩; cases h3; exact ⟨h1, h2, rfl⟩
  · rintro ⟨h1, h2, rfl⟩; exact ⟨_, ⟨h1, rfl⟩, _, ⟨h2, rfl⟩, rfl⟩

theorem strScas_ok {z : Size} {s t : State} :
    strScas z s = .ok t ↔ s.CanRead .es s.regs.edi z.bytes ∧
      t = (s.setStatus (subFlags (s.reg z .eax) (s.memValue .es s.regs.edi z) false).2).bumpEdi z := by
  simp only [strScas, bind_ok, memRead_ok]
  constructor
  · rintro ⟨_, ⟨h1, rfl⟩, h2⟩; cases h2; exact ⟨h1, rfl⟩
  · rintro ⟨h1, rfl⟩; exact ⟨_, ⟨h1, rfl⟩, rfl⟩

theorem strLods_ok {z : Size} {o : Option Seg} {s t : State} :
    strLods z o s = .ok t ↔ s.CanRead (srcSeg o) s.regs.esi z.bytes ∧
      t = (s.setReg z .eax (s.memValue (srcSeg o) s.regs.esi z)).bumpEsi z := by
  simp only [strLods, bind_ok, memRead_ok]
  constructor
  · rintro ⟨_, ⟨h1, rfl⟩, h2⟩; cases h2; exact ⟨h1, rfl⟩
  · rintro ⟨h1, rfl⟩; exact ⟨_, ⟨h1, rfl⟩, rfl⟩

theorem strStos_ok {z : Size} {s t : State} :
    strStos z s = .ok t ↔ s.CanWrite .es s.regs.edi z.bytes ∧
      t = (s.poke (s.la .es s.regs.edi).toNat z (s.reg z .eax)).bumpEdi z := by
  simp only [strStos, bind_ok, memWrite_ok]
  constructor
  · rintro ⟨_, ⟨h1, rfl⟩, h2⟩; cases h2; exact ⟨h1, rfl⟩
  · rintro ⟨h1, rfl⟩; exact ⟨_, ⟨h1, rfl⟩, rfl⟩

/-- One iteration of a repeat: none if ECX is 0; else the primitive, ECX lowered, and pc moved on only at the end. -/
theorem repeatOnce_ok {prim : State → Res State} {stop : Eflags → Bool} {s t : State} :
    repeatOnce prim stop s = .ok t ↔
      (s.regs.ecx = 0#32 ∧ s.HasNext ∧ t = { s with pc := s.npc }) ∨
      (s.regs.ecx ≠ 0#32 ∧ ∃ u, prim s = .ok u ∧
        ((u.regs.ecx - 1#32 ≠ 0#32 ∧ stop u.flags = false ∧
            t = { u with regs := u.regs.set .ecx (u.regs.ecx - 1#32) }) ∨
         ((u.regs.ecx - 1#32 = 0#32 ∨ stop u.flags = true) ∧ u.HasNext ∧
            t = { u with regs := u.regs.set .ecx (u.regs.ecx - 1#32), pc := u.npc }))) := by
  unfold repeatOnce
  by_cases h0 : s.regs.ecx = 0#32
  · simp [h0, advance_ok]
  · rw [if_neg h0, bind_ok]
    simp only [h0, false_and, false_or, ne_eq, not_false_eq_true, true_and]
    refine exists_congr fun u => and_congr_right fun _ => ?_
    change (if u.regs.ecx - 1#32 = 0#32 ∨ stop u.flags = true then _ else _) = _ ↔ _
    by_cases h1 : u.regs.ecx - 1#32 = 0#32 ∨ stop u.flags = true
    · rw [if_pos h1]
      constructor
      · intro h
        rw [advance_ok] at h
        exact .inr ⟨h1, h⟩
      · rintro (⟨h2, h3, _⟩ | ⟨_, h⟩)
        · rcases h1 with h1 | h1
          · exact absurd h1 h2
          · rw [h3] at h1; cases h1
        · rw [advance_ok]
          exact h
    · rw [if_neg h1]
      constructor
      · intro h
        cases h
        exact .inl ⟨fun h => h1 (.inl h), by simpa using fun h => h1 (.inr h), rfl⟩
      · rintro (⟨_, _, rfl⟩ | ⟨h2, _⟩)
        · rfl
        · exact absurd h2 h1

/-! ### ENTER -/

theorem pushRaw_ok {s t : State} {v : Word} {a : Nat} :
    s.pushRaw v = .ok (t, a) ↔ s.inSpace .ss (s.regs.esp - 4#32) 4 = true ∧
      a = (s.la .ss (s.regs.esp - 4#32)).toNat ∧
      t = { s.poke a .dword v with regs := s.regs.set .esp (s.regs.esp - 4#32) } := by
  simp only [State.pushRaw, bind_ok, linear_ok]
  constructor
  · rintro ⟨_, ⟨h1, rfl⟩, h2⟩; cases h2; exact ⟨h1, rfl, rfl⟩
  · rintro ⟨h1, rfl, rfl⟩; exact ⟨_, ⟨h1, rfl⟩, rfl⟩

theorem checkWrites_ok {s : State} {as : List Nat} {u : Unit} :
    s.checkWrites as = .ok u ↔ ∀ a ∈ as, ∀ k < 4, s.writable (a + k) = true := by
  induction as with
  | nil => simp [State.checkWrites]
  | cons a as ih =>
    simp only [State.checkWrites, bind_ok, checkWrite_ok, ih, List.forall_mem_cons]
    exact ⟨fun ⟨_, h1, h2⟩ => ⟨h1, h2⟩, fun ⟨h1, h2⟩ => ⟨(), h1, h2⟩⟩

theorem checkCodes_ok {s : State} {as : List Nat} {u : Unit} :
    s.checkCodes as = .ok u ↔ ∀ a ∈ as, ∀ k < 4, s.inCode (a + k) = false := by
  induction as with
  | nil => simp [State.checkCodes]
  | cons a as ih =>
    simp only [State.checkCodes, bind_ok, checkCode_ok, ih, List.forall_mem_cons]
    exact ⟨fun ⟨_, h1, h2⟩ => ⟨h1, h2⟩, fun ⟨h1, h2⟩ => ⟨(), h1, h2⟩⟩

end Sys2Proof.Laws
end

