-- ==== Sys2Proof/Laws/Flags.lean ====
section
/-! SUPPORT. What each result-and-flag computation gives, in the terms of the statements
(spec/41_binary_arithmetic.md R230, 43_logical.md R280, 44_shift_rotate.md R311 to R323). -/

namespace Sys2Proof.Laws

open Sys2Proof Sys2Proof.Machine

variable {w : Nat}

/-- The two readings of parity agree (00_scope.md R11). -/
theorem parity8_eq (v : BitVec w) : parity8 v = evenParity v := by
  unfold parity8 evenParity
  simp only [show List.range 8 = [0, 1, 2, 3, 4, 5, 6, 7] from rfl, List.countP_cons, List.countP_nil]
  generalize v.getLsbD 0 = b0
  generalize v.getLsbD 1 = b1
  generalize v.getLsbD 2 = b2
  generalize v.getLsbD 3 = b3
  generalize v.getLsbD 4 = b4
  generalize v.getLsbD 5 = b5
  generalize v.getLsbD 6 = b6
  generalize v.getLsbD 7 = b7
  cases b0 <;> cases b1 <;> cases b2 <;> cases b3 <;> cases b4 <;> cases b5 <;> cases b6 <;> cases b7 <;> rfl

theorem beq_zero_eq (r : BitVec w) : (r == 0#w) = decide (r.toNat = 0) := by
  rw [show (r == 0#w) = decide (r = 0#w) from rfl]
  congr 1
  rw [← BitVec.toNat_inj]
  simp

theorem msb_eq (r : BitVec w) : r.msb = r.getLsbD (w - 1) := BitVec.msb_eq_getLsbD_last r

/-- What does not fit in `w` signed bits. -/
theorem not_fitsSigned (n : Int) :
    (!fitsSigned w n) = decide (2 ^ (w - 1) ≤ n ∨ n < -2 ^ (w - 1)) := by
  unfold fitsSigned
  by_cases h1 : -2 ^ (w - 1) ≤ n <;> by_cases h2 : n ≤ 2 ^ (w - 1) - 1 <;> simp [h1, h2] <;> omega

/-- `addFlags` is the addition rule of R230. -/
theorem addRule_addFlags (a b : BitVec w) (c : Bool) (f : Eflags) :
    AddRule a b c (addFlags a b c).1 f (f.withStatus (addFlags a b c).2) := by
  refine ⟨by simp [addFlags], ?_⟩
  simp only [addFlags, Eflags.withStatus, parity8_eq, beq_zero_eq, msb_eq, not_fitsSigned]

theorem bool_toInt (c : Bool) : c.toInt = (c.toNat : Int) := by cases c <;> rfl

theorem toNat_ofInt_eq (n : Int) : ((BitVec.ofInt w n).toNat : Int) = n % 2 ^ w := by
  rw [BitVec.toNat_ofInt]
  have h : (0 : Int) ≤ n % (2 ^ w : Nat) := Int.emod_nonneg _ (by have := Nat.two_pow_pos w; omega)
  rw [Int.toNat_of_nonneg h]
  push_cast
  rfl

/-- `subFlags` is the subtraction rule of R230. -/
theorem subRule_subFlags (a b : BitVec w) (c : Bool) (f : Eflags) :
    SubRule a b c (subFlags a b c).1 f (f.withStatus (subFlags a b c).2) := by
  refine ⟨by simp only [subFlags, toNat_ofInt_eq, bool_toInt], ?_⟩
  simp only [subFlags, Eflags.withStatus, parity8_eq, beq_zero_eq, msb_eq, not_fitsSigned, bool_toInt,
    Eflags.mk.injEq, decide_eq_decide, true_and, and_true]
  exact ⟨by omega, by omega⟩

/-- `logicFlags` is the rule of R280. -/
theorem logicRule_logicFlags (r : BitVec w) (u : Nat → Bool) (f : Eflags) :
    LogicRule r f (f.withStatus (logicFlags r u)) := by
  simp only [LogicRule, logicFlags, Eflags.withStatus, parity8_eq, beq_zero_eq, msb_eq]

/-- `shiftStatus` gives SF, ZF and PF of the result. -/
theorem shiftRule_shiftStatus (r : BitVec w) (cf ofl : Bool) (u : Nat → Bool) (f : Eflags) :
    ShiftFlagRule r f (f.withStatus (shiftStatus r cf ofl u)) := by
  simp only [ShiftFlagRule, shiftStatus, Eflags.withStatus, parity8_eq, beq_zero_eq, msb_eq]

end Sys2Proof.Laws
end

