-- ==== Sys2Proof/Tests/Slice0.lean ====
section
/-! SUPPORT. Tests: ill-formed terms that `Instr.wf` refuses, encodings written out from spec/30_encoding.md that decode
to the instruction they stand for, single steps with the results of spec/95_test_vectors.md, and for each statement with
hypotheses a state and operands that meet them. -/

namespace Sys2Proof.Tests

open Sys2Proof Sys2Proof.Machine

/-! ### Well-formedness: one ill-formed term for each check -/

/-- `[EBX]`. -/
def atEbx : RM := .mem ⟨none, some .ebx, none, .none⟩

/-- ESP as an index (30_encoding.md R111). -/
theorem test_wf_esp_index : (Instr.inc (.rm .byte (.mem ⟨none, some .eax, some (.esp, .x1), .none⟩))).wf = false := by
  decide

/-- No base and a displacement that has not 32 bits, or none (R111, R112). -/
theorem test_wf_no_base :
    (Instr.add (.rmReg .byte (.mem ⟨none, none, none, .none⟩) .eax)).wf = false ∧
    (Instr.lea .v32 .eax ⟨none, none, some (.esi, .x4), .d8 0#8⟩).wf = false := by decide

/-- EBP as base without a displacement (R110). -/
theorem test_wf_ebp_base : (Instr.mov (.regRm .dword .eax (.mem ⟨none, some .ebp, none, .none⟩))).wf = false := by
  decide

/-- `90` is NOP, not XCHG EAX,EAX (40_data_movement.md R204). -/
theorem test_wf_xchg_eax : (Instr.xchg (.accReg .v32 .eax)).wf = false := by decide

/-- There is no POP CS (R120). -/
theorem test_wf_pop_cs : (Instr.popSeg .cs).wf = false := by decide

/-- Group members and second bytes that R120 to R122 define are no undefined encodings. -/
theorem test_wf_undefined :
    [UndefEnc.group 0x8F#8 0#3, .group 0xC0#8 4#3, .group 0xC6#8 0#3, .group 0xF6#8 0#3, .group 0xFE#8 1#3,
     .group 0xFF#8 6#3, .group 0x80#8 1#3, .group0F 0x00#8 5#3, .group0F 0x01#8 4#3, .group0F 0xBA#8 4#3,
     .escape 0x80#8, .escape 0xAF#8, .leaReg 0x80#8].all (fun u => !(Instr.undefined u).wf) = true := by decide

/-- The check looks into every operand form. -/
theorem test_wf_forms :
    (let e : RM := .mem ⟨none, none, none, .none⟩
     [Instr.or (.regRm .byte .eax e), .adc (.rmImm .byte e 0#8), .sbb (.rmImm8s .v16 e 0#8), .neg .byte e,
      .test (.rmReg .byte e .eax), .imul2 .v32 .eax e, .imul3 (.imm8s .v32 .eax e 0#8), .xchg (.rmReg .byte e .eax),
      .push (.rm .v32 e), .pop (.rm .v32 e), .movsx (.word .eax e), .movzx (.byte .v16 .eax e), .bt (.reg .v32 e .eax),
      .btc (.imm .v32 e 0#8), .bsf .v32 .eax e, .setg e, .rcl .byte e .one, .shrd .v32 e .eax .cl, .jmpInd e,
      .callInd e].all fun i => !i.wf) = true := by decide

/-! ### Decoding: the bytes of the encoding tables (30_encoding.md R103 to R106, R110 to R122) -/

/-- The bytes, written as numbers. -/
def bytes (l : List Nat) : List Byte := l.map (BitVec.ofNat 8)

/-- The bytes decode to the instruction and to nothing beyond it. -/
def readsAs (l : List Nat) (i : Instr) : Bool := decode (bytes l) == some (i, l.length)

/-- Two operands: base opcode plus 0 to 5, and group 1 (R120, R122). -/
theorem test_decode_two_operands :
    (readsAs [0x00, 0xD8] (.add (.rmReg .byte (.reg .eax) .ebx)) &&
     readsAs [0x09, 0xD8] (.or (.rmReg .dword (.reg .eax) .ebx)) &&
     readsAs [0x66, 0x13, 0x03] (.adc (.regRm .word .eax atEbx)) &&
     readsAs [0x1A, 0x03] (.sbb (.regRm .byte .eax atEbx)) &&
     readsAs [0x25, 0x00, 0x00, 0xFF, 0xFF] (.and (.accImm .dword 0xFFFF0000#32)) &&
     readsAs [0x81, 0xEB, 0x78, 0x56, 0x34, 0x12] (.sub (.rmImm .dword (.reg .ebx) 0x12345678#32)) &&
     readsAs [0x83, 0xF0, 0xFF] (.xor (.rmImm8s .v32 (.reg .eax) 0xFF#8)) &&
     readsAs [0x80, 0x3B, 0xFF] (.cmp (.rmImm .byte atEbx 0xFF#8))) = true := by decide

/-- One operand, TEST, multiplication, division (groups 3, 4, 5 of R122). -/
theorem test_decode_one_operand :
    (readsAs [0x40] (.inc (.reg .v32 .eax)) && readsAs [0xFE, 0xC0] (.inc (.rm .byte (.reg .eax))) &&
     readsAs [0x66, 0x4B] (.dec (.reg .v16 .ebx)) && readsAs [0xFF, 0x0B] (.dec (.rm .dword atEbx)) &&
     readsAs [0xF7, 0xD8] (.neg .dword (.reg .eax)) && readsAs [0xF6, 0xD3] (.not .byte (.reg .ebx)) &&
     readsAs [0x85, 0xD8] (.test (.rmReg .dword (.reg .eax) .ebx)) &&
     readsAs [0xA8, 0x80] (.test (.accImm .byte 0x80#8)) &&
     readsAs [0xF6, 0x03, 0x0F] (.test (.rmImm .byte atEbx 0x0F#8)) &&
     readsAs [0xF7, 0xE3] (.mul .dword (.reg .ebx)) && readsAs [0xF6, 0xEB] (.imul1 .byte (.reg .ebx)) &&
     readsAs [0x66, 0x0F, 0xAF, 0xCA] (.imul2 .v16 .ecx (.reg .edx)) &&
     readsAs [0x69, 0x03, 0xE8, 0x03, 0x00, 0x00] (.imul3 (.imm .v32 .eax atEbx 1000#32)) &&
     readsAs [0xF7, 0xF3] (.div .dword (.reg .ebx)) && readsAs [0xF6, 0x3B] (.idiv .byte atEbx)) = true := by decide

/-- Decimal adjusts, data movement, conversion (R120, R121). -/
theorem test_decode_data :
    (readsAs [0x27] .daa && readsAs [0x2F] .das && readsAs [0x37] .aaa && readsAs [0x3F] .aas &&
     readsAs [0xB4, 0x7F] (.mov (.regImm .byte .esp 0x7F#8)) &&
     readsAs [0xA3, 0x04, 0x00, 0x50, 0x00] (.mov (.moffsAcc .dword none 0x00500004#32)) &&
     readsAs [0x64, 0xA0, 0x04, 0x00, 0x50, 0x00] (.mov (.accMoffs .byte (some .fs) 0x00500004#32)) &&
     readsAs [0x66, 0x8B, 0x4D, 0xFE] (.mov (.regRm .word .ecx (.mem ⟨none, some .ebp, none, .d8 0xFE#8⟩))) &&
     readsAs [0x89, 0xC3] (.mov (.rmReg .dword (.reg .ebx) .eax)) &&
     readsAs [0xC7, 0x44, 0xB3, 0x08, 0xBE, 0xBA, 0xFE, 0xCA]
       (.mov (.rmImm .dword (.mem ⟨none, some .ebx, some (.esi, .x4), .d8 8#8⟩) 0xCAFEBABE#32)) &&
     readsAs [0x86, 0xE0] (.xchg (.rmReg .byte (.reg .eax) .esp)) && readsAs [0x92] (.xchg (.accReg .v32 .edx)) &&
     readsAs [0x66, 0x50] (.push (.reg .v16 .eax)) && readsAs [0x6A, 0xFF] (.push (.imm8s .v32 0xFF#8)) &&
     readsAs [0xFF, 0x33] (.push (.rm .v32 atEbx)) &&
     readsAs [0x68, 0x44, 0x33, 0x22, 0x11] (.push (.imm .v32 0x11223344#32)) &&
     readsAs [0x5C] (.pop (.reg .v32 .esp)) &&
     readsAs [0x8F, 0x04, 0x24] (.pop (.rm .v32 (.mem ⟨none, some .esp, none, .none⟩))) &&
     readsAs [0x66, 0x98] .cbw && readsAs [0x98] .cwde && readsAs [0x66, 0x99] .cwd && readsAs [0x99] .cdq &&
     readsAs [0x0F, 0xBF, 0x0B] (.movsx (.word .ecx atEbx)) &&
     readsAs [0x66, 0x0F, 0xB6, 0xD7] (.movzx (.byte .v16 .edx (.reg .edi)))) = true := by decide

/-- Bit instructions and SETcc in the order of the condition numbers (R121, R123). -/
theorem test_decode_bits :
    (readsAs [0x0F, 0xA3, 0x0B] (.bt (.reg .v32 atEbx .ecx)) &&
     readsAs [0x0F, 0xBA, 0xEB, 0x03] (.bts (.imm .v32 (.reg .ebx) 3#8)) &&
     readsAs [0x0F, 0xB3, 0xD8] (.btr (.reg .v32 (.reg .eax) .ebx)) &&
     readsAs [0x66, 0x0F, 0xBB, 0xC8] (.btc (.reg .v16 (.reg .eax) .ecx)) &&
     readsAs [0x0F, 0xBC, 0xC3] (.bsf .v32 .eax (.reg .ebx)) && readsAs [0x0F, 0xBD, 0x03] (.bsr .v32 .eax atEbx) &&
     readsAs [0x0F, 0x90, 0x03] (.seto atEbx) && readsAs [0x0F, 0x91, 0x03] (.setno atEbx) &&
     readsAs [0x0F, 0x92, 0x03] (.setb atEbx) && readsAs [0x0F, 0x93, 0x03] (.setae atEbx) &&
     readsAs [0x0F, 0x94, 0x03] (.sete atEbx) && readsAs [0x0F, 0x95, 0x03] (.setne atEbx) &&
     readsAs [0x0F, 0x96, 0xC4] (.setbe (.reg .esp)) && readsAs [0x0F, 0x97, 0x03] (.seta atEbx) &&
     readsAs [0x0F, 0x98, 0x03] (.sets atEbx) && readsAs [0x0F, 0x99, 0x03] (.setns atEbx) &&
     readsAs [0x0F, 0x9A, 0xC2] (.setp (.reg .edx)) && readsAs [0x0F, 0x9B, 0x03] (.setnp atEbx) &&
     readsAs [0x0F, 0x9C, 0x03] (.setl atEbx) && readsAs [0x0F, 0x9D, 0x03] (.setge atEbx) &&
     readsAs [0x0F, 0x9E, 0x03] (.setle atEbx) && readsAs [0x0F, 0x9F, 0xC0] (.setg (.reg .eax))) = true := by decide

/-- Shifts and rotates (group 2 of R122, R121). -/
theorem test_decode_shifts :
    (readsAs [0xC1, 0xC0, 0x04] (.rol .dword (.reg .eax) (.imm 4#8)) &&
     readsAs [0xD0, 0xCB] (.ror .byte (.reg .ebx) .one) && readsAs [0xD2, 0xD3] (.rcl .byte (.reg .ebx) .cl) &&
     readsAs [0xC1, 0xDB, 0x04] (.rcr .dword (.reg .ebx) (.imm 4#8)) &&
     readsAs [0xD1, 0xE0] (.shl .dword (.reg .eax) .one) &&
     readsAs [0x66, 0xD3, 0xEB] (.shr .word (.reg .ebx) .cl) && readsAs [0xC0, 0x3B,
     0x02] (.sar .byte atEbx (.imm 2#8)) &&
     readsAs [0x0F, 0xA4, 0xD8, 0x1F] (.shld .v32 (.reg .eax) .ebx (.imm 31#8)) &&
     readsAs [0x0F, 0xAD, 0x03] (.shrd .v32 atEbx .eax .cl)) = true := by decide

/-- Control transfers; Jcc in the order of the condition numbers, by both forms (R120, R121, R123). -/
theorem test_decode_control :
    (readsAs [0xEB, 0x2C] (.jmpRel (.b 0x2C#8)) && readsAs [0xE9, 0xC3, 0x0F, 0x00, 0x00] (.jmpRel (.v 0x0FC3#32)) &&
     readsAs [0xFF, 0xE0] (.jmpInd (.reg .eax)) &&
     readsAs [0x70, 0x10] (.jo (.b 0x10#8)) && readsAs [0x71, 0x10] (.jno (.b 0x10#8)) &&
     readsAs [0x72, 0x10] (.jb (.b 0x10#8)) && readsAs [0x73, 0x10] (.jae (.b 0x10#8)) &&
     readsAs [0x74, 0x10] (.je (.b 0x10#8)) && readsAs [0x75, 0x10] (.jne (.b 0x10#8)) &&
     readsAs [0x76, 0x10] (.jbe (.b 0x10#8)) && readsAs [0x77, 0xF7] (.ja (.b 0xF7#8)) &&
     readsAs [0x0F, 0x88, 0x01, 0x02, 0x03, 0x04] (.js (.v 0x04030201#32)) &&
     readsAs [0x0F, 0x89, 0x01, 0x02, 0x03, 0x04] (.jns (.v 0x04030201#32)) &&
     readsAs [0x0F, 0x8A, 0x01, 0x02, 0x03, 0x04] (.jp (.v 0x04030201#32)) &&
     readsAs [0x0F, 0x8B, 0x01, 0x02, 0x03, 0x04] (.jnp (.v 0x04030201#32))) = true := by decide

/-- The last four conditions, calls, returns, loops, interrupts (R120). -/
theorem test_decode_calls :
    (readsAs [0x7C, 0x10] (.jl (.b 0x10#8)) && readsAs [0x7D, 0x10] (.jge (.b 0x10#8)) &&
     readsAs [0x7E, 0x10] (.jle (.b 0x10#8)) && readsAs [0x7F, 0x10] (.jg (.b 0x10#8)) &&
     readsAs [0xE8, 0x03, 0x00, 0x00, 0x00] (.callRel 3#32) && readsAs [0xFF, 0x13] (.callInd atEbx) &&
     readsAs [0xC3] .ret && readsAs [0xC2, 0x08, 0x00] (.retImm 8#16) && readsAs [0xE0, 0x10] (.loopne 0x10#8) &&
     readsAs [0xE1, 0x10] (.loope 0x10#8) && readsAs [0xE2, 0x10] (.loop 0x10#8) &&
     readsAs [0xE3, 0x10] (.jecxz 0x10#8) && readsAs [0xCC] .int3 && readsAs [0xCD, 0x80] (.int 0x80#8) &&
     readsAs [0xCE] .into) = true := by decide

/-- String primitives, repeat and override prefixes in either order (R103, R106, 46_string.md R381). -/
theorem test_decode_strings :
    (readsAs [0xA4] (.movsb none) && readsAs [0x66, 0xA5] (.movsd .v16 none) &&
     readsAs [0x2E, 0xA6] (.cmpsb (some .cs)) && readsAs [0xA7] (.cmpsd .v32 none) && readsAs [0xAA] .stosb &&
     readsAs [0xAB] (.stosd .v32) && readsAs [0x65, 0xAC] (.lodsb (some .gs)) && readsAs [0x66,
     0xAD] (.lodsd .v16 none) &&
     readsAs [0xAE] .scasb && readsAs [0x66, 0xAF] (.scasd .v16) &&
     readsAs [0x66, 0xF3, 0xA5] (.rep (.movs .word none)) && readsAs [0xF3, 0x36,
     0xAD] (.rep (.lods .dword (some .ss))) &&
     readsAs [0xF3, 0xAB] (.rep (.stos .dword)) && readsAs [0xF3, 0xA6] (.repe (.cmps .byte none)) &&
     readsAs [0x26, 0xF2, 0xA7] (.repne (.cmps .dword (some .es))) &&
     readsAs [0xF2, 0xAE] (.repne (.scas .byte))) = true := by decide

/-- ENTER, LEAVE, flag control, WAIT, LEA, NOP, XLAT (R120). -/
theorem test_decode_flags_misc :
    (readsAs [0xC8, 0x00, 0x08, 0x03] (.enter 2048#16 3#8) && readsAs [0xC9] .leave && readsAs [0xF8] .clc &&
     readsAs [0xF9] .stc && readsAs [0xF5] .cmc && readsAs [0xFC] .cld && readsAs [0xFD] .std && readsAs [0x9F] .lahf &&
     readsAs [0x9E] .sahf && readsAs [0x66, 0x9C] .pushf && readsAs [0x9C] .pushfd && readsAs [0x66, 0x9D] .popf &&
     readsAs [0x9D] .popfd && readsAs [0x9B] .wait && readsAs [0x90] .nop && readsAs [0x3E, 0xD7] (.xlat (some .ds)) &&
     readsAs [0x8D, 0x04, 0xB5, 0x00, 0x00, 0x00, 0x00]
       (.lea .v32 .eax ⟨none, none, some (.esi, .x4), .d32 0#32⟩)) = true := by decide

/-- What is refused: the instruction is told from the bytes that the table of the spec matches (log 18). -/
theorem test_decode_refused :
    (readsAs [0x1E] (.pushSeg .ds) && readsAs [0x0F, 0xA9] (.popSeg .gs) && readsAs [0x8E] (.movSeg .toSeg) &&
     readsAs [0x8C] (.movSeg .fromSeg) && readsAs [0xC4] .les && readsAs [0xC5] .lds && readsAs [0x0F, 0xB2] .lss &&
     readsAs [0x0F, 0xB4] .lfs && readsAs [0x0F, 0xB5] .lgs && readsAs [0x9A] (.callFar .ap) &&
     readsAs [0xFF, 0x2B] (.jmpFar .mp) && readsAs [0xCB] (.retFar .plain) && readsAs [0x63] .arpl &&
     readsAs [0x0F, 0x00, 0x00] .sldt && readsAs [0x0F, 0x00, 0x08] .str && readsAs [0x0F, 0x00, 0x10] .lldt &&
     readsAs [0x0F, 0x00, 0x18] .ltr && readsAs [0x0F, 0x00, 0x20] .verr && readsAs [0x0F, 0x00, 0x28] .verw &&
     readsAs [0x0F, 0x01, 0x00] .sgdt && readsAs [0x0F, 0x01, 0x08] .sidt && readsAs [0x0F, 0x01, 0x10] .lgdt &&
     readsAs [0x0F, 0x01, 0x18] .lidt && readsAs [0x0F, 0x01, 0x20] .smsw && readsAs [0x0F, 0x01, 0x30] .lmsw &&
     readsAs [0xF4] .hlt) = true := by decide

/-- The other refused instructions (R120 to R122). -/
theorem test_decode_refused_others :
    (readsAs [0x0F, 0x02] .lar && readsAs [0x0F, 0x03] .lsl && readsAs [0x0F, 0x06] .clts &&
     readsAs [0x0F, 0x20] (.movSys .fromCr) && readsAs [0xCF] .iret && readsAs [0xFA] .cli && readsAs [0xFB] .sti &&
     readsAs [0xE4] (.inPort .immByte) && readsAs [0xEE] (.outPort .dxByte) &&
     readsAs [0x6C] .insb && readsAs [0x6D] .insd && readsAs [0x6E] .outsb && readsAs [0x6F] .outsd &&
     readsAs [0x60] .pusha && readsAs [0x61] .popa && readsAs [0x62] .bound && readsAs [0xD4] .aam &&
     readsAs [0xD5] .aad && readsAs [0xD9] (.esc 1#3) && readsAs [0x82] .aliasOf80 &&
     readsAs [0xD6] (.undocumented .d6) && readsAs [0xFF, 0xF8] (.undefined (.group 0xFF#8 7#3)) &&
     readsAs [0x0F, 0x0B] (.undefined (.escape 0x0B#8)) && readsAs [0x8D,
     0xC0] (.undefined (.leaReg 0xC0#8))) = true := by
  decide

/-- Prefixes that are not admitted where they stand (R103 to R106; spec/95 section 5). -/
theorem test_decode_prefixes :
    (readsAs [0x26, 0x27] .prefixEs && readsAs [0x2E, 0x40] .prefixCs && readsAs [0x36, 0x01, 0xD8] .prefixSs &&
     readsAs [0x3E, 0xC3] .prefixDs && readsAs [0x64, 0xAB] .prefixFs && readsAs [0x65, 0x90] .prefixGs &&
     readsAs [0x66, 0x90] .opsize && readsAs [0x66, 0x74, 0x10] .opsize && readsAs [0x67] .addrsize &&
     readsAs [0xF0] .lock && readsAs [0xF3, 0x90] .repMisused && readsAs [0xF2, 0xA4] .repneMisused) = true := by decide

/-! ### Single steps: rows of spec/95_test_vectors.md, one instruction each -/

/-- The registers of the default start state (spec/95 Conventions). -/
def r0 : Regs := ⟨0#32, 0#32, 0#32, 0#32, 0x502000#32, 0#32, 0#32, 0#32⟩

/-- The flags of the default start state: IF = 1. -/
def f0 : Eflags := { Eflags.reset with ifl := true }

/-- Bytes stored from an address on. -/
def poke (m : List Host.Cell) (a : Nat) : List Byte → List Host.Cell
  | [] => m
  | b :: bs => poke (Memory.set m a b) (a + 1) bs

/-- The start state of a row: the memory map of spec/95, the instruction at pc, registers, flags and data bytes. -/
def vec (code : List Byte) (r : Regs) (f : Eflags) (data : List (Nat × List Byte)) : State :=
  { State.reset.protectedFlat with
    regs := r
    flags := f
    pc := 0x402000#32
    ilen := code.length
    mem := poke (data.foldl (fun m d => poke m d.1 d.2) []) 0x402000 code
    memMap := [⟨0x402000, 0x1000, .rw⟩, ⟨0x500000, 0x2000, .rw⟩]
    code := [⟨0x402000, 0x1000⟩]
    haltAddr := some 0x403000#32 }

/-- Is the outcome a next state? -/
def isNext : Outcome → Bool
  | .next _ => true
  | _ => false

/-- Is the outcome a next state that satisfies the test? -/
def nextHas (o : Outcome) (p : State → Bool) : Bool :=
  match o with
  | .next t => p t
  | _ => false

/-- The step answers a next state that satisfies the test. -/
def after (s : State) (p : State → Bool) : Bool :=
  match step s with
  | .next t => p t
  | _ => false

/-- The bytes at an address. -/
def holds (s : State) (a : Nat) (l : List Nat) : Bool :=
  (List.range l.length).map (fun k => Memory.get s.mem (a + k)) == bytes l

/-- ADD EAX,EBX (section 4.2). -/
theorem test_add : after (vec (bytes [0x01, 0xD8]) { r0 with eax := 0x7FFFFFFF#32, ebx := 0x1#32 } f0 [])
    (fun t => t.regs.eax == 0x80000000#32 && !t.flags.cf && t.flags.pf && t.flags.af && !t.flags.zf &&
      t.flags.sf && t.flags.ofl) = true := by decide

/-- ADC AL,0 (section 4.2). -/
theorem test_adc : after (vec (bytes [0x14, 0x00]) { r0 with eax := 0x7F#32 } { f0 with cf := true } [])
    (fun t => t.regs.eax == 0x80#32 && !t.flags.cf && !t.flags.pf && t.flags.af && !t.flags.zf && t.flags.sf &&
      t.flags.ofl) = true := by decide

/-- INC EAX (section 4.2). -/
theorem test_inc : after (vec (bytes [0x40]) { r0 with eax := 0x7FFFFFFF#32 } { f0 with cf := true } [])
    (fun t => t.regs.eax == 0x80000000#32 && t.flags.cf && t.flags.pf && t.flags.af && !t.flags.zf &&
      t.flags.sf && t.flags.ofl) = true := by decide

/-- SUB EAX,EBX (section 4.2). -/
theorem test_sub : after (vec (bytes [0x29, 0xD8]) { r0 with eax := 0x7FFFFFFF#32, ebx := 0xFFFFFFFF#32 } f0 [])
    (fun t => t.regs.eax == 0x80000000#32 && t.flags.cf && t.flags.pf && !t.flags.af && !t.flags.zf &&
      t.flags.sf && t.flags.ofl) = true := by decide

/-- SBB EAX,EBX (section 4.2). -/
theorem test_sbb :
    after (vec (bytes [0x19, 0xD8]) { r0 with eax := 0x5#32, ebx := 0xFFFFFFFF#32 } { f0 with cf := true }
      [])
    (fun t => t.flags.cf && t.flags.pf && t.flags.af && !t.flags.zf && !t.flags.sf && !t.flags.ofl) = true := by decide

/-- DEC WORD PTR [EBX] (section 4.2). -/
theorem test_dec :
    after (vec (bytes [0x66, 0xFF, 0x0B]) { r0 with ebx := 0x500000#32 } f0
      [(0x500000, bytes [0x00, 0x00, 0x01, 0x00])])
    (fun t => !t.flags.cf && t.flags.pf && t.flags.af && !t.flags.zf && t.flags.sf && !t.flags.ofl &&
      holds t 0x500000 [0xFF, 0xFF]) = true := by decide

/-- CMP AL,0x80 (section 4.2). -/
theorem test_cmp : after (vec (bytes [0x3C, 0x80]) { r0 with eax := 0x7F#32 } f0 [])
    (fun t => t.flags.cf && t.flags.pf && !t.flags.af && !t.flags.zf && t.flags.sf && t.flags.ofl) = true := by decide

/-- NEG EAX (section 4.2). -/
theorem test_neg : after (vec (bytes [0xF7, 0xD8]) { r0 with eax := 0x80000000#32 } f0 [])
    (fun t => t.flags.cf && t.flags.pf && !t.flags.af && !t.flags.zf && t.flags.sf && t.flags.ofl) = true := by decide

/-- MUL BX (section 4.2). -/
theorem test_mul :
    after (vec (bytes [0x66, 0xF7, 0xE3]) { r0 with eax := 0xAAAA1000#32, edx := 0xBBBBBBBB#32, ebx := 0x10#32 } f0
      [])
    (fun t => t.regs.eax == 0xAAAA0000#32 && t.regs.edx == 0xBBBB0001#32 && t.flags.cf && t.flags.ofl) = true :=
    by decide

/-- IMUL BL (section 4.2). -/
theorem test_imul1 : after (vec (bytes [0xF6, 0xEB]) { r0 with eax := 0x40#32, ebx := 0x2#32 } f0 [])
    (fun t => t.regs.eax == 0x80#32 && t.flags.cf && t.flags.ofl) = true := by decide

/-- IMUL CX,DX (section 4.2). -/
theorem test_imul2 :
    after (vec (bytes [0x66, 0x0F, 0xAF, 0xCA]) { r0 with ecx := 0xAAAA0100#32, edx := 0x80#32 } f0
      [])
    (fun t => t.regs.ecx == 0xAAAA8000#32 && t.flags.cf && t.flags.ofl) = true := by decide

/-- IMUL EAX,EBX,-128 (section 4.2). -/
theorem test_imul3 : after (vec (bytes [0x6B, 0xC3, 0x80]) { r0 with ebx := 0x1000000#32 } f0 [])
    (fun t => t.regs.eax == 0x80000000#32 && !t.flags.cf && !t.flags.ofl) = true := by decide

/-- DIV BX (section 4.2). -/
theorem test_div :
    after (vec (bytes [0x66, 0xF7, 0xF3]) { r0 with eax := 0xBBBB0005#32, edx := 0xAAAA0001#32, ebx := 0x10#32 } f0
      [])
    (fun t => t.regs.eax == 0xBBBB1000#32 && t.regs.edx == 0xAAAA0005#32) = true := by decide

/-- IDIV BYTE PTR [EBX] (section 4.2). -/
theorem test_idiv :
    after (vec (bytes [0xF6, 0x3B]) { r0 with eax := 0x64#32, ebx := 0x500000#32 } f0
      [(0x500000, bytes [0xF9])])
    (fun t => t.regs.eax == 0x2F2#32) = true := by decide

/-- AAA (section 4.3). -/
theorem test_aaa : after (vec (bytes [0x37]) { r0 with eax := 0x203#32 } { f0 with af := true } [])
    (fun t => t.regs.eax == 0x309#32 && t.flags.cf && t.flags.af) = true := by decide

/-- AAS (section 4.3). -/
theorem test_aas : after (vec (bytes [0x3F]) { r0 with eax := 0xC#32 } f0 [])
    (fun t => t.regs.eax == 0xFF06#32 && t.flags.cf && t.flags.af) = true := by decide

/-- DAA (section 4.3). -/
theorem test_daa : after (vec (bytes [0x27]) { r0 with eax := 0x9A#32 } f0 [])
    (fun t => t.regs.eax == 0x0#32 && t.flags.cf && t.flags.pf && t.flags.af && t.flags.zf && !t.flags.sf) = true :=
    by decide

/-- DAS (section 4.3). -/
theorem test_das : after (vec (bytes [0x2F]) { r0 with eax := 0x10#32 } { f0 with af := true } [])
    (fun t => t.regs.eax == 0xA#32 && !t.flags.cf && t.flags.pf && t.flags.af && !t.flags.zf &&
    !t.flags.sf) = true := by decide

/-- MOV EAX,[0x00500004] (section 4.1). -/
theorem test_mov_moffs :
    after (vec (bytes [0xA1, 0x04, 0x00, 0x50, 0x00]) r0 f0
      [(0x500004, bytes [0xD4, 0xC3, 0xB2, 0xA1])])
    (fun t => t.regs.eax == 0xA1B2C3D4#32) = true := by decide

/-- MOV AH,0x7F (section 4.1). -/
theorem test_mov_high : after (vec (bytes [0xB4, 0x7F]) { r0 with eax := 0x11223344#32 } f0 [])
    (fun t => t.regs.eax == 0x11227F44#32) = true := by decide

/-- MOV CX,[EBP-2] (section 4.1). -/
theorem test_mov_base :
    after (vec (bytes [0x66, 0x8B, 0x4D, 0xFE]) { r0 with ecx := 0xFFFFFFFF#32, ebp := 0x500012#32 } f0
      [(0x500010, bytes [0x78, 0x56, 0x34, 0x12])])
    (fun t => t.regs.ecx == 0xFFFF5678#32) = true := by decide

/-- XCHG AL,AH (section 4.1). -/
theorem test_xchg : after (vec (bytes [0x86, 0xE0]) { r0 with eax := 0x12345678#32 } f0 [])
    (fun t => t.regs.eax == 0x12347856#32) = true := by decide

/-- PUSH -1 (section 4.1). -/
theorem test_push_imm : after (vec (bytes [0x6A, 0xFF]) r0 { f0 with cf := true } [])
    (fun t => t.regs.esp == 0x501FFC#32 && t.flags.cf && !t.flags.pf && !t.flags.af && !t.flags.zf &&
      !t.flags.sf && !t.flags.ofl && holds t 0x501FFC [0xFF, 0xFF, 0xFF, 0xFF]) = true := by decide

/-- PUSH ESP (section 4.1). -/
theorem test_push_esp : after (vec (bytes [0x54]) r0 f0 [])
    (fun t => t.regs.esp == 0x501FFC#32 && holds t 0x501FFC [0x00, 0x20, 0x50, 0x00]) = true := by decide

/-- CWDE (section 4.1). -/
theorem test_cwde : after (vec (bytes [0x98]) { r0 with eax := 0xFFFF7FFF#32 } f0 [])
    (fun t => t.regs.eax == 0x7FFF#32) = true := by decide

/-- CWD (section 4.1). -/
theorem test_cwd : after (vec (bytes [0x66, 0x99]) { r0 with eax := 0x7FFF#32, edx := 0xFFFFFFFF#32 } f0 [])
    (fun t => t.regs.edx == 0xFFFF0000#32) = true := by decide

/-- CDQ (section 4.1). -/
theorem test_cdq : after (vec (bytes [0x99]) { r0 with eax := 0x80000000#32, edx := 0x12345678#32 } f0 [])
    (fun t => t.regs.edx == 0xFFFFFFFF#32) = true := by decide

/-- MOVSX CX,BL (section 4.1). -/
theorem test_movsx :
    after (vec (bytes [0x66, 0x0F, 0xBE, 0xCB]) { r0 with ecx := 0xAAAAAAAA#32, ebx := 0x80#32 } f0
      [])
    (fun t => t.regs.ecx == 0xAAAAFF80#32) = true := by decide

/-- MOVZX DX,BH (section 4.1). -/
theorem test_movzx :
    after (vec (bytes [0x66, 0x0F, 0xB6, 0xD7]) { r0 with edx := 0xAAAAAAAA#32, ebx := 0xFE00#32 } f0
      [])
    (fun t => t.regs.edx == 0xAAAA00FE#32) = true := by decide

/-- AND EAX,-16 (section 4.4). -/
theorem test_and : after (vec (bytes [0x83, 0xE0, 0xF0]) { r0 with eax := 0x1234567F#32 } f0 [])
    (fun t => t.regs.eax == 0x12345670#32 && !t.flags.cf && !t.flags.pf && !t.flags.zf && !t.flags.sf &&
      !t.flags.ofl) = true := by decide

/-- OR BYTE PTR [EBX],0x80 (section 4.4). -/
theorem test_or :
    after (vec (bytes [0x80, 0x0B, 0x80]) { r0 with ebx := 0x500000#32 } f0
      [(0x500000, bytes [0x01])])
    (fun t => !t.flags.cf && t.flags.pf && !t.flags.zf && t.flags.sf && !t.flags.ofl &&
    holds t 0x500000 [0x81]) = true := by decide

/-- XOR AL,AL (section 4.4). -/
theorem test_xor : after (vec (bytes [0x30, 0xC0]) { r0 with eax := 0x12345678#32 } f0 [])
    (fun t => t.regs.eax == 0x12345600#32 && !t.flags.cf && t.flags.pf && t.flags.zf && !t.flags.sf &&
      !t.flags.ofl) = true := by decide

/-- NOT WORD PTR [EBX] (section 4.4). -/
theorem test_not :
    after (vec (bytes [0x66, 0xF7, 0x13]) { r0 with ebx := 0x500000#32 } f0
      [(0x500000, bytes [0x78, 0x56, 0x34, 0x12])])
    (fun t => holds t 0x500000 [0x87, 0xA9]) = true := by decide

/-- TEST EAX,EBX (section 4.4). -/
theorem test_test :
    after (vec (bytes [0x85, 0xD8]) { r0 with eax := 0x80000000#32, ebx := 0xFFFFFFFF#32 }
      { f0 with cf := true, ofl := true }
      [])
    (fun t => !t.flags.cf && t.flags.pf && !t.flags.zf && t.flags.sf && !t.flags.ofl) = true := by decide

/-- BT [EBX],ECX (section 4.4). -/
theorem test_bt_below :
    after (vec (bytes [0x0F, 0xA3, 0x0B]) { r0 with ecx := 0xFFFFFFFF#32, ebx := 0x500010#32 } f0
      [(0x50000C, bytes [0x00, 0x00, 0x00, 0x80])])
    (fun t => t.flags.cf) = true := by decide

/-- BTS DWORD PTR [EBX],ECX (section 4.4). -/
theorem test_bts : after (vec (bytes [0x0F, 0xAB, 0x0B]) { r0 with ecx := 0x47#32, ebx := 0x500000#32 } f0 [])
    (fun t => !t.flags.cf && holds t 0x500008 [0x80]) = true := by decide

/-- BTR DWORD PTR [EBX],31 (section 4.4). -/
theorem test_btr :
    after (vec (bytes [0x0F, 0xBA, 0x33, 0x1F]) { r0 with ebx := 0x500000#32 } f0
      [(0x500000, bytes [0xFF, 0xFF, 0xFF, 0xFF])])
    (fun t => t.flags.cf && holds t 0x500003 [0x7F]) = true := by decide

/-- BTC EAX,ECX (section 4.4). -/
theorem test_btc : after (vec (bytes [0x0F, 0xBB, 0xC8]) { r0 with eax := 0x0#32, ecx := 0x3F#32 } f0 [])
    (fun t => t.regs.eax == 0x80000000#32 && !t.flags.cf) = true := by decide

/-- BSF AX,BX (section 4.4). -/
theorem test_bsf :
    after (vec (bytes [0x66, 0x0F, 0xBC, 0xC3]) { r0 with eax := 0xAAAAAAAA#32, ebx :=
    0xFFFF0100#32 } { f0 with zf := true }
      [])
    (fun t => t.regs.eax == 0xAAAA0008#32 && !t.flags.zf) = true := by decide

/-- BSR EAX,DWORD PTR [EBX] (section 4.4). -/
theorem test_bsr :
    after (vec (bytes [0x0F, 0xBD, 0x03]) { r0 with ebx := 0x500000#32 } f0
      [(0x500000, bytes [0x01, 0x00, 0x01, 0x00])])
    (fun t => t.regs.eax == 0x10#32 && !t.flags.zf) = true := by decide

/-- SETBE AH (section 4.4). -/
theorem test_setbe : after (vec (bytes [0x0F, 0x96, 0xC4]) { r0 with eax := 0x0#32 } { f0 with cf := true } [])
    (fun t => t.regs.eax == 0x100#32) = true := by decide

/-- SETG AL (section 4.4). -/
theorem test_setg :
    after (vec (bytes [0x0F, 0x9F, 0xC0]) { r0 with eax := 0xFFFFFFFF#32 } { f0 with sf := true, ofl := true }
      [])
    (fun t => t.regs.eax == 0xFFFFFF01#32) = true := by decide

/-- SHL AX,15 (section 4.5). -/
theorem test_shl : after (vec (bytes [0x66, 0xC1, 0xE0, 0x0F]) { r0 with eax := 0x12340003#32 } f0 [])
    (fun t => t.regs.eax == 0x12348000#32 && t.flags.cf && t.flags.pf && !t.flags.zf && t.flags.sf) = true := by decide

/-- SHR EAX,1 (section 4.5). -/
theorem test_shr : after (vec (bytes [0xD1, 0xE8]) { r0 with eax := 0x80000001#32 } f0 [])
    (fun t => t.regs.eax == 0x40000000#32 && t.flags.cf && t.flags.pf && !t.flags.zf && !t.flags.sf &&
      t.flags.ofl) = true := by decide

/-- SAR WORD PTR [EBX],4 (section 4.5). -/
theorem test_sar :
    after (vec (bytes [0x66, 0xC1, 0x3B, 0x04]) { r0 with ebx := 0x500000#32 } f0
      [(0x500000, bytes [0x0F, 0xF0, 0x55, 0x55])])
    (fun t => t.flags.cf && t.flags.pf && !t.flags.zf && t.flags.sf && holds t 0x500000 [0x00, 0xFF]) = true :=
    by decide

/-- SHL EAX,CL (section 4.5). -/
theorem test_shift_by_zero :
    after (vec (bytes [0xD3, 0xE0]) { r0 with eax := 0x12345678#32, ecx := 0x20#32 }
      { f0 with cf := true, zf := true, ofl := true, sf := true, af := true, pf := true }
      [])
    (fun t => t.flags.cf && t.flags.pf && t.flags.af && t.flags.zf && t.flags.sf && t.flags.ofl) = true := by decide

/-- SHLD AX,BX,4 (section 4.5). -/
theorem test_shld :
    after (vec (bytes [0x66, 0x0F, 0xA4, 0xD8, 0x04]) { r0 with eax := 0xFFFF1234#32, ebx := 0xABCD#32 } f0
      [])
    (fun t => t.regs.eax == 0xFFFF234A#32 && t.flags.cf && !t.flags.pf && !t.flags.zf && !t.flags.sf) = true :=
    by decide

/-- SHRD DWORD PTR [EBX],EAX,CL (section 4.5). -/
theorem test_shrd :
    after (vec (bytes [0x0F, 0xAD, 0x03]) { r0 with eax := 0x1#32, ecx := 0x1#32, ebx := 0x500000#32 } f0
      [(0x500000, bytes [0x02, 0x00, 0x00, 0x00])])
    (fun t => !t.flags.cf && !t.flags.pf && !t.flags.zf && t.flags.sf && holds t 0x500000 [0x01] &&
      holds t 0x500003 [0x80]) = true := by decide

/-- ROL AX,CL (section 4.5). -/
theorem test_rol : after (vec (bytes [0x66, 0xD3, 0xC0]) { r0 with eax := 0x8000#32, ecx := 0x11#32 } f0 [])
    (fun t => t.regs.eax == 0x1#32 && t.flags.cf) = true := by decide

/-- ROR EAX,1 (section 4.5). -/
theorem test_ror : after (vec (bytes [0xD1, 0xC8]) { r0 with eax := 0x1#32 } f0 [])
    (fun t => t.regs.eax == 0x80000000#32 && t.flags.cf && t.flags.ofl) = true := by decide

/-- RCL BL,CL (section 4.11). -/
theorem test_rcl :
    after (vec (bytes [0xD2, 0xD3]) { r0 with ecx := 0x2#32, ebx := 0x81#32 } { f0 with cf := true }
      [])
    (fun t => t.regs.ebx == 0x7#32 && !t.flags.cf) = true := by decide

/-- RCR EBX,4 (section 4.11). -/
theorem test_rcr : after (vec (bytes [0xC1, 0xDB, 0x04]) { r0 with ebx := 0xF#32 } { f0 with cf := true } [])
    (fun t => t.regs.ebx == 0xF0000000#32 && t.flags.cf) = true := by decide

/-- LOOP +0x10 (section 4.6). -/
theorem test_loop : after (vec (bytes [0xE2, 0x10]) { r0 with ecx := 0x0#32 } f0 [])
    (fun t => t.pc == 0x402012#32 && t.regs.ecx == 0xFFFFFFFF#32) = true := by decide

/-- LOOPE +0x10 (section 4.6). -/
theorem test_loope : after (vec (bytes [0xE1, 0x10]) { r0 with ecx := 0x5#32 } f0 [])
    (fun t => t.pc == 0x402002#32 && t.regs.ecx == 0x4#32) = true := by decide

/-- LOOPNE +0x10 (section 4.6). -/
theorem test_loopne : after (vec (bytes [0xE0, 0x10]) { r0 with ecx := 0x5#32 } f0 [])
    (fun t => t.pc == 0x402012#32 && t.regs.ecx == 0x4#32) = true := by decide

/-- JECXZ +0x10 (section 4.6). -/
theorem test_jecxz : after (vec (bytes [0xE3, 0x10]) { r0 with ecx := 0x10000#32 } f0 [])
    (fun t => t.pc == 0x402002#32) = true := by decide

/-- MOVSD (section 4.7). -/
theorem test_movsd :
    after (vec (bytes [0xA5]) { r0 with ecx := 0x7#32, esi := 0x500000#32, edi := 0x500020#32 } f0
      [(0x500000, bytes [0xEF, 0xBE, 0xAD, 0xDE])])
    (fun t => t.regs.esi == 0x500004#32 && t.regs.edi == 0x500024#32 &&
      holds t 0x500020 [0xEF, 0xBE, 0xAD, 0xDE]) = true := by decide

/-- CMPSD (section 4.7). -/
theorem test_cmpsd :
    after (vec (bytes [0xA7]) { r0 with esi := 0x500000#32, edi := 0x500010#32 } { f0 with df := true }
      [(0x500000, bytes [0x05, 0x00, 0x00, 0x00]), (0x500010, bytes [0x05, 0x00, 0x00, 0x00])])
    (fun t => t.regs.esi == 0x4FFFFC#32 && t.regs.edi == 0x50000C#32 && !t.flags.cf && t.flags.pf &&
      !t.flags.af && t.flags.zf && !t.flags.sf && t.flags.df && !t.flags.ofl) = true := by decide

/-- SCASW (section 4.7). -/
theorem test_scasw :
    after (vec (bytes [0x66, 0xAF]) { r0 with eax := 0x10000#32, edi := 0x500000#32 } f0
      [(0x500000, bytes [0x01, 0x00, 0x00, 0x00])])
    (fun t => t.regs.edi == 0x500002#32 && t.flags.cf && t.flags.pf && t.flags.af && !t.flags.zf &&
      t.flags.sf && !t.flags.ofl) = true := by decide

/-- LODSW (section 4.7). -/
theorem test_lodsw :
    after (vec (bytes [0x66, 0xAD]) { r0 with eax := 0xFFFFFFFF#32, esi := 0x500002#32 } { f0 with df := true }
      [(0x500000, bytes [0x78, 0x56, 0x34, 0x12])])
    (fun t => t.regs.eax == 0xFFFF1234#32 && t.regs.esi == 0x500000#32) = true := by decide

/-- STOSB (section 4.7). -/
theorem test_stosb : after (vec (bytes [0xAA]) { r0 with eax := 0x12345678#32, edi := 0x500000#32 } f0 [])
    (fun t => t.regs.edi == 0x500001#32 && holds t 0x500000 [0x78]) = true := by decide

/-- ENTER 2048,3 (section 1.7). -/
theorem test_enter :
    after (vec (bytes [0xC8, 0x00, 0x08, 0x03]) { r0 with ebp := 0x500100#32 } f0
      [(0x5000F8, bytes [0x02, 0x00, 0x22, 0x22, 0x01, 0x00, 0x11, 0x11])])
    (fun t => t.regs.esp == 0x5017F0#32 && t.regs.ebp == 0x501FFC#32 &&
      holds t 0x501FF0 [0xFC, 0x1F, 0x50, 0x00, 0x02, 0x00, 0x22, 0x22, 0x01, 0x00, 0x11, 0x11, 0x00, 0x01, 0x50,
      0x00]) = true := by decide

/-- LEAVE (section 4.8). -/
theorem test_leave :
    after (vec (bytes [0xC9]) { r0 with esp := 0x500010#32, ebp := 0x500040#32 } f0
      [(0x500040, bytes [0x80, 0x00, 0x50, 0x00])])
    (fun t => t.regs.esp == 0x500044#32 && t.regs.ebp == 0x500080#32) = true := by decide

/-- SAHF (section 4.9). -/
theorem test_sahf : after (vec (bytes [0x9E]) { r0 with eax := 0xFF00#32 } { f0 with ofl := true, df := true } [])
    (fun t => t.flags.cf && t.flags.pf && t.flags.af && t.flags.zf && t.flags.sf && t.flags.df &&
    t.flags.ofl) = true := by decide

/-- PUSHFD (section 4.9). -/
theorem test_pushfd :
    after (vec (bytes [0x9C]) r0
      { f0 with cf := true, pf := true, af := true, zf := true, sf := true, ofl := true, df := true }
      [])
    (fun t => t.regs.esp == 0x501FFC#32 && holds t 0x501FFC [0xD7, 0x0E, 0x00, 0x00]) = true := by decide

/-- PUSHF (section 4.9). -/
theorem test_pushf : after (vec (bytes [0x66, 0x9C]) r0 { f0 with cf := true, zf := true } [])
    (fun t => t.regs.esp == 0x501FFE#32 && holds t 0x501FFE [0x43, 0x02]) = true := by decide

/-- LEA CX,[EBX+0x12345] (section 4.10). -/
theorem test_lea :
    after (vec (bytes [0x66, 0x8D, 0x8B, 0x45, 0x23, 0x01, 0x00]) { r0 with ecx := 0xFFFFFFFF#32, ebx := 0x10000#32 } f0
      [])
    (fun t => t.regs.ecx == 0xFFFF2345#32) = true := by decide

/-- XLAT (section 4.10). -/
theorem test_xlat :
    after (vec (bytes [0xD7]) { r0 with eax := 0xFF#32, ebx := 0x500010#32 } f0
      [(0x50010F, bytes [0x99])])
    (fun t => t.regs.eax == 0x99#32) = true := by decide

/-! ### Stops (spec/95 section 5) -/

/-- The exception a step ends in. -/
def excOf : Outcome → Option (Byte × ExcInfo × Word)
  | .fault (.exception v i c) => some (v, i, c.pc)
  | _ => none

/-- The memory fault a step ends in. -/
def memFaultOf : Outcome → Option (Nat × AccessKind)
  | .fault (.memFault a k) => some (a, k)
  | _ => none

/-- The reason a step is refused. -/
def refusedOf : Outcome → Option Refusal
  | .refused r => some r
  | _ => none

/-- Divide errors leave pc at the instruction; a quotient of 2^32 does not fit. -/
theorem test_divide_error :
    excOf (step (vec (bytes [0xF7, 0xF3]) { r0 with edx := 2#32, ebx := 2#32 } f0 [])) =
      some (0#8, .divideError, 0x402000#32) ∧
    excOf (step (vec (bytes [0xF6, 0xFB]) { r0 with eax := 0xFF7F#32, ebx := 1#32 } f0 [])) =
      some (0#8, .divideError, 0x402000#32) := by decide

/-- Software interrupts leave pc behind the instruction. -/
theorem test_software_interrupts :
    excOf (step (vec (bytes [0xCD, 0x00]) r0 f0 [])) = some (0#8, .softwareInterrupt, 0x402002#32) ∧
    excOf (step (vec (bytes [0xCC]) r0 f0 [])) = some (3#8, .softwareInterrupt, 0x402001#32) ∧
    excOf (step (vec (bytes [0xCE]) r0 { f0 with ofl := true } [])) = some (4#8, .softwareInterrupt, 0x402001#32) := by
  decide

/-- A NOP that begins with TF = 1 ends in the single-step trap. -/
theorem test_single_step :
    excOf (step (vec (bytes [0x90]) r0 { f0 with tf := true } [])) = some (1#8, .singleStep, 0x402001#32) := by decide

/-- The first unmapped byte; an access that stores nothing where it faults; a wrap before the map. -/
theorem test_memory_stops :
    memFaultOf (step (vec (bytes [0xA1, 0xFE, 0x1F, 0x50, 0x00]) r0 f0 [])) = some (0x502000, .read) ∧
    memFaultOf (step (vec (bytes [0xA3, 0xFE, 0x1F, 0x50, 0x00]) r0 f0 [])) = some (0x502000, .write) ∧
    memFaultOf (step (vec (bytes [0xC3]) r0 f0 [])) = some (0x502000, .read) ∧
    refusedOf (step (vec (bytes [0x8B, 0x03]) { r0 with ebx := 0xFFFFFFFE#32 } f0 [])) = some .addressWrap ∧
    refusedOf (step (vec (bytes [0xA3, 0x00, 0x20, 0x40, 0x00]) r0 f0 [])) = some .storeIntoCode := by decide

/-- One refusal of each reason. -/
theorem test_refusals :
    refusedOf (step (vec (bytes [0x67, 0x8B, 0x07]) r0 f0 [])) = some .prefixNotAdmitted ∧
    refusedOf (step (vec (bytes [0x0F, 0x0B]) r0 f0 [])) = some .undefinedOpcode ∧
    refusedOf (step (vec (bytes [0xD4, 0x0A]) r0 f0 [])) = some .notNamedInSource ∧
    refusedOf (step (vec (bytes [0x8E, 0xD8]) r0 f0 [])) = some .segmentInstruction ∧
    refusedOf (step (vec (bytes [0x0F, 0x20, 0xC0]) r0 f0 [])) = some .systemInstruction ∧
    refusedOf (step (vec (bytes [0xE4, 0x60]) r0 f0 [])) = some .ioInstruction ∧
    refusedOf (step (vec (bytes [0xD9, 0xE8]) r0 f0 [])) = some .coprocessorInstruction := by decide

/-! ### Further single steps (spec/95 part B) -/

/-- REP MOVSB with DF = 1: one iteration, pc stays (section 4.7). -/
theorem test_rep_movsb :
    after (vec (bytes [0xF3, 0xA4]) { r0 with ecx := 5#32, esi := 0x500004#32, edi := 0x500024#32 }
      { f0 with df := true } [(0x500004, bytes [0x4F])])
    (fun t => t.pc == 0x402000#32 && t.regs.ecx == 4#32 && t.regs.esi == 0x500003#32 && t.regs.edi == 0x500023#32 &&
      holds t 0x500024 [0x4F]) = true := by decide

/-- REPE CMPSB ends at the first mismatch, REPNE SCASB at the first match (section 4.7). -/
theorem test_repeat_compare :
    after (vec (bytes [0xF3, 0xA6]) { r0 with ecx := 5#32, esi := 0x500003#32, edi := 0x500013#32 } f0
      [(0x500003, bytes [0x44]), (0x500013, bytes [0x78])])
    (fun t => t.pc == 0x402002#32 && t.regs.ecx == 4#32 && t.flags.cf && !t.flags.zf) = true ∧
    after (vec (bytes [0xF2, 0xAE]) { r0 with eax := 0x4C#32, ecx := 5#32, edi := 0x500002#32 } f0
      [(0x500002, bytes [0x4C])])
    (fun t => t.pc == 0x402002#32 && t.regs.ecx == 4#32 && t.flags.zf) = true := by decide

/-- CALL pushes the address behind it, RET n pops it (section 4.6). -/
theorem test_call_ret :
    after (vec (bytes [0xE8, 0x0B, 0x00, 0x00, 0x00]) r0 f0 [])
      (fun t => t.pc == 0x402010#32 && t.regs.esp == 0x501FFC#32 && holds t 0x501FFC [0x05, 0x20, 0x40, 0x00]) = true ∧
    after (vec (bytes [0xC2, 0x08, 0x00]) { r0 with esp := 0x501F00#32 } f0 [(0x501F00, bytes [0x10, 0x20, 0x40,
    0x00])])
      (fun t => t.pc == 0x402010#32 && t.regs.esp == 0x501F0C#32) = true := by decide

/-- POP to `[ESP]` stores at the raised ESP; POP CX takes two bytes (section 4.1). -/
theorem test_pop :
    after (vec (bytes [0x8F, 0x04, 0x24]) { r0 with esp := 0x501FF8#32 } f0 [(0x501FF8, bytes [0x77])])
      (fun t => t.regs.esp == 0x501FFC#32 && holds t 0x501FFC [0x77, 0x00, 0x00, 0x00]) = true ∧
    after (vec (bytes [0x66, 0x59]) { r0 with ecx := 0xFFFFFFFF#32, esp := 0x501FFC#32 } f0
        [(0x501FFC, bytes [0x34, 0x12])])
      (fun t => t.regs.ecx == 0xFFFF1234#32 && t.regs.esp == 0x501FFE#32) = true := by decide

/-- POPFD at CPL 3 leaves IF and ignores the reserved bits (section 4.9). -/
theorem test_popfd :
    after (vec (bytes [0x9D]) { r0 with esp := 0x501FFC#32 } f0 [(0x501FFC, bytes [0x28, 0x40, 0x00, 0x00])])
      (fun t => t.flags.image == 0x4202#32) = true := by decide

/-- LAHF: AH AND 0xD5, whatever the three undefined bits are (section 4.9). -/
theorem test_lahf :
    ∀ u, ({ f0 with ofl := true, zf := true, cf := true } : Eflags).lahfByte (fun _ => u) &&& 0xD5#8 = 0x41#8 :=
    by decide

/-- The rows ZF SF OF, CF and none of the table of the sixteen conditions (section 4.6). -/
theorem test_conditions :
    conditionTable.map (fun c => c.2.2 { f0 with zf := true, sf := true, ofl := true }) =
      [true, false, false, true, true, false, true, false, true, false, false, true, false, true, true, false] ∧
    conditionTable.map (fun c => c.2.2 { f0 with cf := true }) =
      [false, true, true, false, false, true, true, false, false, true, false, true, false, true, false, true] ∧
    conditionTable.map (fun c => c.2.2 f0) =
      [false, true, false, true, false, true, false, true, false, true, false, true, false, true, false, true] := by
  decide

/-- `withFetchWord` places the word where the next step fetches it: ADD EAX,EBX (30_encoding.md R120). -/
theorem test_fetch_word :
    after ((State.reset.withFetchWord 16 0xD801)) (fun t => t.pc == 0xFFF2#32 && t.flags.zf) = true ∧
    decodeTableWord 16 0xD801 = some (.add (.rmReg .dword (.reg .eax) .ebx)) := by decide

/-! ### Witnesses: for each statement with hypotheses, a state and operands that meet them -/

theorem next_of_isNext {o : Outcome} (h : isNext o = true) : ∃ t, o = .next t := by
  cases o with
  | next t => exact ⟨t, rfl⟩
  | fault f => cases h
  | refused r => cases h

theorem nextHas_spec {o : Outcome} {p : State → Prop} [DecidablePred p] (h : nextHas o (fun t => decide (p t)) = true) :
    ∃ t, o = .next t ∧ p t := by
  cases o with
  | next t => exact ⟨t, rfl, of_decide_eq_true h⟩
  | fault f => cases h
  | refused r => cases h

theorem exc_of_excOf {o : Outcome} {v : Byte} {i : ExcInfo} {p : Word} (h : excOf o = some (v, i, p)) :
    ∃ c, o = .fault (.exception v i c) := by
  unfold excOf at h
  split at h
  · simp only [Option.some.injEq, Prod.mk.injEq] at h
    obtain ⟨rfl, rfl, -⟩ := h
    exact ⟨_, rfl⟩
  · cases h

theorem memFault_of_memFaultOf {o : Outcome} {a : Nat} {k : AccessKind} (h : memFaultOf o = some (a, k)) :
    o = .fault (.memFault a k) := by
  unfold memFaultOf at h
  split at h
  · simp only [Option.some.injEq, Prod.mk.injEq] at h
    obtain ⟨rfl, rfl⟩ := h
    rfl
  · cases h

theorem refused_of_refusedOf {o : Outcome} {r : Refusal} (h : refusedOf o = some r) : o = .refused r := by
  cases o with
  | next t => cases h
  | fault f => cases h
  | refused q =>
    simp only [refusedOf, Option.some.injEq] at h
    rw [h]

/-- NOP at pc. -/
def atNop : State := vec (bytes [0x90]) r0 f0 []

/-- A state at the upper boundaries: all memory `rw`; a 15-byte instruction that ends one byte below the top; `[EBX]`,
`[ESI]` the last doubleword, ESP 4 (a push fills bytes 0 to 3), `[EDI]`, `[EBP]` the first doubleword. -/
def top : State :=
  { atNop with
    pc := 0xFFFFFFF0#32
    ilen := 15
    memMap := [⟨0, 4294967296, .rw⟩]
    code := []
    regs := { eax := 1#32, ecx := 0#32, edx := 0#32, ebx := 0xFFFFFFFC#32, esp := 4#32, ebp := 0#32,
              esi := 0xFFFFFFFC#32, edi := 0#32 } }

/-- `top` with another count register. -/
def topCl (n : Word) : State := { top with regs := { top.regs with ecx := n } }

/-- `top` with the stack pointer at the last doubleword. -/
def topPop : State := { top with regs := { top.regs with esp := 0xFFFFFFFC#32 } }

theorem witness_DecodeEncode :
    (Instr.shrd .v16 (.mem ⟨some .gs, some .esp, some (.ebp, .x8),
    .d32 0x80000000#32⟩) .edi (.imm 0xFF#8)).wf = true := by
  decide

/-- The longest admitted instruction: 12 bytes. -/
theorem witness_DecodeWellFormed_DecodeLength :
    readsAs [0x26, 0xC7, 0x84, 0x98, 1, 2, 3, 4, 5, 6, 7, 8]
      (.mov (.rmImm .dword (.mem ⟨some .es, some .eax, some (.ebx, .x4), .d32 0x04030201#32⟩) 0x08070605#32)) = true ∧
    (15 ≤ (bytes [0xF0, 0xF0, 0xF0, 0xF0, 0xF0, 0xF0, 0xF0, 0xF0, 0xF0, 0xF0, 0xF0, 0xF0, 0xF0, 0xF0,
    0xF0]).length) := by
  decide

theorem witness_DecodeLocal : decode (bytes [0x90]) = some (.nop, 1) ∧
    decode (bytes [0x0F] ++ bytes [0xBA]) = none := by
  decide

/-- One byte, and a longer list, SETE CL with a reg field the encoder does not write (log 21). -/
theorem witness_StepRunsDecoded :
    (Running atNop ∧ atNop.flags.tf = false ∧ BytesAt atNop (bytes [0x90]) ∧ decode (bytes [0x90]) = some (.nop, 1)) ∧
    (let s := vec (bytes [0x0F, 0x94, 0xC9]) r0 f0 []
     Running s ∧ s.flags.tf = false ∧ BytesAt s (bytes [0x0F, 0x94, 0xC9, 0, 0]) ∧
     decode (bytes [0x0F, 0x94, 0xC9, 0, 0]) = some (.sete (.reg .ecx), 3)) := by
  refine ⟨⟨⟨by decide, by decide⟩, by decide, ?_, by decide⟩, ⟨⟨by decide, by decide⟩, by decide, ?_, by decide⟩⟩ <;>
  · unfold BytesAt
    decide

/-- One byte, the last of the address space. -/
def lastByte (b : Byte) : State := { top with pc := 0xFFFFFFFF#32, mem := [(4294967295, b)] }

theorem witness_StepRunsEncoded :
    Running (lastByte 0x90#8) ∧ (lastByte 0x90#8).flags.tf = false ∧ Instr.nop.wf = true ∧
    BytesAt (lastByte 0x90#8) (encode .nop) := by
  refine ⟨⟨by decide, by decide⟩, by decide, by decide, ?_⟩
  unfold BytesAt
  decide

/-- `0F` before an unmapped byte, and as the last byte of the address space. -/
theorem witness_FetchStopsAtUnreadableByte :
    (∃ s : State, Running s ∧ BytesAt s (bytes [0x0F]) ∧ decode (bytes [0x0F]) = none ∧
      s.pc.toNat + 1 < Config.addressSpace ∧ (s.la .cs s.pc).toNat + 1 < Config.addressSpace ∧
      s.readable ((s.la .cs s.pc).toNat + 1) = false) ∧
    Running (lastByte 0x0F#8) ∧ BytesAt (lastByte 0x0F#8) (bytes [0x0F]) ∧
    Config.addressSpace ≤ (lastByte 0x0F#8).pc.toNat + 1 := by
  refine ⟨⟨{ lastByte 0x0F#8 with pc := 0xFFFFFFFE#32, mem := [(4294967294, 0x0F#8)], memMap := [⟨0, 4294967295,
    .ro⟩] },
    ⟨by decide, by decide⟩, ?_, by decide, by decide, by decide, by decide⟩, ⟨by decide, by decide⟩, ?_, by decide⟩ <;>
  · unfold BytesAt
    decide

theorem witness_HaltedStandsModeRefused :
    ({ atNop with haltAddr := some 0x402000#32 } : State).haltAddr = some atNop.pc ∧
    State.reset.haltAddr ≠ some State.reset.pc ∧
    ¬(State.reset.sys.cr0.pe = true ∧ State.reset.flags.vm = false ∧ State.reset.segs.cs.default32 = true ∧
      State.reset.segs.ss.default32 = true) := by decide

/-- The three outcomes of an instruction that begins with TF = 1: SETE CL in an encoding the encoder does not write,
INT 3, HLT. -/
theorem witness_SingleStepEndsInTrap :
    (∀ p ∈ [(Instr.sete (.reg .ecx), [0x0F, 0x94, 0xC9]), (.int3, [0xCC]), (.hlt, [0xF4])],
      Running (vec (bytes p.2) r0 { f0 with tf := true } []) ∧
      BytesAt (vec (bytes p.2) r0 { f0 with tf := true } []) (bytes p.2) ∧
      decode (bytes p.2) = some (p.1, p.2.length)) ∧
    (∃ t, exec (.sete (.reg .ecx)) (atNop.begin 3) = .next t) ∧ (∃ c,
    exec .int3 (atNop.begin 1) = .fault (.exception 3#8 .softwareInterrupt c)) ∧
    exec .hlt (atNop.begin 1) = .refused .systemInstruction := by
  refine ⟨?_, next_of_isNext (by decide), exc_of_excOf (p := 0x402001#32) (by decide), refused_of_refusedOf (by decide)⟩
  simp only [List.mem_cons, List.not_mem_nil, or_false, forall_eq_or_imp, forall_eq]
  refine ⟨⟨⟨by decide, by decide⟩, ?_, by decide⟩, ⟨⟨by decide, by decide⟩, ?_, by decide⟩, ⟨by decide, by decide⟩,
    ?_, by decide⟩ <;>
  · unfold BytesAt
    decide

theorem witness_ExceptionsPrecise :
    (∃ c, step (vec (bytes [0xF7, 0xF3]) r0 f0 []) = .fault (.exception 0#8 .divideError c)) ∧
    (∃ c, step (vec (bytes [0xCD, 0xFF]) r0 f0 []) = .fault (.exception 0xFF#8 .softwareInterrupt c)) ∧
    ∃ c, step (vec (bytes [0x90]) r0 { f0 with tf := true } []) = .fault (.exception 1#8 .singleStep c) :=
  ⟨exc_of_excOf (p := 0x402000#32) (by decide), exc_of_excOf (p := 0x402002#32) (by decide),
    exc_of_excOf test_single_step⟩

theorem witness_MemFaultAddress :
    exec (.mov (.accMoffs .byte none 0xFFFFFFFF#32)) atNop = .fault (.memFault 0xFFFFFFFF .read) ∧
    exec (.mov (.moffsAcc .byte none 0#32)) atNop = .fault (.memFault 0 .write) ∧
    step { atNop with pc := 0#32 } = .fault (.memFault 0 .fetch) :=
  ⟨memFault_of_memFaultOf (by decide), memFault_of_memFaultOf (by decide), memFault_of_memFaultOf (by decide)⟩

/-- For StepKeepsMemoryCanonical, StepKeepsEnvironment and ProtectedBytesConstant: a step, a byte of `CODE`, a byte that
is not writable. -/
theorem witness_step_invariants :
    Memory.wf atNop.mem = true ∧ (∃ t, step atNop = .next t) ∧ atNop.modeAdmitted = true ∧
    atNop.inCode 0x402FFF = true ∧ atNop.writable 0x502000 = false :=
  ⟨by decide, next_of_isNext (by decide), by decide, by decide, by decide⟩

/-- One instruction that leaves every flag, one that writes DF, one that writes TF and NT. -/
theorem witness_FlagsChangeOnlyUnderTheirWriters :
    (∃ t, exec .nop top = .next t) ∧ leavesFlags .nop = true ∧ (∃ t, exec .std top = .next t ∧
    t.flags.df ≠ top.flags.df) ∧
    ∃ t, exec .popfd { top with regs := { top.regs with esp := 0#32 }, mem := [(1, 0x41#8)] } = .next t ∧
      t.flags.tf ≠ top.flags.tf ∧ t.flags.nt ≠ top.flags.nt :=
  ⟨next_of_isNext (by decide), by decide, nextHas_spec (by decide), nextHas_spec (by decide)⟩

/-- A program of one instruction of two bytes, PUSH 7FH, that runs into `HALT_ADDR`. -/
def pushThenHalt : State :=
  { vec (bytes [0x6A, 0x7F]) r0 f0 [] with haltAddr := some 0x402002#32, code := [⟨0x402000, 2⟩] }

/-- Its launch: the bytes of `CODE` and the instruction they make. -/
def pushLaunch : LaunchParams :=
  { image := [(0x402000, 0x6A#8), (0x402001, 0x7F#8)], program := [⟨0x402000#32, [0x6A#8, 0x7F#8]⟩] }

/-- The state at its `HALT_ADDR`. -/
def pushHalted : State :=
  match step pushThenHalt with
  | .next t => t
  | _ => pushThenHalt

theorem pushThenHalt_step : step pushThenHalt = .next pushHalted := by
  obtain ⟨t, ht⟩ := next_of_isNext (o := step pushThenHalt) (by decide)
  simp only [pushHalted, ht]

theorem pushHalted_halted : pushHalted.halted = true := by decide

/-- Its run has these two states. -/
theorem pushThenHalt_run {t : State} (h : Reaches pushThenHalt t) : t = pushThenHalt ∨ t = pushHalted := by
  induction h with
  | start => exact .inl rfl
  | step _ hu ih =>
    rcases ih with rfl | rfl
    · rw [pushThenHalt_step] at hu
      cases hu
      exact .inr rfl
    · rw [step, if_pos pushHalted_halted] at hu
      cases hu
      exact .inr rfl

/-- The fetch answers this instruction and length. -/
def fetches (s : State) (i : Instr) (n : Nat) : Bool :=
  match s.fetch with
  | .ok r => r == (i, n)
  | .error _ => false

theorem fetch_of_fetches {s : State} {i : Instr} {n : Nat} (h : fetches s i n = true) : s.fetch = .ok (i, n) := by
  unfold fetches at h
  split at h
  · next hr => rw [hr, eq_of_beq h]
  · cases h

theorem pushThenHalt_fetch : pushThenHalt.fetch = .ok (.push (.imm8s .v32 0x7F#8), 2) := fetch_of_fetches (by decide)

theorem witness_LaunchedRunInvariant :
    Launched pushLaunch pushThenHalt ∧ Reaches pushThenHalt pushHalted ∧
    pushHalted.pc ≠ pushThenHalt.pc ∧ pushThenHalt.inCode 0x402001 = true := by
  have hcode : ∀ a, pushThenHalt.inCode a = true → a = 0x402000 ∨ a = 0x402001 := by
    intro a h
    simp only [pushThenHalt, State.inCode, List.any_cons, List.any_nil, Bool.or_false, Bool.and_eq_true,
      decide_eq_true_eq] at h
    omega
  refine ⟨{ mode := by decide, flat := fun g => by cases g <;> decide, paging := by decide, flags := by decide,
            level := by decide, entry := ⟨_, List.mem_singleton.mpr rfl, rfl⟩, whole := ?_, bytes := ?_, holds := ?_,
            codeIsImage := ?_, mapped := ?_, stack := ?_, waitFree := by decide, breakpoints := by decide,
            halt := ⟨0x402002#32, by decide, ?_⟩, memory := by decide },
    .step .start pushThenHalt_step, by decide, by decide⟩
  · intro x hx
    rw [List.mem_singleton.mp hx]
    exact ⟨.push (.imm8s .v32 0x7F#8), by decide⟩
  · intro x hx k hk
    cases List.mem_singleton.mp hx
    match k, hk with
    | 0, _ => exact List.mem_cons_self
    | 1, _ => exact List.mem_cons_of_mem _ List.mem_cons_self
    | k + 2, hk => exact absurd hk (by simp)
  · simp only [pushLaunch, List.mem_cons, List.not_mem_nil, or_false, forall_eq_or_imp, forall_eq]
    decide
  · intro a _ h
    rcases hcode a h with rfl | rfl
    · exact ⟨(0x402000, 0x6A#8), by decide, rfl⟩
    · exact ⟨(0x402001, 0x7F#8), by decide, rfl⟩
  · intro a _ h
    rcases hcode a h with rfl | rfl <;> decide
  · intro t i n ht hh hf
    rcases pushThenHalt_run ht with rfl | rfl
    · rw [pushThenHalt_fetch] at hf
      cases hf
      decide
    · exact absurd pushHalted_halted (by simp [hh])
  · intro x hx
    rw [List.mem_singleton.mp hx]
    decide

theorem witness_StoreThenLoadReturnsValue :
    (∃ t, top.memWrite .ds 0xFFFFFFFC#32 .dword 0x12345678#32 = .ok t) ∧ ∃ v,
    top.memRead .ds 0xFFFFFFFC#32 .dword = .ok v :=
  ⟨⟨_, rfl⟩, ⟨_, rfl⟩⟩

/-- Past the top by one byte; admitted up to the last byte; the last byte unmapped; the first byte not writable; the last
byte in `CODE`. And for instructions: a read that faults, a write that is refused, a push that would straddle the top
after an admitted read, ENTER whose second push is not writable, and one all of whose accesses are admitted. -/
theorem witness_AccessAdmittedOrStops :
    (¬((0xFFFFFFFD#32 : Word).toNat + 4 ≤ 4294967296 ∧ (top.la .ds 0xFFFFFFFD#32).toNat + 4 ≤ 4294967296)) ∧
    top.CanWrite .ds 0xFFFFFFFC#32 4 ∧
    (atNop.readable 0x502000 = false ∧ ∀ j < 3, atNop.readable (0x501FFD + j) = true) ∧
    atNop.writable 0x4FFFFF = false ∧
    (∀ k < 4, atNop.writable (0x402FFC + k) = true ∧ atNop.inCode (0x402FFC + k) = true) ∧
    ((accessChecks atNop (.mov (.accMoffs .dword none 0x501FFD#32))).findSome? (Check.stop atNop) =
        some (.fault (.memFault 0x502000 .read)) ∧
      (accessChecks atNop (.mov (.moffsAcc .dword none 0x402FFC#32))).findSome? (Check.stop atNop) =
        some (.refuse .storeIntoCode) ∧
      (let s := { top with regs := { top.regs with esp := 3#32 } }
       (accessChecks s (.push (.rm .v32 atEbx))).findSome? (Check.stop s) = some (.refuse .addressWrap)) ∧
      (let s := { atNop with regs := { atNop.regs with esp := 0x500004#32 } }
       (accessChecks s (.enter 0#16 1#8)).findSome? (Check.stop s) = some (.fault (.memFault 0x4FFFFC .write))) ∧
      (accessChecks top (.add (.rmReg .dword atEbx .eax))).findSome? (Check.stop top) = none) := by decide

/-- With and without an override, by EBP and by another base. -/
theorem witness_EffectiveAddressSumAndSegment :
    (⟨none, some .ebp, none, .d8 0#8⟩ : MemOp).ovr = none ∧ (⟨some .fs, none, none, .d32 0#32⟩ :
    MemOp).ovr = some .fs := by
  decide

/-- AddAdc, SubSbbCmpNeg, Boolean: a memory destination and a memory source at the top. -/
theorem witness_AddAdcSumFlagsFrame_SubSbbCmpNegDifferenceFlagsFrame_BooleanBitwiseResultFlags :
    top.HasNext ∧ (∀ f ∈ [AluForm.rmReg .dword atEbx .eax, .regRm .dword .eax atEbx, .rmImm8s .v32 atEbx 0x80#8],
      top.locWritable (aluSize f) (aluDst top f) = true ∧ top.locReadable (aluSize f) (aluDst top f) = true ∧
      aluSrcReadable top f = true) ∧
    top.locWritable .dword (top.resolve atEbx) = true := by decide

/-- SubSbbCmpNeg (NEG), Boolean (NOT, TEST), MultiplyAccumulator, MultiplyRegister, Mov, PushPop (PUSH), Convert,
    BitScan,
SetOnCondition, Jumps and CallRet (indirect): the memory operand at the top, in each width. -/
theorem witness_memory_operand :
    top.HasNext ∧ ∀ z ∈ [Size.byte, .word, .dword],
      top.locWritable z (top.resolve atEbx) = true ∧ top.locReadable z (top.resolve atEbx) = true := by decide

theorem witness_IncDecKeepCarry :
    top.HasNext ∧ top.locWritable (incSize (.rm .dword atEbx)) (incLoc top (.rm .dword atEbx)) = true := by decide

/-- Divide: the largest quotient, 2^32 - 1, and the smallest signed one, -128 (spec/95 section 4.2). -/
theorem witness_DivIdivQuotientRemainder :
    (let s : State := { top with regs := { top.regs with edx := 0xFFFFFFFE#32, ebx := 0xFFFFFFFF#32 } }
     s.HasNext ∧ s.locReadable .dword (s.resolve (.reg .ebx)) = true ∧
     (s.reg .dword (hiReg .dword)).toNat < (s.valueAt .dword (s.resolve (.reg .ebx))).toNat) ∧
    (let s : State := { top with regs := { top.regs with eax := 0xFF80#32, ebx := 1#32 } }
     s.HasNext ∧ s.locReadable .byte (s.resolve (.reg .ebx)) = true ∧
     (s.valueAt .byte (s.resolve (.reg .ebx))).toInt ≠ 0 ∧
     -2 ^ (Size.byte.bits - 1) ≤ (s.reg .byte (hiReg .byte) ++ s.reg .byte .eax).toInt.tdiv
       (s.valueAt .byte (s.resolve (.reg .ebx))).toInt ∧
     (s.reg .byte (hiReg .byte) ++ s.reg .byte .eax).toInt.tdiv (s.valueAt .byte (s.resolve (.reg .ebx))).toInt <
       2 ^ (Size.byte.bits - 1)) := by decide

/-- DivideErrorRaised: high half equal to the divisor; a divisor of 0; quotients +128 and -129. -/
theorem witness_DivideErrorRaisedWhen :
    (let s : State := { top with regs := { top.regs with edx := 2#32, ebx := 2#32 } }
     s.locReadable .dword (s.resolve (.reg .ebx)) = true ∧
     (s.valueAt .dword (s.resolve (.reg .ebx))).toNat ≤ (s.reg .dword (hiReg .dword)).toNat) ∧
    (top.valueAt .dword (top.resolve (.reg .edi))).toInt = 0 ∧
    (let s : State := { top with regs := { top.regs with eax := 0x80#32, ebx := 1#32 } }
     2 ^ (Size.byte.bits - 1) ≤ (s.reg .byte (hiReg .byte) ++ s.reg .byte .eax).toInt.tdiv
       (s.valueAt .byte (s.resolve (.reg .ebx))).toInt) ∧
    (let s : State := { top with regs := { top.regs with eax := 0xFF7F#32, ebx := 1#32 } }
     (s.reg .byte (hiReg .byte) ++ s.reg .byte .eax).toInt.tdiv (s.valueAt .byte (s.resolve (.reg .ebx))).toInt <
       -2 ^ (Size.byte.bits - 1)) := by decide

/-- For DecimalAdjust, Convert, FlagControl, LahfSahf, SoftwareInterrupts and Miscellaneous: the next instruction below
the top, and both values of OF. -/
theorem witness_HasNext :
    top.HasNext ∧ top.flags.ofl = false ∧ ({ top with flags := { top.flags with ofl := true } } :
    State).flags.ofl = true := by
  decide

/-- MOV by moffs at the top, XCHG with memory at the top, XLAT, LEAVE. -/
theorem witness_MovCopiesValueOnly_XchgSwapsOperands_WaitNopLeaXlatLeaveEffects :
    top.HasNext ∧ top.CanRead .ds 0xFFFFFFFC#32 4 ∧ top.CanWrite .ds 0xFFFFFFFC#32 4 ∧
    top.CanWrite (operandSeg ⟨none, some .ebx, none, .none⟩) (top.ea ⟨none, some .ebx, none, .none⟩) 4 ∧
    (0xFFFFFFFD#32 : Word).toNat = (top.regs.ebx.toNat + (top.reg .byte .eax).toNat) % 4294967296 ∧
    top.CanRead .ds 0xFFFFFFFD#32 1 ∧ top.CanRead .ss top.regs.ebp 4 := by decide

/-- PushPop, CallRet, FlagStack: a push into bytes 0 to 3, a pop from the last bytes, POP to memory. -/
theorem witness_stack :
    top.HasNext ∧ (∀ v ∈ [VSize.v16, .v32], top.CanPush v.size.bytes ∧
    topPop.CanRead .ss topPop.regs.esp v.size.bytes) ∧
    (let u : State := { topPop with regs := topPop.regs.set .esp (topPop.regs.esp + BitVec.ofNat 32 4) }
     u.locWritable .dword (u.resolve (.mem ⟨none, some .esp, none, .none⟩)) = true) := by decide

/-- BitTest: register and immediate offsets into a register and into memory, below and above the operand. -/
theorem witness_BitTestSelectsAndChangesBit :
    top.HasNext ∧ (∀ f ∈ [BitForm.imm .v32 atEbx 0xFF#8, .reg .v16 (.reg .edi) .eax, .reg .v32 atEbx .eax],
      top.locReadable (bitSize f) (bitLoc top f).1 = true ∧ top.locWritable (bitSize f) (bitLoc top f).1 = true) ∧
    (let s := topCl 0xFFFFFFFF#32
     (bitLoc s (.reg .v32 atEbx .ecx)) = (.mem .ds 0xFFFFFFF8#32, 31) ∧
     s.locWritable .dword (.mem .ds 0xFFFFFFF8#32) = true) := by
  decide

/-- BitScan: a source that is 0, and one that is not. -/
theorem witness_BitScanFindsSetBit :
    top.HasNext ∧ top.valueAt .dword (top.resolve (.reg .ecx)) = 0 ∧
    top.valueAt .dword (top.resolve (.reg .ebx)) ≠ 0 := by
  decide

/-- CountZero, Shifts, DoubleShifts, Rotates, RotatesThroughCarry: 32 is masked to 0; the counts 1, 8, 16, 17 and 31 at
the edges of the clauses; the memory operand at the top. -/
theorem witness_shift_counts :
    ((topCl 32#32).count .cl).toNat % 32 = 0 ∧ ((topCl 32#32).dcount .cl).toNat % 32 = 0 ∧ (topCl 32#32).HasNext ∧
    (topCl 32#32).locReadable .dword ((topCl 32#32).resolve atEbx) = true ∧
    (∀ n ∈ [1, 8, 16, 17, 31], ((topCl (BitVec.ofNat 32 n)).count .cl).toNat % 32 = n ∧
      ((topCl (BitVec.ofNat 32 n)).dcount .cl).toNat % 32 = n ∧ 1 ≤ n ∧ (topCl (BitVec.ofNat 32 n)).HasNext ∧
      ∀ z ∈ [Size.byte, .word, .dword],
        (topCl (BitVec.ofNat 32 n)).locWritable z ((topCl (BitVec.ofNat 32 n)).resolve atEbx) = true) ∧
    VSize.v16.size.bits < 17 ∧ 16 ≤ VSize.v16.size.bits := by decide

/-- Jumps, CallRet, Loops: a displacement to the last byte of the address space, one past it,
    and every condition true of
some flags and false of others. -/
theorem witness_branches :
    atNop.CanBranch (relValue (.v 0xFFBFDFFF#32)) ∧ ¬top.CanBranch (relValue (.b 1#8)) ∧
    top.CanBranch (relValue (.b 0#8)) ∧
    top.CanPush 4 ∧
    (conditionTable.all fun c => (c.2.2 f0 || c.2.2 { f0 with cf := true, zf := true, sf := true, ofl := true, pf :=
    true } ||
      c.2.2 { f0 with sf := true }) &&
      !(c.2.2 f0 && c.2.2 { f0 with cf := true, zf := true, sf := true, ofl := true, pf := true } &&
      c.2.2 { f0 with sf := true })) = true := by decide

/-- Loops: ECX 0, 1 and another value, both values of ZF. -/
theorem witness_LoopsCountDownAndBranch :
    (topCl 2#32).regs.ecx ≠ 1#32 ∧ (topCl 1#32).regs.ecx = 1#32 ∧ (topCl 0#32).regs.ecx = 0#32 ∧
    (topCl 2#32).CanBranch ((0#8 : Byte).signExtend 32) ∧ (topCl 1#32).HasNext ∧ (topCl 2#32).flags.zf = false ∧
    ({ topCl 2#32 with flags := { f0 with zf := true } } : State).flags.zf = true := by decide

/-- StringMoves, StringCompares, RepeatMoves, RepeatCompares: elements at both ends of memory, ECX 0, 1 and 2. -/
theorem witness_strings :
    (∀ n ∈ [0, 1, 2], (topCl (BitVec.ofNat 32 n)).HasNext ∧
      ∀ z ∈ [Size.byte, .word, .dword],
      (topCl (BitVec.ofNat 32 n)).CanRead .ds (topCl (BitVec.ofNat 32 n)).regs.esi z.bytes ∧
        (topCl (BitVec.ofNat 32 n)).CanRead .es (topCl (BitVec.ofNat 32 n)).regs.edi z.bytes ∧
        (topCl (BitVec.ofNat 32 n)).CanWrite .es (topCl (BitVec.ofNat 32 n)).regs.edi z.bytes) ∧
    (topCl 0#32).regs.ecx = 0#32 ∧ (topCl 1#32).regs.ecx = 1#32 ∧ (topCl 2#32).regs.ecx ≠ 0#32 := by decide

/-- EnterFrame: levels 0 and 31 (32 pushes, 30 copied entries, the frame away from the display). -/
theorem witness_EnterBuildsFrame :
    (let s : State := { top with regs := { top.regs with esp := 128#32, ebp := 0#32 } }
     s.HasNext ∧ (∀ k < 1, s.CanWrite .ss (s.regs.esp - BitVec.ofNat 32 (4 * (k + 1))) 4) ∧
     (∀ k < 32, s.CanWrite .ss (s.regs.esp - BitVec.ofNat 32 (4 * (k + 1))) 4) ∧
     (∀ j < 30, s.CanRead .ss (s.regs.ebp - BitVec.ofNat 32 (4 * (j + 1))) 4) ∧
     ∀ j < 30, ∀ k < 32,
       (s.la .ss (s.regs.ebp - BitVec.ofNat 32 (4 * (j + 1)))).toNat + 4 ≤
           (s.la .ss (s.regs.esp - BitVec.ofNat 32 (4 * (k + 1)))).toNat ∨
         (s.la .ss (s.regs.esp - BitVec.ofNat 32 (4 * (k + 1)))).toNat + 4 ≤
           (s.la .ss (s.regs.ebp - BitVec.ofNat 32 (4 * (j + 1)))).toNat) := by decide

theorem witness_EnterLeaveRoundTrip :
    ∃ t, exec (.enter 0xFFFF#16 31#8) { atNop with regs := { r0 with ebp := 0x500100#32 } } = .next t ∧ t.HasNext :=
  nextHas_spec (by decide)

theorem witness_StackPairsRestore :
    (∃ t, exec (.callRel 0#32) top = .next t) ∧ (∃ t, exec (.callInd (.reg .eax)) top = .next t) ∧
    (∃ t, exec .pushfd atNop = .next t ∧ t.HasNext) ∧ ∃ t, exec (.push (.reg .v16 .esp)) atNop = .next t ∧ t.HasNext :=
  ⟨next_of_isNext (by decide), next_of_isNext (by decide), nextHas_spec (by decide), nextHas_spec (by decide)⟩

/-- Refusals: each constructor of the refusal table is refused; an instruction outside it refused for each of its two
reasons. -/
theorem witness_RefusalsHaveSpecReason :
    refusalOf .hlt = some .systemInstruction ∧ refusalOf .nop = none ∧
    exec .nop { top with ilen := 16 } = .refused .addressWrap ∧
    exec (.mov (.moffsAcc .byte none 0x402000#32)) atNop = .refused .storeIntoCode :=
  ⟨by decide, by decide, refused_of_refusedOf (by decide), refused_of_refusedOf (by decide)⟩

end Sys2Proof.Tests
end

section
/-! The register names of spec/10_state.md R21 and R22: what a read gives and what a write changes, bit by bit. -/

namespace Sys2Proof.Proofs

open Sys2Proof Sys2Proof.Machine Sys2Proof.Laws

/-- The table of names of R21 places each name where the model's register accessors look for it. -/
theorem namePlace_eq (z : Size) (g : GReg) : namePlace z g = (wholeReg z g, subLow z (isHigh g)) := by
  cases z with
  | byte => cases g <;> rfl
  | word => rfl
  | dword => rfl

/-- Bit `k` of a name is bit `k` from the name's place on, in the 32-bit register it is part of. -/
theorem getLsbD_read (r : Regs) {z : Size} (g : GReg) {k : Nat} (hk : k < z.bits) :
    (r.read z g).getLsbD k = (r.get (namePlace z g).1).getLsbD ((namePlace z g).2 + k) := by
  rw [namePlace_eq, Regs.read, getLsbD_subRead, decide_eq_true hk, Bool.true_and, Nat.add_comm]

/-- Inside the 32-bit register that holds the name, a write replaces the covered bits only. -/
theorem getLsbD_get_write_whole (r : Regs) (z : Size) (g : GReg) (v : BitVec z.bits) {k : Nat} (hk : k < 32) :
    ((r.write z g v).get (wholeReg z g)).getLsbD k =
      if subLow z (isHigh g) ≤ k ∧ k < subLow z (isHigh g) + z.bits then v.getLsbD (k - subLow z (isHigh g))
      else (r.get (wholeReg z g)).getLsbD k := by
  rw [Regs.write, get_set_reg_same, getLsbD_subWrite z _ _ v k hk]

/-- A write through a name, bit by bit over all eight registers (R22). -/
theorem getLsbD_get_write (r : Regs) (z : Size) (g h : GReg) (v : BitVec z.bits) {k : Nat} (hk : k < 32) :
    ((r.write z g v).get h).getLsbD k =
      if h = (namePlace z g).1 ∧ (namePlace z g).2 ≤ k ∧ k < (namePlace z g).2 + z.bits then
        v.getLsbD (k - (namePlace z g).2)
      else (r.get h).getLsbD k := by
  rw [namePlace_eq]
  by_cases hh : h = wholeReg z g
  · subst hh
    simpa using getLsbD_get_write_whole r z g v hk
  · rw [get_write_other r z g h v hh, if_neg fun hc => hh hc.1]

/-- Settles O20: a read and a write of a register name agree, bit by bit, with the name's place in R21's table. -/
theorem registerNameReadsWritesCoveredBits : Obligations.RegisterNameReadsWritesCoveredBits :=
  fun r z g v => ⟨fun _ hk => getLsbD_read r g hk, fun h _ hk => getLsbD_get_write r z g h v hk⟩

end Sys2Proof.Proofs
end

section
/-! Flag control (spec/48_flag_control.md R420 to R424): one-byte rows before which nothing may stand, and instructions that
write EFLAGS and pc and nothing else. -/

namespace Sys2Proof.Proofs

open Sys2Proof Sys2Proof.Machine Sys2Proof.Laws

/-! ### Rows without operand bytes -/

section PlainRow
variable {op : Byte} {i : Instr}

/-- A plain row is decoded from its opcode byte alone. -/
theorem decode_plain (hop : pfxKind op = none) (hrow : bodyOf op = plainBody i) : decode [op] = some (i, 1) := by
  have hscan : scanPrefixes .none [op] = .opcode .none op [] := by simp only [scanPrefixes, hop]
  simp only [decode, hscan, hrow]
  rfl

/-- Byte 66 before a plain row makes an operand-size instruction of two bytes, which is not the row's (R104). -/
theorem decode_op16_plain (hop : pfxKind op = none) (hrow : bodyOf op = plainBody i) :
    decode [0x66#8, op] = some (.opsize, 2) := by
  have hscan : scanPrefixes .none [0x66#8, op] = .opcode { Pfx.none with op16 := true } op [] := by
    change scanPrefixes { Pfx.none with op16 := true } [op] = _
    simp only [scanPrefixes, hop]
  simp only [decode, hscan, hrow]
  rfl

end PlainRow

theorem bodyOf_stc : bodyOf 0xF9#8 = plainBody .stc := rfl
theorem bodyOf_clc : bodyOf 0xF8#8 = plainBody .clc := rfl
theorem bodyOf_cmc : bodyOf 0xF5#8 = plainBody .cmc := rfl
theorem bodyOf_cld : bodyOf 0xFC#8 = plainBody .cld := rfl
theorem bodyOf_std : bodyOf 0xFD#8 = plainBody .std := rfl

/-- None of the five opcodes of flag control takes byte 66 before it. -/
theorem decode_op16_flagControl :
    ∀ b ∈ [0xF9#8, 0xF8#8, 0xF5#8, 0xFC#8, 0xFD#8], decode [0x66#8, b] = some (.opsize, 2) := by
  simp only [List.forall_mem_cons]
  exact ⟨decode_op16_plain rfl bodyOf_stc, decode_op16_plain rfl bodyOf_clc, decode_op16_plain rfl bodyOf_cmc,
    decode_op16_plain rfl bodyOf_cld, decode_op16_plain rfl bodyOf_std, List.forall_mem_nil _⟩

/-- Byte 66 before a row that does not take it is refused in every state. -/
theorem exec_opsize (s : State) : exec .opsize s = .refused .prefixNotAdmitted := rfl

/-! ### Writing the flags and falling through -/

/-- An instruction that writes the flags and advances: the flags, pc, and nothing else. -/
theorem out_advance_withFlags {s : State} (hn : s.HasNext) (f : Eflags) :
    Res.out { s with flags := f }.advance = .next { s with flags := f, pc := s.npc } :=
  out_next.mpr ((advance_ok_of rfl rfl).mpr ⟨hn, rfl⟩)

section FlagControl
variable {s : State} (hn : s.HasNext)
include hn

theorem exec_stc : exec .stc s = .next { s with flags := { s.flags with cf := true }, pc := s.npc } :=
  out_advance_withFlags hn _

theorem exec_clc : exec .clc s = .next { s with flags := { s.flags with cf := false }, pc := s.npc } :=
  out_advance_withFlags hn _

theorem exec_cmc : exec .cmc s = .next { s with flags := { s.flags with cf := !s.flags.cf }, pc := s.npc } :=
  out_advance_withFlags hn _

theorem exec_cld : exec .cld s = .next { s with flags := { s.flags with df := false }, pc := s.npc } :=
  out_advance_withFlags hn _

theorem exec_std : exec .std s = .next { s with flags := { s.flags with df := true }, pc := s.npc } :=
  out_advance_withFlags hn _

end FlagControl

/-- Settles O56: the five opcodes are plain rows, and each instruction is one write of the flags before the advance. -/
theorem flagControlSetsOneFlag : Obligations.FlagControlSetsOneFlag :=
  ⟨⟨decode_plain rfl bodyOf_stc, decode_plain rfl bodyOf_clc, decode_plain rfl bodyOf_cmc, decode_plain rfl bodyOf_cld,
      decode_plain rfl bodyOf_std⟩,
    decode_op16_flagControl, exec_opsize,
    fun _ hn => ⟨exec_stc hn, exec_clc hn, exec_cmc hn, exec_cld hn, exec_std hn⟩⟩

end Sys2Proof.Proofs
end

section
/-! What decoding takes from the bytes (spec/30_encoding.md R102): each reader of the decoder that answers has taken a
bounded number of bytes off the front, and answers the same whatever follows them. -/

namespace Sys2Proof.Proofs

open Sys2Proof

/-! ### Taking bytes off the front -/

/-- `f` takes at most `k` bytes off the front of `bs`, leaving `rest`; of any bytes that begin with those it answers
`out` of what is left. -/
def Takes {γ : Type} (k : Nat) (f out : List Byte → γ) (bs rest : List Byte) : Prop :=
  ∃ used : List Byte, used.length ≤ k ∧ bs = used ++ rest ∧ ∀ tail, f (used ++ tail) = out tail

section Takes
variable {γ δ : Type} {k l : Nat} {f out : List Byte → γ} {F g out' : List Byte → δ} {bs rest rest' : List Byte}

theorem takes_nothing (f : List Byte → γ) (bs : List Byte) : Takes 0 f f bs bs := ⟨[], le_refl 0, rfl, fun _ => rfl⟩

theorem Takes.mono (h : Takes k f out bs rest) (hkl : k ≤ l) : Takes l f out bs rest :=
  let ⟨used, hk, hbs, hf⟩ := h
  ⟨used, hk.trans hkl, hbs, hf⟩

/-- A first byte that a reader has looked at. -/
theorem Takes.cons {b : Byte} (h : Takes k (fun t => f (b :: t)) out bs rest) : Takes (k + 1) f out (b :: bs) rest := by
  obtain ⟨used, hk, rfl, hf⟩ := h
  exact ⟨b :: used, by simpa using hk, rfl, hf⟩

/-- A reader that goes on with `g` where `f` has stopped. -/
theorem Takes.andThen (h : Takes k f out bs rest) (h' : Takes l g out' rest rest')
    (hF : ∀ cs t, f cs = out t → F cs = g t) : Takes (k + l) F out' bs rest' := by
  obtain ⟨used, hk, rfl, hf⟩ := h
  obtain ⟨used', hl, rfl, hg⟩ := h'
  refine ⟨used ++ used', by simpa using Nat.add_le_add hk hl, (List.append_assoc ..).symm, fun tail => ?_⟩
  rw [List.append_assoc, hF _ _ (hf _), hg]

/-- A reader that only makes something else of what `f` answers. -/
theorem Takes.map (h : Takes k f out bs rest) (hF : ∀ cs t, f cs = out t → F cs = out' t) : Takes k F out' bs rest :=
  h.andThen (takes_nothing out' rest) hF

end Takes

/-! ### Numbers and operands -/

theorem read16_takes {bs rest : List Byte} {v : BitVec 16} (h : read16 bs = some (v, rest)) :
    Takes 2 read16 (fun t => some (v, t)) bs rest := by
  match bs, h with
  | b0 :: b1 :: _, rfl => exact ⟨[b0, b1], le_refl 2, rfl, fun _ => rfl⟩

theorem read32_takes {bs rest : List Byte} {v : Word} (h : read32 bs = some (v, rest)) :
    Takes 4 read32 (fun t => some (v, t)) bs rest := by
  match bs, h with
  | b0 :: b1 :: b2 :: b3 :: _, rfl => exact ⟨[b0, b1, b2, b3], le_refl 4, rfl, fun _ => rfl⟩

theorem readImm_takes {z : Size} {bs rest : List Byte} {v : BitVec z.bits} (h : readImm z bs = some (v, rest)) :
    Takes 4 (readImm z) (fun t => some (v, t)) bs rest := by
  cases z with
  | byte =>
    match bs, h with
    | b :: _, rfl => exact ⟨[b], by simp, rfl, fun _ => rfl⟩
  | word => exact (read16_takes h).mono (by decide)
  | dword => exact read32_takes h

theorem readAddr_takes {o : Option Seg} {md : BitVec 2} {base : BitVec 3} {index : Option (GReg × Scale)}
    {bs rest : List Byte} {a : MemOp} (h : readAddr o md base index bs = some (a, rest)) :
    Takes 4 (readAddr o md base index) (fun t => some (a, t)) bs rest := by
  unfold readAddr at h
  split at h
  · rename_i h0
    split at h
    · rename_i h5
      split at h
      · rename_i d r hr
        cases h
        exact (read32_takes hr).map fun _ _ hc => by simp [readAddr, h0, h5, hc]
      · cases h
    · rename_i h5
      cases h
      exact ((takes_nothing some _).mono (by decide)).map fun _ _ hc => by cases hc; simp [readAddr, h0, h5]
  · rename_i h0
    split at h
    · rename_i h1
      match bs, h with
      | d :: _, rfl => exact ⟨[d], by simp, rfl, fun _ => by simp [readAddr, h1]⟩
    · rename_i h1
      split at h
      · rename_i d r hr
        cases h
        exact (read32_takes hr).map fun _ _ hc => by simp [readAddr, h0, h1, hc]
      · cases h

/-- After the modR/M byte at most a SIB byte and four bytes of displacement are read. -/
theorem readRM_takes {o : Option Seg} {m : Byte} {bs rest : List Byte} {x : BitVec 3} {e : RM}
    (h : readRM o (m :: bs) = some (x, e, rest)) :
    Takes 5 (fun t => readRM o (m :: t)) (fun t => some (x, e, t)) bs rest := by
  unfold readRM at h
  dsimp only at h
  split at h
  · rename_i h3
    cases h
    exact ((takes_nothing some _).mono (by decide)).map fun _ _ hc => by cases hc; simp [readRM, h3]
  · rename_i h3
    split at h
    · rename_i h4
      match bs, h with
      | sib :: bs, h =>
        dsimp only at h
        split at h
        · rename_i a r hr
          cases h
          refine Takes.cons ((readAddr_takes hr).map fun _ _ hc => ?_)
          simp [readRM, h3, h4, hc]
        · cases h
    · rename_i h4
      split at h
      · rename_i a r hr
        cases h
        exact ((readAddr_takes hr).mono (by decide)).map fun _ _ hc => by simp [readRM, h3, h4, hc]
      · cases h

/-! ### Rows -/

/-- A row's reader takes at most `k` bytes, and answers the same whatever follows them. -/
def Local (k : Nat) (f : List Byte → Option Parsed) : Prop :=
  ∀ bs d, f bs = some d → Takes k f (fun t => some { d with rest := t }) bs d.rest

/-- A row that takes at most ten bytes after its opcode byte. -/
def LocalBody (b : Body) : Prop := ∀ p op, Local 10 (b p op)

/-- A row or group member that looks at one byte, and takes at most nine more. -/
def LocalAfter (b : Body) : Prop := ∀ p op m, Local 9 fun bs => b p op (m :: bs)

theorem Local.mono {k l : Nat} {f : List Byte → Option Parsed} (h : Local k f) (hkl : k ≤ l) : Local l f :=
  fun bs d hd => (h bs d hd).mono hkl

/-- A reader that needs a byte. -/
theorem local_of_cons {k : Nat} {f : List Byte → Option Parsed} (h0 : f [] = none)
    (h : ∀ m, Local k fun bs => f (m :: bs)) : Local (k + 1) f
  | [], d, hd => by simp [h0] at hd
  | m :: bs, d, hd => (h m bs d hd).cons

theorem localBody_of_after {b : Body} (h0 : ∀ p op, b p op [] = none) (h : LocalAfter b) : LocalBody b :=
  fun p op => local_of_cons (h0 p op) (h p op)

/-- A reader that takes nothing. -/
theorem local_some {k : Nat} {i : Instr} {r o s : Bool} : Local k fun bs => some ⟨i, bs, r, o, s⟩ := by
  rintro bs _ ⟨⟩
  exact (takes_nothing _ bs).mono (Nat.zero_le k)

/-- A reader that goes on after an `E` operand. -/
theorem localAfter_readRM {b : Body} {g : Pfx → Byte → BitVec 3 → RM → List Byte → Option Parsed}
    (hb : ∀ p op bs, b p op bs = (readRM p.seg bs).bind fun r => g p op r.1 r.2.1 r.2.2)
    (hg : ∀ p op x e, Local 4 (g p op x e)) : LocalAfter b := by
  intro p op m bs d hd
  dsimp only at hd
  rw [hb] at hd
  obtain ⟨⟨x, e, rest⟩, hr, hd⟩ := Option.bind_eq_some_iff.mp hd
  exact (readRM_takes hr).andThen (hg p op x e rest d hd) fun cs t hc => by rw [hb, hc]; rfl

/-- A reader that goes on after an immediate of the operand width. -/
theorem local_readImm {z : Size} {f : List Byte → Option Parsed} {i : BitVec z.bits → Instr} {o s : Bool}
    (hf : ∀ bs, f bs = (readImm z bs).map fun r => ⟨i r.1, r.2, false, o, s⟩) : Local 4 f := by
  intro bs d hd
  rw [hf] at hd
  obtain ⟨⟨v, rest⟩, hr, rfl⟩ := Option.map_eq_some_iff.mp hd
  exact (readImm_takes hr).map fun cs t hc => by rw [hf, hc]; rfl

/-- A body that reads an immediate and nothing else. -/
theorem localBody_readImm {b : Body} {z : Pfx → Size} {i : (p : Pfx) → Byte → BitVec (z p).bits → Instr}
    {o s : Pfx → Bool}
    (hb : ∀ p op bs, b p op bs = (readImm (z p) bs).map fun r => ⟨i p op r.1, r.2, false, o p, s p⟩) : LocalBody b :=
  fun p op => (local_readImm (hb p op)).mono (by decide)

section Bodies
variable {z : Pfx → Size}

@[simp] theorem refusedBody_local (i : Instr) : LocalBody (refusedBody i) := fun _ _ => local_some
@[simp] theorem plainBody_local (i : Instr) : LocalBody (plainBody i) := fun _ _ => local_some
@[simp] theorem sizedBody_local (mk : VSize → Instr) : LocalBody (sizedBody mk) := fun _ _ => local_some
@[simp] theorem plusRegBody_local (mk : VSize → GReg → Instr) : LocalBody (plusRegBody mk) := fun _ _ => local_some

@[simp] theorem immBody_local (mk : (z : Size) → BitVec z.bits → Instr) : LocalBody (immBody z mk) :=
  localBody_readImm (z := z) fun p op bs => by unfold immBody; cases readImm (z p) bs <;> rfl

@[simp] theorem immVBody_local (mk : (v : VSize) → BitVec v.size.bits → Instr) : LocalBody (immVBody mk) :=
  localBody_readImm (z := zV) fun p op bs => by unfold immVBody zV; cases readImm p.v.size bs <;> rfl

@[simp] theorem plusRegImmBody_local (mk : (z : Size) → GReg → BitVec z.bits → Instr) :
    LocalBody (plusRegImmBody z mk) :=
  localBody_readImm (z := z) fun p op bs => by unfold plusRegImmBody; cases readImm (z p) bs <;> rfl

@[simp] theorem byteBody_local (o : Bool) (mk : VSize → Byte → Instr) : LocalBody (byteBody o mk) :=
  localBody_readImm (z := zB) fun _ _ bs => by cases bs <;> rfl

@[simp] theorem imm16Body_local (mk : BitVec 16 → Instr) : LocalBody (imm16Body mk) :=
  localBody_readImm (z := fun _ => .word) fun p op bs => by unfold imm16Body readImm; cases read16 bs <;> rfl

@[simp] theorem jvBody_local (mk : Word → Instr) : LocalBody (jvBody mk) :=
  localBody_readImm (z := fun _ => .dword) fun p op bs => by unfold jvBody readImm; cases read32 bs <;> rfl

@[simp] theorem moffsBody_local (mk : Size → Option Seg → Word → Instr) : LocalBody (moffsBody z mk) :=
  localBody_readImm (z := fun _ => .dword) fun p op bs => by unfold moffsBody readImm; cases read32 bs <;> rfl

@[simp] theorem enterBody_local : LocalBody enterBody := by
  intro p op bs d hd
  match bs, hd with
  | b0 :: b1 :: l :: _, rfl => exact ⟨[b0, b1, l], by simp, rfl, fun _ => rfl⟩

@[simp] theorem strBody_local (seg : Bool) (alone : Pfx → Instr) (rep repne : Size → Option Seg → Option Instr) :
    LocalBody (strBody z seg alone rep repne) := by
  intro p op
  have hform : ∃ i r, strBody z seg alone rep repne p op = fun bs => some ⟨i, bs, r, (z p).admits16, seg⟩ := by
    unfold strBody
    rcases p.rep with _ | _ | _
    · exact ⟨_, _, rfl⟩
    · cases rep (z p) p.seg <;> exact ⟨_, _, rfl⟩
    · cases repne (z p) p.seg <;> exact ⟨_, _, rfl⟩
  obtain ⟨i, r, hf⟩ := hform
  rw [hf]
  exact local_some

/-! ### Rows with a modR/M byte -/

theorem rmBody_after {mk : Size → RM → GReg → Instr} : LocalAfter (rmBody z mk) :=
  localAfter_readRM (g := fun p _ x e bs => some ⟨mk (z p) e (GReg.ofNum x), bs, false, (z p).admits16, e.isMem⟩)
    (fun p _ bs => by unfold rmBody; cases readRM p.seg bs <;> rfl) fun _ _ _ _ => local_some

theorem rmvBody_after {mk : VSize → RM → GReg → Instr} : LocalAfter (rmvBody mk) :=
  localAfter_readRM (g := fun p _ x e bs => some ⟨mk p.v e (GReg.ofNum x), bs, false, true, e.isMem⟩)
    (fun p _ bs => by unfold rmvBody; cases readRM p.seg bs <;> rfl) fun _ _ _ _ => local_some

theorem rmNo16Body_after {mk : RM → GReg → Instr} : LocalAfter (rmNo16Body mk) :=
  localAfter_readRM (g := fun _ _ x e bs => some ⟨mk e (GReg.ofNum x), bs, false, false, e.isMem⟩)
    (fun p _ bs => by unfold rmNo16Body; cases readRM p.seg bs <;> rfl) fun _ _ _ _ => local_some

theorem rmvImmBody_after {mk : (v : VSize) → RM → GReg → BitVec v.size.bits → Instr} : LocalAfter (rmvImmBody mk) :=
  localAfter_readRM
    (g := fun p _ x e bs =>
      (readImm p.v.size bs).map fun r => ⟨mk p.v e (GReg.ofNum x) r.1, r.2, false, true, e.isMem⟩)
    (fun p _ bs => by
      unfold rmvImmBody
      rcases readRM p.seg bs with _ | ⟨x, e, r⟩
      · rfl
      · dsimp only [Option.bind_some]; cases readImm p.v.size r <;> rfl)
    fun _ _ _ _ => local_readImm fun _ => rfl

theorem memberImm_after {mk : (z : Size) → RM → BitVec z.bits → Instr} : LocalAfter (memberImm z mk) :=
  localAfter_readRM
    (g := fun p _ _ e bs => (readImm (z p) bs).map fun r => ⟨mk (z p) e r.1, r.2, false, (z p).admits16, e.isMem⟩)
    (fun p _ bs => by
      unfold memberImm
      rcases readRM p.seg bs with _ | ⟨x, e, r⟩
      · rfl
      · dsimp only [Option.bind_some]; cases readImm (z p) r <;> rfl)
    fun _ _ _ _ => local_readImm fun _ => rfl

theorem rmvByteBody_after {mk : VSize → RM → GReg → Byte → Instr} : LocalAfter (rmvByteBody mk) :=
  localAfter_readRM
    (g := fun p _ x e bs =>
      (readImm .byte bs).map fun r => ⟨mk p.v e (GReg.ofNum x) r.1, r.2, false, true, e.isMem⟩)
    (fun p _ bs => by unfold rmvByteBody; rcases readRM p.seg bs with _ | ⟨x, e, _ | ⟨i, r⟩⟩ <;> rfl)
    fun _ _ _ _ => local_readImm fun _ => rfl

theorem memberByte_after {mk : Size → RM → Byte → Instr} : LocalAfter (memberByte z mk) :=
  localAfter_readRM
    (g := fun p _ _ e bs =>
      (readImm .byte bs).map fun r => ⟨mk (z p) e r.1, r.2, false, (z p).admits16, e.isMem⟩)
    (fun p _ bs => by unfold memberByte; rcases readRM p.seg bs with _ | ⟨x, e, _ | ⟨i, r⟩⟩ <;> rfl)
    fun _ _ _ _ => local_readImm fun _ => rfl

theorem memberRM_after {mk : Size → RM → Instr} : LocalAfter (memberRM z mk) := rmBody_after

theorem undefMember_after {x : BitVec 3} : LocalAfter (undefMember x) := fun _ _ _ => local_some
theorem undefMember0F_after {x : BitVec 3} : LocalAfter (undefMember0F x) := fun _ _ _ => local_some
theorem refusedMember_after {i : Instr} : LocalAfter (refusedMember i) := fun _ _ _ => local_some

@[simp] theorem rmBody_local (mk : Size → RM → GReg → Instr) : LocalBody (rmBody z mk) :=
  localBody_of_after (fun _ _ => rfl) rmBody_after

@[simp] theorem rmvBody_local (mk : VSize → RM → GReg → Instr) : LocalBody (rmvBody mk) :=
  localBody_of_after (fun _ _ => rfl) rmvBody_after

@[simp] theorem rmNo16Body_local (mk : RM → GReg → Instr) : LocalBody (rmNo16Body mk) :=
  localBody_of_after (fun _ _ => rfl) rmNo16Body_after

@[simp] theorem rmvImmBody_local (mk : (v : VSize) → RM → GReg → BitVec v.size.bits → Instr) :
    LocalBody (rmvImmBody mk) :=
  localBody_of_after (fun _ _ => rfl) rmvImmBody_after

@[simp] theorem rmvByteBody_local (mk : VSize → RM → GReg → Byte → Instr) : LocalBody (rmvByteBody mk) :=
  localBody_of_after (fun _ _ => rfl) rmvByteBody_after

/-- LEA: an undefined encoding ends at its modR/M byte, any other takes its operand. -/
@[simp] theorem leaBody_local : LocalBody leaBody := by
  refine localBody_of_after (fun _ _ => rfl) fun p op m bs d hd => ?_
  by_cases hm : fieldHi m = 3#2
  · simp only [leaBody, if_pos hm] at hd ⊢
    exact local_some bs d hd
  · simp only [leaBody, if_neg hm] at hd ⊢
    split at hd
    · rename_i x a r hr
      cases hd
      exact ((readRM_takes hr).mono (by decide)).map fun _ _ hc => by rw [hc]
    · cases hd

/-! ### Groups -/

/-- The modR/M byte that selects the member is the one that the member looks at. -/
theorem groupBody_local {member : BitVec 3 → Body} (h : ∀ x, LocalAfter (member x)) : LocalBody (groupBody member) :=
  localBody_of_after (fun _ _ => rfl) fun p op m => h (fieldMid m) p op m

@[simp] theorem group1Imm_local (mk : BitVec 3 → (z : Size) → RM → BitVec z.bits → Instr) :
    LocalBody (groupBody fun x => memberImm z (mk x)) := groupBody_local fun _ => memberImm_after

@[simp] theorem group1Byte_local (mk : BitVec 3 → VSize → RM → GReg → Byte → Instr) :
    LocalBody (groupBody fun x => rmvByteBody (mk x)) := groupBody_local fun _ => rmvByteBody_after

@[simp] theorem group2Body_local (c : Count) : LocalBody (group2Body z c) := groupBody_local fun x => by
  cases group2 x with
  | none => exact undefMember_after
  | some mk => exact memberRM_after

@[simp] theorem group2ImmBody_local : LocalBody (group2ImmBody z) := groupBody_local fun x => by
  cases group2 x with
  | none => exact undefMember_after
  | some mk => exact memberByte_after

@[simp] theorem group3Body_local : LocalBody (group3Body z) := groupBody_local fun x => by
  split
  · exact memberImm_after
  · exact undefMember_after
  all_goals exact memberRM_after

@[simp] theorem group4Body_local : LocalBody group4Body := groupBody_local fun x => by
  split
  · exact memberRM_after
  · exact memberRM_after
  · exact undefMember_after

@[simp] theorem group5Body_local : LocalBody group5Body := groupBody_local fun x => by
  split
  · exact memberRM_after
  · exact memberRM_after
  · exact rmNo16Body_after
  · exact refusedMember_after
  · exact rmNo16Body_after
  · exact refusedMember_after
  · exact rmvBody_after
  · exact undefMember_after

@[simp] theorem group6Body_local : LocalBody group6Body := groupBody_local fun x => by
  split
  case h_7 => exact undefMember0F_after
  all_goals exact refusedMember_after

@[simp] theorem group7Body_local : LocalBody group7Body := groupBody_local fun x => by
  split
  case h_7 => exact undefMember0F_after
  all_goals exact refusedMember_after

@[simp] theorem group8Body_local : LocalBody group8Body := groupBody_local fun x => by
  split
  case h_5 => exact undefMember0F_after
  all_goals exact rmvByteBody_after

@[simp] theorem group11Body_local : LocalBody (group11Body z) := groupBody_local fun x => by
  split
  · exact memberImm_after
  · exact undefMember_after

@[simp] theorem group1ABody_local : LocalBody group1ABody := groupBody_local fun x => by
  split
  · exact rmvBody_after
  · exact undefMember_after

@[simp] theorem xlatBody_local : LocalBody fun p _ bs => some ⟨.xlat p.seg, bs, false, false, true⟩ :=
  fun _ _ => local_some

@[simp] theorem escBody_local : LocalBody fun p op bs => refusedBody (.esc (fieldLo op)) p op bs :=
  fun _ _ => local_some

end Bodies

/-! ### The opcode maps -/

/-- A list of rows whose bodies all take at most ten bytes. -/
def LocalRows (rows : List Row) : Prop := ∀ r ∈ rows, LocalBody r.body

@[simp] theorem localRows_nil : LocalRows [] := List.forall_mem_nil _

@[simp] theorem localRows_cons {r : Row} {rows : List Row} :
    LocalRows (r :: rows) ↔ LocalBody r.body ∧ LocalRows rows := List.forall_mem_cons

@[simp] theorem localRows_append {rows rows' : List Row} :
    LocalRows (rows ++ rows') ↔ LocalRows rows ∧ LocalRows rows' := List.forall_mem_append

@[simp] theorem rowAt_body (op : Byte) (b : Body) : (Row.at op b).body = b := rfl

@[simp] theorem localRows_aluRows (b : Byte) (mk : AluForm → Instr) : LocalRows (aluRows b mk) := by simp [aluRows]

theorem localRows_oneByte : LocalRows (rows00 ++ rows40 ++ rows80 ++ rowsC0) := by
  simp [rows00, rows40, rows80, rowsC0]

theorem localRows_twoByte : LocalRows (rows0F00 ++ rows0F90) := by simp [rows0F00, rows0F90]

theorem findBody_local {rows : List Row} (h : LocalRows rows) (op : Byte) {b : Body} (hb : LocalBody b) :
    LocalBody ((findBody rows op).getD b) := by
  induction rows with
  | nil => exact hb
  | cons r rows ih =>
    obtain ⟨hr, hrows⟩ := localRows_cons.mp h
    rw [findBody]
    split
    · exact hr
    · exact ih hrows

/-- After the first opcode byte at most eleven bytes are taken, the second opcode byte among them. -/
theorem bodyOf_local (p : Pfx) (op : Byte) : Local 11 (bodyOf op p op) := by
  unfold bodyOf
  split
  · exact local_of_cons rfl fun op2 => findBody_local localRows_twoByte op2 (refusedBody_local _) p op2
  · exact (findBody_local localRows_oneByte op (refusedBody_local _) p op).mono (by decide)

/-! ### Prefixes and the decoder -/

/-- The number of groups of prefixes of which none has been seen yet. -/
def freeGroups (p : Pfx) : Nat := (!p.rep.isSome).toNat + (!p.seg.isSome).toNat + (!p.op16).toNat

/-- The bytes that stand after what was scanned. -/
def scannedRest : Scanned → List Byte
  | .more => []
  | .bad _ rest => rest
  | .opcode _ _ rest => rest

/-- The same front with other bytes after it. -/
def scannedBefore : Scanned → List Byte → Scanned
  | .more, _ => .more
  | .bad i _, tail => .bad i tail
  | .opcode p op _, tail => .opcode p op tail

/-- One more byte ends the scan, or is the first of its group of prefixes. -/
theorem scanPrefixes_cons (p : Pfx) (b : Byte) :
    (∃ x : Scanned, x ≠ .more ∧ ∀ t, scanPrefixes p (b :: t) = scannedBefore x t) ∨
      ∃ q, freeGroups q < freeGroups p ∧ ∀ t, scanPrefixes p (b :: t) = scanPrefixes q t := by
  rcases hk : pfxKind b with _ | r | s | _ | _ | _
  · exact .inl ⟨.opcode p b [], by simp, fun t => by simp [scanPrefixes, hk, scannedBefore]⟩
  · by_cases hp : p.rep.isSome = true
    · exact .inl ⟨.bad (repMisusedOf r) [], by simp, fun t => by simp [scanPrefixes, hk, hp, scannedBefore]⟩
    · exact .inr ⟨{ p with rep := some r }, by simp [freeGroups, hp], fun t => by simp [scanPrefixes, hk, hp]⟩
  · by_cases hp : p.seg.isSome = true
    · exact .inl ⟨.bad (segMisused s) [], by simp, fun t => by simp [scanPrefixes, hk, hp, scannedBefore]⟩
    · exact .inr ⟨{ p with seg := some s }, by simp [freeGroups, hp], fun t => by simp [scanPrefixes, hk, hp]⟩
  · by_cases hp : p.op16 = true
    · exact .inl ⟨.bad .opsize [], by simp, fun t => by simp [scanPrefixes, hk, hp, scannedBefore]⟩
    · exact .inr ⟨{ p with op16 := true }, by simp [freeGroups, hp], fun t => by simp [scanPrefixes, hk, hp]⟩
  · exact .inl ⟨.bad .addrsize [], by simp, fun t => by simp [scanPrefixes, hk, scannedBefore]⟩
  · exact .inl ⟨.bad .lock [], by simp, fun t => by simp [scanPrefixes, hk, scannedBefore]⟩

/-- What a scan has found depends on prefixes, one at most of each group not seen before, and the one byte after
them. -/
theorem scanPrefixes_takes {p : Pfx} {bs : List Byte} (h : scanPrefixes p bs ≠ .more) :
    Takes (freeGroups p + 1) (scanPrefixes p) (scannedBefore (scanPrefixes p bs)) bs
      (scannedRest (scanPrefixes p bs)) := by
  induction bs generalizing p with
  | nil => exact absurd rfl h
  | cons b bs ih =>
    obtain ⟨x, hne, hx⟩ | ⟨q, hroom, hq⟩ := scanPrefixes_cons p b
    · rw [hx]
      cases x with
      | more => exact absurd rfl hne
      | bad | opcode => exact ⟨[b], by simp, rfl, hx⟩
    · rw [hq] at h ⊢
      exact Takes.cons (((ih h).map fun cs t hc => (hq cs).trans hc).mono hroom)

theorem scanPrefixes_opcode {bs rest : List Byte} {p : Pfx} {op : Byte}
    (h : scanPrefixes .none bs = .opcode p op rest) : Takes 4 (scanPrefixes .none) (.opcode p op) bs rest := by
  have htakes := scanPrefixes_takes (p := .none) (bs := bs) (by simp [h])
  rw [h] at htakes
  exact htakes

theorem scanPrefixes_bad {bs rest : List Byte} {i : Instr} (h : scanPrefixes .none bs = .bad i rest) :
    Takes 4 (scanPrefixes .none) (.bad i) bs rest := by
  have htakes := scanPrefixes_takes (p := .none) (bs := bs) (by simp [h])
  rw [h] at htakes
  exact htakes

/-- What the decoder answers it answers of the instruction's own bytes, at most fifteen, whatever follows them. -/
theorem decode_splits {bs : List Byte} {i : Instr} {n : Nat} (h : decode bs = some (i, n)) :
    ∃ used rest, bs = used ++ rest ∧ used.length = n ∧ n ≤ 15 ∧ ∀ tail, decode (used ++ tail) = some (i, n) := by
  unfold decode at h
  split at h
  · cases h
  · rename_i j rest hs
    obtain ⟨used, hlen, rfl, hscan⟩ := scanPrefixes_bad hs
    cases h
    refine ⟨used, rest, rfl, by simp, ?_, fun tail => ?_⟩
    · simp only [List.length_append]; omega
    · simp [decode, hscan]
  · rename_i p op rest hs
    obtain ⟨used, hlen, rfl, hscan⟩ := scanPrefixes_opcode hs
    split at h
    · cases h
    · rename_i d hd
      obtain ⟨used', hlen', rfl, hbody⟩ := bodyOf_local p op rest d hd
      cases h
      refine ⟨used ++ used', d.rest, (List.append_assoc ..).symm, ?_, ?_, fun tail => ?_⟩
      · simp only [List.length_append]; omega
      · simp only [List.length_append]; omega
      · have hcheck : checkPrefixes p { d with rest := tail } = checkPrefixes p d := rfl
        simp only [decode, List.append_assoc, hscan, hbody, hcheck, List.length_append, Option.some.injEq,
          Prod.mk.injEq, true_and]
        omega

end Sys2Proof.Proofs
end

section
/-! What an instruction can end in, as far as exceptions and TF are concerned (spec/60_exceptions.md R500, R503, R508):
one rule per operation that the instructions share, put together along the sequence of each instruction. -/

namespace Sys2Proof.Proofs

open Sys2Proof Sys2Proof.Machine Sys2Proof.Laws

/-! ### Exceptions and values of a part of an instruction -/

/-- The value that is answered, if one is, satisfies `P`; the exception that is raised, if one is, satisfies `X`. Of a
memory fault and of a refusal nothing is asked. -/
def Meets {α : Type} (X : Byte → ExcInfo → State → Prop) (P : α → Prop) : Res α → Prop
  | .ok a => P a
  | .error (.fault (.exception v info c)) => X v info c
  | .error (.fault (.memFault _ _)) => True
  | .error (.refuse _) => True

/-- The same of the outcome of a whole instruction. -/
def OutMeets (X : Byte → ExcInfo → State → Prop) (P : State → Prop) : Outcome → Prop
  | .next t => P t
  | .fault (.exception v info c) => X v info c
  | .fault (.memFault _ _) => True
  | .refused _ => True

/-- A part of which only the exceptions matter. -/
abbrev Raising {α : Type} (X : Byte → ExcInfo → State → Prop) (r : Res α) : Prop := Meets X (fun _ => True) r

/-- TF has the value `b`. -/
def TfIs (b : Bool) (t : State) : Prop := t.flags.tf = b

section Operations
variable {X : Byte → ExcInfo → State → Prop} {b : Bool} {s : State}

theorem Meets.bind {α β : Type} {P : α → Prop} {Q : β → Prop} {x : Res α} {f : α → Res β} (hx : Meets X P x)
    (hf : ∀ a, P a → Meets X Q (f a)) : Meets X Q (x >>= f) :=
  match x, hx with
  | .ok a, hx => hf a hx
  | .error (.fault (.exception _ _ _)), hx => hx
  | .error (.fault (.memFault _ _)), _ => trivial
  | .error (.refuse _), _ => trivial

theorem outMeets_out {P : State → Prop} {r : Res State} (h : Meets X P r) : OutMeets X P (Res.out r) :=
  match r, h with
  | .ok _, h => h
  | .error (.fault (.exception _ _ _)), h => h
  | .error (.fault (.memFault _ _)), _ => trivial
  | .error (.refuse _), _ => trivial

theorem meets_ite {α : Type} {P : α → Prop} {c : Prop} [Decidable c] {r r' : Res α} (hr : c → Meets X P r)
    (hr' : Meets X P r') : Meets X P (if c then r else r') := by
  split
  · exact hr ‹c›
  · exact hr'

/-! ### Checks -/

theorem raising_linear {seg : Seg} {off : Word} {n : Nat} : Raising X (s.linear seg off n) := by
  unfold State.linear; split <;> trivial

theorem raising_checkRead {a n : Nat} : Raising X (s.checkRead a n) := by
  unfold State.checkRead; split <;> trivial

theorem raising_checkWrite {a n : Nat} : Raising X (s.checkWrite a n) := by
  unfold State.checkWrite; split <;> trivial

theorem raising_checkCode {a n : Nat} : Raising X (s.checkCode a n) := by
  unfold State.checkCode; split <;> trivial

theorem raising_checkWrites (as : List Nat) : Raising X (s.checkWrites as) := by
  induction as with
  | nil => trivial
  | cons a as ih => exact raising_checkWrite.bind fun _ _ => ih

theorem raising_checkCodes (as : List Nat) : Raising X (s.checkCodes as) := by
  induction as with
  | nil => trivial
  | cons a as ih => exact raising_checkCode.bind fun _ _ => ih

/-! ### Memory, stack, operands -/

theorem raising_memRead {seg : Seg} {off : Word} {z : Size} : Raising X (s.memRead seg off z) :=
  raising_linear.bind fun _ _ => raising_checkRead.bind fun _ _ => trivial

theorem raising_readLoc {z : Size} {l : Loc} : Raising X (s.readLoc z l) := by
  cases l with
  | reg g => trivial
  | mem seg off => exact raising_memRead

theorem raising_readRM {z : Size} {e : RM} : Raising X (s.readRM z e) := raising_readLoc

theorem raising_aluSrc (f : AluForm) : Raising X (aluSrc s f) := by
  cases f with
  | regRm z g e => exact raising_readRM
  | rmReg | accImm | rmImm | rmImm8s => trivial

theorem meets_memWrite {seg : Seg} {off : Word} {z : Size} {v : BitVec z.bits} (h : TfIs b s) :
    Meets X (TfIs b) (s.memWrite seg off z v) :=
  raising_linear.bind fun _ _ => raising_checkWrite.bind fun _ _ => raising_checkCode.bind fun _ _ => h

theorem meets_writeLoc {z : Size} {l : Loc} {v : BitVec z.bits} (h : TfIs b s) :
    Meets X (TfIs b) (s.writeLoc z l v) := by
  cases l with
  | reg g => exact h
  | mem seg off => exact meets_memWrite h

theorem meets_push {z : Size} {v : BitVec z.bits} (h : TfIs b s) : Meets X (TfIs b) (s.push z v) :=
  (meets_memWrite h).bind fun _ ht => ht

theorem meets_pop {z : Size} (h : TfIs b s) : Meets X (fun p => TfIs b p.2) (s.pop z) :=
  raising_memRead.bind fun _ _ => h

/-! ### The program counter -/

theorem meets_advance_of {P : State → Prop} (h : P { s with pc := s.npc }) : Meets X P s.advance := by
  unfold State.advance; split
  · exact h
  · trivial

theorem meets_advance (h : TfIs b s) : Meets X (TfIs b) s.advance := meets_advance_of h

theorem raising_relTarget {rel : Word} : Raising X (s.relTarget rel) := by
  unfold State.relTarget; split <;> trivial

theorem meets_branch {rel : Word} (h : TfIs b s) : Meets X (TfIs b) (s.branch rel) :=
  raising_relTarget.bind fun _ _ => h

/-! ### The operations that several instructions share -/

/-- A store, whatever is done to the state after it without TF, and the advance. -/
theorem meets_writeLoc_advance {z : Size} {l : Loc} {v : BitVec z.bits} {u : State → State} (h : TfIs b s)
    (hu : ∀ t, TfIs b t → TfIs b (u t)) : Meets X (TfIs b) (s.writeLoc z l v >>= fun t => (u t).advance) :=
  (meets_writeLoc h).bind fun t ht => meets_advance (hu t ht)

theorem meets_aluWrite {f : AluForm}
    {op : BitVec (aluSize f).bits → BitVec (aluSize f).bits → BitVec (aluSize f).bits × Status} (h : TfIs b s) :
    Meets X (TfIs b) (aluWrite f op s) :=
  raising_readLoc.bind fun _ _ => (raising_aluSrc f).bind fun _ _ => meets_writeLoc_advance h fun _ ht => ht

theorem meets_incDec {f : IncForm} {op : BitVec (incSize f).bits → BitVec (incSize f).bits × Status} (h : TfIs b s) :
    Meets X (TfIs b) (incDec f op s) :=
  raising_readLoc.bind fun _ _ => meets_writeLoc_advance h fun _ ht => ht

theorem meets_mulInto {z : Size} {g : GReg} {x y : BitVec z.bits} (h : TfIs b s) :
    Meets X (TfIs b) (mulInto z g x y s) := meets_advance h

theorem meets_exchange {z : Size} {l : Loc} {g : GReg} (h : TfIs b s) : Meets X (TfIs b) (exchange z l g s) :=
  raising_readLoc.bind fun _ _ => meets_writeLoc_advance h fun _ ht => ht

theorem meets_testBits {z : Size} {x y : BitVec z.bits} (h : TfIs b s) : Meets X (TfIs b) (testBits z x y s) :=
  meets_advance h

theorem meets_bitModify {f : BitForm} {upd : BitVec (bitSize f).bits → Nat → BitVec (bitSize f).bits}
    (h : TfIs b s) : Meets X (TfIs b) (bitModify f upd s) :=
  raising_readLoc.bind fun _ _ => meets_writeLoc_advance h fun _ ht => ht

theorem meets_scanInto {z : Size} {g : GReg} (r : Option Nat) (h : TfIs b s) :
    Meets X (TfIs b) (scanInto z g r s) := by
  cases r <;> exact meets_advance h

theorem meets_setByte {c : Cond} {e : RM} (h : TfIs b s) : Meets X (TfIs b) (setByte c e s) :=
  meets_writeLoc_advance h fun _ ht => ht

theorem meets_shiftBy {z : Size} {e : RM} {c : Count}
    {op : BitVec z.bits → Nat → (Nat → Bool) → BitVec z.bits × Status} (h : TfIs b s) :
    Meets X (TfIs b) (shiftBy z e c op s) :=
  raising_readRM.bind fun _ _ => meets_ite (fun _ => meets_advance h) (meets_writeLoc_advance h fun _ ht => ht)

theorem meets_doubleShift {v : VSize} {e : RM} {g : GReg} {c : DCount}
    {op : BitVec v.size.bits → BitVec v.size.bits → Nat → BitVec v.size.bits → (Nat → Bool) →
      BitVec v.size.bits × Status} (h : TfIs b s) : Meets X (TfIs b) (doubleShift v e g c op s) :=
  raising_readRM.bind fun _ _ => meets_ite (fun _ => meets_advance h) (meets_writeLoc_advance h fun _ ht => ht)

theorem meets_rotateBy {z : Size} {e : RM} {c : Count}
    {op : BitVec z.bits → Bool → Nat → (Nat → Bool) → BitVec z.bits × Bool × Bool} (h : TfIs b s) :
    Meets X (TfIs b) (rotateBy z e c op s) :=
  raising_readRM.bind fun _ _ => meets_ite (fun _ => meets_advance h) (meets_writeLoc_advance h fun _ ht => ht)

theorem meets_jumpIf {c : Cond} {d : Rel} (h : TfIs b s) : Meets X (TfIs b) (jumpIf c d s) :=
  meets_ite (fun _ => meets_branch h) (meets_advance h)

theorem meets_loopWhile {c : Bool} {d : Byte} (h : TfIs b s) : Meets X (TfIs b) (loopWhile c d s) :=
  meets_ite (fun _ => meets_branch h) (meets_advance h)

/-! ### Strings -/

theorem meets_strMovs {z : Size} {o : Option Seg} (h : TfIs b s) : Meets X (TfIs b) (strMovs z o s) :=
  raising_memRead.bind fun _ _ => (meets_memWrite h).bind fun _ ht => ht

theorem meets_strCmps {z : Size} {o : Option Seg} (h : TfIs b s) : Meets X (TfIs b) (strCmps z o s) :=
  raising_memRead.bind fun _ _ => raising_memRead.bind fun _ _ => h

theorem meets_strScas {z : Size} (h : TfIs b s) : Meets X (TfIs b) (strScas z s) :=
  raising_memRead.bind fun _ _ => h

theorem meets_strLods {z : Size} {o : Option Seg} (h : TfIs b s) : Meets X (TfIs b) (strLods z o s) :=
  raising_memRead.bind fun _ _ => h

theorem meets_strStos {z : Size} (h : TfIs b s) : Meets X (TfIs b) (strStos z s) :=
  (meets_memWrite h).bind fun _ ht => ht

theorem meets_strMove (p : StrMove) (h : TfIs b s) : Meets X (TfIs b) (strMove p s) := by
  cases p with
  | movs => exact meets_strMovs h
  | lods => exact meets_strLods h
  | stos => exact meets_strStos h

theorem meets_strCmp (p : StrCmp) (h : TfIs b s) : Meets X (TfIs b) (strCmp p s) := by
  cases p with
  | cmps => exact meets_strCmps h
  | scas => exact meets_strScas h

theorem meets_repeatOnce {prim : State → Res State} {stop : Eflags → Bool} (h : TfIs b s)
    (hp : Meets X (TfIs b) (prim s)) : Meets X (TfIs b) (repeatOnce prim stop s) :=
  meets_ite (fun _ => meets_advance h) (hp.bind fun _ ht => meets_ite (fun _ => meets_advance ht) ht)

/-! ### ENTER -/

theorem meets_pushRaw {v : Word} (h : TfIs b s) : Meets X (fun p => TfIs b p.1) (s.pushRaw v) :=
  raising_linear.bind fun _ _ => h

theorem meets_copyDisplay (n : Nat) (t : Word) (h : TfIs b s) :
    Meets X (fun p => TfIs b p.1) (copyDisplay n t s) := by
  induction n generalizing t s with
  | zero => exact h
  | succ n ih =>
    exact raising_memRead.bind fun _ _ => (meets_pushRaw h).bind fun _ h1 => (ih _ h1).bind fun _ h2 => h2

theorem meets_enterPushes (level : Nat) (h : TfIs b s) : Meets X (fun p => TfIs b p.1) (enterPushes level s) :=
  (meets_pushRaw h).bind fun _ h1 => meets_ite (fun _ => h1)
    ((meets_copyDisplay _ _ h1).bind fun _ h2 => (meets_pushRaw h2).bind fun _ h3 => h3)

/-! ### The instructions with several forms -/

theorem outMeets_execMov (f : MovForm) (h : TfIs b s) : OutMeets X (TfIs b) (execMov f s) := by
  cases f with
  | rmReg | rmImm => exact outMeets_out (meets_writeLoc_advance h fun _ ht => ht)
  | regRm => exact outMeets_out (raising_readRM.bind fun _ _ => meets_advance h)
  | regImm => exact outMeets_out (meets_advance h)
  | accMoffs => exact outMeets_out (raising_memRead.bind fun _ _ => meets_advance h)
  | moffsAcc => exact outMeets_out ((meets_memWrite h).bind fun _ ht => meets_advance ht)

theorem outMeets_execXchg (f : XchgForm) (h : TfIs b s) : OutMeets X (TfIs b) (execXchg f s) := by
  cases f <;> exact outMeets_out (meets_exchange h)

theorem outMeets_execPush (f : PushForm) (h : TfIs b s) : OutMeets X (TfIs b) (execPush f s) := by
  cases f with
  | rm => exact outMeets_out (raising_readRM.bind fun _ _ => (meets_push h).bind fun _ ht => meets_advance ht)
  | reg | imm | imm8s => exact outMeets_out ((meets_push h).bind fun _ ht => meets_advance ht)

theorem outMeets_execPop (f : PopForm) (h : TfIs b s) : OutMeets X (TfIs b) (execPop f s) := by
  cases f with
  | reg => exact outMeets_out ((meets_pop h).bind fun _ ht => meets_advance ht)
  | rm => exact outMeets_out ((meets_pop h).bind fun _ ht => meets_writeLoc_advance ht fun _ hu => hu)

theorem outMeets_execMovsx (f : ExtForm) (h : TfIs b s) : OutMeets X (TfIs b) (execMovsx f s) := by
  cases f <;> exact outMeets_out (raising_readRM.bind fun _ _ => meets_advance h)

theorem outMeets_execMovzx (f : ExtForm) (h : TfIs b s) : OutMeets X (TfIs b) (execMovzx f s) := by
  cases f <;> exact outMeets_out (raising_readRM.bind fun _ _ => meets_advance h)

theorem outMeets_execTest (f : TestForm) (h : TfIs b s) : OutMeets X (TfIs b) (execTest f s) := by
  cases f with
  | accImm => exact outMeets_out (meets_testBits h)
  | rmReg | rmImm => exact outMeets_out (raising_readRM.bind fun _ _ => meets_testBits h)

theorem outMeets_execImul3 (f : Imul3Form) (h : TfIs b s) : OutMeets X (TfIs b) (execImul3 f s) := by
  cases f <;> exact outMeets_out (raising_readRM.bind fun _ _ => meets_mulInto h)

/-! ### The instructions that raise an exception -/

theorem outMeets_execDiv {z : Size} {e : RM} (h : TfIs b s) (hX : X 0#8 .divideError s) :
    OutMeets X (TfIs b) (execDiv z e s) :=
  outMeets_out (raising_readRM.bind fun _ _ => meets_ite (fun _ => hX) (meets_ite (fun _ => hX) (meets_advance h)))

theorem outMeets_execIdiv {z : Size} {e : RM} (h : TfIs b s) (hX : X 0#8 .divideError s) :
    OutMeets X (TfIs b) (execIdiv z e s) :=
  outMeets_out (raising_readRM.bind fun _ _ => meets_ite (fun _ => hX) (meets_ite (fun _ => hX) (meets_advance h)))

/-- A software interrupt raises its exception in the advanced state, or is refused at the top. -/
theorem meets_softInt {P : State → Prop} {n : Byte} (hX : X n .softwareInterrupt { s with pc := s.npc }) :
    Meets X P (s.softInt n) :=
  (meets_advance_of (P := (· = { s with pc := s.npc })) rfl).bind fun _ ht => ht ▸ hX

end Operations

/-! ### Every instruction -/

/-- The exceptions of each instruction, with the state each carries (R503). -/
def Raises (i : Instr) (s : State) (v : Byte) (info : ExcInfo) (c : State) : Prop :=
  match i with
  | .div _ _ | .idiv _ _ => info = .divideError ∧ v = 0#8 ∧ c = s
  | .int n => info = .softwareInterrupt ∧ v = n ∧ c = { s with pc := s.npc }
  | .int3 => info = .softwareInterrupt ∧ v = 3#8 ∧ c = { s with pc := s.npc }
  | .into => info = .softwareInterrupt ∧ v = 4#8 ∧ c = { s with pc := s.npc } ∧ s.flags.ofl = true
  | _ => False

/-- Every instruction but POPF and POPFD leaves TF as it was. -/
def LeavesTf (i : Instr) (s t : State) : Prop :=
  match i with
  | .popf | .popfd => True
  | _ => TfIs s.flags.tf t

/-- What an instruction ends in: a next state that has the old TF, unless it is POPF or POPFD; one of its own
exceptions; or a memory fault or a refusal. -/
theorem exec_outMeets (i : Instr) (s : State) : OutMeets (Raises i s) (LeavesTf i s) (exec i s) := by
  have h : TfIs s.flags.tf s := rfl
  cases i with
  | add | or | adc | sbb | and | sub | xor => exact outMeets_out (meets_aluWrite h)
  | cmp f => exact outMeets_out (raising_readLoc.bind fun _ _ => (raising_aluSrc f).bind fun _ _ => meets_advance h)
  | inc | dec => exact outMeets_out (meets_incDec h)
  | neg | not => exact outMeets_out (raising_readRM.bind fun _ _ => meets_writeLoc_advance h fun _ ht => ht)
  | test f => exact outMeets_execTest f h
  | mul | imul1 => exact outMeets_out (raising_readRM.bind fun _ _ => meets_advance h)
  | imul2 => exact outMeets_out (raising_readRM.bind fun _ _ => meets_mulInto h)
  | imul3 f => exact outMeets_execImul3 f h
  | div => exact outMeets_execDiv h ⟨rfl, rfl, rfl⟩
  | idiv => exact outMeets_execIdiv h ⟨rfl, rfl, rfl⟩
  | mov f => exact outMeets_execMov f h
  | xchg f => exact outMeets_execXchg f h
  | push f => exact outMeets_execPush f h
  | pop f => exact outMeets_execPop f h
  | movsx f => exact outMeets_execMovsx f h
  | movzx f => exact outMeets_execMovzx f h
  | daa | das | aaa | aas | cbw | cwde | cwd | cdq | clc | stc | cmc | cld | std | lahf | sahf | wait | lea | nop =>
    exact outMeets_out (meets_advance h)
  | bt => exact outMeets_out (raising_readLoc.bind fun _ _ => meets_advance h)
  | bts | btr | btc => exact outMeets_out (meets_bitModify h)
  | bsf | bsr => exact outMeets_out (raising_readRM.bind fun _ _ => meets_scanInto _ h)
  | seto | setno | setb | setae | sete | setne | setbe | seta | sets | setns | setp | setnp | setl | setge | setle
  | setg => exact outMeets_out (meets_setByte h)
  | rol | ror | rcl | rcr => exact outMeets_out (meets_rotateBy h)
  | shl | shr | sar => exact outMeets_out (meets_shiftBy h)
  | shld | shrd => exact outMeets_out (meets_doubleShift h)
  | jmpRel => exact outMeets_out (meets_branch h)
  | jmpInd => exact outMeets_out (raising_readRM.bind fun _ _ => h)
  | jo | jno | jb | jae | je | jne | jbe | ja | js | jns | jp | jnp | jl | jge | jle | jg =>
    exact outMeets_out (meets_jumpIf h)
  | callRel => exact outMeets_out (raising_relTarget.bind fun _ _ => (meets_push h).bind fun _ ht => ht)
  | callInd => exact outMeets_out (raising_readRM.bind fun _ _ => (meets_push h).bind fun _ ht => ht)
  | ret | retImm => exact outMeets_out ((meets_pop h).bind fun _ ht => ht)
  | loop | loope | loopne => exact outMeets_out (meets_loopWhile h)
  | jecxz => exact outMeets_out (meets_ite (fun _ => meets_branch h) (meets_advance h))
  | int | int3 => exact outMeets_out (meets_softInt ⟨rfl, rfl, rfl⟩)
  | into => exact outMeets_out (meets_ite (fun hof => meets_softInt ⟨rfl, rfl, rfl, hof⟩) (meets_advance h))
  | movsb | movsd => exact outMeets_out ((meets_strMovs h).bind fun _ ht => meets_advance ht)
  | cmpsb | cmpsd => exact outMeets_out ((meets_strCmps h).bind fun _ ht => meets_advance ht)
  | stosb | stosd => exact outMeets_out ((meets_strStos h).bind fun _ ht => meets_advance ht)
  | lodsb | lodsd => exact outMeets_out ((meets_strLods h).bind fun _ ht => meets_advance ht)
  | scasb | scasd => exact outMeets_out ((meets_strScas h).bind fun _ ht => meets_advance ht)
  | rep p => exact outMeets_out (meets_repeatOnce h (meets_strMove p h))
  | repe p | repne p => exact outMeets_out (meets_repeatOnce h (meets_strCmp p h))
  | enter =>
    exact outMeets_out ((meets_enterPushes _ h).bind fun _ ht => (raising_checkWrites _).bind fun _ _ =>
      (raising_checkCodes _).bind fun _ _ => meets_advance ht)
  | leave => exact outMeets_out (raising_memRead.bind fun _ _ => meets_advance h)
  | pushf | pushfd => exact outMeets_out ((meets_push h).bind fun _ ht => meets_advance ht)
  | popf | popfd => exact outMeets_out ((meets_pop h).bind fun _ _ => meets_advance_of trivial)
  | xlat => exact outMeets_out (raising_memRead.bind fun _ _ => meets_advance h)
  | pushSeg | popSeg | movSeg | les | lds | lss | lfs | lgs | callFar | jmpFar | retFar | arpl | sldt | str | lldt | ltr
  | verr | verw | sgdt | sidt | lgdt | lidt | smsw | lmsw | lar | lsl | clts | movSys | iret | cli | sti | hlt | inPort
  | outPort | insb | insd | outsb | outsd | pusha | popa | bound | aam | aad | esc | aliasOf80 | undocumented
  | undefined | prefixEs | prefixCs | prefixSs | prefixDs | prefixFs | prefixGs | opsize | addrsize | lock | repMisused
  | repneMisused => trivial

end Sys2Proof.Proofs
end

section
/-! The step (spec/60_exceptions.md R507): what it runs, and the single step and the exceptions it reports (R503,
R508). -/

namespace Sys2Proof.Proofs

open Sys2Proof Sys2Proof.Machine Sys2Proof.Laws

/-! ### Fetching given bytes -/

theorem fetchByte_of_bytesAt {s : State} {bs : List Byte} (h : BytesAt s bs) {k : Nat} (hk : k < bs.length) :
    s.fetchByte k = .ok bs[k] := by
  obtain ⟨htop, hlin, hread, hget⟩ := h k hk
  rw [State.fetchByte, if_pos ⟨htop, hlin⟩, if_pos hread, hget]

/-- Bytes that can be fetched, no more than are asked for, are the front of the window. -/
theorem window_of_fetchByte {s : State} {bs : List Byte} {k n : Nat}
    (h : ∀ j (hj : j < bs.length), s.fetchByte (k + j) = .ok bs[j]) (hn : bs.length ≤ n) :
    ∃ tail, (s.window k n).1 = bs ++ tail := by
  induction bs generalizing k n with
  | nil => exact ⟨_, rfl⟩
  | cons b bs ih =>
    obtain ⟨n, rfl⟩ : ∃ m, n = m + 1 := ⟨n - 1, by simp only [List.length_cons] at hn; omega⟩
    have hfirst : s.fetchByte k = .ok b := h 0 (by simp)
    obtain ⟨tail, htail⟩ := ih (k := k + 1) (n := n)
      (fun j hj => by rw [Nat.add_assoc, Nat.add_comm 1 j]; exact h (j + 1) (by simpa using hj)) (by simpa using hn)
    exact ⟨tail, by simp only [State.window, hfirst, htail, List.cons_append]⟩

/-- Fetchable bytes that decode are fetched as what they decode to, whatever can be fetched after them. -/
theorem fetch_of_bytesAt {s : State} {bs : List Byte} {i : Instr} {n : Nat} (h : BytesAt s bs)
    (hd : decode bs = some (i, n)) : s.fetch = .ok (i, n) := by
  obtain ⟨used, rest, rfl, rfl, hlen, hdecode⟩ := decode_splits hd
  obtain ⟨tail, hwindow⟩ := window_of_fetchByte (s := s) (bs := used) (k := 0) (n := 15)
    (fun j hj => by
      rw [Nat.zero_add, fetchByte_of_bytesAt h (by rw [List.length_append]; omega), List.getElem_append_left hj])
    hlen
  simp only [State.fetch, hwindow, hdecode]

/-- A step that is taken runs what was fetched. -/
theorem step_of_fetch {s : State} {i : Instr} {n : Nat} (hr : Running s) (hf : s.fetch = .ok (i, n)) :
    step s = singleStep s.flags.tf (exec i (s.begin n)) := by
  simp [step, hr.notHalted, hr.mode, hf]

/-! ### The exceptions of a step -/

theorem window_stop_ne_exception (s : State) (k n : Nat) (v : Byte) (info : ExcInfo) (c : State) :
    (s.window k n).2 ≠ .fault (.exception v info c) := by
  induction n generalizing k with
  | zero => simp [State.window]
  | succ n ih =>
    rw [State.window]
    cases hb : s.fetchByte k with
    | ok b => exact ih (k + 1)
    | error e =>
      unfold State.fetchByte at hb
      split at hb
      · split at hb <;> cases hb; simp
      · cases hb; simp

/-- No exception comes of the fetch. -/
theorem fetch_ne_exception (s : State) (v : Byte) (info : ExcInfo) (c : State) :
    s.fetch ≠ .error (.fault (.exception v info c)) := by
  unfold State.fetch
  split
  rename_i bs e hw
  have he := window_stop_ne_exception s 0 15 v info c
  rw [hw] at he
  split
  · simp
  · simpa using he

/-- The single-step trap reports the exception of the instruction, or its own in the completed state (R508). -/
theorem singleStep_exception {tf : Bool} {o : Outcome} {v : Byte} {info : ExcInfo} {c : State} :
    singleStep tf o = .fault (.exception v info c) ↔
      o = .fault (.exception v info c) ∨ (info = .singleStep ∧ v = 1#8 ∧ tf = true ∧ o = .next c) := by
  cases o with
  | next t => cases tf <;> simp [singleStep]; tauto
  | fault f => simp [singleStep]
  | refused r => simp [singleStep]

/-- A step that reports an exception has fetched an instruction. -/
theorem step_exception {s c : State} {v : Byte} {info : ExcInfo} (h : step s = .fault (.exception v info c)) :
    ∃ i n, s.fetch = .ok (i, n) ∧
      singleStep s.flags.tf (exec i (s.begin n)) = .fault (.exception v info c) := by
  unfold step at h
  split at h
  · cases h
  · split at h
    · cases h
    · split at h
      · rename_i hf
        cases h
        exact absurd hf (fetch_ne_exception s v info c)
      · cases h
      · rename_i i n hf
        exact ⟨i, n, hf, h⟩

theorem raises_cases {i : Instr} {s c : State} {v : Byte} {info : ExcInfo} (h : Raises i s v info c) :
    (info = .divideError ∧ v = 0#8 ∧ c = s ∧ ∃ z e, i = .div z e ∨ i = .idiv z e) ∨
      (info = .softwareInterrupt ∧ c = { s with pc := s.npc } ∧
        (i = .int v ∨ (i = .int3 ∧ v = 3#8) ∨ (i = .into ∧ v = 4#8 ∧ s.flags.ofl = true))) := by
  unfold Raises at h
  split at h
  · obtain ⟨hinfo, hv, hc⟩ := h
    exact .inl ⟨hinfo, hv, hc, _, _, .inl rfl⟩
  · obtain ⟨hinfo, hv, hc⟩ := h
    exact .inl ⟨hinfo, hv, hc, _, _, .inr rfl⟩
  · obtain ⟨hinfo, rfl, hc⟩ := h
    exact .inr ⟨hinfo, hc, .inl rfl⟩
  · obtain ⟨hinfo, hv, hc⟩ := h
    exact .inr ⟨hinfo, hc, .inr (.inl ⟨rfl, hv⟩)⟩
  · obtain ⟨hinfo, hv, hc, hof⟩ := h
    exact .inr ⟨hinfo, hc, .inr (.inr ⟨rfl, hv, hof⟩)⟩
  · exact h.elim

/-- An instruction raises its own exceptions only. -/
theorem raises_of_exec {i : Instr} {s c : State} {v : Byte} {info : ExcInfo}
    (h : exec i s = .fault (.exception v info c)) : Raises i s v info c := by
  have hmeets := exec_outMeets i s
  rwa [h] at hmeets

/-- No instruction but POPF and POPFD changes TF. -/
theorem exec_keeps_tf {i : Instr} {s t : State} (h : exec i s = .next t) (hpopf : i ≠ .popf) (hpopfd : i ≠ .popfd) :
    t.flags.tf = s.flags.tf := by
  have hmeets : LeavesTf i s t := by
    have hall := exec_outMeets i s
    rwa [h] at hall
  unfold LeavesTf at hmeets
  split at hmeets
  · exact absurd rfl hpopf
  · exact absurd rfl hpopfd
  · exact hmeets

/-- Settles O12: the bytes are fetched as the instruction that they decode to, whose outcome the trap then replaces
where it is a next state; that TF stays is said of every instruction by `exec_outMeets`. -/
theorem singleStepEndsInTrap : Obligations.SingleStepEndsInTrap := by
  refine ⟨fun s bs i n hr htf hb hd => ?_, fun _ _ _ h hpopf hpopfd => exec_keeps_tf h hpopf hpopfd⟩
  have hstep : step s = singleStep true (exec i (s.begin n)) := htf ▸ step_of_fetch hr (fetch_of_bytesAt hb hd)
  refine ⟨fun t ht => ?_, fun f hf => ?_, fun q hq => ?_⟩
  · exact hstep.trans (congrArg _ ht)
  · exact hstep.trans (congrArg _ hf)
  · exact hstep.trans (congrArg _ hq)

/-- Settles O13: an exception is the instruction's own, or the trap's. -/
theorem exceptionsPrecise : Obligations.ExceptionsPrecise := by
  intro s c v info h
  obtain ⟨i, n, hf, hout⟩ := step_exception h
  refine ⟨i, n, hf, ?_⟩
  rcases singleStep_exception.mp hout with hexec | htrap
  · rcases raises_cases (raises_of_exec hexec) with hdiv | hint
    · exact .inl hdiv
    · exact .inr (.inl hint)
  · exact .inr (.inr htrap)

end Sys2Proof.Proofs
end

section
/-! What every instruction keeps, and where it may stop (spec/10_state.md R35, 20_memory.md R68, R75, R83): one rule per
operation that the instructions share, put together along the sequence of each instruction. -/

namespace Sys2Proof.Proofs

open Sys2Proof Sys2Proof.Machine Sys2Proof.Laws

/-! ### Values and stops of a part of an instruction -/

/-- The value that is answered, if one is, satisfies `P`; the stop, if it is one, satisfies `E`. -/
def Ends {α : Type} (E : Stop → Prop) (P : α → Prop) : Res α → Prop
  | .ok a => P a
  | .error e => E e

/-- The same of the outcome of a whole instruction. -/
def OutEnds (E : Stop → Prop) (P : State → Prop) : Outcome → Prop
  | .next t => P t
  | .fault f => E (.fault f)
  | .refused r => E (.refuse r)

/-- A part of which only the stops matter. -/
abbrev Stopping {α : Type} (E : Stop → Prop) (r : Res α) : Prop := Ends E (fun _ => True) r

/-- Where an instruction that runs in `s` may stop; `st` says whether it may store to memory. -/
def Stops (st : Bool) (s : State) : Stop → Prop
  | .fault (.exception _ _ _) => True
  | .fault (.memFault a k) => a < Config.addressSpace ∧ k ≠ .fetch ∧ (k = .read → s.readable a = false) ∧
      (k = .write → s.writable a = false)
  | .refuse r => r = .addressWrap ∨ (r = .storeIntoCode ∧ st = true)

/-- What no instruction changes: the environment, the canonical form of memory, and the bytes that may not be written. -/
structure Keeps (s t : State) : Prop where
  env : EnvSame s t
  canonical : Memory.wf s.mem = true → Memory.wf t.mem = true
  protects : ∀ a, s.writable a = false ∨ s.inCode a = true → Memory.get t.mem a = Memory.get s.mem a

/-- `t` keeps what no instruction changes, and its flags satisfy `F`. -/
structure Like (F : Eflags → Prop) (s t : State) : Prop where
  keeps : Keeps s t
  flags : F t.flags

theorem keeps_refl (s : State) : Keeps s s := ⟨envSame_refl s, id, fun _ _ => rfl⟩

theorem envSame_trans {s t u : State} (h : EnvSame s t) (h' : EnvSame t u) : EnvSame s u :=
  ⟨h'.segs.trans h.segs, h'.sys.trans h.sys, h'.cpl.trans h.cpl, h'.memMap.trans h.memMap, h'.code.trans h.code,
    h'.haltAddr.trans h.haltAddr, h'.ilen.trans h.ilen, h'.draws.trans h.draws⟩

/-- `Keeps` looks at the environment and memory only. -/
theorem Keeps.congr {s t u : State} (h : Keeps s t) (he : EnvSame t u) (hm : u.mem = t.mem) : Keeps s u :=
  ⟨envSame_trans h.env he, fun hw => hm ▸ h.canonical hw, fun a ha => hm ▸ h.protects a ha⟩

theorem envSame_readable {s t : State} (h : EnvSame s t) : t.readable = s.readable := by
  funext a; simp only [State.readable, h.memMap]

theorem envSame_writable {s t : State} (h : EnvSame s t) : t.writable = s.writable := by
  funext a; simp only [State.writable, h.memMap]

theorem envSame_inCode {s t : State} (h : EnvSame s t) : t.inCode = s.inCode := by
  funext a; simp only [State.inCode, h.code]

section Operations
variable {E : Stop → Prop} {st : Bool} {F : Eflags → Prop} {s₀ s : State}

theorem Ends.bind {α β : Type} {P : α → Prop} {Q : β → Prop} {x : Res α} {f : α → Res β} (hx : Ends E P x)
    (hf : ∀ a, P a → Ends E Q (f a)) : Ends E Q (x >>= f) :=
  match x, hx with
  | .ok a, hx => hf a hx
  | .error _, hx => hx

theorem Ends.mono {α : Type} {P Q : α → Prop} {x : Res α} (hx : Ends E P x) (h : ∀ a, P a → Q a) : Ends E Q x :=
  match x, hx with
  | .ok a, hx => h a hx
  | .error _, hx => hx

theorem outEnds_out {P : State → Prop} {r : Res State} (h : Ends E P r) : OutEnds E P (Res.out r) :=
  match r, h with
  | .ok _, h => h
  | .error (.fault _), h => h
  | .error (.refuse _), h => h

theorem ends_ite {α : Type} {P : α → Prop} {c : Prop} [Decidable c] {r r' : Res α} (hr : Ends E P r)
    (hr' : Ends E P r') : Ends E P (if c then r else r') := by
  split
  · exact hr
  · exact hr'

/-- A step of the state that touches neither the environment nor memory. -/
theorem Like.congr {t u : State} {G : Eflags → Prop} (h : Like F s₀ t) (he : EnvSame t u) (hm : u.mem = t.mem)
    (hf : G u.flags) : Like G s₀ u := ⟨h.keeps.congr he hm, hf⟩

/-- A step of the state that touches general registers or pc only. -/
theorem Like.same {t : State} (h : Like F s₀ t) (r : Regs) (p : Word) : Like F s₀ { t with regs := r, pc := p } :=
  h.congr ⟨rfl, rfl, rfl, rfl, rfl, rfl, rfl, rfl⟩ rfl h.flags

/-- The status flags may be replaced where they are left open. -/
theorem statusFree_withStatus {f g : Eflags} (h : StatusFree f g) (x : Status) : StatusFree f (g.withStatus x) := by
  unfold StatusFree at h ⊢
  rw [h]
  rfl

theorem Like.setStatus {t : State} (h : Like (StatusFree s₀.flags) s₀ t) (x : Status) :
    Like (StatusFree s₀.flags) s₀ (t.setStatus x) :=
  h.congr ⟨rfl, rfl, rfl, rfl, rfl, rfl, rfl, rfl⟩ rfl (statusFree_withStatus h.flags x)

/-! ### Checks -/

theorem ends_linear {seg : Seg} {off : Word} {n : Nat} :
    Ends (Stops st s₀) (fun a => a + n ≤ Config.addressSpace) (s.linear seg off n) := by
  unfold State.linear
  split
  · rename_i h
    simp only [State.inSpace, Bool.and_eq_true, decide_eq_true_eq] at h
    exact h.2
  · exact .inl rfl

theorem stopping_checkRead {a n : Nat} (h : EnvSame s₀ s) (ha : a + n ≤ Config.addressSpace) :
    Stopping (Stops st s₀) (s.checkRead a n) := by
  unfold State.checkRead
  split
  · trivial
  · rename_i b hb
    obtain ⟨-, hlt, hbad, -⟩ := firstBad_some hb
    rw [envSame_readable h] at hbad
    exact ⟨by omega, by decide, fun _ => hbad, nofun⟩

theorem ends_checkWrite {a n : Nat} (h : Like F s₀ s) (ha : a + n ≤ Config.addressSpace) :
    Ends (Stops st s₀) (fun _ => ∀ k < n, s₀.writable (a + k) = true) (s.checkWrite a n) := by
  rw [State.checkWrite, envSame_writable h.keeps.env]
  split
  · rename_i hb
    exact firstBad_none.mp hb
  · rename_i b hb
    obtain ⟨-, hlt, hbad, -⟩ := firstBad_some hb
    exact ⟨by omega, by decide, nofun, fun _ => hbad⟩

theorem ends_checkCode {a n : Nat} (h : Like F s₀ s) :
    Ends (Stops true s₀) (fun _ => ∀ k < n, s₀.inCode (a + k) = false) (s.checkCode a n) := by
  cases hc : s.checkCode a n with
  | ok u =>
    intro k hk
    rw [← envSame_inCode h.keeps.env]
    exact checkCode_ok.mp hc k hk
  | error e =>
    unfold State.checkCode at hc
    split at hc <;> cases hc
    exact .inr ⟨rfl, rfl⟩

/-! ### Memory, stack, operands -/

theorem stopping_memRead {seg : Seg} {off : Word} {z : Size} (h : EnvSame s₀ s) :
    Stopping (Stops st s₀) (s.memRead seg off z) :=
  ends_linear.bind fun _ ha => (stopping_checkRead h ha).bind fun _ _ => trivial

theorem stopping_readLoc {z : Size} {l : Loc} (h : EnvSame s₀ s) : Stopping (Stops st s₀) (s.readLoc z l) := by
  cases l with
  | reg g => trivial
  | mem seg off => exact stopping_memRead h

theorem stopping_readRM {z : Size} {e : RM} (h : EnvSame s₀ s) : Stopping (Stops st s₀) (s.readRM z e) :=
  stopping_readLoc h

theorem stopping_aluSrc (f : AluForm) (h : EnvSame s₀ s) : Stopping (Stops st s₀) (aluSrc s f) := by
  cases f with
  | regRm z g e => exact stopping_readRM h
  | rmReg | accImm | rmImm | rmImm8s => trivial

/-- A store to bytes that may be written and are not in `CODE`. -/
theorem Like.poke {a : Nat} {z : Size} (v : BitVec z.bits) (h : Like F s₀ s) (ha : a + z.bytes ≤ Config.addressSpace)
    (hw : ∀ k < z.bytes, s₀.writable (a + k) = true) (hc : ∀ k < z.bytes, s₀.inCode (a + k) = false) :
    Like F s₀ (s.poke a z v) := by
  have he : EnvSame s₀ (s.poke a z v) := envSame_trans h.keeps.env ⟨rfl, rfl, rfl, rfl, rfl, rfl, rfl, rfl⟩
  refine ⟨⟨he, fun hwf => wf_write _ ha (h.keeps.canonical hwf), fun b hb => ?_⟩, h.flags⟩
  refine (get_write_outside _ _ fun hin => ?_).trans (h.keeps.protects b hb)
  have hk : b - a < z.bytes := by omega
  have hsum : a + (b - a) = b := by omega
  have hwb := hw _ hk
  have hcb := hc _ hk
  rw [hsum] at hwb hcb
  simp [hwb, hcb] at hb

theorem ends_memWrite {seg : Seg} {off : Word} {z : Size} {v : BitVec z.bits} (h : Like F s₀ s) :
    Ends (Stops true s₀) (Like F s₀) (s.memWrite seg off z v) :=
  ends_linear.bind fun _ ha => (ends_checkWrite h ha).bind fun _ hw => (ends_checkCode h).bind fun _ hc =>
    h.poke v ha hw hc

theorem ends_writeLoc {z : Size} {l : Loc} {v : BitVec z.bits} (h : Like F s₀ s) :
    Ends (Stops true s₀) (Like F s₀) (s.writeLoc z l v) := by
  cases l with
  | reg g => exact h.same _ _
  | mem seg off => exact ends_memWrite h

theorem ends_push {z : Size} {v : BitVec z.bits} (h : Like F s₀ s) :
    Ends (Stops true s₀) (Like F s₀) (s.push z v) :=
  (ends_memWrite h).bind fun _ ht => ht.same _ _

theorem ends_pop {z : Size} (h : Like F s₀ s) : Ends (Stops st s₀) (fun p => Like F s₀ p.2) (s.pop z) :=
  (stopping_memRead h.keeps.env).bind fun _ _ => h.same _ _

/-! ### The program counter -/

theorem ends_advance (h : Like F s₀ s) : Ends (Stops st s₀) (Like F s₀) s.advance := by
  unfold State.advance
  split
  · exact h.same _ _
  · exact .inl rfl

theorem stopping_relTarget {rel : Word} : Stopping (Stops st s₀) (s.relTarget rel) := by
  unfold State.relTarget
  split
  · trivial
  · exact .inl rfl

theorem ends_branch {rel : Word} (h : Like F s₀ s) : Ends (Stops st s₀) (Like F s₀) (s.branch rel) :=
  stopping_relTarget.bind fun _ _ => h.same _ _

theorem ends_softInt {n : Byte} (h : Like F s₀ s) : Ends (Stops st s₀) (Like F s₀) (s.softInt n) :=
  (ends_advance h).bind fun _ _ => trivial

/-! ### The operations that several instructions share -/

/-- A store, whatever is done to the registers, pc or flags after it, and the advance. -/
theorem ends_writeLoc_advance {G : Eflags → Prop} {z : Size} {l : Loc} {v : BitVec z.bits} {u : State → State}
    (h : Like F s₀ s) (hu : ∀ t, Like F s₀ t → Like G s₀ (u t)) :
    Ends (Stops true s₀) (Like G s₀) (s.writeLoc z l v >>= fun t => (u t).advance) :=
  (ends_writeLoc h).bind fun t ht => ends_advance (hu t ht)

theorem ends_exchange {z : Size} {l : Loc} {g : GReg} (h : Like F s₀ s) :
    Ends (Stops true s₀) (Like F s₀) (exchange z l g s) :=
  (stopping_readLoc h.keeps.env).bind fun _ _ => ends_writeLoc_advance h fun _ ht => ht.same _ _

theorem ends_setByte {c : Cond} {e : RM} (h : Like F s₀ s) : Ends (Stops true s₀) (Like F s₀) (setByte c e s) :=
  ends_writeLoc_advance h fun _ ht => ht

theorem ends_jumpIf {c : Cond} {d : Rel} (h : Like F s₀ s) : Ends (Stops st s₀) (Like F s₀) (jumpIf c d s) :=
  ends_ite (ends_branch h) (ends_advance h)

theorem ends_loopWhile {c : Bool} {d : Byte} (h : Like F s₀ s) :
    Ends (Stops st s₀) (Like F s₀) (loopWhile c d s) :=
  ends_ite (ends_branch (h.same _ _)) (ends_advance (h.same _ _))

section Status
variable (h : Like (StatusFree s₀.flags) s₀ s)
include h

theorem ends_aluWrite {f : AluForm}
    {op : BitVec (aluSize f).bits → BitVec (aluSize f).bits → BitVec (aluSize f).bits × Status} :
    Ends (Stops true s₀) (Like (StatusFree s₀.flags) s₀) (aluWrite f op s) :=
  (stopping_readLoc h.keeps.env).bind fun _ _ => (stopping_aluSrc f h.keeps.env).bind fun _ _ =>
    ends_writeLoc_advance h fun _ ht => ht.setStatus _

theorem ends_incDec {f : IncForm} {op : BitVec (incSize f).bits → BitVec (incSize f).bits × Status} :
    Ends (Stops true s₀) (Like (StatusFree s₀.flags) s₀) (incDec f op s) :=
  (stopping_readLoc h.keeps.env).bind fun _ _ => ends_writeLoc_advance h fun t ht =>
    ht.setStatus { (op _).2 with cf := t.flags.cf }

theorem ends_mulInto {z : Size} {g : GReg} {x y : BitVec z.bits} :
    Ends (Stops st s₀) (Like (StatusFree s₀.flags) s₀) (mulInto z g x y s) :=
  ends_advance ((h.same _ _).setStatus _)

theorem ends_testBits {z : Size} {x y : BitVec z.bits} :
    Ends (Stops st s₀) (Like (StatusFree s₀.flags) s₀) (testBits z x y s) := ends_advance (h.setStatus _)

theorem ends_bitModify {f : BitForm} {upd : BitVec (bitSize f).bits → Nat → BitVec (bitSize f).bits} :
    Ends (Stops true s₀) (Like (StatusFree s₀.flags) s₀) (bitModify f upd s) :=
  (stopping_readLoc h.keeps.env).bind fun _ _ => ends_writeLoc_advance h fun _ ht => ht.setStatus _

theorem ends_scanInto {z : Size} {g : GReg} (r : Option Nat) :
    Ends (Stops st s₀) (Like (StatusFree s₀.flags) s₀) (scanInto z g r s) := by
  cases r <;> exact ends_advance ((h.same _ _).setStatus _)

theorem ends_shiftBy {z : Size} {e : RM} {c : Count}
    {op : BitVec z.bits → Nat → (Nat → Bool) → BitVec z.bits × Status} :
    Ends (Stops true s₀) (Like (StatusFree s₀.flags) s₀) (shiftBy z e c op s) :=
  (stopping_readRM h.keeps.env).bind fun _ _ => ends_ite (ends_advance h) (ends_writeLoc_advance h fun _ ht => ht.setStatus _)

theorem ends_doubleShift {v : VSize} {e : RM} {g : GReg} {c : DCount}
    {op : BitVec v.size.bits → BitVec v.size.bits → Nat → BitVec v.size.bits → (Nat → Bool) →
      BitVec v.size.bits × Status} :
    Ends (Stops true s₀) (Like (StatusFree s₀.flags) s₀) (doubleShift v e g c op s) :=
  (stopping_readRM h.keeps.env).bind fun _ _ => ends_ite (ends_advance h) (ends_writeLoc_advance h fun _ ht => ht.setStatus _)

/-- A rotate writes CF and OF, two of the status flags. -/
theorem ends_rotateBy {z : Size} {e : RM} {c : Count}
    {op : BitVec z.bits → Bool → Nat → (Nat → Bool) → BitVec z.bits × Bool × Bool} :
    Ends (Stops true s₀) (Like (StatusFree s₀.flags) s₀) (rotateBy z e c op s) :=
  (stopping_readRM h.keeps.env).bind fun a _ => ends_ite (ends_advance h) (ends_writeLoc_advance h fun t ht =>
    ht.setStatus ⟨(op a s.flags.cf (maskCount (s.count c)) s.undefBit).2.1, t.flags.pf, t.flags.af, t.flags.zf,
      t.flags.sf, (op a s.flags.cf (maskCount (s.count c)) s.undefBit).2.2⟩)

theorem ends_asciiResult {r : Byte × Byte × Bool} :
    Ends (Stops st s₀) (Like (StatusFree s₀.flags) s₀) (asciiResult s r) :=
  ends_advance (((h.same _ _).same _ _).setStatus _)

theorem ends_packedResult {r : Byte × Status} :
    Ends (Stops st s₀) (Like (StatusFree s₀.flags) s₀) (packedResult s r) :=
  ends_advance ((h.same _ _).setStatus _)

end Status

/-! ### Strings -/

theorem ends_strMovs {z : Size} {o : Option Seg} (h : Like F s₀ s) :
    Ends (Stops true s₀) (Like F s₀) (strMovs z o s) :=
  (stopping_memRead h.keeps.env).bind fun _ _ => (ends_memWrite h).bind fun _ ht => (ht.same _ _).same _ _

theorem ends_strCmps {z : Size} {o : Option Seg} (h : Like (StatusFree s₀.flags) s₀ s) :
    Ends (Stops st s₀) (Like (StatusFree s₀.flags) s₀) (strCmps z o s) :=
  (stopping_memRead h.keeps.env).bind fun _ _ => (stopping_memRead h.keeps.env).bind fun _ _ => ((h.setStatus _).same _ _).same _ _

theorem ends_strScas {z : Size} (h : Like (StatusFree s₀.flags) s₀ s) :
    Ends (Stops st s₀) (Like (StatusFree s₀.flags) s₀) (strScas z s) :=
  (stopping_memRead h.keeps.env).bind fun _ _ => (h.setStatus _).same _ _

theorem ends_strLods {z : Size} {o : Option Seg} (h : Like F s₀ s) :
    Ends (Stops st s₀) (Like F s₀) (strLods z o s) :=
  (stopping_memRead h.keeps.env).bind fun _ _ => (h.same _ _).same _ _

theorem ends_strStos {z : Size} (h : Like F s₀ s) : Ends (Stops true s₀) (Like F s₀) (strStos z s) :=
  (ends_memWrite h).bind fun _ ht => ht.same _ _

theorem ends_strMove (p : StrMove) (h : Like F s₀ s) : Ends (Stops true s₀) (Like F s₀) (strMove p s) := by
  cases p with
  | movs => exact ends_strMovs h
  | lods => exact ends_strLods h
  | stos => exact ends_strStos h

theorem ends_strCmp (p : StrCmp) (h : Like (StatusFree s₀.flags) s₀ s) :
    Ends (Stops st s₀) (Like (StatusFree s₀.flags) s₀) (strCmp p s) := by
  cases p with
  | cmps => exact ends_strCmps h
  | scas => exact ends_strScas h

theorem ends_repeatOnce {prim : State → Res State} {stop : Eflags → Bool} (h : Like F s₀ s)
    (hp : Ends (Stops st s₀) (Like F s₀) (prim s)) : Ends (Stops st s₀) (Like F s₀) (repeatOnce prim stop s) :=
  ends_ite (ends_advance h) (hp.bind fun _ ht => ends_ite (ends_advance (ht.same _ _)) (ht.same _ _))

end Operations

/-! ### ENTER: pushes whose addresses are checked after all of them -/

/-- `t` differs from `s` in general registers and in the doublewords at the addresses pushed to, all below the top. -/
structure Pushes (s t : State) (as : List Nat) : Prop where
  env : EnvSame s t
  flags : t.flags = s.flags
  pc : t.pc = s.pc
  below : ∀ a ∈ as, a + 4 ≤ Config.addressSpace
  canonical : Memory.wf s.mem = true → Memory.wf t.mem = true
  outside : ∀ b, (∀ a ∈ as, ¬(a ≤ b ∧ b < a + 4)) → Memory.get t.mem b = Memory.get s.mem b

theorem pushes_refl (s : State) : Pushes s s [] := ⟨envSame_refl s, rfl, rfl, nofun, id, fun _ _ => rfl⟩

theorem Pushes.trans {s t u : State} {as bs : List Nat} (h : Pushes s t as) (h' : Pushes t u bs) :
    Pushes s u (as ++ bs) := by
  refine ⟨envSame_trans h.env h'.env, h'.flags.trans h.flags, h'.pc.trans h.pc, fun a ha => ?_,
    fun hw => h'.canonical (h.canonical hw), fun b hb => ?_⟩
  · rcases List.mem_append.mp ha with ha | ha
    · exact h.below a ha
    · exact h'.below a ha
  · exact (h'.outside b fun a ha => hb a (List.mem_append_right _ ha)).trans
      (h.outside b fun a ha => hb a (List.mem_append_left _ ha))

section Enter
variable {st : Bool} {s₀ s : State}

theorem ends_pushRaw {v : Word} : Ends (Stops st s₀) (fun p => Pushes s p.1 [p.2]) (s.pushRaw v) :=
  ends_linear.bind fun a ha => ⟨⟨rfl, rfl, rfl, rfl, rfl, rfl, rfl, rfl⟩, rfl, rfl, by simpa using ha, wf_write _ ha,
    fun _ hb => get_write_outside _ _ (hb a (List.mem_singleton_self a))⟩

theorem ends_copyDisplay (n : Nat) (t : Word) (h : EnvSame s₀ s) :
    Ends (Stops st s₀) (fun p => Pushes s p.1 p.2) (copyDisplay n t s) := by
  induction n generalizing t s with
  | zero => exact pushes_refl s
  | succ n ih =>
    exact (stopping_memRead h).bind fun _ _ => ends_pushRaw.bind fun _ h1 =>
      (ih _ (envSame_trans h h1.env)).bind fun _ h2 => h1.trans h2

theorem ends_enterPushes (level : Nat) (h : EnvSame s₀ s) :
    Ends (Stops st s₀) (fun p => Pushes s p.1 p.2) (enterPushes level s) :=
  ends_pushRaw.bind fun _ h1 => ends_ite h1
    ((ends_copyDisplay _ _ (envSame_trans h h1.env)).bind fun _ h2 => ends_pushRaw.bind fun _ h3 =>
      h1.trans (h2.trans h3))

theorem ends_checkWrites {as : List Nat} (ha : ∀ a ∈ as, a + 4 ≤ Config.addressSpace) :
    Ends (Stops st s) (fun _ => ∀ a ∈ as, ∀ k < 4, s.writable (a + k) = true) (s.checkWrites as) := by
  induction as with
  | nil => exact nofun
  | cons a as ih =>
    obtain ⟨h0, hs⟩ := List.forall_mem_cons.mp ha
    exact (ends_checkWrite (F := fun _ => True) ⟨keeps_refl s, trivial⟩ h0).bind fun _ hw =>
      (ih hs).mono fun _ hws => List.forall_mem_cons.mpr ⟨hw, hws⟩

theorem ends_checkCodes {as : List Nat} :
    Ends (Stops true s) (fun _ => ∀ a ∈ as, ∀ k < 4, s.inCode (a + k) = false) (s.checkCodes as) := by
  induction as with
  | nil => exact nofun
  | cons a as ih =>
    exact (ends_checkCode (F := fun _ => True) ⟨keeps_refl s, trivial⟩).bind fun _ hc =>
      ih.mono fun _ hcs => List.forall_mem_cons.mpr ⟨hc, hcs⟩

/-- Pushes to bytes that may be written and are not in `CODE` keep the others. -/
theorem Pushes.like {t : State} {as : List Nat} (h : Pushes s t as)
    (hw : ∀ a ∈ as, ∀ k < 4, s.writable (a + k) = true) (hc : ∀ a ∈ as, ∀ k < 4, s.inCode (a + k) = false) :
    Like (· = s.flags) s t := by
  refine ⟨⟨h.env, h.canonical, fun b hb => h.outside b fun a ha hin => ?_⟩, h.flags⟩
  have hwb := hw a ha (b - a) (by omega)
  have hcb := hc a ha (b - a) (by omega)
  rw [show a + (b - a) = b by omega] at hwb hcb
  simp [hwb, hcb] at hb

theorem outEnds_execEnter {size : BitVec 16} {lvl : Byte} :
    OutEnds (Stops true s) (Like (· = s.flags) s) (execEnter size lvl s) :=
  outEnds_out ((ends_enterPushes _ (envSame_refl s)).bind fun _ hp => (ends_checkWrites hp.below).bind fun _ hw =>
    ends_checkCodes.bind fun _ hc => ends_advance ((hp.like hw hc).same _ _))

end Enter

/-! ### The instructions with several forms -/

section Forms
variable {st : Bool} {F : Eflags → Prop} {s : State}

theorem outEnds_execMov (f : MovForm) (h : Like F s s) : OutEnds (Stops true s) (Like F s) (execMov f s) := by
  cases f with
  | rmReg | rmImm => exact outEnds_out (ends_writeLoc_advance h fun _ ht => ht)
  | regRm => exact outEnds_out ((stopping_readRM h.keeps.env).bind fun _ _ => ends_advance (h.same _ _))
  | regImm => exact outEnds_out (ends_advance (h.same _ _))
  | accMoffs => exact outEnds_out ((stopping_memRead h.keeps.env).bind fun _ _ => ends_advance (h.same _ _))
  | moffsAcc => exact outEnds_out ((ends_memWrite h).bind fun _ ht => ends_advance ht)

theorem outEnds_execXchg (f : XchgForm) (h : Like F s s) : OutEnds (Stops true s) (Like F s) (execXchg f s) := by
  cases f <;> exact outEnds_out (ends_exchange h)

theorem outEnds_execPush (f : PushForm) (h : Like F s s) : OutEnds (Stops true s) (Like F s) (execPush f s) := by
  cases f with
  | rm =>
    exact outEnds_out ((stopping_readRM h.keeps.env).bind fun _ _ => (ends_push h).bind fun _ ht => ends_advance ht)
  | reg | imm | imm8s => exact outEnds_out ((ends_push h).bind fun _ ht => ends_advance ht)

theorem outEnds_execPop (f : PopForm) (h : Like F s s) : OutEnds (Stops true s) (Like F s) (execPop f s) := by
  cases f with
  | reg => exact outEnds_out ((ends_pop h).bind fun _ ht => ends_advance (ht.same _ _))
  | rm => exact outEnds_out ((ends_pop h).bind fun _ ht => ends_writeLoc_advance ht fun _ hu => hu)

theorem outEnds_execMovsx (f : ExtForm) (h : Like F s s) : OutEnds (Stops st s) (Like F s) (execMovsx f s) := by
  cases f <;> exact outEnds_out ((stopping_readRM h.keeps.env).bind fun _ _ => ends_advance (h.same _ _))

theorem outEnds_execMovzx (f : ExtForm) (h : Like F s s) : OutEnds (Stops st s) (Like F s) (execMovzx f s) := by
  cases f <;> exact outEnds_out ((stopping_readRM h.keeps.env).bind fun _ _ => ends_advance (h.same _ _))

theorem outEnds_execTest (f : TestForm) (h : Like (StatusFree s.flags) s s) :
    OutEnds (Stops st s) (Like (StatusFree s.flags) s) (execTest f s) := by
  cases f with
  | accImm => exact outEnds_out (ends_testBits h)
  | rmReg | rmImm => exact outEnds_out ((stopping_readRM h.keeps.env).bind fun _ _ => ends_testBits h)

theorem outEnds_execImul3 (f : Imul3Form) (h : Like (StatusFree s.flags) s s) :
    OutEnds (Stops st s) (Like (StatusFree s.flags) s) (execImul3 f s) := by
  cases f <;> exact outEnds_out ((stopping_readRM h.keeps.env).bind fun _ _ => ends_mulInto h)

end Forms

/-! ### Every instruction -/

/-- The flags that an instruction may leave, when it runs in `s` (10_state.md R35, 48_flag_control.md R429). -/
def FlagsMay (s : State) (i : Instr) (f : Eflags) : Prop :=
  match i with
  | .popf | .popfd => ∃ img, f = s.flags.load s.cpl img
  | .cld | .std => f = { s.flags with df := f.df }
  | i => match leavesFlags i with
    | true => f = s.flags
    | false => StatusFree s.flags f

/-- An instruction that is not out of scope keeps what no instruction changes, leaves flags that it may leave, and stops
where it may stop. -/
theorem exec_outEnds (i : Instr) (s : State) (hi : refusalOf i = none) :
    OutEnds (Stops (!storesNothing i) s) (Like (FlagsMay s i) s) (exec i s) := by
  have h : Like (· = s.flags) s s := ⟨keeps_refl s, rfl⟩
  have hf : Like (StatusFree s.flags) s s := ⟨keeps_refl s, rfl⟩
  have he : EnvSame s s := envSame_refl s
  cases i with
  | add | or | adc | sbb | and | sub | xor => exact outEnds_out (ends_aluWrite hf)
  | cmp f =>
    exact outEnds_out ((stopping_readLoc he).bind fun _ _ => (stopping_aluSrc f he).bind fun _ _ =>
      ends_advance (hf.setStatus _))
  | inc | dec => exact outEnds_out (ends_incDec hf)
  | neg =>
    exact outEnds_out ((stopping_readRM he).bind fun _ _ => ends_writeLoc_advance hf fun _ ht => ht.setStatus _)
  | not => exact outEnds_out ((stopping_readRM he).bind fun _ _ => ends_writeLoc_advance h fun _ ht => ht)
  | test f => exact outEnds_execTest f hf
  | mul | imul1 =>
    exact outEnds_out ((stopping_readRM he).bind fun _ _ => ends_advance ((hf.same _ _).setStatus _))
  | imul2 => exact outEnds_out ((stopping_readRM he).bind fun _ _ => ends_mulInto hf)
  | imul3 f => exact outEnds_execImul3 f hf
  | div | idiv =>
    exact outEnds_out ((stopping_readRM he).bind fun _ _ => ends_ite trivial (ends_ite trivial
      (ends_advance ((hf.same _ _).setStatus _))))
  | mov f => exact outEnds_execMov f h
  | xchg f => exact outEnds_execXchg f h
  | push f => exact outEnds_execPush f h
  | pop f => exact outEnds_execPop f h
  | movsx f => exact outEnds_execMovsx f h
  | movzx f => exact outEnds_execMovzx f h
  | daa | das => exact outEnds_out (ends_packedResult hf)
  | aaa | aas => exact outEnds_out (ends_asciiResult hf)
  | cbw | cwde | cwd | cdq | lahf | lea => exact outEnds_out (ends_advance (h.same _ _))
  | clc | stc | cmc | sahf =>
    exact outEnds_out (ends_advance (hf.congr ⟨rfl, rfl, rfl, rfl, rfl, rfl, rfl, rfl⟩ rfl rfl))
  | cld | std => exact outEnds_out (ends_advance (h.congr ⟨rfl, rfl, rfl, rfl, rfl, rfl, rfl, rfl⟩ rfl rfl))
  | wait | nop => exact outEnds_out (ends_advance h)
  | bt => exact outEnds_out ((stopping_readLoc he).bind fun _ _ => ends_advance (hf.setStatus _))
  | bts | btr | btc => exact outEnds_out (ends_bitModify hf)
  | bsf | bsr => exact outEnds_out ((stopping_readRM he).bind fun _ _ => ends_scanInto hf _)
  | seto | setno | setb | setae | sete | setne | setbe | seta | sets | setns | setp | setnp | setl | setge | setle
  | setg => exact outEnds_out (ends_setByte h)
  | rol | ror | rcl | rcr => exact outEnds_out (ends_rotateBy hf)
  | shl | shr | sar => exact outEnds_out (ends_shiftBy hf)
  | shld | shrd => exact outEnds_out (ends_doubleShift hf)
  | jmpRel => exact outEnds_out (ends_branch h)
  | jmpInd => exact outEnds_out ((stopping_readRM he).bind fun _ _ => h.same _ _)
  | jo | jno | jb | jae | je | jne | jbe | ja | js | jns | jp | jnp | jl | jge | jle | jg =>
    exact outEnds_out (ends_jumpIf h)
  | callRel => exact outEnds_out (stopping_relTarget.bind fun _ _ => (ends_push h).bind fun _ ht => ht.same _ _)
  | callInd =>
    exact outEnds_out ((stopping_readRM he).bind fun _ _ => (ends_push h).bind fun _ ht => ht.same _ _)
  | ret | retImm => exact outEnds_out ((ends_pop h).bind fun _ ht => ht.same _ _)
  | loop | loope | loopne => exact outEnds_out (ends_loopWhile h)
  | jecxz => exact outEnds_out (ends_ite (ends_branch h) (ends_advance h))
  | int | int3 => exact outEnds_out (ends_softInt hf)
  | into => exact outEnds_out (ends_ite (ends_softInt h) (ends_advance h))
  | movsb | movsd => exact outEnds_out ((ends_strMovs h).bind fun _ ht => ends_advance ht)
  | cmpsb | cmpsd => exact outEnds_out ((ends_strCmps hf).bind fun _ ht => ends_advance ht)
  | stosb | stosd => exact outEnds_out ((ends_strStos h).bind fun _ ht => ends_advance ht)
  | lodsb | lodsd => exact outEnds_out ((ends_strLods h).bind fun _ ht => ends_advance ht)
  | scasb | scasd => exact outEnds_out ((ends_strScas hf).bind fun _ ht => ends_advance ht)
  | rep p => exact outEnds_out (ends_repeatOnce h (ends_strMove p h))
  | repe p | repne p => exact outEnds_out (ends_repeatOnce hf (ends_strCmp p hf))
  | enter => exact outEnds_execEnter
  | leave => exact outEnds_out ((stopping_memRead he).bind fun _ _ => ends_advance (h.same _ _))
  | pushf | pushfd => exact outEnds_out ((ends_push h).bind fun _ ht => ends_advance ht)
  | popf | popfd =>
    exact outEnds_out ((ends_pop h).bind fun p hp => ends_advance (hp.congr ⟨rfl, rfl, rfl, rfl, rfl, rfl, rfl, rfl⟩ rfl
      ⟨_, by rw [hp.flags, hp.keeps.env.cpl]⟩))
  | xlat => exact outEnds_out ((stopping_memRead he).bind fun _ _ => ends_advance (h.same _ _))
  | pushSeg | popSeg | movSeg | les | lds | lss | lfs | lgs | callFar | jmpFar | retFar | arpl | sldt | str | lldt | ltr
  | verr | verw | sgdt | sidt | lgdt | lidt | smsw | lmsw | lar | lsl | clts | movSys | iret | cli | sti | hlt | inPort
  | outPort | insb | insd | outsb | outsd | pusha | popa | bound | aam | aad | esc | aliasOf80 | undocumented
  | undefined | prefixEs | prefixCs | prefixSs | prefixDs | prefixFs | prefixGs | opsize | addrsize | lock | repMisused
  | repneMisused => nomatch hi

/-- An instruction that is out of scope is refused with its reason, in every state. -/
theorem exec_refused {i : Instr} {r : Refusal} (h : refusalOf i = some r) (s : State) : exec i s = .refused r := by
  unfold refusalOf at h
  split at h <;> cases h <;> rfl

/-- A next state is that of an instruction in scope, which keeps what no instruction changes. -/
theorem like_of_exec {i : Instr} {s t : State} (h : exec i s = .next t) : Like (FlagsMay s i) s t := by
  cases hi : refusalOf i with
  | none =>
    have hall := exec_outEnds i s hi
    rwa [h] at hall
  | some r => rw [exec_refused hi s] at h; cases h

/-- A stop by a fault is one of those that `Stops` admits. -/
theorem stops_of_exec_fault {i : Instr} {s : State} {f : Fault} (h : exec i s = .fault f) :
    Stops (!storesNothing i) s (.fault f) := by
  cases hi : refusalOf i with
  | none =>
    have hall := exec_outEnds i s hi
    rwa [h] at hall
  | some r => rw [exec_refused hi s] at h; cases h

/-- Settles O60: a table of refusals, and for the others the stops that their operations have. -/
theorem refusalsHaveSpecReason : Obligations.RefusalsHaveSpecReason := by
  refine ⟨fun i r s h => exec_refused h s, fun i r s hi h => ?_⟩
  have hall := exec_outEnds i s hi
  rw [h] at hall
  simpa [OutEnds, Stops] using hall

/-! ### The flags -/

theorem flagsMay_leaves {i : Instr} {s : State} {f : Eflags} (hl : leavesFlags i = true) (h : FlagsMay s i f) :
    f = s.flags := by
  unfold FlagsMay at h
  split at h
  · cases hl
  · cases hl
  · cases hl
  · cases hl
  · rwa [hl] at h

/-- Only CLD, STD, POPF and POPFD write flags beside the status flags. -/
theorem flagsMay_cases {i : Instr} {s : State} {f : Eflags} (h : FlagsMay s i f) :
    ((i = .popf ∨ i = .popfd) ∧ ∃ img, f = s.flags.load s.cpl img) ∨
      ((i = .cld ∨ i = .std) ∧ f = { s.flags with df := f.df }) ∨ StatusFree s.flags f := by
  unfold FlagsMay at h
  split at h
  · exact .inl ⟨.inl rfl, h⟩
  · exact .inl ⟨.inr rfl, h⟩
  · exact .inr (.inl ⟨.inl rfl, h⟩)
  · exact .inr (.inl ⟨.inr rfl, h⟩)
  · split at h
    · exact .inr (.inr (h ▸ rfl))
    · exact .inr (.inr h)

/-- Settles O18: the flags an instruction may leave, by what it writes. -/
theorem flagsChangeOnlyUnderTheirWriters : Obligations.FlagsChangeOnlyUnderTheirWriters := by
  intro i s t h
  have hf := (like_of_exec h).flags
  refine ⟨fun hl => flagsMay_leaves hl hf, ?_⟩
  rcases flagsMay_cases hf with ⟨hi, -⟩ | ⟨hi, heq⟩ | hfree
  · exact ⟨fun _ => .inr (.inr hi), fun _ => hi⟩
  · refine ⟨fun _ => hi.elim .inl (.inr ∘ .inl), fun hne => absurd hne ?_⟩
    rw [heq]
    simp
  · unfold StatusFree at hfree
    rw [hfree]
    simp

/-- RF and VM stay; IOPL may change at CPL 0 only, and IF only where CPL is at most IOPL (R429). -/
theorem flagsMay_system {i : Instr} {s : State} {f : Eflags} (h : FlagsMay s i f) :
    f.rf = s.flags.rf ∧ f.vm = s.flags.vm ∧ (s.cpl ≠ 0#2 → f.iopl = s.flags.iopl) ∧
      (¬s.cpl ≤ s.flags.iopl → f.ifl = s.flags.ifl) := by
  rcases flagsMay_cases h with ⟨-, img, rfl⟩ | ⟨-, heq⟩ | hfree
  · exact ⟨rfl, rfl, fun hc => if_neg hc, fun hc => if_neg hc⟩
  · rw [heq]
    exact ⟨rfl, rfl, fun _ => rfl, fun _ => rfl⟩
  · unfold StatusFree at hfree
    rw [hfree]
    exact ⟨rfl, rfl, fun _ => rfl, fun _ => rfl⟩

end Sys2Proof.Proofs
end

section
/-! What every step keeps, and every run from a launched state (spec/20_memory.md R75, R83, 70_reset_and_hazards.md R551,
R561). -/

namespace Sys2Proof.Proofs

open Sys2Proof Sys2Proof.Machine Sys2Proof.Laws

/-- A step that answers a next state stands at the end of the run, or has run an instruction. -/
theorem step_next {s t : State} (h : step s = .next t) :
    t = s ∨ ∃ i n, s.fetch = .ok (i, n) ∧ exec i (s.begin n) = .next t := by
  unfold step at h
  split at h
  · cases h; exact .inl rfl
  · split at h
    · cases h
    · split at h
      · cases h
      · cases h
      · rename_i i n hf
        exact .inr ⟨i, n, hf, (singleStep_next.mp h).2⟩

/-- What a step keeps: as an instruction, but for the model's own two counters. -/
structure StepKeeps (s t : State) : Prop where
  segs : t.segs = s.segs
  sys : t.sys = s.sys
  cpl : t.cpl = s.cpl
  memMap : t.memMap = s.memMap
  code : t.code = s.code
  haltAddr : t.haltAddr = s.haltAddr
  rf : t.flags.rf = s.flags.rf
  vm : t.flags.vm = s.flags.vm
  iopl : s.cpl ≠ 0#2 → t.flags.iopl = s.flags.iopl
  ifl : ¬s.cpl ≤ s.flags.iopl → t.flags.ifl = s.flags.ifl
  canonical : Memory.wf s.mem = true → Memory.wf t.mem = true
  protects : ∀ a, s.writable a = false ∨ s.inCode a = true → Memory.get t.mem a = Memory.get s.mem a

theorem step_keeps {s t : State} (h : step s = .next t) : StepKeeps s t := by
  rcases step_next h with rfl | ⟨i, n, -, hexec⟩
  · exact ⟨rfl, rfl, rfl, rfl, rfl, rfl, rfl, rfl, fun _ => rfl, fun _ => rfl, id, fun _ _ => rfl⟩
  · obtain ⟨⟨henv, hwf, hmem⟩, hf⟩ := like_of_exec hexec
    obtain ⟨hrf, hvm, hiopl, hifl⟩ := flagsMay_system hf
    exact ⟨henv.segs, henv.sys, henv.cpl, henv.memMap, henv.code, henv.haltAddr, hrf, hvm, hiopl, hifl, hwf, hmem⟩

theorem StepKeeps.modeAdmitted {s t : State} (h : StepKeeps s t) : t.modeAdmitted = s.modeAdmitted := by
  simp only [State.modeAdmitted, h.sys, h.vm, h.segs]

/-- Settles O15. -/
theorem stepKeepsMemoryCanonical : Obligations.StepKeepsMemoryCanonical :=
  fun _ _ hwf h => (step_keeps h).canonical hwf

/-- Settles O16. -/
theorem stepKeepsEnvironment : Obligations.StepKeepsEnvironment := by
  intro s t h
  have hk := step_keeps h
  exact ⟨hk.segs, hk.sys, hk.cpl, hk.memMap, hk.code, hk.haltAddr, hk.rf, hk.vm, fun hm => hk.modeAdmitted.trans hm⟩

/-- Settles O17. -/
theorem protectedBytesConstant : Obligations.ProtectedBytesConstant :=
  fun _ _ a h ha => (step_keeps h).protects a ha

/-! ### Memory faults -/

/-- A byte that cannot be fetched lies below the top and is not readable, where its fetch is a memory fault. -/
theorem window_memFault {s : State} {k n a : Nat} {kind : AccessKind}
    (h : (s.window k n).2 = .fault (.memFault a kind)) :
    a < Config.addressSpace ∧ s.readable a = false := by
  induction n generalizing k with
  | zero => simp [State.window] at h
  | succ n ih =>
    rw [State.window] at h
    cases hb : s.fetchByte k with
    | ok b => rw [hb] at h; exact ih h
    | error e =>
      rw [hb] at h
      dsimp only at h
      subst h
      unfold State.fetchByte at hb
      split at hb
      · rename_i htop
        split at hb
        · cases hb
        · rename_i hr
          cases hb
          exact ⟨htop.2, by simpa using hr⟩
      · cases hb

theorem fetch_memFault {s : State} {a : Nat} {kind : AccessKind} (h : s.fetch = .error (.fault (.memFault a kind))) :
    a < Config.addressSpace ∧ s.readable a = false := by
  unfold State.fetch at h
  split at h
  rename_i bs e hw
  split at h
  · cases h
  · cases h
    exact window_memFault (k := 0) (n := 15) (by rw [hw])

/-- The single-step trap reports no memory fault of its own. -/
theorem singleStep_memFault {tf : Bool} {o : Outcome} {a : Nat} {k : AccessKind} :
    singleStep tf o = .fault (.memFault a k) ↔ o = .fault (.memFault a k) := by
  cases o with
  | next t => cases tf <;> simp [singleStep]
  | fault f => simp [singleStep]
  | refused r => simp [singleStep]

/-- Settles O14: the stops of the instructions, and those of the fetch. -/
theorem memFaultAddress : Obligations.MemFaultAddress := by
  refine ⟨fun i s a k h => stops_of_exec_fault h, fun s a h => ?_⟩
  unfold step at h
  split at h
  · cases h
  · split at h
    · cases h
    · split at h
      · rename_i f hf
        cases h
        exact fetch_memFault hf
      · cases h
      · exact absurd rfl (stops_of_exec_fault (singleStep_memFault.mp h)).2.1

/-! ### Runs from a launched state -/

/-- What the state has along a run, of the state that the run began in. -/
structure RunKeeps (p : LaunchParams) (s t : State) : Prop where
  segs : t.segs = s.segs
  sys : t.sys = s.sys
  cpl : t.cpl = p.cpl
  memMap : t.memMap = s.memMap
  code : t.code = s.code
  haltAddr : t.haltAddr = s.haltAddr
  rf : t.flags.rf = false
  vm : t.flags.vm = false
  iopl : p.cpl ≠ 0#2 → t.flags.iopl = p.iopl0
  ifl : p.iopl0.toNat < p.cpl.toNat → t.flags.ifl = true
  mode : t.modeAdmitted = true
  canonical : Memory.wf t.mem = true
  codeBytes : ∀ a, s.inCode a = true → Memory.get t.mem a = Memory.get s.mem a

theorem runKeeps_start {p : LaunchParams} {s : State} (h : Launched p s) : RunKeeps p s s := by
  obtain ⟨hvm, hrf, -, -, hif⟩ := h.flags
  obtain ⟨hiopl, hcpl⟩ := h.level
  exact ⟨rfl, rfl, hcpl, rfl, rfl, rfl, hrf, hvm, fun _ => hiopl, fun _ => hif, h.mode, h.memory, fun _ _ => rfl⟩

/-- CPL above `IOPL0` is not 0, so IOPL is `IOPL0` and POPF does not reach IF. -/
theorem RunKeeps.step {p : LaunchParams} {s t u : State} (h : RunKeeps p s t) (hk : StepKeeps t u) :
    RunKeeps p s u where
  segs := hk.segs.trans h.segs
  sys := hk.sys.trans h.sys
  cpl := hk.cpl.trans h.cpl
  memMap := hk.memMap.trans h.memMap
  code := hk.code.trans h.code
  haltAddr := hk.haltAddr.trans h.haltAddr
  rf := hk.rf.trans h.rf
  vm := hk.vm.trans h.vm
  iopl hc := (hk.iopl (h.cpl ▸ hc)).trans (h.iopl hc)
  ifl hlt := by
    have hc : p.cpl ≠ 0#2 := by rintro h0; simp [h0] at hlt
    have hle : ¬t.cpl ≤ t.flags.iopl := by rw [h.cpl, h.iopl hc, BitVec.le_def]; omega
    exact (hk.ifl hle).trans (h.ifl hlt)
  mode := hk.modeAdmitted.trans h.mode
  canonical := hk.canonical h.canonical
  codeBytes a ha := by
    have hat : t.inCode a = true := by simpa only [State.inCode, h.code] using ha
    exact (hk.protects a (.inr hat)).trans (h.codeBytes a ha)

theorem reaches_runKeeps {p : LaunchParams} {s t : State} (h : Launched p s) (hr : Reaches s t) : RunKeeps p s t := by
  induction hr with
  | start => exact runKeeps_start h
  | step _ hstep ih => exact ih.step (step_keeps hstep)

/-- With the flat segments of a launch the linear address of a fetch is pc. -/
theorem la_cs_of_launched {p : LaunchParams} {s t : State} (h : Launched p s) (hsegs : t.segs = s.segs) :
    t.la .cs t.pc = t.pc := by
  rw [State.la, hsegs, (h.flat .cs).1, BitVec.zero_add]

/-- Where pc is at an instruction of the program, its bytes stand there as at the launch and can be fetched. -/
theorem bytesAt_of_runKeeps {p : LaunchParams} {s t : State} (h : Launched p s) (hk : RunKeeps p s t)
    {x : ProgramInstr} (hx : x ∈ p.program) (hpc : x.addr = t.pc) : BytesAt t x.bytes := by
  intro k hlt
  obtain ⟨hbelow, hcode, hget⟩ := h.holds _ (h.bytes x hx k hlt)
  have hread : t.readable (x.addr.toNat + k) = true := by
    simpa only [State.readable, hk.memMap] using h.mapped _ hbelow hcode
  rw [la_cs_of_launched h hk.segs, ← hpc]
  exact ⟨hbelow, hbelow, hread, (hk.codeBytes _ hcode).trans hget⟩

theorem running_of_runKeeps {p : LaunchParams} {s t : State} (h : Launched p s) (hk : RunKeeps p s t)
    {x : ProgramInstr} (hx : x ∈ p.program) (hpc : x.addr = t.pc) : Running t := by
  obtain ⟨a, ha, hne⟩ := h.halt
  refine ⟨?_, hk.mode⟩
  have hpa : a ≠ t.pc := fun hap => hne x hx (hpc.trans hap.symm)
  simp [State.halted, hk.haltAddr, ha, hpa]

/-- Settles O19, by induction along the run. -/
theorem launchedRunInvariant : Obligations.LaunchedRunInvariant := by
  intro p s t h hr
  have hk := reaches_runKeeps h hr
  exact ⟨hk.mode, hk.segs, hk.sys, hk.cpl, hk.iopl, hk.ifl, hk.vm, hk.rf, hk.canonical, hk.codeBytes,
    fun x hx hpc => ⟨running_of_runKeeps h hk hx hpc, bytesAt_of_runKeeps h hk hx hpc⟩⟩

end Sys2Proof.Proofs
end

section
/-! The decoder reads back what the encoder writes (spec/30_encoding.md): fields and numbers, operands, prefixes, then one
rule per kind of row. -/

namespace Sys2Proof.Proofs

open Sys2Proof

/-! ### Fields and numbers -/

theorem num_ofNum (x : BitVec 3) : (GReg.ofNum x).num = x := by revert x; decide

@[simp] theorem ofNum_num (g : GReg) : GReg.ofNum g.num = g := by cases g <;> rfl

@[simp] theorem scaleOfNum_num (c : Scale) : Scale.ofNum c.num = c := by cases c <;> rfl

section Fields
variable (hi : BitVec 2) (mid lo : BitVec 3)

@[simp] theorem fieldHi_fieldsByte : fieldHi (fieldsByte hi mid lo) = hi := by
  revert hi mid lo; decide

@[simp] theorem fieldMid_fieldsByte : fieldMid (fieldsByte hi mid lo) = mid := by
  revert hi mid lo; decide

@[simp] theorem fieldLo_fieldsByte : fieldLo (fieldsByte hi mid lo) = lo := by
  revert hi mid lo; decide

end Fields

theorem le16_bytes (v : BitVec 16) : le16 (v.extractLsb' 0 8) (v.extractLsb' 8 8) = v := by
  rw [le16, BitVec.extractLsb'_append_extractLsb'_eq_extractLsb' (by rfl), BitVec.extractLsb'_eq_self]

theorem le32_bytes (v : Word) :
    le32 (v.extractLsb' 0 8) (v.extractLsb' 8 8) (v.extractLsb' 16 8) (v.extractLsb' 24 8) = v := by
  rw [le32, BitVec.extractLsb'_append_extractLsb'_eq_extractLsb' (by rfl),
    BitVec.extractLsb'_append_extractLsb'_eq_extractLsb' (by rfl),
    BitVec.extractLsb'_append_extractLsb'_eq_extractLsb' (by rfl), BitVec.extractLsb'_eq_self]

@[simp] theorem read16_bytes16 (v : BitVec 16) (rest : List Byte) :
    read16 (bytes16 v ++ rest) = some (v, rest) := by
  simp [bytes16, read16, le16_bytes]

@[simp] theorem read32_bytes32 (v : Word) (rest : List Byte) : read32 (bytes32 v ++ rest) = some (v, rest) := by
  simp [bytes32, read32, le32_bytes]

@[simp] theorem readImm_encImm {z : Size} (v : BitVec z.bits) (rest : List Byte) :
    readImm z (encImm z v ++ rest) = some (v, rest) := by
  cases z with
  | byte => rfl
  | word => exact read16_bytes16 v rest
  | dword => exact read32_bytes32 v rest

/-! ### Operands -/

theorem num_eq_iff {g h : GReg} : g.num = h.num ↔ g = h :=
  ⟨fun e => by rw [← ofNum_num g, e, ofNum_num], fun e => e ▸ rfl⟩

/-- Base and displacement are read back from `mod`, the base number and the displacement's bytes (R111). -/
theorem readAddr_encDisp {m : MemOp} (h : m.wf = true) (rest : List Byte) :
    readAddr m.ovr m.encDisp.1 m.baseNum m.index (m.encDisp.2 ++ rest) = some (m, rest) := by
  obtain ⟨ovr, base, index, disp⟩ := m
  cases base with
  | none =>
    cases disp with
    | d32 d => simp [readAddr, MemOp.encDisp, MemOp.baseNum]
    | none | d8 => simp [MemOp.wf] at h
  | some b =>
    cases disp with
    | none =>
      have hb : b.num ≠ 5#3 := fun h5 => by
        obtain rfl : b = .ebp := num_eq_iff.mp h5
        simp [MemOp.wf] at h
      simp [readAddr, MemOp.encDisp, MemOp.baseNum, hb]
    | d8 d => simp [readAddr, MemOp.encDisp, MemOp.baseNum]
    | d32 d => simp [readAddr, MemOp.encDisp, MemOp.baseNum]

/-- The `mod` field of a memory operand is not the one of a register. -/
theorem encDisp_mod (m : MemOp) : m.encDisp.1 ≠ 3#2 := by
  obtain ⟨ovr, base, index, disp⟩ := m
  cases disp with
  | none | d8 => simp [MemOp.encDisp]
  | d32 => cases base <;> simp [MemOp.encDisp]

/-- A modR/M form is read back with its `reg` field (R110, R111). -/
theorem readRM_encRM (x : BitVec 3) {e : RM} (h : e.wf = true) (rest : List Byte) :
    readRM e.ovr (encRM x e ++ rest) = some (x, e, rest) := by
  cases e with
  | reg r => simp [encRM, readRM]
  | mem m =>
    have haddr := readAddr_encDisp h rest
    simp only [encRM, RM.ovr]
    split
    · rename_i i sc hi
      have hne : i.num ≠ 4#3 := fun h4 => by
        obtain rfl : i = .esp := num_eq_iff.mp h4
        simp [RM.wf, MemOp.wf, hi] at h
      rw [hi] at haddr
      simp [readRM, encDisp_mod, sibIndex, hne, haddr]
    · rename_i hi
      rw [hi] at haddr
      split
      · simp [readRM, encDisp_mod, sibIndex, haddr]
      · rename_i hb
        have hne : m.baseNum ≠ 4#3 := fun h4 => by
          unfold MemOp.baseNum at h4
          split at h4
          · cases h4
          · rename_i b hbase
            exact hb (hbase.trans (congrArg some (num_eq_iff.mp (h4 : b.num = GReg.esp.num))))
        simp [readRM, encDisp_mod, hne, haddr]

/-- A modR/M form begins with the byte of its `reg` field. -/
theorem encRM_cons (x : BitVec 3) (e : RM) : ∃ m t, encRM x e = m :: t ∧ fieldMid m = x := by
  cases e with
  | reg r => exact ⟨_, _, rfl, fieldMid_fieldsByte _ _ _⟩
  | mem m =>
    simp only [encRM]
    split
    · exact ⟨_, _, rfl, fieldMid_fieldsByte _ _ _⟩
    · split
      · exact ⟨_, _, rfl, fieldMid_fieldsByte _ _ _⟩
      · exact ⟨_, _, rfl, fieldMid_fieldsByte _ _ _⟩

/-! ### Prefixes -/

/-- The prefixes of a form: repeat, segment override, operand size. -/
def pfxOf (r : Option RepPfx) (o : Option Seg) (z : Size) : Pfx := ⟨r, o, z == .word⟩

/-- The bytes `pre` are read as the prefixes `p`, whatever opcode follows. -/
def Scans (pre : List Byte) (p : Pfx) : Prop :=
  ∀ op bs, pfxKind op = none → scanPrefixes .none (pre ++ op :: bs) = .opcode p op bs

theorem pfxKind_segByte (s : Seg) : pfxKind (segByte s) = some (.seg s) := by cases s <;> rfl

theorem scanPrefixes_encSeg {p : Pfx} (hp : p.seg = none) (o : Option Seg) (bs : List Byte) :
    scanPrefixes p (encSeg o ++ bs) = scanPrefixes { p with seg := o } bs := by
  cases o with
  | none =>
    obtain ⟨r, s, b⟩ := p
    cases hp
    rfl
  | some s => simp [encSeg, scanPrefixes, pfxKind_segByte, hp]

theorem scanPrefixes_encPfx {p : Pfx} (hp : p.op16 = false) (z : Size) (bs : List Byte) :
    scanPrefixes p (z.encPfx ++ bs) = scanPrefixes { p with op16 := z == .word } bs := by
  obtain ⟨r, s, b⟩ := p
  cases hp
  cases z <;> rfl

theorem scanPrefixes_opcode_cons {p : Pfx} {op : Byte} (h : pfxKind op = none) (bs : List Byte) :
    scanPrefixes p (op :: bs) = .opcode p op bs := by
  simp [scanPrefixes, h]

/-- The encoder's prefixes after an `F3` or `F2` that has been read, or none. -/
theorem scanPrefixes_encPre (r : Option RepPfx) (o : Option Seg) (z : Size) {op : Byte} (bs : List Byte)
    (h : pfxKind op = none) :
    scanPrefixes ⟨r, none, false⟩ (encPre o z ++ op :: bs) = .opcode (pfxOf r o z) op bs := by
  rw [encPre, List.append_assoc, scanPrefixes_encSeg rfl, scanPrefixes_encPfx rfl, scanPrefixes_opcode_cons h]
  rfl

theorem scans_encPre (o : Option Seg) (z : Size) : Scans (encPre o z) (pfxOf none o z) :=
  fun _ bs h => scanPrefixes_encPre none o z bs h

theorem scans_encPfx (z : Size) : Scans z.encPfx (pfxOf none none z) := scans_encPre none z

theorem scans_encSeg (o : Option Seg) : Scans (encSeg o) (pfxOf none o .dword) := by
  have h := scans_encPre o .dword
  rwa [encPre, Size.encPfx, List.append_nil] at h

theorem scans_nil : Scans [] (pfxOf none none .dword) := scans_encSeg none

theorem scans_f3 (o : Option Seg) (z : Size) : Scans (0xF3#8 :: encPre o z) (pfxOf (some .f3) o z) :=
  fun _ bs h => scanPrefixes_encPre (some .f3) o z bs h

theorem scans_f2 (o : Option Seg) (z : Size) : Scans (0xF2#8 :: encPre o z) (pfxOf (some .f2) o z) :=
  fun _ bs h => scanPrefixes_encPre (some .f2) o z bs h

/-! ### Rows -/

/-- The decoder answers `i` and its length of these bytes, whatever follows them. -/
def Decodes (bytes : List Byte) (i : Instr) : Prop := ∀ rest, decode (bytes ++ rest) = some (i, bytes.length)

/-- The opcode bytes `ops` select the reader `run`. -/
def Opens (ops : List Byte) (run : Pfx → List Byte → Option Parsed) : Prop :=
  ∃ op tl, ops = op :: tl ∧ pfxKind op = none ∧ ∀ p bs, bodyOf op p op (tl ++ bs) = run p bs

/-- All prefixes that stand there are admitted. -/
def Admits (p : Pfx) (rep op16 seg : Bool) : Prop :=
  (p.rep.isSome = true → rep = true) ∧ (p.op16 = true → op16 = true) ∧ (p.seg.isSome = true → seg = true)

/-- After the prefixes `p`, `run` reads `i` from `bytes` and no more, and admits the prefixes. -/
def Gives (run : Pfx → List Byte → Option Parsed) (p : Pfx) (bytes : List Byte) (i : Instr) : Prop :=
  ∀ rest, ∃ r o s, run p (bytes ++ rest) = some ⟨i, rest, r, o, s⟩ ∧ Admits p r o s

theorem checkPrefixes_of_admits {p : Pfx} {d : Parsed} (h : Admits p d.rep d.op16 d.seg) : checkPrefixes p d = d.instr := by
  obtain ⟨hr, ho, hs⟩ := h
  obtain ⟨rep, seg, op16⟩ := p
  obtain ⟨i, rest, r, o, s⟩ := d
  cases rep <;> cases seg <;> cases op16 <;> simp_all [checkPrefixes]

theorem decodes_of_gives {pre ops bytes : List Byte} {p : Pfx} {run : Pfx → List Byte → Option Parsed} {i : Instr}
    (hpre : Scans pre p) (hops : Opens ops run) (hrun : Gives run p bytes i) : Decodes (pre ++ (ops ++ bytes)) i := by
  intro rest
  obtain ⟨op, tl, rfl, hop, hbody⟩ := hops
  obtain ⟨r, o, s, hread, hadm⟩ := hrun rest
  have hscan := hpre op (tl ++ (bytes ++ rest)) hop
  have hcheck : checkPrefixes p ⟨i, rest, r, o, s⟩ = i := checkPrefixes_of_admits hadm
  simp only [decode, List.append_assoc, List.cons_append, hscan, hbody, hread, hcheck, List.length_append,
    List.length_cons, Option.some.injEq, Prod.mk.injEq, true_and]
  omega

theorem opens_one {op : Byte} {b : Body} (hop : pfxKind op = none) (hrow : bodyOf op = b) :
    Opens [op] fun p bs => b p op bs := ⟨op, [], rfl, hop, fun _ _ => by rw [hrow]; rfl⟩

/-- The row of the two-byte map that a second opcode byte selects. -/
theorem opens_two {op : Byte} {b : Body}
    (hrow : (findBody (rows0F00 ++ rows0F90) op).getD (refusedBody (.undefined (.escape op))) = b) :
    Opens [0x0F#8, op] fun p bs => b p op bs := ⟨0x0F#8, [op], rfl, rfl, fun _ _ => by rw [← hrow]; rfl⟩

/-- The `zB` or `zV` of a row, by the width of the form. -/
def widthOf : Size → Pfx → Size
  | .byte => zB
  | .word => zV
  | .dword => zV

@[simp] theorem widthOf_pfxOf (r : Option RepPfx) (o : Option Seg) (z : Size) : widthOf z (pfxOf r o z) = z := by
  cases z <;> rfl

@[simp] theorem v_pfxOf (r : Option RepPfx) (o : Option Seg) (v : VSize) : (pfxOf r o v.size).v = v := by
  cases v <;> rfl

@[simp] theorem seg_pfxOf (r : Option RepPfx) (o : Option Seg) (z : Size) : (pfxOf r o z).seg = o := rfl

@[simp] theorem rep_pfxOf (r : Option RepPfx) (o : Option Seg) (z : Size) : (pfxOf r o z).rep = r := rfl

/-! ### Which prefixes a row admits -/

section Admits
variable {z : Size} {e : RM} {p : Pfx}

theorem admits_all : Admits p true true true := ⟨fun _ => rfl, fun _ => rfl, fun _ => rfl⟩

theorem admits_none (o s : Bool) : Admits (pfxOf none none .dword) false o s := ⟨nofun, nofun, nofun⟩

theorem admits_width (s : Bool) : Admits (pfxOf none none z) false z.admits16 s := by
  refine ⟨nofun, fun h => ?_, nofun⟩
  cases z with
  | word => rfl
  | byte | dword => cases h

theorem isMem_of_ovr (h : e.ovr.isSome = true) : e.isMem = true := by
  cases e with
  | reg => cases h
  | mem => rfl

theorem admits_rm : Admits (pfxOf none e.ovr z) false z.admits16 e.isMem :=
  ⟨nofun, (admits_width (z := z) true).2.1, isMem_of_ovr⟩

theorem admits_rm16 : Admits (pfxOf none e.ovr z) false true e.isMem := ⟨nofun, fun _ => rfl, isMem_of_ovr⟩

theorem admits_rmNo16 : Admits (pfxOf none e.ovr .dword) false false e.isMem := ⟨nofun, nofun, isMem_of_ovr⟩

end Admits

/-! ### Rows with a modR/M byte -/

/-- The opcode bytes `ops` and a `reg` field `x` after them select the reader `run`. -/
def OpensAt (ops : List Byte) (x : BitVec 3) (run : Pfx → List Byte → Option Parsed) : Prop :=
  ∃ op tl, ops = op :: tl ∧ pfxKind op = none ∧
    ∀ p e bs, bodyOf op p op (tl ++ (encRM x e ++ bs)) = run p (encRM x e ++ bs)

theorem Opens.at {ops : List Byte} {run : Pfx → List Byte → Option Parsed} (h : Opens ops run) (x : BitVec 3) :
    OpensAt ops x run :=
  let ⟨op, tl, hops, hop, hbody⟩ := h
  ⟨op, tl, hops, hop, fun p _ _ => hbody p _⟩

/-- The `reg` field selects the member of a group (R122). -/
theorem Opens.member {ops : List Byte} {op : Byte} {member : BitVec 3 → Body}
    (h : Opens ops fun p bs => groupBody member p op bs) (x : BitVec 3) :
    OpensAt ops x fun p bs => member x p op bs := by
  obtain ⟨op', tl, hops, hop, hbody⟩ := h
  refine ⟨op', tl, hops, hop, fun p e bs => (hbody p _).trans ?_⟩
  obtain ⟨m, t, hm, rfl⟩ := encRM_cons x e
  rw [hm]
  rfl

section Rows
variable {pre ops : List Byte} {op : Byte} {x : BitVec 3} {e : RM}

theorem decodes_of_opensAt {tail : List Byte} {p : Pfx} {run : Pfx → List Byte → Option Parsed} {i : Instr} {o s : Bool}
    (hpre : Scans pre p) (hops : OpensAt ops x run) (hadm : Admits p false o s)
    (hrun : ∀ rest, run p (encRM x e ++ (tail ++ rest)) = some ⟨i, rest, false, o, s⟩) :
    Decodes (pre ++ (ops ++ (encRM x e ++ tail))) i := by
  obtain ⟨op, tl, rfl, hop, hbody⟩ := hops
  refine decodes_of_gives (run := fun p bs => bodyOf op p op (tl ++ bs)) hpre ⟨op, tl, rfl, hop, fun _ _ => rfl⟩
    fun rest => ⟨false, o, s, ?_, hadm⟩
  rw [List.append_assoc]
  exact (hbody p e _).trans (hrun rest)

theorem decodes_rmBody {z : Size} {mk : Size → RM → GReg → Instr}
    (hops : OpensAt ops x fun p bs => rmBody (widthOf z) mk p op bs) (he : e.wf = true) :
    Decodes (encPre e.ovr z ++ (ops ++ encRM x e)) (mk z e (GReg.ofNum x)) := by
  have h := decodes_of_opensAt (x := x) (e := e) (tail := []) (i := mk z e (GReg.ofNum x)) (scans_encPre e.ovr z)
    hops admits_rm
    fun rest => by simp [rmBody, readRM_encRM x he]
  rwa [List.append_nil] at h

theorem decodes_rmvBody {v : VSize} {mk : VSize → RM → GReg → Instr}
    (hops : OpensAt ops x fun p bs => rmvBody mk p op bs) (he : e.wf = true) :
    Decodes (encPre e.ovr v.size ++ (ops ++ encRM x e)) (mk v e (GReg.ofNum x)) := by
  have h := decodes_of_opensAt (x := x) (e := e) (tail := []) (i := mk v e (GReg.ofNum x))
    (scans_encPre e.ovr v.size) hops admits_rm16
    fun rest => by simp [rmvBody, readRM_encRM x he]
  rwa [List.append_nil] at h

theorem decodes_rmNo16Body {mk : RM → GReg → Instr}
    (hops : OpensAt ops x fun p bs => rmNo16Body mk p op bs) (he : e.wf = true) :
    Decodes (encSeg e.ovr ++ (ops ++ encRM x e)) (mk e (GReg.ofNum x)) := by
  have h := decodes_of_opensAt (x := x) (e := e) (tail := []) (i := mk e (GReg.ofNum x)) (scans_encSeg e.ovr)
    hops admits_rmNo16
    fun rest => by simp [rmNo16Body, readRM_encRM x he]
  rwa [List.append_nil] at h

theorem decodes_rmvByteBody {v : VSize} {i : Byte} {mk : VSize → RM → GReg → Byte → Instr}
    (hops : OpensAt ops x fun p bs => rmvByteBody mk p op bs) (he : e.wf = true) :
    Decodes (encPre e.ovr v.size ++ (ops ++ (encRM x e ++ [i]))) (mk v e (GReg.ofNum x) i) :=
  decodes_of_opensAt (scans_encPre e.ovr v.size) hops admits_rm16 fun rest => by
    simp [rmvByteBody, readRM_encRM x he]

theorem decodes_memberByte {z : Size} {i : Byte} {mk : Size → RM → Byte → Instr}
    (hops : OpensAt ops x fun p bs => memberByte (widthOf z) mk p op bs) (he : e.wf = true) :
    Decodes (encPre e.ovr z ++ (ops ++ (encRM x e ++ [i]))) (mk z e i) :=
  decodes_of_opensAt (scans_encPre e.ovr z) hops admits_rm fun rest => by simp [memberByte, readRM_encRM x he]

/-- After an `E` operand and an immediate of the row's width. -/
theorem memberImm_encRM {zf : Pfx → Size} {mk : (z : Size) → RM → BitVec z.bits → Instr} {p : Pfx} {z : Size}
    (hz : zf p = z) (hs : p.seg = e.ovr) (he : e.wf = true) (i : BitVec z.bits) (rest : List Byte) :
    memberImm zf mk p op (encRM x e ++ (encImm z i ++ rest)) =
      some ⟨mk z e i, rest, false, z.admits16, e.isMem⟩ := by
  subst hz
  simp [memberImm, hs, readRM_encRM x he]

theorem decodes_memberImm {z : Size} {mk : (z : Size) → RM → BitVec z.bits → Instr} (i : BitVec z.bits)
    (hops : OpensAt ops x fun p bs => memberImm (widthOf z) mk p op bs) (he : e.wf = true) :
    Decodes (encPre e.ovr z ++ (ops ++ (encRM x e ++ encImm z i))) (mk z e i) :=
  decodes_of_opensAt (scans_encPre e.ovr z) hops admits_rm (memberImm_encRM (widthOf_pfxOf none e.ovr z) rfl he i)

theorem rmvImmBody_encRM {mk : (v : VSize) → RM → GReg → BitVec v.size.bits → Instr} {p : Pfx} {v : VSize}
    (hv : p.v = v) (hs : p.seg = e.ovr) (he : e.wf = true) (i : BitVec v.size.bits) (rest : List Byte) :
    rmvImmBody mk p op (encRM x e ++ (encImm v.size i ++ rest)) =
      some ⟨mk v e (GReg.ofNum x) i, rest, false, true, e.isMem⟩ := by
  subst hv
  simp [rmvImmBody, hs, readRM_encRM x he]

theorem decodes_rmvImmBody {v : VSize} {mk : (v : VSize) → RM → GReg → BitVec v.size.bits → Instr}
    (i : BitVec v.size.bits) (hops : OpensAt ops x fun p bs => rmvImmBody mk p op bs) (he : e.wf = true) :
    Decodes (encPre e.ovr v.size ++ (ops ++ (encRM x e ++ encImm v.size i))) (mk v e (GReg.ofNum x) i) :=
  decodes_of_opensAt (scans_encPre e.ovr v.size) hops admits_rm16 (rmvImmBody_encRM (v_pfxOf none e.ovr v) rfl he i)

/-! ### Rows without a modR/M byte -/

theorem decodes_refused {bytes : List Byte} {run : Pfx → List Byte → Option Parsed} {i : Instr} (hops : Opens ops run)
    (hrun : ∀ p rest, run p (bytes ++ rest) = some ⟨i, rest, true, true, true⟩) : Decodes (ops ++ bytes) i :=
  decodes_of_gives scans_nil hops fun rest => ⟨_, _, _, hrun _ rest, admits_all⟩

theorem decodes_refusedBody {i : Instr} (hops : Opens ops fun p bs => refusedBody i p op bs) : Decodes ops i := by
  have h := decodes_refused (bytes := []) hops fun _ _ => rfl
  rwa [List.append_nil] at h

/-- A row that reads `bytes` after its opcode and admits no prefixes. -/
theorem decodes_bare {bytes : List Byte} {run : Pfx → List Byte → Option Parsed} {i : Instr} {o s : Bool}
    (hops : Opens ops run)
    (hrun : ∀ rest, run (pfxOf none none .dword) (bytes ++ rest) = some ⟨i, rest, false, o, s⟩) :
    Decodes (ops ++ bytes) i :=
  decodes_of_gives scans_nil hops fun rest => ⟨_, _, _, hrun rest, admits_none o s⟩

theorem decodes_plainBody {i : Instr} (hops : Opens ops fun p bs => plainBody i p op bs) : Decodes ops i := by
  have h := decodes_bare (bytes := []) hops fun _ => rfl
  rwa [List.append_nil] at h

theorem decodes_byteBody {b : Bool} {mk : VSize → Byte → Instr} {i : Byte}
    (hops : Opens ops fun p bs => byteBody b mk p op bs) : Decodes (ops ++ [i]) (mk .v32 i) :=
  decodes_bare hops fun _ => rfl

theorem decodes_jvBody {mk : Word → Instr} {d : Word} (hops : Opens ops fun p bs => jvBody mk p op bs) :
    Decodes (ops ++ bytes32 d) (mk d) :=
  decodes_bare (o := false) (s := false) hops fun rest => by simp [jvBody]

theorem decodes_imm16Body {mk : BitVec 16 → Instr} {n : BitVec 16}
    (hops : Opens ops fun p bs => imm16Body mk p op bs) : Decodes (ops ++ bytes16 n) (mk n) :=
  decodes_bare (o := false) (s := false) hops fun rest => by simp [imm16Body]

/-- A row of a width, whose `66` is read before it. -/
theorem decodes_sized {z : Size} {bytes : List Byte} {run : Pfx → List Byte → Option Parsed} {i : Instr} {s : Bool}
    (hops : Opens ops run)
    (hrun : ∀ rest, run (pfxOf none none z) (bytes ++ rest) = some ⟨i, rest, false, z.admits16, s⟩) :
    Decodes (z.encPfx ++ (ops ++ bytes)) i :=
  decodes_of_gives (scans_encPfx z) hops fun rest => ⟨_, _, _, hrun rest, admits_width s⟩

theorem decodes_sizedBody {v : VSize} {mk : VSize → Instr} (hops : Opens ops fun p bs => sizedBody mk p op bs) :
    Decodes (v.size.encPfx ++ ops) (mk v) := by
  have h := decodes_sized (z := v.size) (bytes := []) (i := mk v) (s := false) hops fun rest => by cases v <;> rfl
  rwa [List.append_nil] at h

theorem decodes_plusRegBody {v : VSize} {g : GReg} {mk : VSize → GReg → Instr}
    (hops : Opens [op] fun p bs => plusRegBody mk p op bs) (hg : GReg.ofNum (fieldLo op) = g) :
    Decodes (v.size.encPfx ++ [op]) (mk v g) :=
  decodes_sized (z := v.size) (bytes := []) (i := mk v g) (s := false) hops fun rest => by
    subst hg; cases v <;> rfl

theorem decodes_byteBodyV {v : VSize} {i : Byte} {mk : VSize → Byte → Instr}
    (hops : Opens ops fun p bs => byteBody true mk p op bs) : Decodes (v.size.encPfx ++ (ops ++ [i])) (mk v i) :=
  decodes_sized (z := v.size) (s := false) hops fun rest => by cases v <;> rfl

theorem immBody_encImm {zf : Pfx → Size} {mk : (z : Size) → BitVec z.bits → Instr} {p : Pfx} {z : Size}
    (hz : zf p = z) (i : BitVec z.bits) (rest : List Byte) :
    immBody zf mk p op (encImm z i ++ rest) = some ⟨mk z i, rest, false, z.admits16, false⟩ := by
  subst hz
  simp [immBody]

theorem decodes_immBody {z : Size} {mk : (z : Size) → BitVec z.bits → Instr} (i : BitVec z.bits)
    (hops : Opens ops fun p bs => immBody (widthOf z) mk p op bs) :
    Decodes (z.encPfx ++ (ops ++ encImm z i)) (mk z i) :=
  decodes_sized hops (immBody_encImm (widthOf_pfxOf none none z) i)

theorem immVBody_encImm {mk : (v : VSize) → BitVec v.size.bits → Instr} {p : Pfx} {v : VSize} (hv : p.v = v)
    (i : BitVec v.size.bits) (rest : List Byte) :
    immVBody mk p op (encImm v.size i ++ rest) = some ⟨mk v i, rest, false, true, false⟩ := by
  subst hv
  simp [immVBody]

theorem decodes_immVBody {v : VSize} {mk : (v : VSize) → BitVec v.size.bits → Instr} (i : BitVec v.size.bits)
    (hops : Opens ops fun p bs => immVBody mk p op bs) :
    Decodes (v.size.encPfx ++ (ops ++ encImm v.size i)) (mk v i) :=
  decodes_sized hops fun rest =>
    (immVBody_encImm (v_pfxOf none none v) i rest).trans (by cases v <;> rfl)

theorem plusRegImmBody_encImm {zf : Pfx → Size} {mk : (z : Size) → GReg → BitVec z.bits → Instr} {p : Pfx}
    {z : Size} (hz : zf p = z) (i : BitVec z.bits) (rest : List Byte) :
    plusRegImmBody zf mk p op (encImm z i ++ rest) =
      some ⟨mk z (GReg.ofNum (fieldLo op)) i, rest, false, z.admits16, false⟩ := by
  subst hz
  simp [plusRegImmBody]

theorem decodes_plusRegImmBody {z : Size} {g : GReg} {mk : (z : Size) → GReg → BitVec z.bits → Instr}
    (i : BitVec z.bits) (hops : Opens [op] fun p bs => plusRegImmBody (widthOf z) mk p op bs)
    (hg : GReg.ofNum (fieldLo op) = g) : Decodes (z.encPfx ++ ([op] ++ encImm z i)) (mk z g i) := by
  subst hg
  exact decodes_sized hops (plusRegImmBody_encImm (widthOf_pfxOf none none z) i)

theorem decodes_moffsBody {z : Size} {o : Option Seg} {off : Word} {mk : Size → Option Seg → Word → Instr}
    (hops : Opens ops fun p bs => moffsBody (widthOf z) mk p op bs) :
    Decodes (encPre o z ++ (ops ++ bytes32 off)) (mk z o off) :=
  decodes_of_gives (scans_encPre o z) hops fun rest =>
    ⟨false, z.admits16, true, by simp [moffsBody], nofun, (admits_width (z := z) true).2.1, fun _ => rfl⟩

/-! ### String primitives -/

theorem admits_str (r : Option RepPfx) {z : Size} {o : Option Seg} {seg : Bool} (hs : o.isSome = true → seg = true) :
    Admits (pfxOf r o z) r.isSome z.admits16 seg := ⟨id, (admits_width (z := z) true).2.1, hs⟩

section Str
variable {z : Size} {o : Option Seg} {seg : Bool} {alone : Pfx → Instr} {rep repne : Size → Option Seg → Option Instr}
  {i : Instr} (hops : Opens ops fun p bs => strBody (widthOf z) seg alone rep repne p op bs)
  (hs : o.isSome = true → seg = true)
include hops hs

theorem decodes_str_alone (hi : alone (pfxOf none o z) = i) : Decodes (encPre o z ++ ops) i := by
  have h := decodes_of_gives (bytes := []) (i := i) (scans_encPre o z) hops fun rest =>
    ⟨false, z.admits16, seg, by simp [strBody, hi], admits_str none hs⟩
  rwa [List.append_nil] at h

theorem decodes_str_f3 (hi : rep z o = some i) : Decodes (0xF3#8 :: (encPre o z ++ ops)) i := by
  have h := decodes_of_gives (bytes := []) (i := i) (scans_f3 o z) hops fun rest =>
    ⟨true, z.admits16, seg, by simp [strBody, hi], admits_str (some .f3) hs⟩
  rwa [List.append_nil] at h

theorem decodes_str_f2 (hi : repne z o = some i) : Decodes (0xF2#8 :: (encPre o z ++ ops)) i := by
  have h := decodes_of_gives (bytes := []) (i := i) (scans_f2 o z) hops fun rest =>
    ⟨true, z.admits16, seg, by simp [strBody, hi], admits_str (some .f2) hs⟩
  rwa [List.append_nil] at h

end Str

/-! ### Prefixes that are not admitted -/

/-- Bytes that end the scan. -/
theorem decodes_bad {bytes : List Byte} {i : Instr} (h : ∀ rest, scanPrefixes .none (bytes ++ rest) = .bad i rest) :
    Decodes bytes i := fun rest => by simp [decode, h]

end Rows

end Sys2Proof.Proofs
end

section
/-! Every encoding decodes to its instruction (spec/30_encoding.md R103 to R106, R110 to R125): the rows of the opcode maps
that the encoder's opcodes select, form by form. -/

namespace Sys2Proof.Proofs

open Sys2Proof

/-! ### A modR/M form whose `reg` field is a register -/

section Forms
variable {op : Byte} {e : RM} {g : GReg}

theorem decodes_encForm {z : Size} (mk : Size → RM → GReg → Instr)
    (hops : Opens [op + z.opBit] fun p bs => rmBody (widthOf z) mk p (op + z.opBit) bs) (he : e.wf = true) :
    Decodes (encForm z op g.num e) (mk z e g) := by
  have hd := decodes_rmBody (hops.at g.num) he
  rwa [ofNum_num] at hd

theorem decodes_encForm0F {v : VSize} (mk : VSize → RM → GReg → Instr)
    (hops : Opens [0x0F#8, op] fun p bs => rmvBody mk p op bs) (he : e.wf = true) :
    Decodes (encForm0F v op g.num e) (mk v e g) := by
  have hd := decodes_rmvBody (v := v) (hops.at g.num) he
  rwa [ofNum_num] at hd

theorem decodes_encForm0F_byte {v : VSize} {i : Byte} (mk : VSize → RM → GReg → Byte → Instr)
    (hops : Opens [0x0F#8, op] fun p bs => rmvByteBody mk p op bs) (he : e.wf = true) :
    Decodes (encForm0F v op g.num e ++ [i]) (mk v e g i) := by
  have hd := decodes_rmvByteBody (v := v) (i := i) (hops.at g.num) he
  rw [ofNum_num] at hd
  simpa [encForm0F] using hd

theorem decodes_encNo16 (mk : RM → GReg → Instr) (hops : Opens [0x0F#8, op] fun p bs => rmNo16Body mk p op bs)
    (he : e.wf = true) : Decodes (encNo16 op g.num e) (mk e g) := by
  have hd := decodes_rmNo16Body (hops.at g.num) he
  rwa [ofNum_num] at hd

end Forms

/-! ### Two-operand arithmetic and logic -/

/-- The rows of the nine forms of a two-operand instruction: base opcode `b`, group 1 member `x`. -/
structure AluOpens (b : Byte) (x : BitVec 3) (mk : AluForm → Instr) : Prop where
  rmReg : ∀ z : Size, Opens [b + z.opBit] fun p bs =>
    rmBody (widthOf z) (fun z e g => mk (.rmReg z e g)) p (b + z.opBit) bs
  regRm : ∀ z : Size, Opens [b + 2#8 + z.opBit] fun p bs =>
    rmBody (widthOf z) (fun z e g => mk (.regRm z g e)) p (b + 2#8 + z.opBit) bs
  accImm : ∀ z : Size, Opens [b + 4#8 + z.opBit] fun p bs =>
    immBody (widthOf z) (fun z i => mk (.accImm z i)) p (b + 4#8 + z.opBit) bs
  member : group1 x = mk

theorem aluOpens_add : AluOpens 0x00#8 0#3 .add :=
  ⟨fun z => by cases z <;> exact opens_one rfl rfl, fun z => by cases z <;> exact opens_one rfl rfl,
    fun z => by cases z <;> exact opens_one rfl rfl, rfl⟩

theorem aluOpens_or : AluOpens 0x08#8 1#3 .or :=
  ⟨fun z => by cases z <;> exact opens_one rfl rfl, fun z => by cases z <;> exact opens_one rfl rfl,
    fun z => by cases z <;> exact opens_one rfl rfl, rfl⟩

theorem aluOpens_adc : AluOpens 0x10#8 2#3 .adc :=
  ⟨fun z => by cases z <;> exact opens_one rfl rfl, fun z => by cases z <;> exact opens_one rfl rfl,
    fun z => by cases z <;> exact opens_one rfl rfl, rfl⟩

theorem aluOpens_sbb : AluOpens 0x18#8 3#3 .sbb :=
  ⟨fun z => by cases z <;> exact opens_one rfl rfl, fun z => by cases z <;> exact opens_one rfl rfl,
    fun z => by cases z <;> exact opens_one rfl rfl, rfl⟩

theorem aluOpens_and : AluOpens 0x20#8 4#3 .and :=
  ⟨fun z => by cases z <;> exact opens_one rfl rfl, fun z => by cases z <;> exact opens_one rfl rfl,
    fun z => by cases z <;> exact opens_one rfl rfl, rfl⟩

theorem aluOpens_sub : AluOpens 0x28#8 5#3 .sub :=
  ⟨fun z => by cases z <;> exact opens_one rfl rfl, fun z => by cases z <;> exact opens_one rfl rfl,
    fun z => by cases z <;> exact opens_one rfl rfl, rfl⟩

theorem aluOpens_xor : AluOpens 0x30#8 6#3 .xor :=
  ⟨fun z => by cases z <;> exact opens_one rfl rfl, fun z => by cases z <;> exact opens_one rfl rfl,
    fun z => by cases z <;> exact opens_one rfl rfl, rfl⟩

theorem aluOpens_cmp : AluOpens 0x38#8 7#3 .cmp :=
  ⟨fun z => by cases z <;> exact opens_one rfl rfl, fun z => by cases z <;> exact opens_one rfl rfl,
    fun z => by cases z <;> exact opens_one rfl rfl, rfl⟩

theorem opens_group1 (z : Size) : Opens [0x80#8 + z.opBit] fun p bs =>
    groupBody (fun x => memberImm (widthOf z) fun z e i => group1 x (.rmImm z e i)) p (0x80#8 + z.opBit) bs := by
  cases z <;> exact opens_one rfl rfl

theorem opens_group1Byte : Opens [0x83#8] fun p bs =>
    groupBody (fun x => rmvByteBody fun v e _ i => group1 x (.rmImm8s v e i)) p 0x83#8 bs := opens_one rfl rfl

theorem decodes_alu {b : Byte} {x : BitVec 3} {mk : AluForm → Instr} (h : AluOpens b x mk) (f : AluForm)
    (hf : f.wf = true) : Decodes (f.enc b x) (mk f) := by
  obtain ⟨hrm, hreg, hacc, rfl⟩ := h
  cases f with
  | rmReg z e g => exact decodes_encForm _ (hrm z) hf
  | regRm z g e => exact decodes_encForm _ (hreg z) hf
  | accImm z i => exact decodes_immBody i (hacc z)
  | rmImm z e i =>
    have hd := decodes_memberImm i ((opens_group1 z).member x) hf
    simpa [AluForm.enc, encForm] using hd
  | rmImm8s v e i =>
    have hd := decodes_rmvByteBody (v := v) (i := i) (opens_group1Byte.member x) hf
    simpa [AluForm.enc] using hd

/-! ### Groups 2, 3, 4 and 5 -/

section Groups
variable {ops : List Byte} {op : Byte} {x : BitVec 3} {z : Size} {e : RM}

theorem decodes_memberRM {mk : Size → RM → Instr} (hops : OpensAt ops x fun p bs => memberRM (widthOf z) mk p op bs)
    (he : e.wf = true) : Decodes (encPre e.ovr z ++ (ops ++ encRM x e)) (mk z e) :=
  decodes_rmBody (mk := fun z e _ => mk z e) hops he

theorem opens_group3 (z : Size) : Opens [0xF6#8 + z.opBit] fun p bs => group3Body (widthOf z) p (0xF6#8 + z.opBit) bs := by
  cases z <;> exact opens_one rfl rfl

theorem opens_group5 : Opens [0xFF#8] fun p bs => group5Body p 0xFF#8 bs := opens_one rfl rfl

theorem opensAt_inc (z : Size) : OpensAt [0xFE#8 + z.opBit] 0#3 fun p bs =>
    memberRM (widthOf z) (fun z e => .inc (.rm z e)) p (0xFE#8 + z.opBit) bs := by
  cases z with
  | byte => exact (opens_one (b := group4Body) rfl rfl).member 0#3
  | word | dword => exact opens_group5.member 0#3

theorem opensAt_dec (z : Size) : OpensAt [0xFE#8 + z.opBit] 1#3 fun p bs =>
    memberRM (widthOf z) (fun z e => .dec (.rm z e)) p (0xFE#8 + z.opBit) bs := by
  cases z with
  | byte => exact (opens_one (b := group4Body) rfl rfl).member 1#3
  | word | dword => exact opens_group5.member 1#3

theorem decodes_inc (f : IncForm) (hf : f.wf = true) : Decodes (f.enc 0x40#8 0#3) (.inc f) := by
  cases f with
  | reg v g => cases g <;> exact decodes_plusRegBody (mk := fun v g => .inc (.reg v g)) (opens_one rfl rfl) rfl
  | rm z e => exact decodes_memberRM (opensAt_inc z) hf

theorem decodes_dec (f : IncForm) (hf : f.wf = true) : Decodes (f.enc 0x48#8 1#3) (.dec f) := by
  cases f with
  | reg v g => cases g <;> exact decodes_plusRegBody (mk := fun v g => .dec (.reg v g)) (opens_one rfl rfl) rfl
  | rm z e => exact decodes_memberRM (opensAt_dec z) hf

theorem opens_group2Imm (z : Size) : Opens [0xC0#8 + z.opBit] fun p bs =>
    group2ImmBody (widthOf z) p (0xC0#8 + z.opBit) bs := by
  cases z <;> exact opens_one rfl rfl

theorem opens_group2One (z : Size) : Opens [0xD0#8 + z.opBit] fun p bs =>
    group2Body (widthOf z) .one p (0xD0#8 + z.opBit) bs := by
  cases z <;> exact opens_one rfl rfl

theorem opens_group2Cl (z : Size) : Opens [0xD2#8 + z.opBit] fun p bs =>
    group2Body (widthOf z) .cl p (0xD2#8 + z.opBit) bs := by
  cases z <;> exact opens_one rfl rfl

theorem decodes_shift {mk : Size → RM → Count → Instr} (h : group2 x = some mk) (z : Size) {e : RM} (c : Count)
    (he : e.wf = true) : Decodes (encShift x z e c) (mk z e c) := by
  cases c with
  | imm i =>
    have hops := (opens_group2Imm z).member x
    rw [h] at hops
    have hd := decodes_memberByte (i := i) hops he
    simpa [encShift, encForm] using hd
  | one =>
    have hops := (opens_group2One z).member x
    rw [h] at hops
    exact decodes_memberRM (mk := fun z e => mk z e .one) hops he
  | cl =>
    have hops := (opens_group2Cl z).member x
    rw [h] at hops
    exact decodes_memberRM (mk := fun z e => mk z e .cl) hops he

end Groups

/-! ### Data movement -/

theorem decodes_test (f : TestForm) (hf : f.wf = true) : Decodes f.enc (.test f) := by
  cases f with
  | rmReg z e g =>
    exact decodes_encForm (fun z e g => .test (.rmReg z e g)) (by cases z <;> exact opens_one rfl rfl) hf
  | accImm z i =>
    exact decodes_immBody (op := 0xA8#8 + z.opBit) (ops := [0xA8#8 + z.opBit]) (mk := fun z i => .test (.accImm z i)) i
      (by cases z <;> exact opens_one rfl rfl)
  | rmImm z e i =>
    have hd := decodes_memberImm (mk := fun z e i => .test (.rmImm z e i)) i ((opens_group3 z).member 0#3) hf
    simpa [TestForm.enc, encForm] using hd

theorem opens_group11 (z : Size) : Opens [0xC6#8 + z.opBit] fun p bs =>
    group11Body (widthOf z) p (0xC6#8 + z.opBit) bs := by
  cases z <;> exact opens_one rfl rfl

theorem decodes_movRegImm (z : Size) (g : GReg) (i : BitVec z.bits) :
    Decodes (MovForm.regImm z g i).enc (.mov (.regImm z g i)) := by
  cases z with
  | byte =>
    cases g <;> exact decodes_plusRegImmBody (op := plusReg 0xB0#8 _) (mk := fun z g i => .mov (.regImm z g i)) i
      (opens_one rfl rfl) rfl
  | word | dword =>
    cases g <;> exact decodes_plusRegImmBody (op := plusReg 0xB8#8 _) (mk := fun z g i => .mov (.regImm z g i)) i
      (opens_one rfl rfl) rfl

theorem decodes_mov (f : MovForm) (hf : f.wf = true) : Decodes f.enc (.mov f) := by
  cases f with
  | rmReg z e g =>
    exact decodes_encForm (fun z e g => .mov (.rmReg z e g)) (by cases z <;> exact opens_one rfl rfl) hf
  | regRm z g e =>
    exact decodes_encForm (fun z e g => .mov (.regRm z g e)) (by cases z <;> exact opens_one rfl rfl) hf
  | regImm z g i => exact decodes_movRegImm z g i
  | rmImm z e i =>
    have hd := decodes_memberImm (op := 0xC6#8 + z.opBit) (mk := fun z e i => .mov (.rmImm z e i)) i ((opens_group11 z).member 0#3) hf
    simpa [MovForm.enc, encForm] using hd
  | accMoffs z o off =>
    exact decodes_moffsBody (ops := [0xA0#8 + z.opBit]) (op := 0xA0#8 + z.opBit) (mk := fun z o off => .mov (.accMoffs z o off))
      (by cases z <;> exact opens_one rfl rfl)
  | moffsAcc z o off =>
    exact decodes_moffsBody (ops := [0xA2#8 + z.opBit]) (op := 0xA2#8 + z.opBit) (mk := fun z o off => .mov (.moffsAcc z o off))
      (by cases z <;> exact opens_one rfl rfl)

theorem decodes_xchg (f : XchgForm) (hf : f.wf = true) : Decodes f.enc (.xchg f) := by
  cases f with
  | rmReg z e g =>
    exact decodes_encForm (fun z e g => .xchg (.rmReg z e g)) (by cases z <;> exact opens_one rfl rfl) hf
  | accReg v g =>
    cases g with
    | eax => cases hf
    | _ => exact decodes_plusRegBody (mk := fun v g => .xchg (.accReg v g)) (opens_one rfl rfl) rfl

theorem decodes_push (f : PushForm) (hf : f.wf = true) : Decodes f.enc (.push f) := by
  cases f with
  | reg v g => cases g <;> exact decodes_plusRegBody (mk := fun v g => .push (.reg v g)) (opens_one rfl rfl) rfl
  | rm v e => exact decodes_rmvBody (mk := fun v e _ => .push (.rm v e)) (opens_group5.member 6#3) hf
  | imm v i => exact decodes_immVBody (mk := fun v i => .push (.imm v i)) i (opens_one rfl rfl)
  | imm8s v i => exact decodes_byteBodyV (mk := fun v i => .push (.imm8s v i)) (opens_one rfl rfl)

theorem decodes_pop (f : PopForm) (hf : f.wf = true) : Decodes f.enc (.pop f) := by
  cases f with
  | reg v g => cases g <;> exact decodes_plusRegBody (mk := fun v g => .pop (.reg v g)) (opens_one rfl rfl) rfl
  | rm v e =>
    exact decodes_rmvBody (op := 0x8F#8) (mk := fun v e _ => .pop (.rm v e))
      ((opens_one (op := 0x8F#8) (b := group1ABody) rfl rfl).member 0#3) hf

theorem decodes_imul3 (f : Imul3Form) (hf : f.wf = true) : Decodes f.enc (.imul3 f) := by
  cases f with
  | imm v g e i =>
    have hd := decodes_rmvImmBody (op := 0x69#8) (mk := fun v e g i => .imul3 (.imm v g e i)) i
      (Opens.at (opens_one (op := 0x69#8) rfl rfl) g.num) hf
    rw [ofNum_num] at hd
    simpa [Imul3Form.enc] using hd
  | imm8s v g e i =>
    have hd := decodes_rmvByteBody (op := 0x6B#8) (v := v) (i := i) (mk := fun v e g i => .imul3 (.imm8s v g e i))
      (Opens.at (opens_one (op := 0x6B#8) rfl rfl) g.num) hf
    rw [ofNum_num] at hd
    simpa [Imul3Form.enc] using hd

theorem decodes_movsx (f : ExtForm) (hf : f.wf = true) : Decodes (f.enc 0xBE#8) (.movsx f) := by
  cases f with
  | byte v g e => exact decodes_encForm0F (fun v e g => .movsx (.byte v g e)) (opens_two rfl) hf
  | word g e => exact decodes_encNo16 (fun e g => .movsx (.word g e)) (opens_two rfl) hf

theorem decodes_movzx (f : ExtForm) (hf : f.wf = true) : Decodes (f.enc 0xB6#8) (.movzx f) := by
  cases f with
  | byte v g e => exact decodes_encForm0F (fun v e g => .movzx (.byte v g e)) (opens_two rfl) hf
  | word g e => exact decodes_encNo16 (fun e g => .movzx (.word g e)) (opens_two rfl) hf

theorem decodes_lea (v : VSize) (g : GReg) {m : MemOp} (hm : m.wf = true) :
    Decodes (encode (.lea v g m)) (.lea v g m) := by
  have hops : Opens [0x8D#8] fun p bs => leaBody p 0x8D#8 bs := opens_one rfl rfl
  have h := decodes_of_opensAt (x := g.num) (e := .mem m) (tail := []) (i := .lea v g m) (o := true) (s := true)
    (scans_encPre m.ovr v.size) (hops.at g.num) ⟨nofun, fun _ => rfl, fun _ => rfl⟩ fun rest => ?_
  · rwa [List.append_nil] at h
  · have hread := readRM_encRM (e := .mem m) g.num hm rest
    obtain ⟨b, t, hb, hmod⟩ : ∃ b t, encRM g.num (.mem m) = b :: t ∧ fieldHi b ≠ 3#2 := by
      simp only [encRM]
      split
      · exact ⟨_, _, rfl, by simpa using encDisp_mod m⟩
      · split
        · exact ⟨_, _, rfl, by simpa using encDisp_mod m⟩
        · exact ⟨_, _, rfl, by simpa using encDisp_mod m⟩
    rw [hb] at hread ⊢
    simp only [List.cons_append, List.nil_append, RM.ovr] at hread ⊢
    simp [leaBody, hmod, hread]

theorem decodes_xlat (o : Option Seg) : Decodes (encode (.xlat o)) (.xlat o) :=
  decodes_of_gives (ops := [0xD7#8]) (bytes := []) (scans_encSeg o) (opens_one rfl rfl) fun _ =>
    ⟨_, _, _, rfl, nofun, nofun, fun _ => rfl⟩

/-! ### Bits and double shifts -/

/-- The rows of a bit instruction: opcode `op` of its register form, group 8 member `x`. -/
structure BitOpens (op : Byte) (x : BitVec 3) (mk : BitForm → Instr) : Prop where
  reg : Opens [0x0F#8, op] fun p bs => rmvBody (fun v e g => mk (.reg v e g)) p op bs
  member : OpensAt [0x0F#8, 0xBA#8] x fun p bs => rmvByteBody (fun v e _ i => mk (.imm v e i)) p 0xBA#8 bs

theorem opens_group8 : Opens [0x0F#8, 0xBA#8] fun p bs => group8Body p 0xBA#8 bs := opens_two rfl

theorem decodes_bit {op : Byte} {x : BitVec 3} {mk : BitForm → Instr} (h : BitOpens op x mk) (f : BitForm)
    (hf : f.wf = true) : Decodes (f.enc op x) (mk f) := by
  cases f with
  | reg v e g => exact decodes_encForm0F _ h.reg hf
  | imm v e i =>
    have hd := decodes_rmvByteBody (v := v) (i := i) h.member hf
    simpa [BitForm.enc, encForm0F] using hd

theorem decodes_shld (v : VSize) {e : RM} (g : GReg) (c : DCount) (he : e.wf = true) :
    Decodes (encDShift 0xA4#8 v e g c) (.shld v e g c) := by
  cases c with
  | imm i => exact decodes_encForm0F_byte (fun v e g i => .shld v e g (.imm i)) (opens_two rfl) he
  | cl => exact decodes_encForm0F (fun v e g => .shld v e g .cl) (opens_two rfl) he

theorem decodes_shrd (v : VSize) {e : RM} (g : GReg) (c : DCount) (he : e.wf = true) :
    Decodes (encDShift 0xAC#8 v e g c) (.shrd v e g c) := by
  cases c with
  | imm i => exact decodes_encForm0F_byte (fun v e g i => .shrd v e g (.imm i)) (opens_two rfl) he
  | cl => exact decodes_encForm0F (fun v e g => .shrd v e g .cl) (opens_two rfl) he

/-- SETcc: the `reg` field is written as 0 and ignored (R125). -/
theorem decodes_setcc {op : Byte} {e : RM} (mk : RM → Instr)
    (hops : Opens [0x0F#8, op] fun p bs => rmNo16Body (fun e _ => mk e) p op bs) (he : e.wf = true) :
    Decodes (encNo16 op 0#3 e) (mk e) := decodes_encNo16 (g := .eax) (fun e _ => mk e) hops he

/-! ### Control transfer and strings -/

theorem decodes_jcc {cc : Byte} (mk : Rel → Instr)
    (hb : Opens [0x70#8 + cc] fun p bs => byteBody false (fun _ d => mk (.b d)) p (0x70#8 + cc) bs)
    (hv : Opens [0x0F#8, 0x80#8 + cc] fun p bs => jvBody (fun d => mk (.v d)) p (0x80#8 + cc) bs) (d : Rel) :
    Decodes (encJcc cc d) (mk d) := by
  cases d with
  | b d => exact decodes_byteBody hb
  | v d => exact decodes_jvBody hv

theorem decodes_jmpRel (d : Rel) : Decodes (encode (.jmpRel d)) (.jmpRel d) := by
  cases d with
  | b d => exact decodes_byteBody (mk := fun _ d => .jmpRel (.b d)) (opens_one rfl rfl)
  | v d => exact decodes_jvBody (mk := fun d => .jmpRel (.v d)) (opens_one rfl rfl)

theorem decodes_enter (n : BitVec 16) (l : Byte) : Decodes (encode (.enter n l)) (.enter n l) :=
  decodes_bare (ops := [0xC8#8]) (bytes := bytes16 n ++ [l]) (o := false) (s := false) (opens_one (b := enterBody) rfl rfl)
    fun rest => by simp [enterBody]

theorem opens_movs (z : Size) : Opens [0xA4#8 + z.opBit] fun p bs => strBody (widthOf z) true
    (fun p => match z with | .byte => .movsb p.seg | _ => .movsd p.v p.seg) (fun z o => some (.rep (.movs z o)))
    (fun _ _ => none) p (0xA4#8 + z.opBit) bs := by
  cases z <;> exact opens_one rfl rfl

theorem opens_lods (z : Size) : Opens [0xAC#8 + z.opBit] fun p bs => strBody (widthOf z) true
    (fun p => match z with | .byte => .lodsb p.seg | _ => .lodsd p.v p.seg) (fun z o => some (.rep (.lods z o)))
    (fun _ _ => none) p (0xAC#8 + z.opBit) bs := by
  cases z <;> exact opens_one rfl rfl

theorem opens_stos (z : Size) : Opens [0xAA#8 + z.opBit] fun p bs => strBody (widthOf z) false
    (fun p => match z with | .byte => .stosb | _ => .stosd p.v) (fun z _ => some (.rep (.stos z)))
    (fun _ _ => none) p (0xAA#8 + z.opBit) bs := by
  cases z <;> exact opens_one rfl rfl

theorem opens_cmps (z : Size) : Opens [0xA6#8 + z.opBit] fun p bs => strBody (widthOf z) true
    (fun p => match z with | .byte => .cmpsb p.seg | _ => .cmpsd p.v p.seg) (fun z o => some (.repe (.cmps z o)))
    (fun z o => some (.repne (.cmps z o))) p (0xA6#8 + z.opBit) bs := by
  cases z <;> exact opens_one rfl rfl

theorem opens_scas (z : Size) : Opens [0xAE#8 + z.opBit] fun p bs => strBody (widthOf z) false
    (fun p => match z with | .byte => .scasb | _ => .scasd p.v) (fun z _ => some (.repe (.scas z)))
    (fun z _ => some (.repne (.scas z))) p (0xAE#8 + z.opBit) bs := by
  cases z <;> exact opens_one rfl rfl

theorem decodes_movs (v : VSize) (o : Option Seg) : Decodes (encStr o v.size 0xA4#8) (.movsd v o) := by
  cases v <;> exact decodes_str_alone (opens_movs _) (fun _ => rfl) rfl

theorem decodes_lods (v : VSize) (o : Option Seg) : Decodes (encStr o v.size 0xAC#8) (.lodsd v o) := by
  cases v <;> exact decodes_str_alone (opens_lods _) (fun _ => rfl) rfl

theorem decodes_stos (v : VSize) : Decodes (encStr none v.size 0xAA#8) (.stosd v) := by
  cases v <;> exact decodes_str_alone (opens_stos _) nofun rfl

theorem decodes_cmps (v : VSize) (o : Option Seg) : Decodes (encStr o v.size 0xA6#8) (.cmpsd v o) := by
  cases v <;> exact decodes_str_alone (opens_cmps _) (fun _ => rfl) rfl

theorem decodes_scas (v : VSize) : Decodes (encStr none v.size 0xAE#8) (.scasd v) := by
  cases v <;> exact decodes_str_alone (opens_scas _) nofun rfl

theorem decodes_rep (p : StrMove) : Decodes (0xF3#8 :: p.enc) (.rep p) := by
  cases p with
  | movs z o => exact decodes_str_f3 (opens_movs z) (fun _ => rfl) rfl
  | lods z o => exact decodes_str_f3 (opens_lods z) (fun _ => rfl) rfl
  | stos z => exact decodes_str_f3 (opens_stos z) nofun rfl

theorem decodes_repe (p : StrCmp) : Decodes (0xF3#8 :: p.enc) (.repe p) := by
  cases p with
  | cmps z o => exact decodes_str_f3 (opens_cmps z) (fun _ => rfl) rfl
  | scas z => exact decodes_str_f3 (opens_scas z) nofun rfl

theorem decodes_repne (p : StrCmp) : Decodes (0xF2#8 :: p.enc) (.repne p) := by
  cases p with
  | cmps z o => exact decodes_str_f2 (opens_cmps z) (fun _ => rfl) rfl
  | scas z => exact decodes_str_f2 (opens_scas z) nofun rfl

/-! ### Refused and undefined encodings -/

theorem decodes_refused_one {op : Byte} {i : Instr} (hop : pfxKind op = none) (hrow : bodyOf op = refusedBody i) :
    Decodes [op] i := decodes_refusedBody (opens_one hop hrow)

theorem decodes_refused_two {op : Byte} {i : Instr}
    (hrow : (findBody (rows0F00 ++ rows0F90) op).getD (refusedBody (.undefined (.escape op))) = refusedBody i) :
    Decodes [0x0F#8, op] i := decodes_refusedBody (opens_two hrow)

theorem decodes_pushSeg (s : Seg) : Decodes s.encPush (.pushSeg s) := by
  cases s with
  | fs | gs => exact decodes_refused_two rfl
  | _ => exact decodes_refused_one rfl rfl

theorem decodes_popSeg (s : Seg) (h : s.popWf = true) : Decodes s.encPop (.popSeg s) := by
  cases s with
  | cs => cases h
  | fs | gs => exact decodes_refused_two rfl
  | _ => exact decodes_refused_one rfl rfl

theorem decodes_esc (n : BitVec 3) : Decodes (encode (.esc n)) (.esc n) := by
  rw [← num_ofNum n]
  cases GReg.ofNum n <;>
    exact decodes_refused (bytes := []) (opens_one (b := fun p op bs => refusedBody (.esc (fieldLo op)) p op bs) rfl rfl)
      fun _ _ => rfl

/-- A byte that selects no row is what no row looks for. -/
theorem findBody_eq_none {rows : List Row} {op : Byte} : findBody rows op = none ↔ ∀ r ∈ rows, op &&& r.mask ≠ r.pat := by
  induction rows with
  | nil => simp [findBody]
  | cons r rows ih =>
    rw [findBody, List.forall_mem_cons]
    by_cases h : op &&& r.mask = r.pat <;> simp [h, ih]

/-- Every row of the two-byte map is for one second opcode byte, which R121 lists. -/
theorem rows0F_listed {r : Row} (h : r ∈ rows0F00 ++ rows0F90) : r.mask = 0xFF#8 ∧ escapeListed r.pat = true := by
  have hall : (rows0F00 ++ rows0F90).all (fun r => r.mask == 0xFF#8 && escapeListed r.pat) = true := rfl
  simpa using List.all_eq_true.mp hall r h

theorem and_ff (op : Byte) : op &&& 0xFF#8 = op := BitVec.and_allOnes

/-- A second opcode byte that R121 does not list selects no row. -/
theorem findBody_unlisted {op : Byte} (h : escapeListed op = false) : findBody (rows0F00 ++ rows0F90) op = none := by
  refine findBody_eq_none.mpr fun r hr hop => ?_
  obtain ⟨hmask, hlisted⟩ := rows0F_listed hr
  rw [hmask, and_ff] at hop
  rw [hop, hlisted] at h
  cases h

theorem decodes_escape {op : Byte} (h : escapeListed op = false) : Decodes [0x0F#8, op] (.undefined (.escape op)) :=
  decodes_refused_two (by rw [findBody_unlisted h]; rfl)

section RefusedMembers
variable {ops : List Byte} {op : Byte} {x : BitVec 3} {member : BitVec 3 → Body}
  (hops : Opens ops fun p bs => groupBody member p op bs)
include hops

/-- Of a refused group member the encoder writes a modR/M byte with its number, and that byte is all that is read. -/
theorem decodes_refusedMember {i : Instr} (h : member x = refusedMember i) : Decodes (ops ++ [fieldsByte 0#2 x 0#3]) i :=
  decodes_refused hops fun p rest => by simp [groupBody, h, refusedMember, refusedBody]

theorem decodes_undefMember (h : member x = undefMember x) :
    Decodes (ops ++ [fieldsByte 0#2 x 0#3]) (.undefined (.group op x)) :=
  decodes_refused hops fun p rest => by simp [groupBody, h, undefMember, refusedBody]

theorem decodes_undefMember0F (h : member x = undefMember0F x) :
    Decodes (ops ++ [fieldsByte 0#2 x 0#3]) (.undefined (.group0F op x)) :=
  decodes_refused hops fun p rest => by simp [groupBody, h, undefMember0F, refusedBody]

end RefusedMembers

/-- The undefined members of the groups of the one-byte map (R125). -/
theorem decodes_undefGroup {op : Byte} {x : BitVec 3} (h : (UndefEnc.group op x).wf = true) :
    Decodes ([op] ++ [fieldsByte 0#2 x 0#3]) (.undefined (.group op x)) := by
  simp only [UndefEnc.wf, Bool.or_eq_true, Bool.and_eq_true, List.contains_eq_mem, List.mem_cons, List.not_mem_nil,
    or_false, beq_iff_eq, bne_iff_ne, decide_eq_true_eq] at h
  rcases h with ((((⟨rfl, hx⟩ | ⟨hop, rfl⟩) | ⟨hop, hx⟩) | ⟨hop, rfl⟩) | ⟨⟨rfl, hx0⟩, hx1⟩) | ⟨rfl, rfl⟩
  · exact decodes_undefMember (opens_one (b := group1ABody) rfl rfl) (if_neg hx)
  · rcases hop with rfl | rfl | rfl | rfl | rfl | rfl
    · exact decodes_undefMember (opens_group2Imm .byte) rfl
    · exact decodes_undefMember (opens_group2Imm .dword) rfl
    · exact decodes_undefMember (opens_group2One .byte) rfl
    · exact decodes_undefMember (opens_group2One .dword) rfl
    · exact decodes_undefMember (opens_group2Cl .byte) rfl
    · exact decodes_undefMember (opens_group2Cl .dword) rfl
  · rcases hop with rfl | rfl
    · exact decodes_undefMember (opens_group11 .byte) (if_neg hx)
    · exact decodes_undefMember (opens_group11 .dword) (if_neg hx)
  · rcases hop with rfl | rfl
    · exact decodes_undefMember (opens_group3 .byte) rfl
    · exact decodes_undefMember (opens_group3 .dword) rfl
  · refine decodes_undefMember (opens_one (b := group4Body) rfl rfl) ?_
    rw [← num_ofNum x] at hx0 hx1 ⊢
    cases hg : GReg.ofNum x with
    | eax => exact absurd (by rw [hg]; rfl) hx0
    | ecx => exact absurd (by rw [hg]; rfl) hx1
    | _ => rfl
  · exact decodes_undefMember opens_group5 rfl

theorem opens_group6 : Opens [0x0F#8, 0x00#8] fun p bs => group6Body p 0x00#8 bs := opens_two rfl
theorem opens_group7 : Opens [0x0F#8, 0x01#8] fun p bs => group7Body p 0x01#8 bs := opens_two rfl

/-- The undefined members of the groups of the two-byte map. -/
theorem decodes_undefGroup0F {op : Byte} {x : BitVec 3} (h : (UndefEnc.group0F op x).wf = true) :
    Decodes ([0x0F#8, op] ++ [fieldsByte 0#2 x 0#3]) (.undefined (.group0F op x)) := by
  simp only [UndefEnc.wf, Bool.or_eq_true, Bool.and_eq_true, beq_iff_eq] at h
  rcases h with (⟨rfl, rfl | rfl⟩ | ⟨rfl, rfl | rfl⟩) | ⟨rfl, ((rfl | rfl) | rfl) | rfl⟩
  · exact decodes_undefMember0F opens_group6 rfl
  · exact decodes_undefMember0F opens_group6 rfl
  · exact decodes_undefMember0F opens_group7 rfl
  · exact decodes_undefMember0F opens_group7 rfl
  · exact decodes_undefMember0F opens_group8 rfl
  · exact decodes_undefMember0F opens_group8 rfl
  · exact decodes_undefMember0F opens_group8 rfl
  · exact decodes_undefMember0F opens_group8 rfl

/-- A modR/M byte with mod = 11, as the table of undefined encodings spells it. -/
theorem fieldHi_of_and {m : Byte} (h : m &&& 0xC0#8 = 0xC0#8) : fieldHi m = 3#2 := by
  revert m; decide

theorem decodes_leaReg {m : Byte} (h : (UndefEnc.leaReg m).wf = true) :
    Decodes ([0x8D#8] ++ [m]) (.undefined (.leaReg m)) :=
  decodes_refused (opens_one (b := leaBody) rfl rfl) fun p rest => by
    have hm : fieldHi m = 3#2 := fieldHi_of_and (by simpa [UndefEnc.wf] using h)
    simp [leaBody, hm, refusedBody]

theorem decodes_undefined (u : UndefEnc) (h : u.wf = true) : Decodes u.enc (.undefined u) := by
  cases u with
  | group op x => exact decodes_undefGroup h
  | group0F op x => exact decodes_undefGroup0F h
  | escape op => exact decodes_escape (by simpa [UndefEnc.wf] using h)
  | leaReg m => exact decodes_leaReg h

/-- The rows of two instructions, of which `66` selects the 16-bit one. -/
theorem decodes_bySize {op : Byte} {i16 i32 : Instr} (hop : pfxKind op = none)
    (hrow : bodyOf op = sizedBody fun v => match v with | .v16 => i16 | .v32 => i32) :
    Decodes [0x66#8, op] i16 ∧ Decodes [op] i32 :=
  ⟨decodes_sizedBody (v := .v16) (opens_one hop hrow), decodes_sizedBody (v := .v32) (opens_one hop hrow)⟩

theorem decodes_98 : Decodes [0x66#8, 0x98#8] .cbw ∧ Decodes [0x98#8] .cwde := decodes_bySize rfl rfl
theorem decodes_99 : Decodes [0x66#8, 0x99#8] .cwd ∧ Decodes [0x99#8] .cdq := decodes_bySize rfl rfl
theorem decodes_9C : Decodes [0x66#8, 0x9C#8] .pushf ∧ Decodes [0x9C#8] .pushfd := decodes_bySize rfl rfl
theorem decodes_9D : Decodes [0x66#8, 0x9D#8] .popf ∧ Decodes [0x9D#8] .popfd := decodes_bySize rfl rfl

/-! ### Every instruction -/

/-- The encoding of a well-formed instruction decodes to it, whatever follows. -/
theorem decodes_encode (i : Instr) (h : i.wf = true) : Decodes (encode i) i := by
  cases i with
  | add f => exact decodes_alu aluOpens_add f h
  | or f => exact decodes_alu aluOpens_or f h
  | adc f => exact decodes_alu aluOpens_adc f h
  | sbb f => exact decodes_alu aluOpens_sbb f h
  | and f => exact decodes_alu aluOpens_and f h
  | sub f => exact decodes_alu aluOpens_sub f h
  | xor f => exact decodes_alu aluOpens_xor f h
  | cmp f => exact decodes_alu aluOpens_cmp f h
  | inc f => exact decodes_inc f h
  | dec f => exact decodes_dec f h
  | not z e => exact decodes_memberRM ((opens_group3 z).member 2#3) h
  | neg z e => exact decodes_memberRM ((opens_group3 z).member 3#3) h
  | mul z e => exact decodes_memberRM ((opens_group3 z).member 4#3) h
  | imul1 z e => exact decodes_memberRM ((opens_group3 z).member 5#3) h
  | div z e => exact decodes_memberRM ((opens_group3 z).member 6#3) h
  | idiv z e => exact decodes_memberRM ((opens_group3 z).member 7#3) h
  | imul2 v g e => exact decodes_encForm0F (fun v e g => .imul2 v g e) (opens_two rfl) h
  | imul3 f => exact decodes_imul3 f h
  | test f => exact decodes_test f h
  | mov f => exact decodes_mov f h
  | xchg f => exact decodes_xchg f h
  | push f => exact decodes_push f h
  | pop f => exact decodes_pop f h
  | movsx f => exact decodes_movsx f h
  | movzx f => exact decodes_movzx f h
  | cbw => exact decodes_98.1
  | cwde => exact decodes_98.2
  | cwd => exact decodes_99.1
  | cdq => exact decodes_99.2
  | pushf => exact decodes_9C.1
  | pushfd => exact decodes_9C.2
  | popf => exact decodes_9D.1
  | popfd => exact decodes_9D.2
  | bt f => exact decodes_bit ⟨opens_two rfl, opens_group8.member 4#3⟩ f h
  | bts f => exact decodes_bit ⟨opens_two rfl, opens_group8.member 5#3⟩ f h
  | btr f => exact decodes_bit ⟨opens_two rfl, opens_group8.member 6#3⟩ f h
  | btc f => exact decodes_bit ⟨opens_two rfl, opens_group8.member 7#3⟩ f h
  | bsf v g e => exact decodes_encForm0F (fun v e g => .bsf v g e) (opens_two rfl) h
  | bsr v g e => exact decodes_encForm0F (fun v e g => .bsr v g e) (opens_two rfl) h
  | seto => exact decodes_setcc .seto (opens_two rfl) h
  | setno => exact decodes_setcc .setno (opens_two rfl) h
  | setb => exact decodes_setcc .setb (opens_two rfl) h
  | setae => exact decodes_setcc .setae (opens_two rfl) h
  | sete => exact decodes_setcc .sete (opens_two rfl) h
  | setne => exact decodes_setcc .setne (opens_two rfl) h
  | setbe => exact decodes_setcc .setbe (opens_two rfl) h
  | seta => exact decodes_setcc .seta (opens_two rfl) h
  | sets => exact decodes_setcc .sets (opens_two rfl) h
  | setns => exact decodes_setcc .setns (opens_two rfl) h
  | setp => exact decodes_setcc .setp (opens_two rfl) h
  | setnp => exact decodes_setcc .setnp (opens_two rfl) h
  | setl => exact decodes_setcc .setl (opens_two rfl) h
  | setge => exact decodes_setcc .setge (opens_two rfl) h
  | setle => exact decodes_setcc .setle (opens_two rfl) h
  | setg => exact decodes_setcc .setg (opens_two rfl) h
  | rol z e c => exact decodes_shift rfl z c h
  | ror z e c => exact decodes_shift rfl z c h
  | rcl z e c => exact decodes_shift rfl z c h
  | rcr z e c => exact decodes_shift rfl z c h
  | shl z e c => exact decodes_shift rfl z c h
  | shr z e c => exact decodes_shift rfl z c h
  | sar z e c => exact decodes_shift rfl z c h
  | shld v e g c => exact decodes_shld v g c h
  | shrd v e g c => exact decodes_shrd v g c h
  | jmpRel d => exact decodes_jmpRel d
  | jmpInd e => exact decodes_rmNo16Body (mk := fun e _ => .jmpInd e) (opens_group5.member 4#3) h
  | callInd e => exact decodes_rmNo16Body (mk := fun e _ => .callInd e) (opens_group5.member 2#3) h
  | jo d => exact decodes_jcc .jo (opens_one rfl rfl) (opens_two rfl) d
  | jno d => exact decodes_jcc .jno (opens_one rfl rfl) (opens_two rfl) d
  | jb d => exact decodes_jcc .jb (opens_one rfl rfl) (opens_two rfl) d
  | jae d => exact decodes_jcc .jae (opens_one rfl rfl) (opens_two rfl) d
  | je d => exact decodes_jcc .je (opens_one rfl rfl) (opens_two rfl) d
  | jne d => exact decodes_jcc .jne (opens_one rfl rfl) (opens_two rfl) d
  | jbe d => exact decodes_jcc .jbe (opens_one rfl rfl) (opens_two rfl) d
  | ja d => exact decodes_jcc .ja (opens_one rfl rfl) (opens_two rfl) d
  | js d => exact decodes_jcc .js (opens_one rfl rfl) (opens_two rfl) d
  | jns d => exact decodes_jcc .jns (opens_one rfl rfl) (opens_two rfl) d
  | jp d => exact decodes_jcc .jp (opens_one rfl rfl) (opens_two rfl) d
  | jnp d => exact decodes_jcc .jnp (opens_one rfl rfl) (opens_two rfl) d
  | jl d => exact decodes_jcc .jl (opens_one rfl rfl) (opens_two rfl) d
  | jge d => exact decodes_jcc .jge (opens_one rfl rfl) (opens_two rfl) d
  | jle d => exact decodes_jcc .jle (opens_one rfl rfl) (opens_two rfl) d
  | jg d => exact decodes_jcc .jg (opens_one rfl rfl) (opens_two rfl) d
  | callRel d => exact decodes_jvBody (mk := .callRel) (opens_one rfl rfl)
  | retImm n => exact decodes_imm16Body (mk := .retImm) (opens_one rfl rfl)
  | loopne d => exact decodes_byteBody (mk := fun _ => .loopne) (opens_one rfl rfl)
  | loope d => exact decodes_byteBody (mk := fun _ => .loope) (opens_one rfl rfl)
  | loop d => exact decodes_byteBody (mk := fun _ => .loop) (opens_one rfl rfl)
  | jecxz d => exact decodes_byteBody (mk := fun _ => .jecxz) (opens_one rfl rfl)
  | int n => exact decodes_byteBody (mk := fun _ => .int) (opens_one rfl rfl)
  | movsb o => exact decodes_str_alone (opens_movs .byte) (fun _ => rfl) rfl
  | movsd v o => exact decodes_movs v o
  | cmpsb o => exact decodes_str_alone (opens_cmps .byte) (fun _ => rfl) rfl
  | cmpsd v o => exact decodes_cmps v o
  | stosb => exact decodes_str_alone (opens_stos .byte) nofun rfl
  | stosd v => exact decodes_stos v
  | lodsb o => exact decodes_str_alone (opens_lods .byte) (fun _ => rfl) rfl
  | lodsd v o => exact decodes_lods v o
  | scasb => exact decodes_str_alone (opens_scas .byte) nofun rfl
  | scasd v => exact decodes_scas v
  | rep p => exact decodes_rep p
  | repe p => exact decodes_repe p
  | repne p => exact decodes_repne p
  | enter n l => exact decodes_enter n l
  | lea v g m => exact decodes_lea v g h
  | xlat o => exact decodes_xlat o
  | daa | das | aaa | aas | ret | int3 | into | leave | clc | stc | cmc | cld | std | lahf | sahf | wait | nop =>
    exact decodes_plainBody (opens_one rfl rfl)
  | pushSeg s => exact decodes_pushSeg s
  | popSeg s => exact decodes_popSeg s h
  | movSeg f => cases f <;> exact decodes_refused_one rfl rfl
  | callFar f =>
    cases f with
    | ap => exact decodes_refused_one rfl rfl
    | mp => exact decodes_refusedMember opens_group5 (x := 3#3) rfl
  | jmpFar f =>
    cases f with
    | ap => exact decodes_refused_one rfl rfl
    | mp => exact decodes_refusedMember opens_group5 (x := 5#3) rfl
  | retFar f => cases f <;> exact decodes_refused_one rfl rfl
  | les | lds | arpl | iret | cli | sti | hlt | insb | insd | outsb | outsd | pusha | popa | bound | aam | aad
  | aliasOf80 => exact decodes_refused_one rfl rfl
  | lss | lfs | lgs | lar | lsl | clts => exact decodes_refused_two rfl
  | sldt => exact decodes_refusedMember opens_group6 (x := 0#3) rfl
  | str => exact decodes_refusedMember opens_group6 (x := 1#3) rfl
  | lldt => exact decodes_refusedMember opens_group6 (x := 2#3) rfl
  | ltr => exact decodes_refusedMember opens_group6 (x := 3#3) rfl
  | verr => exact decodes_refusedMember opens_group6 (x := 4#3) rfl
  | verw => exact decodes_refusedMember opens_group6 (x := 5#3) rfl
  | sgdt => exact decodes_refusedMember opens_group7 (x := 0#3) rfl
  | sidt => exact decodes_refusedMember opens_group7 (x := 1#3) rfl
  | lgdt => exact decodes_refusedMember opens_group7 (x := 2#3) rfl
  | lidt => exact decodes_refusedMember opens_group7 (x := 3#3) rfl
  | smsw => exact decodes_refusedMember opens_group7 (x := 4#3) rfl
  | lmsw => exact decodes_refusedMember opens_group7 (x := 6#3) rfl
  | movSys f => cases f <;> exact decodes_refused_two rfl
  | inPort f => cases f <;> exact decodes_refused_one rfl rfl
  | outPort f => cases f <;> exact decodes_refused_one rfl rfl
  | esc n => exact decodes_esc n
  | undocumented u => cases u <;> exact decodes_refused_one rfl rfl
  | undefined u => exact decodes_undefined u h
  | prefixEs | prefixCs | prefixSs | prefixDs | prefixFs | prefixGs | opsize | addrsize | lock | repMisused
  | repneMisused => exact decodes_bad fun _ => rfl

/-- Settles O3: prefixes, opcode and operands are read back in the order in which they are written. -/
theorem decodeEncode : Obligations.DecodeEncode := fun i rest h => decodes_encode i h rest

/-- An encoding alone decodes to its instruction. -/
theorem decode_encode (i : Instr) (h : i.wf = true) : decode (encode i) = some (i, (encode i).length) := by
  have hd := decodes_encode i h []
  rwa [List.append_nil] at hd

/-- Settles O4: all but the one with a refused `66` are the encoder's own bytes. -/
theorem decodeSpecWords : Obligations.DecodeSpecWords :=
  ⟨decode_encode (.mov (.regImm .byte .eax 0x7F#8)) rfl, decode_encode (.add (.accImm .byte 1#8)) rfl,
    decode_encode (.imul3 (.imm8s .v32 .edx (.reg .ecx) 0xFE#8)) rfl, decode_encode .aaa rfl,
    decode_encode (.bt (.reg .v32 (.mem ⟨none, some .ebx, none, .none⟩) .ecx)) rfl,
    decode_encode (.setl (.reg .ecx)) rfl, decode_encode (.shl .dword (.reg .edi) (.imm 2#8)) rfl,
    decode_encode (.shrd .v32 (.reg .eax) .edx .cl) rfl, decode_encode (.callRel 0x0B#32) rfl,
    decode_encode (.repne (.scas .byte)) rfl, decode_encode (.enter 2048#16 3#8) rfl, decode_encode .popf rfl,
    decode_encode (.lea .v32 .eax ⟨none, some .ebx, some (.esi, .x4), .d8 8#8⟩) rfl,
    decode_op16_plain (i := .nop) rfl rfl, decode_encode .cli rfl⟩

end Sys2Proof.Proofs
end

section
/-! Binary arithmetic and decimal adjusts (spec/41_binary_arithmetic.md, 42_decimal_arithmetic.md): what each instruction
leaves, from the lemmas about the operations that it shares with others. -/

namespace Sys2Proof.Proofs

open Sys2Proof Sys2Proof.Machine Sys2Proof.Laws

/-! ### Falling through with registers, memory or flags changed -/

theorem falls_update (s : State) (r : Regs) (m : List Host.Cell) (f : Eflags) :
    Falls s { s with regs := r, mem := m, flags := f, pc := s.npc } :=
  ⟨rfl, rfl, rfl, rfl, rfl, rfl, rfl, rfl, rfl⟩

/-! ### Two operands and one -/

section TwoOperands
variable {f : AluForm} {s : State}

/-- A two-operand instruction whose operands are admitted leaves its result and flags. -/
theorem aluWrite_next {op : BitVec (aluSize f).bits → BitVec (aluSize f).bits → BitVec (aluSize f).bits × Status}
    {R : BitVec (aluSize f).bits → Eflags → Prop} (hn : s.HasNext)
    (hw : s.locWritable (aluSize f) (aluDst s f) = true) (hr : aluSrcReadable s f = true)
    (hR : R (op (s.valueAt (aluSize f) (aluDst s f)) (aluSrcValue s f)).1
      (s.flags.withStatus (op (s.valueAt (aluSize f) (aluDst s f)) (aluSrcValue s f)).2)) :
    ∃ t r, Res.out (aluWrite f op s) = .next t ∧ R r t.flags ∧ LocWritten s t (aluSize f) (aluDst s f) r ∧
      Falls s t :=
  ⟨_, _, out_next.mpr (aluWrite_ok.mpr ⟨locReadable_of_locWritable hw, hr, hw, hn, rfl⟩), hR,
    locWritten_storedWith .., falls_storedWith ..⟩

end TwoOperands

/-- Settles O24. -/
theorem addAdcSumFlagsFrame : Obligations.AddAdcSumFlagsFrame := by
  intro f s hn hw hr
  exact ⟨aluWrite_next (R := (AddRule _ _ _ · s.flags ·)) hn hw hr (addRule_addFlags ..),
    aluWrite_next (R := (AddRule _ _ _ · s.flags ·)) hn hw hr (addRule_addFlags ..)⟩

/-- CMP writes the flags of the difference and nothing else (R237). -/
theorem execCmp_next {f : AluForm} {s : State} (hn : s.HasNext)
    (ha : s.locReadable (aluSize f) (aluDst s f) = true) (hb : aluSrcReadable s f = true) :
    ∃ t r, execCmp f s = .next t ∧
      SubRule (s.valueAt (aluSize f) (aluDst s f)) (aluSrcValue s f) false r s.flags t.flags ∧
      DataSame s t ∧ Falls s t := by
  refine ⟨_, _, out_next.mpr (bind_ok.mpr ⟨_, readLoc_ok.mpr ⟨ha, rfl⟩, bind_ok.mpr ⟨_, aluSrc_ok.mpr ⟨hb, rfl⟩,
    advance_ok.mpr ⟨hn, rfl⟩⟩⟩), subRule_subFlags .., ⟨rfl, memSame_refl s⟩, falls_update ..⟩

/-- NEG leaves 0 minus its operand and the flags of that difference (R238). -/
theorem execNeg_next {z : Size} {e : RM} {s : State} (hn : s.HasNext) (hw : s.locWritable z (s.resolve e) = true) :
    ∃ t r, execNeg z e s = .next t ∧ SubRule 0 (s.valueAt z (s.resolve e)) false r s.flags t.flags ∧
      LocWritten s t z (s.resolve e) r ∧ Falls s t :=
  ⟨_, _, out_next.mpr (bind_ok.mpr ⟨_, readRM_ok.mpr ⟨locReadable_of_locWritable hw, rfl⟩,
    bind_ok.mpr ⟨_, writeLoc_ok.mpr ⟨hw, rfl⟩, finish_ok.mpr ⟨hn, rfl⟩⟩⟩), subRule_subFlags ..,
    locWritten_storedWith .., falls_storedWith ..⟩

/-- Settles O25. -/
theorem subSbbCmpNegDifferenceFlagsFrame : Obligations.SubSbbCmpNegDifferenceFlagsFrame := by
  refine ⟨fun f s hn hw hr => ⟨?_, ?_⟩, fun f s hn ha hb => execCmp_next hn ha hb, fun z e s hn hw => execNeg_next hn hw⟩
  all_goals exact aluWrite_next (R := (SubRule _ _ _ · s.flags ·)) hn hw hr (subRule_subFlags ..)

/-- INC and DEC leave their result, and the flags of it but CF. -/
theorem incDec_next {f : IncForm} {op : BitVec (incSize f).bits → BitVec (incSize f).bits × Status} {s : State}
    {R : BitVec (incSize f).bits → Eflags → Prop} (hn : s.HasNext)
    (hw : s.locWritable (incSize f) (incLoc s f) = true)
    (hR : R (op (s.valueAt (incSize f) (incLoc s f))).1
      (s.flags.withStatus (op (s.valueAt (incSize f) (incLoc s f))).2)) :
    ∃ t r g, Res.out (incDec f op s) = .next t ∧ R r g ∧ t.flags = { g with cf := s.flags.cf } ∧
      LocWritten s t (incSize f) (incLoc s f) r ∧ Falls s t :=
  ⟨_, _, _, out_next.mpr (incDec_ok.mpr ⟨locReadable_of_locWritable hw, hw, hn, rfl⟩), hR, rfl,
    locWritten_storedWith .., falls_storedWith ..⟩

/-- Settles O26. -/
theorem incDecKeepCarry : Obligations.IncDecKeepCarry := by
  intro f s hn hw
  exact ⟨incDec_next (R := (AddRule _ _ _ · s.flags ·)) hn hw (addRule_addFlags ..),
    incDec_next (R := (SubRule _ _ _ · s.flags ·)) hn hw (subRule_subFlags ..)⟩

/-! ### Products -/

section Products
variable {w : Nat}

theorem bits_pos (z : Size) : 0 < z.bits := by cases z <;> decide

theorem two_pow_pred {w : Nat} (h : 0 < w) : (2 : Int) ^ w = 2 * 2 ^ (w - 1) := by
  rw [← pow_succ', Nat.sub_add_cancel h]

/-- The upper half of an unsigned product is its quotient by 2^w. -/
theorem toNat_upperHalf (a b : BitVec w) :
    (BitVec.ofNat w (a.toNat * b.toNat / 2 ^ w)).toNat = a.toNat * b.toNat / 2 ^ w := by
  rw [BitVec.toNat_ofNat]
  exact Nat.mod_eq_of_lt (Nat.div_lt_of_lt_mul (Nat.mul_lt_mul'' a.isLt b.isLt))

theorem toInt_mul_bounds (a b : BitVec w) :
    -(2 ^ (w - 1) * 2 ^ (w - 1)) ≤ a.toInt * b.toInt ∧ a.toInt * b.toInt ≤ 2 ^ (w - 1) * 2 ^ (w - 1) := by
  have ha := a.le_toInt
  have ha' := a.toInt_lt
  have hb := b.le_toInt
  have hb' := b.toInt_lt
  rw [← abs_le, abs_mul]
  exact mul_le_mul (abs_le.mpr ⟨ha, ha'.le⟩) (abs_le.mpr ⟨hb, hb'.le⟩) (abs_nonneg _) (by positivity)

/-- The two halves of a signed product together are the product. -/
theorem toInt_append_mul (h0 : 0 < w) (a b : BitVec w) :
    (BitVec.ofInt w (a.toInt * b.toInt / 2 ^ w) ++ BitVec.ofInt w (a.toInt * b.toInt)).toInt = a.toInt * b.toInt := by
  obtain ⟨h1, h2⟩ := toInt_mul_bounds a b
  have hp := two_pow_pred h0
  have hH : (0 : Int) < 2 ^ (w - 1) := by positivity
  have hlow : -2 ^ (w - 1) ≤ a.toInt * b.toInt / 2 ^ w := by
    rw [Int.le_ediv_iff_mul_le (by positivity), hp]; nlinarith
  have hhigh : a.toInt * b.toInt / 2 ^ w < 2 ^ (w - 1) := by
    rw [Int.ediv_lt_iff_lt_mul (by positivity), hp]; nlinarith
  rw [BitVec.toInt_append, if_neg (by simpa using h0.ne'), BitVec.toInt_ofInt_eq_self h0 hlow hhigh, toNat_ofInt_eq]
  exact Int.mul_ediv_add_emod _ _

/-- A truncated product is the same for the signed and the unsigned reading. -/
theorem ofInt_mul_toInt (a b : BitVec w) : BitVec.ofInt w (a.toInt * b.toInt) = a * b := by
  rw [BitVec.ofInt_mul, BitVec.ofInt_toInt, BitVec.ofInt_toInt]

theorem mulFlagRule_mulStatus (lost : Bool) (u : Nat → Bool) (f : Eflags) :
    MulFlagRule lost f (f.withStatus (mulStatus lost u)) := rfl

/-- MUL leaves the whole product in the pair (R240). -/
theorem execMul_next {z : Size} {e : RM} {s : State} (hn : s.HasNext) (hr : s.locReadable z (s.resolve e) = true) :
    ∃ t hi lo, execMul z e s = .next t ∧
      hi.toNat * 2 ^ z.bits + lo.toNat = (s.reg z .eax).toNat * (s.valueAt z (s.resolve e)).toNat ∧
      t.regs = (s.regs.write z (hiReg z) hi).write z .eax lo ∧ MemSame s t ∧
      MulFlagRule (decide (hi.toNat ≠ 0)) s.flags t.flags ∧ Falls s t := by
  refine ⟨_, _, _, out_next.mpr (bind_ok.mpr ⟨_, readRM_ok.mpr ⟨hr, rfl⟩, advance_ok.mpr ⟨hn, rfl⟩⟩), ?_, rfl,
    memSame_refl s, ?_, falls_update ..⟩
  · rw [toNat_upperHalf, BitVec.toNat_ofNat, Nat.mul_comm]
    exact Nat.div_add_mod _ _
  · simp only [toNat_upperHalf, ne_eq, Nat.div_eq_zero_iff_lt (Nat.two_pow_pos _), not_lt]
    exact mulFlagRule_mulStatus ..

/-- One-operand IMUL leaves the whole signed product in the pair (R241). -/
theorem execImul1_next {z : Size} {e : RM} {s : State} (hn : s.HasNext) (hr : s.locReadable z (s.resolve e) = true) :
    ∃ t hi lo, execImul1 z e s = .next t ∧
      (hi ++ lo).toInt = (s.reg z .eax).toInt * (s.valueAt z (s.resolve e)).toInt ∧
      t.regs = (s.regs.write z (hiReg z) hi).write z .eax lo ∧ MemSame s t ∧
      MulFlagRule (decide ((hi ++ lo).toInt ≠ lo.toInt)) s.flags t.flags ∧ Falls s t := by
  refine ⟨_, _, _, out_next.mpr (bind_ok.mpr ⟨_, readRM_ok.mpr ⟨hr, rfl⟩, advance_ok.mpr ⟨hn, rfl⟩⟩),
    toInt_append_mul (bits_pos z) _ _, rfl, memSame_refl s, ?_, falls_update ..⟩
  rw [toInt_append_mul (bits_pos z)]
  exact mulFlagRule_mulStatus ..

/-- Settles O27. -/
theorem mulImulWholeProductInPair : Obligations.MulImulWholeProductInPair :=
  fun _ _ _ hn hr => ⟨execMul_next hn hr, execImul1_next hn hr⟩

/-- Two- and three-operand IMUL leave the truncated signed product. -/
theorem mulInto_next {z : Size} {g : GReg} {s : State} (hn : s.HasNext) (a b : BitVec z.bits) :
    ∃ t, mulInto z g a b s = .ok t ∧ t.regs = s.regs.write z g (a * b) ∧ MemSame s t ∧
      MulFlagRule (decide ((a * b).toInt ≠ a.toInt * b.toInt)) s.flags t.flags ∧ Falls s t := by
  rw [← ofInt_mul_toInt]
  refine ⟨_, mulInto_ok.mpr ⟨hn, rfl⟩, rfl, memSame_refl s, ?_, falls_update ..⟩
  rw [← decide_eq_decide.mpr ne_comm]
  exact mulFlagRule_mulStatus ..

/-- What follows the reading of an operand that may be read. -/
theorem readRM_next {z : Size} {e : RM} {s t : State} {k : BitVec z.bits → Res State}
    (hr : s.locReadable z (s.resolve e) = true) (hk : k (s.valueAt z (s.resolve e)) = .ok t) :
    Res.out (s.readRM z e >>= k) = .next t :=
  out_next.mpr (bind_ok.mpr ⟨_, readRM_ok.mpr ⟨hr, rfl⟩, hk⟩)

/-- Settles O28. -/
theorem imulTruncatedProduct : Obligations.ImulTruncatedProduct := by
  refine ⟨fun v g e s hn hr => ?_, fun v g e i s hn hr => ?_, fun v g e i s hn hr => ?_⟩
  · obtain ⟨t, h, heffect⟩ := mulInto_next (g := g) hn (s.reg v.size g) (s.valueAt v.size (s.resolve e))
    exact ⟨t, _, readRM_next hr h, BitVec.toNat_mul .., heffect⟩
  · obtain ⟨t, h, heffect⟩ := mulInto_next (g := g) hn (s.valueAt v.size (s.resolve e)) i
    exact ⟨t, _, readRM_next hr h, BitVec.toNat_mul .., heffect⟩
  · obtain ⟨t, h, heffect⟩ := mulInto_next (g := g) hn (s.valueAt v.size (s.resolve e)) (sextByte v.size i)
    have hi : (sextByte v.size i).toInt = i.toInt := BitVec.toInt_signExtend_of_le (by cases v <;> decide)
    rw [hi] at heffect
    refine ⟨t, _, readRM_next hr h, ?_, heffect⟩
    rw [← hi, ← Int.emod_eq_emod_iff_emod_sub_eq_zero, BitVec.toInt_mul]
    exact_mod_cast Int.bmod_emod.symm

end Products

/-! ### Division -/

section Division
variable {z : Size} {e : RM} {s : State}

theorem statusFree_withStatus_self (f : Eflags) (st : Status) : StatusFree f (f.withStatus st) := rfl

/-- A pair is written and the six status flags are left open. -/
theorem setPair_next (hn : s.HasNext) (hi lo : BitVec z.bits) (st : Status) :
    ∃ t, ((s.setPair z hi lo).setStatus st).advance = .ok t ∧
      t.regs = (s.regs.write z (hiReg z) hi).write z .eax lo ∧ MemSame s t ∧ StatusFree s.flags t.flags ∧ Falls s t :=
  ⟨_, advance_ok.mpr ⟨hn, rfl⟩, rfl, memSame_refl s, statusFree_withStatus_self .., falls_update ..⟩

/-- DIV with a divisor above the high half of the dividend (R245). -/
theorem execDiv_next (hn : s.HasNext) (hr : s.locReadable z (s.resolve e) = true)
    (hd : (s.reg z (hiReg z)).toNat < (s.valueAt z (s.resolve e)).toNat) :
    ∃ t q m, execDiv z e s = .next t ∧
      (s.reg z (hiReg z)).toNat * 2 ^ z.bits + (s.reg z .eax).toNat =
        q.toNat * (s.valueAt z (s.resolve e)).toNat + m.toNat ∧
      m.toNat < (s.valueAt z (s.resolve e)).toNat ∧
      t.regs = (s.regs.write z (hiReg z) m).write z .eax q ∧ MemSame s t ∧ StatusFree s.flags t.flags ∧ Falls s t := by
  have hpos : 0 < (s.valueAt z (s.resolve e)).toNat := by omega
  have hlt := (s.valueAt z (s.resolve e)).isLt
  have hrem := Nat.mod_lt ((s.reg z (hiReg z)).toNat * 2 ^ z.bits + (s.reg z .eax).toNat) hpos
  have hq : ((s.reg z (hiReg z)).toNat * 2 ^ z.bits + (s.reg z .eax).toNat) / (s.valueAt z (s.resolve e)).toNat <
      2 ^ z.bits := by
    rw [Nat.div_lt_iff_lt_mul hpos]
    nlinarith [(s.reg z .eax).isLt]
  have hm : (BitVec.ofNat z.bits _).toNat = _ := (BitVec.toNat_ofNat ..).trans (Nat.mod_eq_of_lt (hrem.trans hlt))
  obtain ⟨t, ht, heffect⟩ := setPair_next hn _ _ _
  refine ⟨t, _, _, readRM_next hr ?_, ?_, ?_, heffect⟩
  · rw [if_neg hpos.ne', if_neg (by omega)]
    exact ht
  · rw [hm, BitVec.toNat_ofNat, Nat.mod_eq_of_lt hq]
    exact (Nat.div_add_mod' ..).symm
  · rw [hm]; exact hrem

theorem tmod_sign (a b : Int) : a.tmod b = 0 ∨ (a.tmod b < 0 ↔ a < 0) := by
  by_cases h : b ∣ a
  · exact .inl (Int.tmod_eq_zero_of_dvd h)
  · have hs := Int.sign_tmod a b
    rw [if_neg h] at hs
    exact .inr (by rw [← Int.sign_eq_neg_one_iff_neg, hs, Int.sign_eq_neg_one_iff_neg])

theorem natAbs_tmod_lt {a b : Int} (h : b ≠ 0) : (a.tmod b).natAbs < b.natAbs := by
  rw [Int.natAbs_tmod]
  exact Nat.mod_lt _ (Int.natAbs_pos.mpr h)

/-- What is smaller in magnitude than a signed number of a width has that width. -/
theorem toInt_ofInt_of_natAbs_lt {w : Nat} (h0 : 0 < w) {n : Int} {d : BitVec w} (h : n.natAbs < d.toInt.natAbs) :
    (BitVec.ofInt w n).toInt = n := by
  have h1 := d.le_toInt
  have h2 := d.toInt_lt
  exact BitVec.toInt_ofInt_eq_self h0 (by omega) (by omega)

/-- IDIV with a divisor that is not 0 and a quotient that fits (R246). -/
theorem execIdiv_next (hn : s.HasNext) (hr : s.locReadable z (s.resolve e) = true)
    (hd : (s.valueAt z (s.resolve e)).toInt ≠ 0)
    (hlow : -2 ^ (z.bits - 1) ≤ (s.reg z (hiReg z) ++ s.reg z .eax).toInt.tdiv (s.valueAt z (s.resolve e)).toInt)
    (hhigh : (s.reg z (hiReg z) ++ s.reg z .eax).toInt.tdiv (s.valueAt z (s.resolve e)).toInt < 2 ^ (z.bits - 1)) :
    ∃ t q m, execIdiv z e s = .next t ∧
      (s.reg z (hiReg z) ++ s.reg z .eax).toInt = q.toInt * (s.valueAt z (s.resolve e)).toInt + m.toInt ∧
      m.toInt.natAbs < (s.valueAt z (s.resolve e)).toInt.natAbs ∧
      (m.toInt = 0 ∨ (m.toInt < 0 ↔ (s.reg z (hiReg z) ++ s.reg z .eax).toInt < 0)) ∧
      t.regs = (s.regs.write z (hiReg z) m).write z .eax q ∧ MemSame s t ∧ StatusFree s.flags t.flags ∧ Falls s t := by
  have hfits := not_fitsSigned (w := z.bits)
    ((s.reg z (hiReg z) ++ s.reg z .eax).toInt.tdiv (s.valueAt z (s.resolve e)).toInt)
  rw [decide_eq_false (by omega)] at hfits
  have hrem := natAbs_tmod_lt (a := (s.reg z (hiReg z) ++ s.reg z .eax).toInt) hd
  have hm := toInt_ofInt_of_natAbs_lt (bits_pos z) hrem
  obtain ⟨t, ht, heffect⟩ := setPair_next hn _ _ _
  refine ⟨t, _, _, readRM_next hr ?_, ?_, hm.symm ▸ hrem, hm.symm ▸ tmod_sign .., heffect⟩
  · rw [if_neg hd, if_neg (by simp [hfits])]
    exact ht
  · rw [hm, BitVec.toInt_ofInt_eq_self (bits_pos z) hlow hhigh]
    exact (Int.tdiv_mul_add_tmod ..).symm

/-- Settles O29. -/
theorem divIdivQuotientRemainder : Obligations.DivIdivQuotientRemainder :=
  ⟨fun _ _ _ hn hr hd => execDiv_next hn hr hd, fun _ _ _ hn hr hd hlow hhigh => execIdiv_next hn hr hd hlow hhigh⟩

/-- What raises an exception once an operand is read. -/
theorem readRM_fault {k : BitVec z.bits → Res State} {f : Fault} (hr : s.locReadable z (s.resolve e) = true)
    (hk : k (s.valueAt z (s.resolve e)) = .error (.fault f)) : Res.out (s.readRM z e >>= k) = .fault f :=
  out_fault.mpr (bind_error.mpr (.inr ⟨_, readRM_ok.mpr ⟨hr, rfl⟩, hk⟩))

/-- Settles O30: a divisor that is 0, else a quotient that does not fit. -/
theorem divideErrorRaisedWhen : Obligations.DivideErrorRaisedWhen := by
  refine ⟨fun z e s hr hd => readRM_fault hr ?_, fun z e s hr hd => readRM_fault hr ?_⟩
  · by_cases h0 : (s.valueAt z (s.resolve e)).toNat = 0
    · rw [if_pos h0]; rfl
    · have hq : 2 ^ z.bits ≤
          ((s.reg z (hiReg z)).toNat * 2 ^ z.bits + (s.reg z .eax).toNat) / (s.valueAt z (s.resolve e)).toNat := by
        rw [Nat.le_div_iff_mul_le (by omega)]
        exact (Nat.mul_le_mul_left _ hd).trans (by rw [Nat.mul_comm]; exact Nat.le_add_right ..)
      have := Nat.two_pow_pos z.bits
      rw [if_neg h0, if_pos (by omega)]; rfl
  · by_cases h0 : (s.valueAt z (s.resolve e)).toInt = 0
    · rw [if_pos h0]; rfl
    · rw [if_neg h0, not_fitsSigned, if_pos (decide_eq_true (hd.resolve_left h0))]; rfl

end Division

/-! ### Decimal adjusts -/

section Decimal
variable {s : State}

theorem lowAdjust_eq (al : Byte) (af : Bool) : lowAdjust al af = decide (9 < al.toNat % 16 ∨ af = true) := by
  simp [lowAdjust]

theorem highAdjust_eq (al : Byte) (cf : Bool) : highAdjust al cf = decide (0x99 < al.toNat ∨ cf = true) := by
  simp [highAdjust]

theorem toNat_and_low4 (x : Byte) : (x &&& 0x0F#8).toNat = x.toNat % 16 := Nat.and_two_pow_sub_one_eq_mod x.toNat 4

theorem toNat_ite_add (c : Bool) (x d : Byte) :
    (if c then x + d else x).toNat = (if c then x.toNat + d.toNat else x.toNat) % 256 := by
  cases c
  · exact (Nat.mod_eq_of_lt x.isLt).symm
  · exact BitVec.toNat_add ..

theorem toNat_ite_sub (c : Bool) (x d : Byte) :
    ((if c then x - d else x).toNat : Int) = (if c then (x.toNat : Int) - d.toNat else x.toNat) % 256 := by
  have hx := x.isLt
  have hd := d.isLt
  cases c
  · simp only [Bool.false_eq_true, if_false]; omega
  · simp only [if_true, BitVec.toNat_sub]; omega

/-- DAS's two borrows in one (R273). -/
theorem dasBorrow_eq (al : Byte) (af cf : Bool) :
    (highAdjust al cf || (lowAdjust al af && (cf || decide (al.toNat < 6)))) =
      decide (0x99 < al.toNat ∨ cf = true ∨ (al.toNat < 6 ∧ af = true)) := by
  rw [lowAdjust_eq, highAdjust_eq, Bool.eq_iff_iff]
  cases cf <;> cases af <;> simp
  omega

theorem asciiAdjust_eq (al ah : Byte) (af : Bool) (d e : Byte) : asciiAdjust al ah af d e =
    ((if lowAdjust al af then al + d else al) &&& 0x0F#8, if lowAdjust al af then ah + e else ah, lowAdjust al af) := by
  unfold asciiAdjust
  cases lowAdjust al af <;> rfl

/-- AAA and AAS leave AL, AH and CF = AF. -/
theorem asciiResult_next (hn : s.HasNext) (r : Byte × Byte × Bool) :
    ∃ t, Res.out (asciiResult s r) = .next t ∧
      t.regs = (s.regs.write .byte .eax r.1).write .byte .esp r.2.1 ∧ MemSame s t ∧ StatusFree s.flags t.flags ∧
      t.flags.cf = r.2.2 ∧ t.flags.af = r.2.2 ∧ Falls s t :=
  ⟨_, out_next.mpr (asciiResult_ok.mpr ⟨hn, rfl⟩), rfl, memSame_refl s, statusFree_withStatus_self .., rfl, rfl,
    falls_update ..⟩

/-- DAA and DAS leave AL and its flags, OF open. -/
theorem packedResult_next (hn : s.HasNext) (al : Byte) (af cf : Bool) :
    ∃ t, Res.out (packedResult s (al, packedStatus al af cf s.undefBit)) = .next t ∧
      t.regs = s.regs.write .byte .eax al ∧ MemSame s t ∧
      t.flags = { s.flags with
        cf := cf, af := af, sf := al.getLsbD 7, zf := decide (al.toNat = 0), pf := evenParity al, ofl := t.flags.ofl } ∧
      Falls s t := by
  refine ⟨_, out_next.mpr (packedResult_ok.mpr ⟨hn, rfl⟩), rfl, memSame_refl s, ?_, falls_update ..⟩
  simp only [packedStatus, Eflags.withStatus, parity8_eq, beq_zero_eq, msb_eq]

/-- Settles O31: the tests of the adjusts decide which sum or difference AL holds. -/
theorem decimalAdjustResultFlags : Obligations.DecimalAdjustResultFlags := by
  intro s hn
  refine ⟨?_, ?_, ?_, ?_⟩
  · obtain ⟨t, h, hregs, hm, hst, hcf, haf, hfall⟩ :=
      asciiResult_next hn (asciiAdjust (s.reg .byte .eax) (s.reg .byte .esp) s.flags.af 6#8 1#8)
    rw [asciiAdjust_eq] at hregs hcf haf
    rw [lowAdjust_eq] at hcf haf
    refine ⟨t, _, _, h, ?_, ?_, hregs, hm, hst, hcf, haf, hfall⟩
    · rw [toNat_and_low4, toNat_ite_add]
      simp only [lowAdjust_eq, decide_eq_true_eq, BitVec.toNat_ofNat]
      split <;> omega
    · rw [toNat_ite_add]
      simp only [lowAdjust_eq, decide_eq_true_eq, BitVec.toNat_ofNat]
  · obtain ⟨t, h, hregs, hm, hst, hcf, haf, hfall⟩ :=
      asciiResult_next hn (asciiAdjust (s.reg .byte .eax) (s.reg .byte .esp) s.flags.af (-6#8) (-1#8))
    rw [asciiAdjust_eq, ← BitVec.sub_eq_add_neg, ← BitVec.sub_eq_add_neg] at hregs hcf haf
    rw [lowAdjust_eq] at hcf haf
    refine ⟨t, _, _, h, ?_, ?_, hregs, hm, hst, hcf, haf, hfall⟩
    · rw [toNat_and_low4, Int.natCast_mod, toNat_ite_sub]
      simp only [lowAdjust_eq, decide_eq_true_eq, BitVec.toNat_ofNat]
      split <;> omega
    · rw [toNat_ite_sub]
      simp only [lowAdjust_eq, decide_eq_true_eq, BitVec.toNat_ofNat]
      rfl
  · obtain ⟨t, h, hregs, hm, hf, hfall⟩ := packedResult_next hn _ _ _
    refine ⟨t, _, h, ?_, hregs, hm, ?_, hfall⟩
    · rw [toNat_ite_add, toNat_ite_add]
      simp only [lowAdjust_eq, highAdjust_eq, decide_eq_true_eq, BitVec.toNat_ofNat]
      split_ifs <;> omega
    · rw [hf, lowAdjust_eq, highAdjust_eq]
  · obtain ⟨t, h, hregs, hm, hf, hfall⟩ := packedResult_next hn _ _ _
    refine ⟨t, _, h, ?_, hregs, hm, ?_, hfall⟩
    · rw [toNat_ite_sub, toNat_ite_sub]
      simp only [lowAdjust_eq, highAdjust_eq, decide_eq_true_eq, BitVec.toNat_ofNat]
      split_ifs <;> omega
    · rw [hf, dasBorrow_eq, lowAdjust_eq]

end Decimal

end Sys2Proof.Proofs
end

section
/-! Data movement and conversion (spec/40_data_movement.md): a value goes to its place and nothing else changes. -/

namespace Sys2Proof.Proofs

open Sys2Proof Sys2Proof.Machine Sys2Proof.Laws

section DataMovement
variable {s : State} {z : Size}

/-! ### One location written, no flag changed -/

theorem stored_npc_eq (s : State) (z : Size) (l : Loc) (v : BitVec z.bits) :
    { stored s z l v with pc := s.npc } = storedWith s z l v s.flags := by cases l <;> rfl

/-- The advance after a store to a location. -/
theorem stored_next (hn : s.HasNext) (l : Loc) (v : BitVec z.bits) :
    ∃ t, (stored s z l v).advance = .ok t ∧ LocWritten s t z l v ∧ t.flags = s.flags ∧ Falls s t := by
  refine ⟨_, (advance_ok_of (by simp) (by simp)).mpr ⟨hn, rfl⟩, ?_⟩
  rw [stored_npc_eq]
  exact ⟨locWritten_storedWith .., rfl, falls_storedWith ..⟩

theorem setReg_next (hn : s.HasNext) (g : GReg) (v : BitVec z.bits) :
    ∃ t, (s.setReg z g v).advance = .ok t ∧ LocWritten s t z (.reg g) v ∧ t.flags = s.flags ∧ Falls s t :=
  stored_next hn (.reg g) v

/-- A write to a location that may be written, then the advance. -/
theorem writeLoc_next (hn : s.HasNext) {l : Loc} (v : BitVec z.bits) (hw : s.locWritable z l = true) :
    ∃ t, Res.out (s.writeLoc z l v >>= State.advance) = .next t ∧ LocWritten s t z l v ∧ t.flags = s.flags ∧
      Falls s t := by
  obtain ⟨t, ht, heffect⟩ := stored_next hn l v
  exact ⟨t, out_next.mpr (bind_ok.mpr ⟨_, writeLoc_ok.mpr ⟨hw, rfl⟩, ht⟩), heffect⟩

/-- What follows the reading of memory that may be read. -/
theorem memRead_next {seg : Seg} {off : Word} {t : State} {k : BitVec z.bits → Res State}
    (hr : s.CanRead seg off z.bytes) (hk : k (s.memValue seg off z) = .ok t) :
    Res.out (s.memRead seg off z >>= k) = .next t :=
  out_next.mpr (bind_ok.mpr ⟨_, memRead_ok.mpr ⟨hr, rfl⟩, hk⟩)

/-- Settles O32, form by form. -/
theorem movCopiesValueOnly : Obligations.MovCopiesValueOnly := by
  intro s z hn
  refine ⟨fun e g hw => writeLoc_next hn _ hw, fun g e hr => ?_, fun g i => ?_, fun e i hw => writeLoc_next hn _ hw,
    fun o off hr => ?_, fun o off hw => ?_⟩
  · obtain ⟨t, ht, heffect⟩ := setReg_next hn g _
    exact ⟨t, readRM_next hr ht, heffect⟩
  · obtain ⟨t, ht, heffect⟩ := setReg_next hn g i
    exact ⟨t, out_next.mpr ht, heffect⟩
  · obtain ⟨t, ht, heffect⟩ := setReg_next hn .eax _
    exact ⟨t, memRead_next hr ht, heffect⟩
  · exact writeLoc_next (l := .mem (o.getD .ds) off) hn _ (decide_eq_true hw)

/-! ### Exchanges -/

/-- A byte of a register is read as before after a write to its other byte. -/
theorem subRead_subWrite_other {hi hi' : Bool} (h : hi' ≠ hi) (x : Word) (v : Byte) :
    subRead .byte hi' (subWrite .byte hi x v) = subRead .byte hi' x := by
  apply BitVec.eq_of_getLsbD_eq
  intro i hi8
  have hlow : i + subLow .byte hi' < 32 ∧ ¬(subLow .byte hi ≤ i + subLow .byte hi' ∧
      i + subLow .byte hi' < subLow .byte hi + Size.byte.bits) := by
    cases hi <;> cases hi' <;> simp_all [subLow, Size.bits] <;> omega
  rw [getLsbD_subRead, getLsbD_subRead, getLsbD_subWrite _ _ _ _ _ hlow.1, if_neg hlow.2]

/-- A byte register is named by its 32-bit register and by which of the two bytes it is (R21). -/
theorem eq_of_whole8 {g h : GReg} : whole8 h = whole8 g → isHigh h = isHigh g → h = g := by
  cases g <;> cases h <;> decide

/-- Another register name of the same width reads as before. -/
theorem read_write_reg_other (r : Regs) {g h : GReg} (v : BitVec z.bits) (hgh : h ≠ g) :
    (r.write z g v).read z h = r.read z h := by
  by_cases hw : wholeReg z h = wholeReg z g
  · cases z with
    | byte =>
      have hhigh : isHigh h ≠ isHigh g := fun hi => hgh (eq_of_whole8 hw hi)
      rw [Regs.read, Regs.write, hw, get_set_reg_same, subRead_subWrite_other hhigh, Regs.read, hw]
    | word => exact absurd hw hgh
    | dword => exact absurd hw hgh
  · rw [Regs.read, get_write_other _ _ _ _ _ hw, Regs.read]

/-- Two registers of one width exchanged: each reads what the other read. -/
theorem read_exchange (r : Regs) (z : Size) (g h : GReg) :
    ((r.write z g (r.read z h)).write z h (r.read z g)).read z g = r.read z h := by
  by_cases hgh : g = h
  · subst hgh; exact read_write_reg_same ..
  · rw [read_write_reg_other _ _ hgh, read_write_reg_same]

/-- XCHG of two registers. -/
theorem exchange_regs_next (hn : s.HasNext) (r g : GReg) :
    ∃ t, Res.out (exchange z (.reg r) g s) = .next t ∧
      t.regs = (s.regs.write z r (s.reg z g)).write z g (s.reg z r) ∧ t.reg z r = s.reg z g ∧
      t.reg z g = s.reg z r ∧ MemSame s t ∧ t.flags = s.flags ∧ Falls s t :=
  ⟨_, out_next.mpr (exchange_ok.mpr ⟨rfl, rfl, hn, rfl⟩), rfl, read_exchange .., read_write_reg_same .., memSame_refl s,
    rfl, falls_update ..⟩

/-- Settles O33. -/
theorem xchgSwapsOperands : Obligations.XchgSwapsOperands := by
  refine ⟨fun s z r g hn => exchange_regs_next hn r g, fun s z m g hn hw => ?_,
    fun s v g hn => exchange_regs_next hn .eax g⟩
  have hloc : s.locWritable z (.mem (operandSeg m) (s.ea m)) = true := decide_eq_true hw
  exact ⟨_, out_next.mpr (exchange_ok.mpr ⟨locReadable_of_locWritable hloc, hloc, hn, rfl⟩), rfl, memStored_poke s _ _ _,
    rfl, falls_update ..⟩

/-! ### The stack -/

/-- A push of a value that may be pushed, then the advance. -/
theorem push_next (hn : s.HasNext) (hp : s.CanPush z.bytes) (v : BitVec z.bits) :
    ∃ t, (s.push z v >>= State.advance) = .ok t ∧ Pushed s t z.bytes v.toNat ∧ t.flags = s.flags ∧ Falls s t :=
  ⟨_, bind_ok.mpr ⟨_, push_ok.mpr ⟨hp, rfl⟩, advance_ok.mpr ⟨hn, rfl⟩⟩, ⟨rfl, memStored_poke s _ _ _⟩, rfl, falls_update ..⟩

/-- What a state with other registers falls through to, the state itself does. -/
theorem falls_of_regs {t : State} {r : Regs} (h : Falls { s with regs := r } t) : Falls s t :=
  ⟨h.pc, h.env.segs, h.env.sys, h.env.cpl, h.env.memMap, h.env.code, h.env.haltAddr, h.env.ilen, h.env.draws⟩

/-- What follows a pop that may be made. -/
theorem pop_next {t : State} {k : BitVec z.bits × State → Res State} (hr : s.CanRead .ss s.regs.esp z.bytes)
    (hk : k (s.memValue .ss s.regs.esp z,
      { s with regs := s.regs.set .esp (s.regs.esp + BitVec.ofNat 32 z.bytes) }) = .ok t) :
    Res.out (s.pop z >>= k) = .next t :=
  out_next.mpr (bind_ok.mpr ⟨_, pop_ok.mpr ⟨hr, rfl, rfl⟩, hk⟩)

/-- Settles O34. -/
theorem pushPopMoveThroughStack : Obligations.PushPopMoveThroughStack := by
  refine ⟨fun s v hn hp => ⟨fun g => ?_, fun e hr => ?_, fun i => ?_, fun i => ?_⟩,
    fun s v hn hr => ⟨fun g => ?_, fun e u hu hw => ?_⟩⟩
  · obtain ⟨t, ht, heffect⟩ := push_next hn hp (s.reg v.size g)
    exact ⟨t, out_next.mpr ht, heffect⟩
  · obtain ⟨t, ht, heffect⟩ := push_next hn hp _
    exact ⟨t, readRM_next hr ht, heffect⟩
  · obtain ⟨t, ht, heffect⟩ := push_next hn hp i
    exact ⟨t, out_next.mpr ht, heffect⟩
  · obtain ⟨t, ht, heffect⟩ := push_next hn hp (sextByte v.size i)
    exact ⟨t, _, out_next.mpr ht, BitVec.toInt_signExtend_of_le (by cases v <;> decide), heffect⟩
  · exact ⟨_, pop_next hr (advance_ok.mpr ⟨hn, rfl⟩), rfl, memSame_refl s, rfl, falls_update ..⟩
  · subst hu
    obtain ⟨t, ht, hl, hf, hfall⟩ := writeLoc_next (by exact hn) (s.memValue .ss s.regs.esp v.size) hw
    exact ⟨t, pop_next hr (out_next.mp ht), hl, hf, falls_of_regs hfall⟩

/-! ### Conversions -/

/-- A number with copies of its sign above it has the same signed value. -/
theorem toInt_signFill {w : Nat} (h0 : 0 < w) (a : BitVec w) :
    ((if a.msb then BitVec.allOnes w else 0#w) ++ a).toInt = a.toInt := by
  rw [BitVec.toInt_append, if_neg (by simpa using h0.ne'), BitVec.toInt_eq_msb_cond a]
  cases a.msb
  · simp
  · simp [BitVec.toInt_allOnes, h0]; omega

/-- A register written with a value that has the property asked for. -/
theorem setReg_converted {P : BitVec z.bits → Prop} (hn : s.HasNext) (g : GReg) {v : BitVec z.bits} (hv : P v) :
    ∃ t x, Res.out (s.setReg z g v).advance = .next t ∧ P x ∧ LocWritten s t z (.reg g) x ∧ t.flags = s.flags ∧
      Falls s t := by
  obtain ⟨t, ht, heffect⟩ := setReg_next hn g v
  exact ⟨t, v, out_next.mpr ht, hv, heffect⟩

/-- The same, with a value computed from an operand that may be read. -/
theorem readRM_converted {y : Size} {e : RM} {k : BitVec y.bits → BitVec z.bits} {P : BitVec z.bits → Prop}
    (hn : s.HasNext) (hr : s.locReadable y (s.resolve e) = true) (g : GReg)
    (hk : P (k (s.valueAt y (s.resolve e)))) :
    ∃ t x, Res.out (s.readRM y e >>= fun v => (s.setReg z g (k v)).advance) = .next t ∧ P x ∧
      LocWritten s t z (.reg g) x ∧ t.flags = s.flags ∧ Falls s t := by
  obtain ⟨t, ht, heffect⟩ := setReg_next hn g (k (s.valueAt y (s.resolve e)))
  exact ⟨t, _, readRM_next hr ht, hk, heffect⟩

/-- Settles O35. -/
theorem conversionsKeepValue : Obligations.ConversionsKeepValue := by
  intro s hn
  refine ⟨?_, ?_, ?_, ?_, fun v g e hr => ⟨?_, ?_⟩, fun g e hr => ⟨?_, ?_⟩⟩
  · exact setReg_converted (P := (BitVec.toInt · = _)) hn .eax (BitVec.toInt_signExtend_of_le (by decide))
  · exact setReg_converted (P := (BitVec.toInt · = _)) hn .eax (BitVec.toInt_signExtend_of_le (by decide))
  · exact setReg_converted (z := .word) (P := fun x => (x ++ s.reg .word .eax).toInt = (s.reg .word .eax).toInt) hn .edx
      (toInt_signFill (w := 16) (by decide) _)
  · exact setReg_converted (z := .dword) (P := fun x => (x ++ s.reg .dword .eax).toInt = (s.reg .dword .eax).toInt) hn .edx
      (toInt_signFill (w := 32) (by decide) _)
  · exact readRM_converted (P := (BitVec.toInt · = _)) hn hr g
      (BitVec.toInt_signExtend_of_le (by cases v <;> decide))
  · exact readRM_converted (P := (BitVec.toNat · = _)) hn hr g
      (BitVec.toNat_setWidth_of_le (by cases v <;> decide))
  · exact readRM_converted (P := (BitVec.toInt · = _)) hn hr g (BitVec.toInt_signExtend_of_le (by decide))
  · exact readRM_converted (P := (BitVec.toNat · = _)) hn hr g (BitVec.toNat_setWidth_of_le (by decide))

end DataMovement
end Sys2Proof.Proofs
end

section
/-! Boolean, bit and byte-set instructions (spec/43_logical.md), bit by bit. -/

namespace Sys2Proof.Proofs

open Sys2Proof Sys2Proof.Machine Sys2Proof.Laws

section Logic
variable {s : State} {z : Size}

/-! ### Boolean operations -/

/-- A Boolean operation on bits, lifted to the operands of a two-operand instruction. -/
theorem boolean_next {f : AluForm} {op : BitVec (aluSize f).bits → BitVec (aluSize f).bits → BitVec (aluSize f).bits}
    {c : Bool → Bool → Bool} (hop : ∀ a b k, (op a b).getLsbD k = c (a.getLsbD k) (b.getLsbD k)) (hn : s.HasNext)
    (hw : s.locWritable (aluSize f) (aluDst s f) = true) (hr : aluSrcReadable s f = true) :
    ∃ t r, Res.out (aluWrite f (fun a b => (op a b, logicFlags (op a b) s.undefBit)) s) = .next t ∧
      (∀ k, r.getLsbD k = c ((s.valueAt (aluSize f) (aluDst s f)).getLsbD k) ((aluSrcValue s f).getLsbD k)) ∧
      LogicRule r s.flags t.flags ∧ LocWritten s t (aluSize f) (aluDst s f) r ∧ Falls s t := by
  obtain ⟨t, r, h, ⟨rfl, hl⟩, heffect⟩ := aluWrite_next (R := fun r g => r = op _ _ ∧ LogicRule r s.flags g)
    (op := fun a b => (op a b, logicFlags (op a b) s.undefBit)) hn hw hr ⟨rfl, logicRule_logicFlags ..⟩
  exact ⟨t, _, h, hop _ _, hl, heffect⟩

/-- TEST leaves the flags of the conjunction and nothing else (R285). -/
theorem testBits_next (hn : s.HasNext) (a b : BitVec z.bits) :
    ∃ t, testBits z a b s = .ok t ∧ LogicRule (a &&& b) s.flags t.flags ∧ DataSame s t ∧ Falls s t :=
  ⟨_, testBits_ok.mpr ⟨hn, rfl⟩, logicRule_logicFlags .., ⟨rfl, memSame_refl s⟩, falls_update ..⟩

/-- Settles O36. -/
theorem booleanBitwiseResultFlags : Obligations.BooleanBitwiseResultFlags := by
  refine ⟨fun f s hn hw hr => ⟨?_, ?_, ?_⟩, fun z e s hn hw => ?_,
    fun z s hn => ⟨fun e g hr => ?_, fun i => ?_, fun e i hr => ?_⟩⟩
  · exact boolean_next (fun _ _ _ => BitVec.getLsbD_and) hn hw hr
  · exact boolean_next (fun _ _ _ => BitVec.getLsbD_or) hn hw hr
  · exact boolean_next (fun _ _ _ => BitVec.getLsbD_xor) hn hw hr
  · obtain ⟨t, ht, heffect⟩ := writeLoc_next hn (~~~(s.valueAt z (s.resolve e))) hw
    exact ⟨t, _, readRM_next (locReadable_of_locWritable hw) (out_next.mp ht), BitVec.toNat_not, heffect⟩
  · obtain ⟨t, ht, heffect⟩ := testBits_next hn _ (s.reg z g)
    exact ⟨t, readRM_next hr ht, heffect⟩
  · obtain ⟨t, ht, heffect⟩ := testBits_next hn (s.reg z .eax) i
    exact ⟨t, out_next.mpr ht, heffect⟩
  · obtain ⟨t, ht, heffect⟩ := testBits_next hn _ i
    exact ⟨t, readRM_next hr ht, heffect⟩

/-! ### Bit tests -/

theorem bitFlagRule_bitStatus (c : Bool) (u : Nat → Bool) (f : Eflags) : BitFlagRule c f (f.withStatus (bitStatus c u)) :=
  rfl

theorem getLsbD_bitAt {w k : Nat} (hk : k < w) (i : Nat) : (bitAt w i).getLsbD k = decide (k = i) := by
  refine (BitVec.getLsbD_twoPow i k).trans ?_
  by_cases h : k = i
  · subst h; simp [hk]
  · simp [h, Ne.symm h]

/-- BT leaves CF and nothing else (R291). -/
theorem execBt_next {f : BitForm} (hn : s.HasNext) (hr : s.locReadable (bitSize f) (bitLoc s f).1 = true) :
    ∃ t, execBt f s = .next t ∧
      BitFlagRule ((s.valueAt (bitSize f) (bitLoc s f).1).getLsbD (bitLoc s f).2) s.flags t.flags ∧
      DataSame s t ∧ Falls s t :=
  ⟨_, out_next.mpr (bind_ok.mpr ⟨_, readLoc_ok.mpr ⟨hr, rfl⟩, advance_ok.mpr ⟨hn, rfl⟩⟩), bitFlagRule_bitStatus ..,
    ⟨rfl, memSame_refl s⟩, falls_update ..⟩

/-- BTS, BTR and BTC change the bit as `c` says and keep the others (R292 to R294). -/
theorem bitModify_next {f : BitForm} {upd : BitVec (bitSize f).bits → Nat → BitVec (bitSize f).bits} {c : Bool → Bool}
    (hupd : ∀ v i, ∀ k < (bitSize f).bits, (upd v i).getLsbD k = if k = i then c (v.getLsbD k) else v.getLsbD k)
    (hn : s.HasNext) (hw : s.locWritable (bitSize f) (bitLoc s f).1 = true) :
    ∃ t r, Res.out (bitModify f upd s) = .next t ∧ LocWritten s t (bitSize f) (bitLoc s f).1 r ∧
      (∀ k < (bitSize f).bits, r.getLsbD k =
        if k = (bitLoc s f).2 then c ((s.valueAt (bitSize f) (bitLoc s f).1).getLsbD k)
        else (s.valueAt (bitSize f) (bitLoc s f).1).getLsbD k) ∧
      BitFlagRule ((s.valueAt (bitSize f) (bitLoc s f).1).getLsbD (bitLoc s f).2) s.flags t.flags ∧ Falls s t :=
  ⟨_, _, out_next.mpr (bitModify_ok.mpr ⟨locReadable_of_locWritable hw, hw, hn, rfl⟩), locWritten_storedWith ..,
    hupd _ _, bitFlagRule_bitStatus .., falls_storedWith ..⟩

/-- A register bit offset into memory: how many units away the bit is, and which bit of that unit (R290). -/
theorem bitLoc_mem (s : State) (v : VSize) (m : MemOp) (g : GReg) :
    ∃ (off : Word) (i : Nat) (k : Int), bitLoc s (.reg v (.mem m) g) = (.mem (operandSeg m) off, i) ∧
      i < v.size.bits ∧ (s.reg v.size g).toInt = k * v.size.bits + i ∧
      (off.toNat : Int) = ((s.ea m).toNat + v.size.bytes * k) % 4294967296 := by
  have hpos : (0 : Int) < v.size.bits := by exact_mod_cast bits_pos v.size
  have hmod := Int.emod_nonneg (s.reg v.size g).toInt hpos.ne'
  have hlt := Int.emod_lt_of_pos (s.reg v.size g).toInt hpos
  refine ⟨_, _, (s.reg v.size g).toInt / v.size.bits, rfl, by omega, ?_, ?_⟩
  · rw [Int.toNat_of_nonneg hmod]
    exact (Int.ediv_mul_add_emod ..).symm
  · rw [BitVec.toNat_add, Int.natCast_mod, Int.natCast_add, toNat_ofInt_eq]
    exact Int.add_emod_emod ..

/-- Settles O37. -/
theorem bitTestSelectsAndChangesBit : Obligations.BitTestSelectsAndChangesBit := by
  refine ⟨fun f s hn => ⟨execBt_next hn, fun hw => ⟨?_, ?_, ?_⟩⟩,
    fun s v => ⟨fun e i => rfl, fun r g => rfl, bitLoc_mem s v⟩⟩
  · refine bitModify_next (c := fun _ => true) (fun v i k hk => ?_) hn hw
    rw [BitVec.getLsbD_or, getLsbD_bitAt hk]
    by_cases h : k = i <;> simp [h]
  · refine bitModify_next (c := fun _ => false) (fun v i k hk => ?_) hn hw
    rw [BitVec.getLsbD_and, BitVec.getLsbD_not, getLsbD_bitAt hk]
    by_cases h : k = i <;> simp [h, hk]
  · refine bitModify_next (c := not) (fun v i k hk => ?_) hn hw
    rw [BitVec.getLsbD_xor, getLsbD_bitAt hk]
    by_cases h : k = i <;> simp [h]

/-! ### Bit scans -/

section Scan
variable {w : Nat} {x : BitVec w}

theorem lowestBit_eq_some {i : Nat} :
    lowestBit x = some i ↔ i < w ∧ x.getLsbD i = true ∧ ∀ k < i, x.getLsbD k = false := by
  rw [lowestBit, List.find?_range_eq_some]
  simp only [List.mem_range, Bool.not_eq_true']
  tauto

/-- The last number below `n` with a property. -/
theorem find_reverse_range {p : Nat → Bool} {n i : Nat} :
    (List.range n).reverse.find? p = some i ↔ i < n ∧ p i = true ∧ ∀ k, i < k → k < n → p k = false := by
  induction n with
  | zero => simp
  | succ n ih =>
    rw [List.range_succ, List.reverse_append, List.reverse_singleton, List.singleton_append, List.find?_cons]
    cases hp : p n with
    | true =>
      simp only [Option.some.injEq]
      constructor
      · rintro rfl
        exact ⟨by omega, hp, fun k h1 h2 => by omega⟩
      · rintro ⟨h1, -, h2⟩
        by_contra hne
        have := h2 n (by omega) (by omega)
        rw [hp] at this; cases this
    | false =>
      rw [ih]
      constructor
      · rintro ⟨h1, h2, h3⟩
        refine ⟨by omega, h2, fun k hk hkn => ?_⟩
        by_cases hkn' : k = n
        · rw [hkn', hp]
        · exact h3 k hk (by omega)
      · rintro ⟨h1, h2, h3⟩
        refine ⟨?_, h2, fun k hk hkn => h3 k hk (by omega)⟩
        by_contra hin
        rw [show i = n by omega, hp] at h2; cases h2

theorem highestBit_eq_some {i : Nat} :
    highestBit x = some i ↔ i < w ∧ x.getLsbD i = true ∧ ∀ k, i < k → x.getLsbD k = false := by
  rw [highestBit, find_reverse_range]
  refine and_congr_right fun _ => and_congr_right fun _ => forall_congr' fun k => forall_congr' fun _ => ?_
  exact ⟨fun h => (lt_or_ge k w).elim h fun hk => BitVec.getLsbD_of_ge x k hk, fun h _ => h⟩

theorem eq_zero_iff_getLsbD : x = 0 ↔ ∀ i < w, x.getLsbD i = false := by
  constructor
  · rintro rfl i -
    exact BitVec.getLsbD_zero
  · intro h
    exact BitVec.eq_of_getLsbD_eq fun i hi => (h i hi).trans BitVec.getLsbD_zero.symm

theorem lowestBit_eq_none : lowestBit x = none ↔ x = 0 := by
  rw [lowestBit, List.find?_eq_none, eq_zero_iff_getLsbD]
  simp

theorem highestBit_eq_none : highestBit x = none ↔ x = 0 := by
  rw [highestBit, List.find?_eq_none, eq_zero_iff_getLsbD]
  simp

end Scan

theorem scanFlagRule_scanStatus (c : Bool) (u : Nat → Bool) (f : Eflags) :
    ScanFlagRule c f (f.withStatus (scanStatus c u)) := rfl

/-- A bit scan that finds nothing. -/
theorem scanInto_none_next (hn : s.HasNext) (g : GReg) :
    ∃ t d, scanInto z g none s = .ok t ∧ LocWritten s t z (.reg g) d ∧ ScanFlagRule true s.flags t.flags ∧ Falls s t :=
  ⟨_, s.undefBits z, scanInto_ok.mpr ⟨hn, rfl⟩, ⟨rfl, memSame_refl s⟩, scanFlagRule_scanStatus .., falls_update ..⟩

/-- A bit scan that finds a bit number of the operand. -/
theorem scanInto_some_next (hn : s.HasNext) (g : GReg) {i : Nat} (hi : i < z.bits) :
    ∃ t d, scanInto z g (some i) s = .ok t ∧ LocWritten s t z (.reg g) d ∧ d.toNat = i ∧
      ScanFlagRule false s.flags t.flags ∧ Falls s t :=
  ⟨_, _, scanInto_ok.mpr ⟨hn, rfl⟩, ⟨rfl, memSame_refl s⟩,
    (BitVec.toNat_ofNat ..).trans (Nat.mod_eq_of_lt (hi.trans Nat.lt_two_pow_self)), scanFlagRule_scanStatus ..,
    falls_update ..⟩

/-- Settles O38. -/
theorem bitScanFindsSetBit : Obligations.BitScanFindsSetBit := by
  intro v g e s hn hr
  refine ⟨fun h0 => ⟨?_, ?_⟩, fun h0 => ⟨?_, ?_⟩⟩
  · obtain ⟨t, d, ht, heffect⟩ := scanInto_none_next (z := v.size) hn g
    exact ⟨t, d, readRM_next hr (by rw [lowestBit_eq_none.mpr h0]; exact ht), heffect⟩
  · obtain ⟨t, d, ht, heffect⟩ := scanInto_none_next (z := v.size) hn g
    exact ⟨t, d, readRM_next hr (by rw [highestBit_eq_none.mpr h0]; exact ht), heffect⟩
  · obtain ⟨i, hi⟩ := Option.ne_none_iff_exists'.mp (mt lowestBit_eq_none.mp h0)
    obtain ⟨hlt, hset, hleast⟩ := lowestBit_eq_some.mp hi
    obtain ⟨t, d, ht, hw, rfl, heffect⟩ := scanInto_some_next hn g hlt
    exact ⟨t, d, readRM_next hr (by rw [hi]; exact ht), hw, hlt, hset, hleast, heffect⟩
  · obtain ⟨i, hi⟩ := Option.ne_none_iff_exists'.mp (mt highestBit_eq_none.mp h0)
    obtain ⟨hlt, hset, hgreatest⟩ := highestBit_eq_some.mp hi
    obtain ⟨t, d, ht, hw, rfl, heffect⟩ := scanInto_some_next hn g hlt
    exact ⟨t, d, readRM_next hr (by rw [hi]; exact ht), hw, hlt, hset, hgreatest, heffect⟩

/-! ### Conditions -/

/-- Each row of the table of R340 is one condition: its SETcc, its Jcc, and when it is true. -/
theorem conditionTable_cond {c : (RM → Instr) × (Rel → Instr) × (Eflags → Bool)} (h : c ∈ conditionTable) :
    ∃ k : Cond, (∀ e s, exec (c.1 e) s = Res.out (setByte k e s)) ∧
      (∀ d s, exec (c.2.1 d) s = Res.out (jumpIf k d s)) ∧ ∀ f, c.2.2 f = f.holds k := by
  simp only [conditionTable, List.mem_cons, List.not_mem_nil, or_false] at h
  rcases h with rfl | rfl | rfl | rfl | rfl | rfl | rfl | rfl | rfl | rfl | rfl | rfl | rfl | rfl | rfl | rfl
  all_goals exact ⟨_, fun _ _ => rfl, fun _ _ => rfl, fun _ => rfl⟩

/-- Settles O39. -/
theorem setByteOnCondition : Obligations.SetByteOnCondition := by
  intro c hc e s hn hw
  obtain ⟨k, hset, -, htrue⟩ := conditionTable_cond hc
  rw [hset, htrue]
  exact writeLoc_next hn _ hw

end Logic
end Sys2Proof.Proofs
end

section
/-! Shifts and rotates (spec/44_shift_rotate.md), bit by bit. -/

namespace Sys2Proof.Proofs

open Sys2Proof Sys2Proof.Machine Sys2Proof.Laws

section Shifts
variable {s : State}

/-! ### A masked count of 0 -/

/-- An advance alone changes nothing but pc. -/
theorem advance_next (hn : s.HasNext) :
    ∃ t, s.advance = .ok t ∧ DataSame s t ∧ t.flags = s.flags ∧ Falls s t :=
  ⟨_, advance_ok.mpr ⟨hn, rfl⟩, ⟨rfl, memSame_refl s⟩, rfl, falls_update ..⟩

/-- What ends in the advance of its own state changes nothing but pc. -/
theorem unchanged_next {r : Res State} (hn : s.HasNext) (h : r = .ok { s with pc := s.npc }) :
    ∃ t, Res.out r = .next t ∧ DataSame s t ∧ t.flags = s.flags ∧ Falls s t := by
  obtain ⟨t, ht, heffect⟩ := advance_next hn
  obtain ⟨-, rfl⟩ := advance_ok.mp ht
  exact ⟨_, out_next.mpr h, heffect⟩

/-- Settles O40. -/
theorem shiftByZeroChangesNothing : Obligations.ShiftByZeroChangesNothing := by
  refine ⟨fun z e c s hn hr h0 i hi => ?_, fun v e g c s hn hr h0 i hi => ?_⟩
  · have hshift (op) : shiftBy z e c op s = .ok { s with pc := s.npc } := shiftBy_ok.mpr ⟨hr, hn, .inl ⟨h0, rfl⟩⟩
    have hrotate (op) : rotateBy z e c op s = .ok { s with pc := s.npc } := rotateBy_ok.mpr ⟨hr, hn, .inl ⟨h0, rfl⟩⟩
    simp only [List.mem_cons, List.not_mem_nil, or_false] at hi
    rcases hi with rfl | rfl | rfl | rfl | rfl | rfl | rfl
    iterate 3 exact unchanged_next hn (hshift _)
    iterate 4 exact unchanged_next hn (hrotate _)
  · have hdouble (op) : doubleShift v e g c op s = .ok { s with pc := s.npc } :=
      doubleShift_ok.mpr ⟨hr, hn, .inl ⟨h0, rfl⟩⟩
    simp only [List.mem_cons, List.not_mem_nil, or_false] at hi
    rcases hi with rfl | rfl
    iterate 2 exact unchanged_next hn (hdouble _)

/-! ### A masked count of at least 1 -/

section Counted
variable {z : Size} {e : RM} {c : Count} {n : Nat}

/-- A shift leaves its result and its flags. -/
theorem shiftBy_next (op : BitVec z.bits → Nat → (Nat → Bool) → BitVec z.bits × Status) (hn : s.HasNext)
    (hw : s.locWritable z (s.resolve e) = true) (hc : n = (s.count c).toNat % 32) (h1 : 1 ≤ n) :
    ∃ t, Res.out (shiftBy z e c op s) = .next t ∧
      t.flags = s.flags.withStatus (op (s.valueAt z (s.resolve e)) n s.undefBit).2 ∧
      LocWritten s t z (s.resolve e) (op (s.valueAt z (s.resolve e)) n s.undefBit).1 ∧ Falls s t := by
  subst hc
  exact ⟨_, out_next.mpr (shiftBy_ok.mpr ⟨locReadable_of_locWritable hw, hn, .inr ⟨Nat.ne_of_gt h1, hw, rfl⟩⟩), rfl,
    locWritten_storedWith .., falls_storedWith ..⟩

/-- A rotate leaves its result, CF and OF. -/
theorem rotateBy_next (op : BitVec z.bits → Bool → Nat → (Nat → Bool) → BitVec z.bits × Bool × Bool) (hn : s.HasNext)
    (hw : s.locWritable z (s.resolve e) = true) (hc : n = (s.count c).toNat % 32) (h1 : 1 ≤ n) :
    ∃ t, Res.out (rotateBy z e c op s) = .next t ∧
      t.flags.cf = (op (s.valueAt z (s.resolve e)) s.flags.cf n s.undefBit).2.1 ∧
      t.flags.ofl = (op (s.valueAt z (s.resolve e)) s.flags.cf n s.undefBit).2.2 ∧ RotateFlagRule s.flags t.flags ∧
      LocWritten s t z (s.resolve e) (op (s.valueAt z (s.resolve e)) s.flags.cf n s.undefBit).1 ∧ Falls s t := by
  subst hc
  exact ⟨_, out_next.mpr (rotateBy_ok.mpr ⟨locReadable_of_locWritable hw, hn, .inr ⟨Nat.ne_of_gt h1, hw, rfl⟩⟩),
    rfl, rfl, rfl, locWritten_storedWith .., falls_storedWith ..⟩

/-- A double shift leaves its result and its flags. -/
theorem doubleShift_next {v : VSize} {g : GReg} {c : DCount}
    (op : BitVec v.size.bits → BitVec v.size.bits → Nat → BitVec v.size.bits → (Nat → Bool) →
      BitVec v.size.bits × Status) (hn : s.HasNext) (hw : s.locWritable v.size (s.resolve e) = true)
    (hc : n = (s.dcount c).toNat % 32) (h1 : 1 ≤ n) :
    ∃ t, Res.out (doubleShift v e g c op s) = .next t ∧
      t.flags = s.flags.withStatus
        (op (s.valueAt v.size (s.resolve e)) (s.reg v.size g) n (s.undefBits v.size) s.undefBit).2 ∧
      LocWritten s t v.size (s.resolve e)
        (op (s.valueAt v.size (s.resolve e)) (s.reg v.size g) n (s.undefBits v.size) s.undefBit).1 ∧ Falls s t := by
  subst hc
  exact ⟨_, out_next.mpr (doubleShift_ok.mpr
    ⟨locReadable_of_locWritable hw, hn, .inr ⟨Nat.ne_of_gt h1, hw, rfl⟩⟩), rfl, locWritten_storedWith ..,
    falls_storedWith ..⟩

end Counted

/-! ### Shifts -/

section ShiftCalc
variable {w : Nat} (a b : BitVec w) (n : Nat) (u : Nat → Bool)

theorem toNat_shrCalc : (shrCalc a n u).1.toNat = a.toNat / 2 ^ n :=
  (BitVec.toNat_ofNat ..).trans (Nat.mod_eq_of_lt ((Nat.div_le_self ..).trans_lt a.isLt))

/-- SAR rounds down (R313). -/
theorem toInt_sarCalc : (sarCalc a n u).1.toInt = a.toInt.fdiv (2 ^ n) := by
  have h : (sarCalc a n u).1 = a.sshiftRight n := by
    rw [BitVec.sshiftRight, Int.shiftRight_eq_div_pow]
    norm_cast
  rw [h, BitVec.toInt_sshiftRight, Int.shiftRight_eq_div_pow, Int.fdiv_eq_ediv_of_nonneg _ (by positivity)]
  norm_cast

end ShiftCalc

/-- Settles O41. -/
theorem shiftsResultFlags : Obligations.ShiftsResultFlags := by
  intro z e c s n hn hw hc h1
  refine ⟨?_, ?_, ?_⟩
  · obtain ⟨t, h, hf, heffect⟩ := shiftBy_next shlCalc hn hw hc h1
    refine ⟨t, _, h, BitVec.toNat_ofNat .., fun hlt => ?_, fun hone => ?_, ?_, heffect⟩ <;> rw [hf]
    · exact if_pos hlt
    · rw [← msb_eq]; exact if_pos hone
    · exact shiftRule_shiftStatus ..
  · obtain ⟨t, h, hf, heffect⟩ := shiftBy_next shrCalc hn hw hc h1
    refine ⟨t, _, h, toNat_shrCalc .., fun hlt => ?_, fun hone => ?_, ?_, heffect⟩ <;> rw [hf]
    · exact if_pos hlt
    · rw [← msb_eq]; exact if_pos hone
    · exact shiftRule_shiftStatus ..
  · obtain ⟨t, h, hf, heffect⟩ := shiftBy_next sarCalc hn hw hc h1
    have hpos := bits_pos z
    refine ⟨t, _, h, toInt_sarCalc .., fun hle => ?_, fun hge => ?_, fun hone => ?_, ?_, heffect⟩ <;> rw [hf]
    · exact if_pos hle
    · rw [← msb_eq]; exact if_neg (by omega)
    · exact if_pos hone
    · exact shiftRule_shiftStatus ..

/-! ### Double shifts -/

section DoubleCalc
variable {w : Nat} (a b d : BitVec w) {n : Nat} (u : Nat → Bool)

/-- A bit of two numbers side by side. -/
theorem testBit_pair (k : Nat) :
    (a.toNat * 2 ^ w + b.toNat).testBit k = if k < w then b.getLsbD k else a.getLsbD (k - w) := by
  rw [Nat.mul_comm, Nat.testBit_two_pow_mul_add _ b.isLt]
  rfl

theorem getLsbD_shldCalc (hn : n ≤ w) {k : Nat} (hk : k < w) : (shldCalc a b n d u).1.getLsbD k =
    if n ≤ k then a.getLsbD (k - n) else b.getLsbD (w - n + k) := by
  rw [shldCalc, if_pos hn, BitVec.getLsbD_ofNat, Nat.testBit_div_two_pow, Nat.testBit_mul_two_pow, testBit_pair,
    decide_eq_true hk, decide_eq_true (by omega : k + w ≥ n), Bool.true_and, Bool.true_and]
  by_cases h : n ≤ k
  · rw [if_neg (by omega), if_pos h, show k + w - n - w = k - n by omega]
  · rw [if_pos (by omega), if_neg h, show k + w - n = w - n + k by omega]

theorem getLsbD_shrdCalc (hn : n ≤ w) {k : Nat} (hk : k < w) : (shrdCalc a b n d u).1.getLsbD k =
    if k + n < w then a.getLsbD (k + n) else b.getLsbD (k + n - w) := by
  rw [shrdCalc, if_pos hn, BitVec.getLsbD_ofNat, Nat.testBit_div_two_pow, testBit_pair, decide_eq_true hk,
    Bool.true_and]

end DoubleCalc

/-- Settles O42. -/
theorem doubleShiftsResultFlags : Obligations.DoubleShiftsResultFlags := by
  intro v e g c s n hn hw hc h1
  obtain ⟨t, h, hf, heffect⟩ := doubleShift_next (g := g) shldCalc hn hw hc h1
  obtain ⟨t', h', hf', heffect'⟩ := doubleShift_next (g := g) shrdCalc hn hw hc h1
  refine ⟨fun hle => ⟨⟨t, _, h, fun k hk => getLsbD_shldCalc _ _ _ _ hle hk, ?_, ?_, heffect⟩,
      t', _, h', fun k hk => getLsbD_shrdCalc _ _ _ _ hle hk, ?_, ?_, heffect'⟩,
    fun hgt => ⟨⟨t, _, h, ?_, heffect⟩, t', _, h', ?_, heffect'⟩⟩
  · rw [hf, shldCalc, if_pos hle]; rfl
  · rw [hf, shldCalc, if_pos hle]; exact shiftRule_shiftStatus ..
  · rw [hf', shrdCalc, if_pos hle]; rfl
  · rw [hf', shrdCalc, if_pos hle]; exact shiftRule_shiftStatus ..
  · rw [hf]; exact statusFree_withStatus_self ..
  · rw [hf']; exact statusFree_withStatus_self ..

/-! ### Rotates -/

section RotateCalc
variable {l x m n : Nat}

/-- A string of `l` bits rotated left by `m`: bit `k` goes to `k + m` modulo `l`. -/
theorem testBit_rotateLeft (hx : x < 2 ^ l) (hm : m < l) {k : Nat} (hk : k < l) :
    (x * 2 ^ m ||| x / 2 ^ (l - m)).testBit ((k + m) % l) = x.testBit k := by
  have hhigh : ∀ j, l ≤ j → x.testBit j = false := fun j hj =>
    Nat.testBit_lt_two_pow (hx.trans_le (Nat.pow_le_pow_right (by decide) hj))
  rw [Nat.testBit_or, Nat.testBit_mul_two_pow, Nat.testBit_div_two_pow]
  by_cases h : k + m < l
  · rw [Nat.mod_eq_of_lt h, Nat.add_sub_cancel, hhigh (k + m + (l - m)) (by omega),
      decide_eq_true (by omega : k + m ≥ m)]
    simp
  · rw [Nat.mod_eq_sub_mod (by omega), Nat.mod_eq_of_lt (by omega : k + m - l < l),
      decide_eq_false (by omega : ¬k + m - l ≥ m), show k + m - l + (l - m) = k by omega]
    simp

/-- A string of `l` bits rotated right by `m`: bit `k` comes from `k + m` modulo `l`. -/
theorem testBit_rotateRight (hx : x < 2 ^ l) (hm : m < l) {k : Nat} (hk : k < l) :
    (x / 2 ^ m ||| x * 2 ^ (l - m)).testBit k = x.testBit ((k + m) % l) := by
  have hhigh : ∀ j, l ≤ j → x.testBit j = false := fun j hj =>
    Nat.testBit_lt_two_pow (hx.trans_le (Nat.pow_le_pow_right (by decide) hj))
  rw [Nat.testBit_or, Nat.testBit_mul_two_pow, Nat.testBit_div_two_pow]
  by_cases h : k + m < l
  · rw [Nat.mod_eq_of_lt h, decide_eq_false (by omega : ¬k ≥ l - m)]
    simp
  · rw [Nat.mod_eq_sub_mod (by omega), Nat.mod_eq_of_lt (by omega : k + m - l < l), hhigh _ (by omega),
      decide_eq_true (by omega : k ≥ l - m), show k - (l - m) = k + m - l by omega]
    simp

variable {w : Nat} (a : BitVec w) (c : Bool) (u : Nat → Bool)

theorem getLsbD_rolCalc {k : Nat} (hk : k < w) :
    (rolCalc a c n u).1.getLsbD ((k + n) % w) = a.getLsbD k := by
  have hpos : 0 < w := by omega
  rw [rolCalc, ← BitVec.ofNat_or, BitVec.getLsbD_ofNat, decide_eq_true (Nat.mod_lt _ hpos), Bool.true_and,
    ← Nat.add_mod_mod, testBit_rotateLeft a.isLt (Nat.mod_lt _ hpos) hk]
  rfl

theorem getLsbD_rorCalc {k : Nat} (hk : k < w) :
    (rorCalc a c n u).1.getLsbD k = a.getLsbD ((k + n) % w) := by
  have hpos : 0 < w := by omega
  rw [rorCalc, ← BitVec.ofNat_or, BitVec.getLsbD_ofNat, decide_eq_true hk, Bool.true_and,
    testBit_rotateRight a.isLt (Nat.mod_lt _ hpos) hk, Nat.add_mod_mod]
  rfl

end RotateCalc

/-- Settles O43. -/
theorem rotatesMoveEveryBit : Obligations.RotatesMoveEveryBit := by
  intro z e c s n hn hw hc h1
  constructor
  · obtain ⟨t, h, hcf, hof, heffect⟩ := rotateBy_next rolCalc hn hw hc h1
    refine ⟨t, _, h, fun k hk => getLsbD_rolCalc _ _ _ hk, hcf, fun hone => ?_, heffect⟩
    rw [hof, ← msb_eq]; exact if_pos hone
  · obtain ⟨t, h, hcf, hof, heffect⟩ := rotateBy_next rorCalc hn hw hc h1
    refine ⟨t, _, h, fun k hk => getLsbD_rorCalc _ _ _ hk, ?_, fun hone => ?_, heffect⟩
    · rw [hcf]; exact msb_eq _
    · rw [hof, ← msb_eq]; exact if_pos hone

/-! ### Rotates through carry -/

section CarryCalc
variable {w : Nat} (a : BitVec w) (c : Bool) {n : Nat} (u : Nat → Bool)

/-- The string of an operand with CF above it, as a number (R322). -/
theorem testBit_carryString (k : Nat) :
    (c.toNat * 2 ^ w + a.toNat).testBit k = (BitVec.ofBool c ++ a).getLsbD k := by
  rw [Nat.mul_comm, Nat.testBit_two_pow_mul_add _ a.isLt, BitVec.getLsbD_append, ← BitVec.toNat_ofBool]
  rfl

theorem carryString_lt : c.toNat * 2 ^ w + a.toNat < 2 ^ (w + 1) := by
  have := a.isLt
  cases c <;> simp [pow_succ] <;> omega

/-- The string split again into CF and the operand. -/
theorem getLsbD_splitString (y : Nat) {k : Nat} (hk : k < w + 1) :
    (BitVec.ofBool (y.testBit w) ++ BitVec.ofNat w y).getLsbD k = y.testBit k := by
  rw [BitVec.getLsbD_append, BitVec.getLsbD_ofNat]
  by_cases h : k < w
  · simp [h]
  · simp [show k = w by omega]

theorem getLsbD_rclCalc {k : Nat} (hk : k < w + 1) :
    (BitVec.ofBool (rclCalc a c n u).2.1 ++ (rclCalc a c n u).1).getLsbD ((k + n) % (w + 1)) =
      (BitVec.ofBool c ++ a).getLsbD k := by
  have hlt : (k + n) % (w + 1) < w + 1 := Nat.mod_lt _ (by omega)
  refine (getLsbD_splitString _ hlt).trans ?_
  rw [rotateCarry, Nat.testBit_mod_two_pow, decide_eq_true hlt, Bool.true_and, ← Nat.add_mod_mod,
    testBit_rotateLeft (carryString_lt a c) (Nat.mod_lt _ (by omega)) hk, testBit_carryString]

theorem getLsbD_rcrCalc {k : Nat} (hk : k < w + 1) :
    (BitVec.ofBool (rcrCalc a c n u).2.1 ++ (rcrCalc a c n u).1).getLsbD k =
      (BitVec.ofBool c ++ a).getLsbD ((k + n) % (w + 1)) := by
  refine (getLsbD_splitString _ hk).trans ?_
  rw [Nat.testBit_mod_two_pow, decide_eq_true hk, Bool.true_and,
    testBit_rotateRight (carryString_lt a c) (Nat.mod_lt _ (by omega)) hk, Nat.add_mod_mod, testBit_carryString]

end CarryCalc

/-- Settles O44. -/
theorem rotatesThroughCarryMoveEveryBit : Obligations.RotatesThroughCarryMoveEveryBit := by
  intro z e c s n hn hw hc h1
  constructor
  · obtain ⟨t, h, hcf, hof, heffect⟩ := rotateBy_next rclCalc hn hw hc h1
    refine ⟨t, _, h, fun k hk => ?_, fun hone => ?_, heffect⟩
    · rw [hcf]; exact getLsbD_rclCalc _ _ _ hk
    · rw [hof, hcf, ← msb_eq]; exact if_pos hone
  · obtain ⟨t, h, hcf, hof, heffect⟩ := rotateBy_next rcrCalc hn hw hc h1
    refine ⟨t, _, h, fun k hk => ?_, fun hone => ?_, heffect⟩
    · rw [hcf]; exact getLsbD_rcrCalc _ _ _ hk
    · rw [hof, ← msb_eq]; exact if_pos hone

end Shifts
end Sys2Proof.Proofs
end

section
/-! Near control transfers and software interrupts (spec/45_control_transfer.md). -/

namespace Sys2Proof.Proofs

open Sys2Proof Sys2Proof.Machine Sys2Proof.Laws

section Control
variable {s : State}

/-! ### Jumps -/

theorem relTarget_refused {rel : Word} (h : ¬s.CanBranch rel) : s.relTarget rel = .error (.refuse .addressWrap) :=
  if_neg h

theorem branch_next {rel : Word} (h : s.CanBranch rel) : s.branch rel = .ok { s with pc := s.npc + rel } :=
  branch_ok.mpr ⟨h, by rw [branch_target]⟩

theorem branch_refused {rel : Word} (h : ¬s.CanBranch rel) : s.branch rel = .error (.refuse .addressWrap) :=
  bind_error.mpr (.inl (relTarget_refused h))

/-- Settles O45. -/
theorem jumpsGoToTarget : Obligations.JumpsGoToTarget := by
  refine ⟨fun d s h => out_next.mpr (branch_next h), fun d s h => out_refused.mpr (branch_refused h),
    fun e s hr => readRM_next hr rfl, fun c hc d s => ?_⟩
  obtain ⟨k, -, hjump, htrue⟩ := conditionTable_cond hc
  rw [hjump, htrue]
  refine ⟨fun hk h => out_next.mpr (jumpIf_ok.mpr (.inl ⟨hk, h, rfl⟩)), fun hk h => out_refused.mpr ?_,
    fun hk h => out_next.mpr (jumpIf_ok.mpr (.inr ⟨hk, h, rfl⟩))⟩
  rw [jumpIf, if_pos hk, branch_refused h]

/-! ### CALL and RET -/

/-- The push of a return address, then the transfer. -/
theorem pushCall_next (hp : s.CanPush 4) (target : Word) :
    ∃ t, (s.push .dword s.npc >>= fun u => Except.ok { u with pc := target }) = (.ok t : Res State) ∧
      Pushed s t 4 s.npc.toNat ∧ t.pc = target ∧ t.flags = s.flags ∧ EnvSame s t :=
  ⟨_, bind_ok.mpr ⟨_, push_ok.mpr ⟨hp, rfl⟩, rfl⟩, ⟨rfl, memStored_poke s _ _ _⟩, rfl, rfl,
    ⟨rfl, rfl, rfl, rfl, rfl, rfl, rfl, rfl⟩⟩

/-- Settles O46. -/
theorem callPushesRetPops : Obligations.CallPushesRetPops := by
  refine ⟨fun d s hb hp => ?_, fun e s hr hp => ?_, fun s hr => pop_next hr rfl, fun n s hr => ?_⟩
  · obtain ⟨t, ht, heffect⟩ := pushCall_next hp (s.npc + d)
    exact ⟨t, out_next.mpr (bind_ok.mpr ⟨_, relTarget_ok.mpr ⟨hb, (branch_target s d).symm⟩, ht⟩), heffect⟩
  · obtain ⟨t, ht, heffect⟩ := pushCall_next hp _
    exact ⟨t, readRM_next hr ht, heffect⟩
  · rw [BitVec.ofNat_toNat]
    exact pop_next hr rfl

/-! ### Loops -/

theorem sub_one_eq_zero_iff {x : Word} : x - 1#32 = 0#32 ↔ x = 1#32 := by bv_omega

/-- LOOP, LOOPE and LOOPNE where the branch is taken. -/
theorem loopWhile_taken {c : Bool} {d : Byte} (h1 : s.regs.ecx ≠ 1#32) (hc : c = true)
    (hb : s.CanBranch (d.signExtend 32)) : Res.out (loopWhile c d s) =
      .next { s with regs := s.regs.set .ecx (s.regs.ecx - 1#32), pc := s.npc + d.signExtend 32 } :=
  out_next.mpr (loopWhile_ok.mpr (.inl ⟨mt sub_one_eq_zero_iff.mp h1, hc, hb, rfl⟩))

/-- LOOP, LOOPE and LOOPNE where it is not. -/
theorem loopWhile_done {c : Bool} {d : Byte} (h : s.regs.ecx = 1#32 ∨ c = false) (hn : s.HasNext) :
    Res.out (loopWhile c d s) = .next { s with regs := s.regs.set .ecx (s.regs.ecx - 1#32), pc := s.npc } := by
  refine out_next.mpr (loopWhile_ok.mpr (.inr ⟨fun ⟨h0, hc⟩ => ?_, hn, rfl⟩))
  rcases h with h | h
  · exact h0 (sub_one_eq_zero_iff.mpr h)
  · rw [h] at hc; cases hc

/-- Settles O47. -/
theorem loopsCountDownAndBranch : Obligations.LoopsCountDownAndBranch := by
  refine fun d s => ⟨fun h1 hb => ⟨loopWhile_taken h1 rfl hb, fun hz => loopWhile_taken h1 hz hb,
      fun hz => loopWhile_taken h1 (by rw [hz]; rfl) hb⟩,
    fun hn => ⟨fun h1 => ?_, fun h => loopWhile_done h hn, fun h => loopWhile_done (by simpa using h) hn,
      fun h0 => out_next.mpr ?_⟩, fun h0 hb => out_next.mpr ?_⟩
  · rw [← sub_one_eq_zero_iff.mpr h1]
    exact loopWhile_done (.inl h1) hn
  · rw [if_neg h0]; exact advance_ok.mpr ⟨hn, rfl⟩
  · rw [if_pos h0]; exact branch_next hb

/-! ### Software interrupts -/

theorem softInt_next (hn : s.HasNext) (n : Byte) :
    s.softInt n = .error (.fault (.exception n .softwareInterrupt { s with pc := s.npc })) :=
  bind_error.mpr (.inr ⟨_, advance_ok.mpr ⟨hn, rfl⟩, rfl⟩)

/-- Settles O48. -/
theorem softwareInterruptsRaiseVector : Obligations.SoftwareInterruptsRaiseVector := by
  refine fun s hn => ⟨fun n => out_fault.mpr (softInt_next hn n), out_fault.mpr (softInt_next hn _),
    fun h => out_fault.mpr ?_, fun h => out_next.mpr ?_⟩
  · rw [if_pos h]; exact softInt_next hn _
  · rw [if_neg (by rw [h]; decide)]; exact advance_ok.mpr ⟨hn, rfl⟩

end Control
end Sys2Proof.Proofs
end

section
/-! String primitives, alone and repeated (spec/46_string.md). -/

namespace Sys2Proof.Proofs

open Sys2Proof Sys2Proof.Machine Sys2Proof.Laws

section Strings
variable {s u : State} {z : Size} {o : Option Seg}

/-! ### A primitive alone, and one iteration of a repeat -/

/-- A primitive alone: its effect, and pc moved on. -/
theorem prim_next {r : Res State} (hn : s.HasNext) (hr : r = .ok u) (hpc : u.pc = s.pc) (he : EnvSame s u) :
    ∃ t, Res.out (r >>= State.advance) = .next t ∧ t.regs = u.regs ∧ t.flags = u.flags ∧ t.mem = u.mem ∧ Falls s t :=
  ⟨_, out_next.mpr (bind_ok.mpr ⟨u, hr, (advance_ok_of hpc he.ilen).mpr ⟨hn, rfl⟩⟩), rfl, rfl, rfl, rfl,
    he.segs, he.sys, he.cpl, he.memMap, he.code, he.haltAddr, he.ilen, he.draws⟩

/-- No iteration where ECX is 0 (R381). -/
theorem repeatOnce_zero (hn : s.HasNext) (h0 : s.regs.ecx = 0#32) (prim : State → Res State) (stop : Eflags → Bool) :
    Res.out (repeatOnce prim stop s) = .next { s with pc := s.npc } :=
  out_next.mpr (repeatOnce_ok.mpr (.inl ⟨h0, hn, rfl⟩))

/-- One iteration: the primitive's effect, ECX lowered, and pc moved on only where the repeat ends (R381). -/
theorem repeatOnce_next {prim : State → Res State} {stop : Eflags → Bool} (hn : s.HasNext) (h0 : s.regs.ecx ≠ 0#32)
    (hr : prim s = .ok u) (hpc : u.pc = s.pc) (he : EnvSame s u) (hecx : u.regs.ecx = s.regs.ecx) :
    ∃ t, Res.out (repeatOnce prim stop s) = .next t ∧ t.regs = u.regs.set .ecx (s.regs.ecx - 1#32) ∧
      t.flags = u.flags ∧ t.mem = u.mem ∧
      t.pc = (if s.regs.ecx = 1#32 ∨ stop u.flags = true then s.npc else s.pc) ∧ EnvSame s t := by
  obtain ⟨hsegs, hsys, hcpl, hmap, hcode, hhalt, hilen, hdraws⟩ := he
  by_cases hend : s.regs.ecx = 1#32 ∨ stop u.flags = true
  · refine ⟨_, out_next.mpr (repeatOnce_ok.mpr (.inr ⟨h0, u, hr, .inr ⟨?_, (hasNext_congr hpc hilen).mpr hn, rfl⟩⟩)),
      by rw [hecx], rfl, rfl, ?_, hsegs, hsys, hcpl, hmap, hcode, hhalt, hilen, hdraws⟩
    · rwa [hecx, sub_one_eq_zero_iff]
    · rw [if_pos hend]; exact npc_congr hpc hilen
  · refine ⟨_, out_next.mpr (repeatOnce_ok.mpr (.inr ⟨h0, u, hr, .inl ⟨?_, ?_, rfl⟩⟩)),
      by rw [hecx], rfl, rfl, ?_, hsegs, hsys, hcpl, hmap, hcode, hhalt, hilen, hdraws⟩
    · rw [hecx, ne_eq, sub_one_eq_zero_iff]; exact fun h => hend (.inl h)
    · simpa using fun h => hend (.inr h)
    · rw [if_neg hend]; exact hpc

/-! ### The instructions that run one primitive -/

theorem exec_movs {i : Instr} (h : z = .byte ∧ i = .movsb o ∨ ∃ v : VSize, z = v.size ∧ i = .movsd v o) (s : State) :
    exec i s = Res.out (strMovs z o s >>= State.advance) := by
  rcases h with ⟨rfl, rfl⟩ | ⟨v, rfl, rfl⟩ <;> rfl

theorem exec_lods {i : Instr} (h : z = .byte ∧ i = .lodsb o ∨ ∃ v : VSize, z = v.size ∧ i = .lodsd v o) (s : State) :
    exec i s = Res.out (strLods z o s >>= State.advance) := by
  rcases h with ⟨rfl, rfl⟩ | ⟨v, rfl, rfl⟩ <;> rfl

theorem exec_stos {i : Instr} (h : z = .byte ∧ i = .stosb ∨ ∃ v : VSize, z = v.size ∧ i = .stosd v) (s : State) :
    exec i s = Res.out (strStos z s >>= State.advance) := by
  rcases h with ⟨rfl, rfl⟩ | ⟨v, rfl, rfl⟩ <;> rfl

theorem exec_cmps {i : Instr} (h : z = .byte ∧ i = .cmpsb o ∨ ∃ v : VSize, z = v.size ∧ i = .cmpsd v o) (s : State) :
    exec i s = Res.out (strCmps z o s >>= State.advance) := by
  rcases h with ⟨rfl, rfl⟩ | ⟨v, rfl, rfl⟩ <;> rfl

theorem exec_scas {i : Instr} (h : z = .byte ∧ i = .scasb ∨ ∃ v : VSize, z = v.size ∧ i = .scasd v) (s : State) :
    exec i s = Res.out (strScas z s >>= State.advance) := by
  rcases h with ⟨rfl, rfl⟩ | ⟨v, rfl, rfl⟩ <;> rfl

/-! ### The effect of each primitive -/

/-- A primitive leaves registers `r` and flags `f`, memory as `M` says of it, pc and the environment. -/
def Leaves (s : State) (x : Res State) (r : Regs) (f : Eflags) (M : List Host.Cell → Prop) : Prop :=
  ∃ u, x = .ok u ∧ u.regs = r ∧ u.flags = f ∧ M u.mem ∧ u.pc = s.pc ∧ EnvSame s u

section Leaves
variable {x : Res State} {r : Regs} {f : Eflags} {M : List Host.Cell → Prop}

theorem Leaves.alone (hn : s.HasNext) (h : Leaves s x r f M) :
    ∃ t, Res.out (x >>= State.advance) = .next t ∧ M t.mem ∧ t.regs = r ∧ t.flags = f ∧ Falls s t := by
  obtain ⟨u, hu, rfl, rfl, hM, hpc, he⟩ := h
  obtain ⟨t, ht, hregs, hflags, hmem, hfall⟩ := prim_next hn hu hpc he
  exact ⟨t, ht, hmem ▸ hM, hregs, hflags, hfall⟩

theorem Leaves.repeated {prim : State → Res State} {stop : Eflags → Bool} (hn : s.HasNext) (h0 : s.regs.ecx ≠ 0#32)
    (hecx : r.ecx = s.regs.ecx) (h : Leaves s (prim s) r f M) :
    ∃ t, Res.out (repeatOnce prim stop s) = .next t ∧ M t.mem ∧ t.regs = r.set .ecx (s.regs.ecx - 1#32) ∧
      t.flags = f ∧ t.pc = (if s.regs.ecx = 1#32 ∨ stop t.flags = true then s.npc else s.pc) ∧ EnvSame s t := by
  obtain ⟨u, hu, rfl, rfl, hM, hpc, he⟩ := h
  obtain ⟨t, ht, hregs, hflags, hmem, hpc', henv⟩ := repeatOnce_next (stop := stop) hn h0 hu hpc he hecx
  exact ⟨t, ht, hmem ▸ hM, hregs, hflags, hflags ▸ hpc', henv⟩

end Leaves

theorem write_eax_esi (r : Regs) (v : BitVec z.bits) : (r.write z .eax v).esi = r.esi := by cases z <;> rfl

theorem write_eax_ecx (r : Regs) (v : BitVec z.bits) : (r.write z .eax v).ecx = r.ecx := by cases z <;> rfl

theorem envSame_update (s : State) (r : Regs) (m : List Host.Cell) (f : Eflags) :
    EnvSame s { s with regs := r, mem := m, flags := f } := ⟨rfl, rfl, rfl, rfl, rfl, rfl, rfl, rfl⟩

theorem strMovs_leaves (hr : s.CanRead (o.getD .ds) s.regs.esi z.bytes) (hw : s.CanWrite .es s.regs.edi z.bytes) :
    Leaves s (strMovs z o s)
      ((s.regs.set .esi (s.regs.esi + s.strDelta z)).set .edi (s.regs.edi + s.strDelta z)) s.flags
      (fun m => MemStored s { s with mem := m } (s.la .es s.regs.edi).toNat z.bytes (s.memValue (o.getD .ds) s.regs.esi z).toNat) :=
  ⟨_, strMovs_ok.mpr ⟨hr, hw, rfl⟩, rfl, rfl, memStored_poke s _ _ _, rfl, envSame_update ..⟩

theorem strLods_leaves (hr : s.CanRead (o.getD .ds) s.regs.esi z.bytes) :
    Leaves s (strLods z o s)
      ((s.regs.write z .eax (s.memValue (o.getD .ds) s.regs.esi z)).set .esi (s.regs.esi + s.strDelta z)) s.flags
      (fun m => MemSame s { s with mem := m }) := by
  refine ⟨_, strLods_ok.mpr ⟨hr, rfl⟩, ?_, rfl, memSame_refl s, rfl, envSame_update ..⟩
  rw [bumpEsi_regs, setReg_regs, write_eax_esi]
  rfl

theorem strStos_leaves (hw : s.CanWrite .es s.regs.edi z.bytes) :
    Leaves s (strStos z s) (s.regs.set .edi (s.regs.edi + s.strDelta z)) s.flags
      (fun m => MemStored s { s with mem := m } (s.la .es s.regs.edi).toNat z.bytes (s.reg z .eax).toNat) :=
  ⟨_, strStos_ok.mpr ⟨hw, rfl⟩, rfl, rfl, memStored_poke s _ _ _, rfl, envSame_update ..⟩

theorem strCmps_leaves (hr : s.CanRead (o.getD .ds) s.regs.esi z.bytes) (hr' : s.CanRead .es s.regs.edi z.bytes) :
    Leaves s (strCmps z o s)
      ((s.regs.set .esi (s.regs.esi + s.strDelta z)).set .edi (s.regs.edi + s.strDelta z))
      (s.flags.withStatus (subFlags (s.memValue (o.getD .ds) s.regs.esi z) (s.memValue .es s.regs.edi z) false).2)
      (fun m => MemSame s { s with mem := m }) :=
  ⟨_, strCmps_ok.mpr ⟨hr, hr', rfl⟩, rfl, rfl, memSame_refl s, rfl, envSame_update ..⟩

theorem strScas_leaves (hr : s.CanRead .es s.regs.edi z.bytes) :
    Leaves s (strScas z s) (s.regs.set .edi (s.regs.edi + s.strDelta z))
      (s.flags.withStatus (subFlags (s.reg z .eax) (s.memValue .es s.regs.edi z) false).2) (fun m => MemSame s { s with mem := m }) :=
  ⟨_, strScas_ok.mpr ⟨hr, rfl⟩, rfl, rfl, memSame_refl s, rfl, envSame_update ..⟩

/-! ### The statements -/

/-- Settles O49. -/
theorem stringMovesMoveElement : Obligations.StringMovesMoveElement := by
  refine ⟨fun z o s i hn hi hr hw => ?_, fun z o s i hn hi hr => ?_, fun z s i hn hi hw => ?_⟩
  · rw [exec_movs hi]; exact (strMovs_leaves hr hw).alone hn
  · rw [exec_lods hi]; exact (strLods_leaves hr).alone hn
  · rw [exec_stos hi]; exact (strStos_leaves hw).alone hn

/-- The flags a comparison leaves are those of a difference. -/
theorem subRule_of_eq {a b : BitVec z.bits} {f g : Eflags} (h : g = f.withStatus (subFlags a b false).2) :
    SubRule a b false (subFlags a b false).1 f g := h ▸ subRule_subFlags ..

/-- Settles O50. -/
theorem stringComparesSetFlags : Obligations.StringComparesSetFlags := by
  refine ⟨fun z o s i hn hi hr hr' => ?_, fun z s i hn hi hr => ?_⟩
  · obtain ⟨t, ht, hm, hregs, hflags, hfall⟩ := (strCmps_leaves hr hr').alone hn
    exact ⟨t, _, (exec_cmps hi s).trans ht, subRule_of_eq hflags, hregs, hm, hfall⟩
  · obtain ⟨t, ht, hm, hregs, hflags, hfall⟩ := (strScas_leaves hr).alone hn
    exact ⟨t, _, (exec_scas hi s).trans ht, subRule_of_eq hflags, hregs, hm, hfall⟩

/-- REP ends only where ECX is now 0. -/
theorem Leaves.rep {p : StrMove} {r : Regs} {f : Eflags} {M : List Host.Cell → Prop} (hn : s.HasNext)
    (h0 : s.regs.ecx ≠ 0#32) (h : Leaves s (strMove p s) r f M) (hecx : r.ecx = s.regs.ecx) :
    ∃ t, exec (.rep p) s = .next t ∧ M t.mem ∧ t.regs = r.set .ecx (s.regs.ecx - 1#32) ∧
      t.pc = (if s.regs.ecx = 1#32 then s.npc else s.pc) ∧ t.flags = f ∧ EnvSame s t := by
  obtain ⟨t, ht, hM, hregs, hflags, hpc, he⟩ := Leaves.repeated (stop := fun _ => false) hn h0 hecx h
  exact ⟨t, ht, hM, hregs, by simpa using hpc, hflags, he⟩

/-- Settles O51. -/
theorem repeatMovesOneIterationAStep : Obligations.RepeatMovesOneIterationAStep := by
  intro z s hn
  refine ⟨fun h0 p => repeatOnce_zero hn h0 _ _, fun h0 => ⟨fun o hr hw => ?_, fun o hr => ?_, fun hw => ?_⟩⟩
  · exact Leaves.rep (p := .movs z o) hn h0 (strMovs_leaves hr hw) rfl
  · exact Leaves.rep (p := .lods z o) hn h0 (strLods_leaves hr) (write_eax_ecx ..)
  · exact Leaves.rep (p := .stos z) hn h0 (strStos_leaves hw) rfl

/-- REPE and REPNE end also where ZF is the value `p.2` that stops them. -/
theorem Leaves.repeatCompare {c : StrCmp} {a b : BitVec z.bits} {r : Regs} {p : Instr × Bool} (hn : s.HasNext)
    (h0 : s.regs.ecx ≠ 0#32) (hecx : r.ecx = s.regs.ecx)
    (h : Leaves s (strCmp c s) r (s.flags.withStatus (subFlags a b false).2) fun m => MemSame s { s with mem := m })
    (hp : p ∈ [(Instr.repe c, false), (Instr.repne c, true)]) :
    ∃ t r', exec p.1 s = .next t ∧ SubRule a b false r' s.flags t.flags ∧ t.regs = r.set .ecx (s.regs.ecx - 1#32) ∧
      t.pc = (if s.regs.ecx = 1#32 ∨ t.flags.zf = p.2 then s.npc else s.pc) ∧ MemSame s t ∧ EnvSame s t := by
  simp only [List.mem_cons, List.not_mem_nil, or_false] at hp
  rcases hp with rfl | rfl
  · obtain ⟨t, ht, hm, hregs, hflags, hpc, he⟩ := Leaves.repeated (stop := fun f => !f.zf) hn h0 hecx h
    exact ⟨t, _, ht, subRule_of_eq hflags, hregs, by simpa using hpc, hm, he⟩
  · obtain ⟨t, ht, hm, hregs, hflags, hpc, he⟩ := Leaves.repeated (stop := fun f => f.zf) hn h0 hecx h
    exact ⟨t, _, ht, subRule_of_eq hflags, hregs, hpc, hm, he⟩

/-- Settles O52. -/
theorem repeatComparesOneIterationAStep : Obligations.RepeatComparesOneIterationAStep :=
  ⟨fun _ hn h0 => ⟨fun _ => repeatOnce_zero hn h0 _ _, fun _ => repeatOnce_zero hn h0 _ _⟩,
    fun z o _ hn h0 hr hr' _ hp => Leaves.repeatCompare (c := .cmps z o) hn h0 rfl (strCmps_leaves hr hr') hp,
    fun z _ hn h0 hr _ hp => Leaves.repeatCompare (c := .scas z) hn h0 rfl (strScas_leaves hr) hp⟩

end Strings
end Sys2Proof.Proofs
end

section
/-! Flag transfer (spec/48_flag_control.md), the miscellaneous instructions (49) and the stack pairs (40, 45, 48). -/

namespace Sys2Proof.Proofs

open Sys2Proof Sys2Proof.Machine Sys2Proof.Laws

section FlagTransfer
variable {s : State}

/-! ### LAHF and SAHF -/

/-- Settles O57. -/
theorem lahfSahfMoveStatusByte : Obligations.LahfSahfMoveStatusByte := by
  intro s hn
  obtain ⟨t, ht, hw, hflags, hfall⟩ := setReg_next (z := .byte) hn .esp (s.flags.lahfByte s.undefBit)
  refine ⟨⟨t, _, out_next.mpr ht, hw, ?_, ?_, ?_, ?_, ?_, hflags, hfall⟩, out_next.mpr (advance_ok.mpr ⟨hn, rfl⟩)⟩
  all_goals
    refine (BitVec.getLsbD_append (y := BitVec.ofBool s.flags.cf)).trans ?_
    simp only [BitVec.getLsbD_append]
    simp

/-! ### PUSHF, PUSHFD, POPF, POPFD -/

/-- The image has each flag at its bit, and the reserved bits as fixed (10_state.md R30, R34). -/
theorem getLsbD_image (f : Eflags) {k : Nat} (hk : k < 32) : f.image.getLsbD k = flagBit f k := by
  rw [Eflags.image]
  refine (BitVec.getLsbD_append (y := BitVec.ofBool f.cf)).trans ?_
  simp only [BitVec.getLsbD_append]
  interval_cases k <;> simp [flagBit]

theorem flagBit_pushed (f : Eflags) {k : Nat} (hk : k < 32) :
    flagBit { f with rf := false, vm := false } k = (flagBit f k && k != 16 && k != 17) := by
  interval_cases k <;> simp [flagBit]

/-- POPF loads the flags from the bits of the word popped. -/
theorem load_setWidth (f : Eflags) (cpl : BitVec 2) (x : BitVec 16) : f.load cpl (x.setWidth 32) =
    { f with
      cf := x.getLsbD 0, pf := x.getLsbD 2, af := x.getLsbD 4, zf := x.getLsbD 6, sf := x.getLsbD 7
      tf := x.getLsbD 8, df := x.getLsbD 10, ofl := x.getLsbD 11, nt := x.getLsbD 14
      ifl := if cpl ≤ f.iopl then x.getLsbD 9 else f.ifl
      iopl := if cpl = 0#2 then x.extractLsb' 12 2 else f.iopl } := by
  have hbits (k : Nat) (hk : k < 16) : (x.setWidth 32).getLsbD k = x.getLsbD k := by
    rw [BitVec.getLsbD_setWidth, decide_eq_true (by omega : k < 32), Bool.true_and]
  have hiopl : (x.setWidth 32).extractLsb' 12 2 = x.extractLsb' 12 2 := by
    apply BitVec.eq_of_getLsbD_eq
    intro i hi
    rw [BitVec.getLsbD_extractLsb', BitVec.getLsbD_extractLsb', hbits _ (by omega)]
  simp [Eflags.load, hiopl]

/-- Settles O58. -/
theorem flagStackPushPopImage : Obligations.FlagStackPushPopImage := by
  refine ⟨fun s hn => ⟨fun hp => ?_, fun hp => ?_⟩, fun s v x hn hr hx => ?_⟩
  · obtain ⟨t, ht, hpushed, heffect⟩ := push_next (z := .word) hn hp (s.flags.image.extractLsb' 0 16)
    refine ⟨t, _, out_next.mpr ht, hpushed, fun k hk => ?_, heffect⟩
    rw [BitVec.getLsbD_extractLsb', decide_eq_true hk, Bool.true_and, Nat.zero_add, getLsbD_image _ (by omega)]
  · obtain ⟨t, ht, hpushed, heffect⟩ := push_next (z := .dword) hn hp s.flags.pushImage
    refine ⟨t, _, out_next.mpr ht, hpushed, fun k hk => ?_, heffect⟩
    rw [Eflags.pushImage, getLsbD_image _ hk, flagBit_pushed _ hk]
  · subst hx
    cases v with
    | v16 =>
      refine pop_next hr (advance_ok.mpr ⟨hn, ?_⟩)
      rw [load_setWidth]
      rfl
    | v32 => exact pop_next hr (advance_ok.mpr ⟨hn, rfl⟩)

/-! ### WAIT, NOP, LEA, XLAT, LEAVE -/

/-- Settles O59. -/
theorem waitNopLeaXlatLeaveEffects : Obligations.WaitNopLeaXlatLeaveEffects := by
  refine fun s hn => ⟨out_next.mpr (advance_ok.mpr ⟨hn, rfl⟩), out_next.mpr (advance_ok.mpr ⟨hn, rfl⟩),
    fun v g m => setReg_converted (P := (BitVec.toNat · = _)) hn g (BitVec.toNat_setWidth ..), fun o a ha hr => ?_,
    fun hr => memRead_next (z := .dword) hr (advance_ok.mpr ⟨hn, rfl⟩)⟩
  have haddr : s.regs.ebx + (s.reg .byte .eax).setWidth 32 = a := by
    apply BitVec.eq_of_toNat_eq
    rw [ha, BitVec.toNat_add, BitVec.toNat_setWidth_of_le (by decide)]
  subst haddr
  obtain ⟨t, ht, heffect⟩ := setReg_next hn .eax _
  exact ⟨t, memRead_next (z := .byte) hr ht, heffect⟩

/-! ### What is popped right after a push -/

theorem bytes_pow (z : Size) : 256 ^ z.bytes = 2 ^ z.bits := by cases z <;> rfl

/-- A value stored is read back. -/
theorem memValue_poke (s : State) (seg : Seg) (off : Word) {z : Size} (v : BitVec z.bits) :
    (s.poke (s.la seg off).toNat z v).memValue seg off z = v := by
  rw [State.memValue, poke_la, poke_mem, read_write, bytes_pow, Nat.mod_eq_of_lt v.isLt, BitVec.ofNat_toNat,
    BitVec.setWidth_eq]

/-- A pop right after a push, wherever pc is then, answers the value pushed and the registers as they were. -/
theorem pop_of_push {u : State} {z : Size} {v : BitVec z.bits} (h : s.push z v = .ok u) (p : Word) :
    { u with pc := p }.pop z = .ok (v, { u with pc := p, regs := s.regs }) := by
  obtain ⟨hp, rfl⟩ := push_ok.mp h
  refine pop_ok.mpr ⟨canRead_of_canWrite hp, (memValue_poke s ..).symm, ?_⟩
  simp only [set_set_same, set_esp_esp, BitVec.sub_add_cancel]
  rw [show s.regs.set .esp s.regs.esp = s.regs from set_get_self s.regs .esp]

/-- RET right after what pushes a return address and transfers control. -/
theorem ret_of_pushCall {t : State} {p : Word}
    (h : (s.push .dword s.npc >>= fun u => Except.ok { u with pc := p }) = (.ok t : Res State)) :
    ∃ u, exec .ret t = .next u ∧ u.pc = s.npc ∧ u.regs = s.regs ∧ u.flags = s.flags ∧ MemSame t u := by
  obtain ⟨u, hu, ht⟩ := bind_ok.mp h
  cases ht
  have hflags : u.flags = s.flags := by rw [(push_ok.mp hu).2]; rfl
  exact ⟨_, out_next.mpr (bind_ok.mpr ⟨_, pop_of_push hu p, rfl⟩), rfl, rfl, hflags, fun _ => rfl⟩

/-- A push and then the advance. -/
theorem push_advance {t : State} {z : Size} {v : BitVec z.bits} (h : (s.push z v >>= State.advance) = .ok t) :
    ∃ u, s.push z v = .ok u ∧ t = { u with pc := u.npc } ∧ u.flags = s.flags ∧ u.cpl = s.cpl := by
  obtain ⟨u, hu, ht⟩ := bind_ok.mp h
  refine ⟨u, hu, (advance_ok.mp ht).2, ?_, ?_⟩ <;> rw [(push_ok.mp hu).2] <;> rfl

/-- The image that PUSHFD pushes loads the flags it is the image of. -/
theorem load_pushImage (f : Eflags) (cpl : BitVec 2) : f.load cpl f.pushImage = f := by
  have hbit (k : Nat) (hk : k < 16) : f.pushImage.getLsbD k = flagBit f k := by
    rw [Eflags.pushImage, getLsbD_image _ (by omega), flagBit_pushed _ (by omega)]
    rw [bne_iff_ne.mpr (by omega : k ≠ 16), bne_iff_ne.mpr (by omega : k ≠ 17), Bool.and_true, Bool.and_true]
  have hiopl : f.pushImage.extractLsb' 12 2 = f.iopl := by
    apply BitVec.eq_of_getLsbD_eq
    intro i hi
    rw [BitVec.getLsbD_extractLsb', hbit _ (by omega)]
    interval_cases i <;> simp [flagBit]
  rw [Eflags.load, hiopl, hbit 0 (by decide), hbit 2 (by decide), hbit 4 (by decide), hbit 6 (by decide),
    hbit 7 (by decide), hbit 8 (by decide), hbit 9 (by decide), hbit 10 (by decide), hbit 11 (by decide),
    hbit 14 (by decide)]
  simp only [flagBit, ite_self]

/-- Settles O55. -/
theorem stackPairsRestore : Obligations.StackPairsRestore := by
  refine ⟨fun i s t hi h => ?_, fun s t h hn => ?_, fun v g s t h hn => ?_⟩
  · rcases hi with ⟨d, rfl⟩ | ⟨e, rfl⟩
    · obtain ⟨_, -, h⟩ := bind_ok.mp (out_next.mp h)
      exact ret_of_pushCall h
    · obtain ⟨_, -, h⟩ := bind_ok.mp (out_next.mp h)
      exact ret_of_pushCall h
  · obtain ⟨u, hu, rfl, hflags, hcpl⟩ := push_advance (out_next.mp h)
    refine ⟨_, out_next.mpr (bind_ok.mpr ⟨_, pop_of_push hu _, advance_ok.mpr ⟨hn, rfl⟩⟩), rfl, ?_, fun _ => rfl⟩
    change u.flags.load u.cpl s.flags.pushImage = s.flags
    rw [hflags, load_pushImage]
  · obtain ⟨u, hu, rfl, hflags, -⟩ := push_advance (out_next.mp h)
    exact ⟨_, out_next.mpr (bind_ok.mpr ⟨_, pop_of_push hu _, advance_ok.mpr ⟨hn, rfl⟩⟩), write_read_self s.regs v.size g,
      hflags, fun _ => rfl⟩

end FlagTransfer
end Sys2Proof.Proofs
end

section
/-! Where an instruction stops at an access (spec/60_exceptions.md R507): the first of its checks that fails decides, and
where none fails no access stops it. -/

namespace Sys2Proof.Proofs

open Sys2Proof Sys2Proof.Machine Sys2Proof.Laws

/-! ### Checks along a sequence -/

/-- A stop that is not that of an access: an exception, or a refusal for another reason than `StoreIntoCode`. -/
def OffAccess : Stop → Prop
  | .fault (.exception _ _ _) => True
  | .fault (.memFault _ _) => False
  | .refuse r => r ≠ .storeIntoCode

/-- A part of an instruction stops exactly with the first of its checks that fails. -/
def Decides {α : Type} (s : State) (cs : List Check) (x : Res α) : Prop :=
  ∀ e, x = .error e ↔ cs.findSome? (Check.stop s) = some e

/-- A part of an instruction stops with the first of its checks that fails; where none fails, not at an access. -/
def StopsAt {α : Type} (s : State) (cs : List Check) (x : Res α) : Prop :=
  (∀ e, cs.findSome? (Check.stop s) = some e → x = .error e) ∧
    (cs.findSome? (Check.stop s) = none → Stopping OffAccess x)

section Sequence
variable {α β : Type} {s : State} {cs cs' : List Check} {x : Res α} {f : α → Res β}

theorem decides_ok (a : α) : Decides s [] (.ok a : Res α) := fun e => by simp

theorem Decides.bind (hx : Decides s cs x) (hf : ∀ a, x = .ok a → Decides s cs' (f a)) :
    Decides s (cs ++ cs') (x >>= f) := by
  intro e
  rw [List.findSome?_append]
  cases hc : cs.findSome? (Check.stop s) with
  | some e' =>
    rw [(hx e').mpr hc, error_bind]
    exact ⟨fun h => by cases h; rfl, fun h => by cases h; rfl⟩
  | none =>
    cases hxe : x with
    | error e' => rw [(hx e').mp hxe] at hc; cases hc
    | ok a => exact hf a hxe e

theorem Decides.map (hx : Decides s cs x) (g : α → β) : Decides s cs (x >>= fun a => .ok (g a)) := by
  simpa using hx.bind fun a _ => decides_ok (g a)

theorem StopsAt.bind (hx : Decides s cs x) (hf : ∀ a, x = .ok a → StopsAt s cs' (f a)) :
    StopsAt s (cs ++ cs') (x >>= f) := by
  rw [StopsAt, List.findSome?_append]
  cases hc : cs.findSome? (Check.stop s) with
  | some e' =>
    rw [(hx e').mpr hc, error_bind]
    exact ⟨fun e he => by cases he; rfl, nofun⟩
  | none =>
    cases hxe : x with
    | error e' => rw [(hx e').mp hxe] at hc; cases hc
    | ok a => exact hf a hxe

theorem stopsAt_nil (h : Stopping OffAccess x) : StopsAt s [] x :=
  ⟨fun _ he => by simp at he, fun _ => h⟩

/-- After the last access nothing stops at one. -/
theorem Decides.stopsAt (hx : Decides s cs x) (hf : ∀ a, x = .ok a → Stopping OffAccess (f a)) :
    StopsAt s cs (x >>= f) := by
  simpa using StopsAt.bind hx fun a ha => stopsAt_nil (hf a ha)

/-- The same of the outcome of a whole instruction. -/
def OutStopsAt (s : State) (cs : List Check) (o : Outcome) : Prop :=
  (∀ f, cs.findSome? (Check.stop s) = some (.fault f) → o = .fault f) ∧
  (∀ r, cs.findSome? (Check.stop s) = some (.refuse r) → o = .refused r) ∧
  (cs.findSome? (Check.stop s) = none → (∀ a k, o ≠ .fault (.memFault a k)) ∧ o ≠ .refused .storeIntoCode)

theorem outStopsAt_of_offAccess {o : Outcome} (h : OutEnds OffAccess (fun _ => True) o) : OutStopsAt s [] o :=
  ⟨fun _ hf => by simp at hf, fun _ hr => by simp at hr, fun _ =>
    ⟨fun _ _ ho => by rw [ho] at h; exact h, fun ho => by rw [ho] at h; exact h rfl⟩⟩

theorem outStopsAt_out {r : Res State} (h : StopsAt s cs r) : OutStopsAt s cs (Res.out r) := by
  refine ⟨fun f hf => out_fault.mpr (h.1 _ hf), fun q hq => out_refused.mpr (h.1 _ hq), fun hn => ?_⟩
  have hoff := outEnds_out (h.2 hn)
  exact (outStopsAt_of_offAccess (s := s) hoff).2.2 rfl

end Sequence

/-! ### The accesses -/

section Accesses
variable {s t : State} {z : Size}

theorem decides_memRead {seg : Seg} {off : Word} : Decides s (readChecks seg off z) (s.memRead seg off z) :=
  fun _ => memRead_error

theorem decides_memWrite {seg : Seg} {off : Word} {v : BitVec z.bits} :
    Decides s (writeChecks seg off z) (s.memWrite seg off z v) := fun _ => memWrite_error

theorem decides_readLoc {l : Loc} : Decides s (l.readChecks z) (s.readLoc z l) := fun _ => readLoc_error

theorem decides_readRM {e : RM} : Decides s ((s.resolve e).readChecks z) (s.readRM z e) := fun _ => readLoc_error

theorem decides_writeLoc {l : Loc} {v : BitVec z.bits} : Decides s (l.writeChecks z) (s.writeLoc z l v) :=
  fun _ => writeLoc_error

theorem decides_push {v : BitVec z.bits} : Decides s (pushChecks s z) (s.push z v) := fun _ => push_error

theorem decides_pop : Decides s (popChecks s z) (s.pop z) := fun _ => pop_error

theorem decides_aluSrc (f : AluForm) : Decides s (aluSrcChecks s f) (aluSrc s f) := by
  cases f with
  | regRm => exact decides_readRM
  | rmReg | accImm | rmImm | rmImm8s => exact decides_ok _

/-- The answer of one check. -/
theorem decides_resOf {α : Type} (c : Check) (a : α) : Decides s [c] (resOf a (Check.stop s c)) := by
  intro e
  cases h : Check.stop s c <;> simp [resOf, h]

theorem decides_relTarget {rel : Word} : Decides s [.target rel] (s.relTarget rel) := by
  by_cases h : s.CanBranch rel
  · have hstop : Check.stop s (.target rel) = none := if_pos h
    rw [relTarget_ok.mpr ⟨h, rfl⟩]
    have hres := decides_resOf (s := s) (.target rel) (BitVec.ofInt 32 ((s.nextPc : Int) + rel.toInt))
    rwa [hstop] at hres
  · have hstop : Check.stop s (.target rel) = some (.refuse .addressWrap) := if_neg h
    rw [relTarget_refused h]
    have hres := decides_resOf (s := s) (.target rel) (0#32)
    rwa [hstop] at hres

/-- A check but that of a target looks at the environment only. -/
theorem stop_congr (h : EnvSame s t) {c : Check} (hc : ∀ rel, c ≠ .target rel) : Check.stop t c = Check.stop s c := by
  have hla : t.la = s.la := by funext seg off; simp only [State.la, h.segs]
  cases c with
  | target rel => exact absurd rfl (hc rel)
  | space => simp only [Check.stop, State.inSpace, hla]; rfl
  | read => simp only [Check.stop, hla, envSame_readable h]
  | write => simp only [Check.stop, hla, envSame_writable h]
  | code => simp only [Check.stop, hla, envSame_inCode h]

theorem Decides.congr {α : Type} {cs : List Check} {x : Res α} (hx : Decides t cs x) (h : EnvSame s t)
    (hc : ∀ c ∈ cs, ∀ rel, c ≠ .target rel) : Decides s cs x := by
  have hstop : cs.findSome? (Check.stop t) = cs.findSome? (Check.stop s) := by
    clear hx
    induction cs with
    | nil => rfl
    | cons c cs ih =>
      obtain ⟨hc0, hcs⟩ := List.forall_mem_cons.mp hc
      rw [List.findSome?_cons, List.findSome?_cons, stop_congr h hc0, ih hcs]
  intro e
  rw [hx, hstop]

end Accesses

/-! ### What stops at no access -/

section OffAccess
variable {α : Type} {s : State}

theorem offAccess_ok (a : α) : Stopping OffAccess (.ok a : Res α) := trivial

theorem offAccess_addressWrap : Stopping OffAccess (.error (.refuse .addressWrap) : Res α) :=
  Refusal.noConfusion

theorem offAccess_advance : Stopping OffAccess s.advance := ends_ite trivial offAccess_addressWrap

theorem offAccess_relTarget {rel : Word} : Stopping OffAccess (s.relTarget rel) :=
  ends_ite trivial offAccess_addressWrap

theorem offAccess_branch {rel : Word} : Stopping OffAccess (s.branch rel) := offAccess_relTarget.bind fun _ _ => trivial

theorem offAccess_softInt {n : Byte} : Stopping OffAccess (s.softInt n) := offAccess_advance.bind fun _ _ => trivial

theorem offAccess_scanInto {z : Size} {g : GReg} (r : Option Nat) : Stopping OffAccess (scanInto z g r s) := by
  cases r <;> exact offAccess_advance

theorem offAccess_loopWhile {c : Bool} {d : Byte} : Stopping OffAccess (loopWhile c d s) :=
  ends_ite offAccess_branch offAccess_advance

theorem offAccess_jumpIf {c : Cond} {d : Rel} : Stopping OffAccess (jumpIf c d s) :=
  ends_ite offAccess_branch offAccess_advance

end OffAccess

/-! ### The operations that several instructions share -/

section Shared
variable {s : State} {z : Size}

theorem stopsAt_writeLoc {l : Loc} {v : BitVec z.bits} {u : State → State} :
    StopsAt s (l.writeChecks z) (s.writeLoc z l v >>= fun t => (u t).advance) :=
  decides_writeLoc.stopsAt fun _ _ => offAccess_advance

/-- An operand that is read and written back. -/
theorem stopsAt_update {l : Loc} {v : BitVec z.bits → BitVec z.bits} {u : BitVec z.bits → State → State} :
    StopsAt s (l.updateChecks z)
      (s.readLoc z l >>= fun a => s.writeLoc z l (v a) >>= fun t => (u a t).advance) :=
  StopsAt.bind decides_readLoc fun _ _ => stopsAt_writeLoc

/-- An operand that is only read. -/
theorem stopsAt_readRM {e : RM} {k : BitVec z.bits → Res State} (hk : ∀ a, Stopping OffAccess (k a)) :
    StopsAt s ((s.resolve e).readChecks z) (s.readRM z e >>= k) := decides_readRM.stopsAt fun a _ => hk a

theorem stopsAt_memRead {seg : Seg} {off : Word} {u : BitVec z.bits → State} :
    StopsAt s (readChecks seg off z) (s.memRead seg off z >>= fun v => (u v).advance) :=
  decides_memRead.stopsAt fun _ _ => offAccess_advance

theorem stopsAt_aluWrite {f : AluForm}
    {op : BitVec (aluSize f).bits → BitVec (aluSize f).bits → BitVec (aluSize f).bits × Status} :
    StopsAt s ((aluDst s f).readChecks (aluSize f) ++ aluSrcChecks s f ++ (aluDst s f).writeChecks (aluSize f))
      (aluWrite f op s) := by
  rw [List.append_assoc]
  exact StopsAt.bind decides_readLoc fun _ _ => StopsAt.bind (decides_aluSrc f) fun _ _ => stopsAt_writeLoc

theorem stopsAt_cmp (f : AluForm) : OutStopsAt s ((aluDst s f).readChecks (aluSize f) ++ aluSrcChecks s f)
    (execCmp f s) :=
  outStopsAt_out (StopsAt.bind decides_readLoc fun _ _ => (decides_aluSrc f).stopsAt fun _ _ => offAccess_advance)

/-- By a masked count of 0 the operand is read only (44_shift_rotate.md R310). -/
theorem stopsAt_counted {e : RM} {c : Byte} {v : BitVec z.bits → BitVec z.bits} {u : BitVec z.bits → State → State} :
    StopsAt s (shiftChecks z (s.resolve e) c)
      (s.readRM z e >>= fun a =>
        if maskCount c = 0 then s.advance else s.writeLoc z (s.resolve e) (v a) >>= fun t => (u a t).advance) := by
  by_cases h : c.toNat % 32 = 0
  · rw [shiftChecks, if_pos h]
    exact stopsAt_readRM fun _ => by rw [maskCount, if_pos h]; exact offAccess_advance
  · rw [shiftChecks, if_neg h]
    exact StopsAt.bind decides_readRM fun _ _ => by rw [maskCount, if_neg h]; exact stopsAt_writeLoc

theorem stopsAt_push {v : BitVec z.bits} {k : State → Res State} (hk : ∀ t, Stopping OffAccess (k t)) :
    StopsAt s (pushChecks s z) (s.push z v >>= k) := decides_push.stopsAt fun t _ => hk t

theorem stopsAt_pop {k : BitVec z.bits × State → Res State} (hk : ∀ p, Stopping OffAccess (k p)) :
    StopsAt s (popChecks s z) (s.pop z >>= k) := decides_pop.stopsAt fun p _ => hk p

/-! ### Strings -/

theorem decides_strMove (p : StrMove) : Decides s (strMoveChecks s p) (strMove p s) := by
  cases p with
  | movs z o => exact decides_memRead.bind fun _ _ => decides_memWrite.map _
  | lods z o => exact decides_memRead.map _
  | stos z => exact decides_memWrite.map _

theorem decides_strCmp (p : StrCmp) : Decides s (strCmpChecks s p) (strCmp p s) := by
  cases p with
  | cmps z o => exact decides_memRead.bind fun _ _ => decides_memRead.map _
  | scas z => exact decides_memRead.map _

theorem stopsAt_strMove (p : StrMove) : StopsAt s (strMoveChecks s p) (strMove p s >>= State.advance) :=
  (decides_strMove p).stopsAt fun _ _ => offAccess_advance

theorem stopsAt_strCmp (p : StrCmp) : StopsAt s (strCmpChecks s p) (strCmp p s >>= State.advance) :=
  (decides_strCmp p).stopsAt fun _ _ => offAccess_advance

theorem stopsAt_repeatOnce {prim : State → Res State} {stop : Eflags → Bool} {cs : List Check}
    (h : Decides s cs (prim s)) : StopsAt s (if s.regs.ecx = 0#32 then [] else cs) (repeatOnce prim stop s) := by
  rw [repeatOnce]
  by_cases h0 : s.regs.ecx = 0#32
  · rw [if_pos h0, if_pos h0]
    exact stopsAt_nil offAccess_advance
  · rw [if_neg h0, if_neg h0]
    exact h.stopsAt fun _ _ => ends_ite offAccess_advance (offAccess_ok _)

/-! ### The instructions with several forms -/

theorem outStopsAt_test (f : TestForm) : OutStopsAt s (testChecks s f) (execTest f s) := by
  cases f with
  | rmReg | rmImm => exact outStopsAt_out (stopsAt_readRM fun _ => offAccess_advance)
  | accImm => exact outStopsAt_out (stopsAt_nil offAccess_advance)

theorem outStopsAt_imul3 (f : Imul3Form) : OutStopsAt s (imul3Checks s f) (execImul3 f s) := by
  cases f with
  | imm | imm8s => exact outStopsAt_out (stopsAt_readRM fun _ => offAccess_advance)

theorem outStopsAt_mov (f : MovForm) : OutStopsAt s (movChecks s f) (execMov f s) := by
  cases f with
  | rmReg | rmImm => exact outStopsAt_out (stopsAt_writeLoc (u := id))
  | regRm => exact outStopsAt_out (stopsAt_readRM fun _ => offAccess_advance)
  | regImm => exact outStopsAt_out (stopsAt_nil offAccess_advance)
  | accMoffs => exact outStopsAt_out stopsAt_memRead
  | moffsAcc => exact outStopsAt_out (decides_memWrite.stopsAt fun _ _ => offAccess_advance)

theorem outStopsAt_xchg (f : XchgForm) : OutStopsAt s (xchgChecks s f) (execXchg f s) := by
  cases f with
  | rmReg => exact outStopsAt_out stopsAt_update
  | accReg => exact outStopsAt_out (stopsAt_nil offAccess_advance)

theorem outStopsAt_push (f : PushForm) : OutStopsAt s (pushSrcChecks s f ++ pushChecks s (pushSize f)) (execPush f s) := by
  cases f with
  | rm => exact outStopsAt_out (StopsAt.bind decides_readRM fun _ _ => stopsAt_push fun _ => offAccess_advance)
  | reg | imm | imm8s => exact outStopsAt_out (stopsAt_push fun _ => offAccess_advance)

/-- No check of a write is that of a target. -/
theorem ne_target {l : Loc} {c : Check} (hc : c ∈ l.writeChecks z) (rel : Word) : c ≠ .target rel := by
  rintro rfl
  cases l <;> simp [Loc.writeChecks, writeChecks] at hc

theorem outStopsAt_pop (f : PopForm) : OutStopsAt s (popChecks s (popSize f) ++ popDstChecks s f) (execPop f s) := by
  cases f with
  | reg =>
    rw [popDstChecks, List.append_nil]
    exact outStopsAt_out (stopsAt_pop fun _ => offAccess_advance)
  | rm v e =>
    refine outStopsAt_out (StopsAt.bind decides_pop fun ⟨x, t⟩ hp => ?_)
    obtain ⟨-, rfl, rfl⟩ := pop_ok.mp hp
    exact Decides.stopsAt (Decides.congr decides_writeLoc ⟨rfl, rfl, rfl, rfl, rfl, rfl, rfl, rfl⟩ fun _ => ne_target)
      fun _ _ => offAccess_advance

theorem outStopsAt_movsx (f : ExtForm) : OutStopsAt s (extChecks s f) (execMovsx f s) := by
  cases f with
  | byte | word => exact outStopsAt_out (stopsAt_readRM fun _ => offAccess_advance)

theorem outStopsAt_movzx (f : ExtForm) : OutStopsAt s (extChecks s f) (execMovzx f s) := by
  cases f with
  | byte | word => exact outStopsAt_out (stopsAt_readRM fun _ => offAccess_advance)

end Shared

/-! ### ENTER -/

section Enter
variable {s t : State}

/-- A doubleword pushed, its store unchecked. -/
def pushWord (s : State) (v : Word) : State :=
  { s.poke (s.la .ss (s.regs.esp - 4#32)).toNat .dword v with regs := s.regs.set .esp (s.regs.esp - 4#32) }

theorem envSame_pushWord (s : State) (v : Word) : EnvSame s (pushWord s v) := ⟨rfl, rfl, rfl, rfl, rfl, rfl, rfl, rfl⟩

theorem pushRaw_pushWord {u : State} {v : Word} {a : Nat} (h : s.pushRaw v = .ok (u, a)) :
    u = pushWord s v ∧ a = (s.la .ss (s.regs.esp - 4#32)).toNat := by
  obtain ⟨-, rfl, rfl⟩ := pushRaw_ok.mp h
  exact ⟨rfl, rfl⟩

/-- The offsets below an offset, one doubleword after the other. -/
theorem below_succ (x : Word) (j : Nat) :
    x - 4#32 - BitVec.ofNat 32 (4 * (j + 1)) = x - BitVec.ofNat 32 (4 * (j + 1 + 1)) := by bv_omega

/-- The checks of copying `n` entries of the display below `w` to the stack below `e` (log 16). -/
def displayChecks (n : Nat) (w e : Word) : List Check :=
  (List.range n).flatMap fun j =>
    readChecks .ss (w - BitVec.ofNat 32 (4 * (j + 1))) .dword ++ [.space .ss (e - BitVec.ofNat 32 (4 * (j + 1))) .dword]

theorem displayChecks_succ (n : Nat) (w e : Word) : displayChecks (n + 1) w e =
    readChecks .ss (w - 4#32) .dword ++ ([.space .ss (e - 4#32) .dword] ++ displayChecks n (w - 4#32) (e - 4#32)) := by
  simp only [displayChecks, List.range_succ_eq_map, List.flatMap_cons, List.flatMap_map, below_succ, List.append_assoc]

theorem decides_pushRaw (v : Word) : Decides s [.space .ss (s.regs.esp - 4#32) .dword] (s.pushRaw v) := by
  have h : Decides s [.space .ss (s.regs.esp - 4#32) .dword] (s.linear .ss (s.regs.esp - 4#32) Size.dword.bytes) := by
    rw [linear_stop]; exact decides_resOf _ _
  exact h.map _

theorem displayChecks_ne_target {n : Nat} {w e : Word} {c : Check} (hc : c ∈ displayChecks n w e) (rel : Word) :
    c ≠ .target rel := by
  rintro rfl
  obtain ⟨j, -, hj⟩ := List.mem_flatMap.mp hc
  simp [readChecks] at hj

theorem decides_copyDisplay (n : Nat) (w : Word) (s : State) :
    Decides s (displayChecks n w s.regs.esp) (copyDisplay n w s) := by
  induction n generalizing w s with
  | zero => exact decides_ok _
  | succ n ih =>
    rw [displayChecks_succ]
    refine decides_memRead.bind fun v _ => (decides_pushRaw v).bind fun ⟨u, a⟩ hu => ?_
    obtain ⟨rfl, rfl⟩ := pushRaw_pushWord hu
    exact ((ih _ (pushWord s v)).congr (envSame_pushWord s v) fun _ => displayChecks_ne_target).map _

/-- What the copying of `n` entries pushes: each entry as it reads when it is pushed. -/
structure Copied (s : State) (w : Word) (n : Nat) (u : State) (as : List Nat) (vs : List Word) : Prop where
  length : vs.length = n
  state : u = vs.foldl pushWord s
  addrs : as = (List.range n).map fun j => (s.la .ss (s.regs.esp - BitVec.ofNat 32 (4 * (j + 1)))).toNat
  values : ∀ j (hj : j < vs.length),
    vs[j] = ((vs.take j).foldl pushWord s).memValue .ss (w - BitVec.ofNat 32 (4 * (j + 1))) .dword

theorem copied_of_copyDisplay {n : Nat} {w : Word} {u : State} {as : List Nat}
    (h : copyDisplay n w s = .ok (u, as)) : ∃ vs, Copied s w n u as vs := by
  induction n generalizing w s u as with
  | zero => cases h; exact ⟨[], rfl, rfl, rfl, nofun⟩
  | succ n ih =>
    obtain ⟨v, hv, h⟩ := bind_ok.mp h
    obtain ⟨-, rfl⟩ := memRead_ok.mp hv
    obtain ⟨⟨s1, a⟩, hs1, h⟩ := bind_ok.mp h
    obtain ⟨rfl, rfl⟩ := pushRaw_pushWord hs1
    obtain ⟨⟨s2, as'⟩, hs2, h⟩ := bind_ok.mp h
    cases h
    obtain ⟨vs, hlen, hstate, haddrs, hvalues⟩ := ih hs2
    refine ⟨s.memValue .ss (w - 4#32) .dword :: vs, by simp [hlen], hstate, ?_, fun j hj => ?_⟩
    · rw [haddrs, List.range_succ_eq_map, List.map_cons, List.map_map]
      refine congrArg _ (List.map_congr_left fun j _ => ?_)
      exact congrArg (fun x => (s.la .ss x).toNat) (below_succ s.regs.esp j)
    · cases j with
      | zero => rfl
      | succ j =>
        have := hvalues j (by simpa using hj)
        rw [below_succ] at this
        exact this

theorem envSame_pushWords (vs : List Word) (s : State) : EnvSame s (vs.foldl pushWord s) := by
  induction vs generalizing s with
  | nil => exact envSame_refl s
  | cons v vs ih => exact envSame_trans (envSame_pushWord s v) (ih _)

theorem pushWords_regs (vs : List Word) (s : State) :
    (vs.foldl pushWord s).regs = s.regs.set .esp (s.regs.esp - BitVec.ofNat 32 (4 * vs.length)) := by
  induction vs generalizing s with
  | nil =>
    rw [List.length_nil, Nat.mul_zero, BitVec.sub_zero]
    exact (set_get_self s.regs .esp).symm
  | cons v vs ih =>
    have hregs : (pushWord s v).regs = s.regs.set .esp (s.regs.esp - 4#32) := rfl
    rw [List.foldl_cons, ih, hregs, set_set_same, set_esp_esp, List.length_cons,
      show s.regs.esp - 4#32 - BitVec.ofNat 32 (4 * vs.length) = s.regs.esp - BitVec.ofNat 32 (4 * (vs.length + 1)) by
        bv_omega]

/-- The last slot of a frame of level `n + 1` is below the entries of the display. -/
theorem enterSlot_last (s : State) (vs : List Word) (v : Word) :
    (vs.foldl pushWord (pushWord s v)).regs.esp - 4#32 = enterSlot s (vs.length + 1) := by
  rw [← List.foldl_cons, pushWords_regs, set_esp_esp, List.length_cons, enterSlot]
  bv_omega

/-- The checks before those of the bytes pushed to (log 16). -/
def enterPushChecks (s : State) (lev : Nat) : List Check :=
  .space .ss (enterSlot s 0) .dword :: displayChecks (lev - 1) s.regs.ebp (s.regs.esp - 4#32) ++
    (if lev = 0 then [] else [.space .ss (enterSlot s lev) .dword])

theorem enterChecks_eq (s : State) (lev : Nat) : enterChecks s lev = enterPushChecks s lev ++
    ((List.range (enterCount lev)).map (fun k => .write .ss (enterSlot s k) .dword) ++
      (List.range (enterCount lev)).map fun k => .code .ss (enterSlot s k) .dword) := by
  simp only [enterChecks, enterPushChecks, displayChecks, below_succ, List.append_assoc]
  rfl

theorem decides_enterPushes (lev : Nat) (s : State) : Decides s (enterPushChecks s lev) (enterPushes lev s) := by
  cases lev with
  | zero => exact (decides_pushRaw s.regs.ebp).map _
  | succ n =>
    refine Decides.bind (cs := [_]) (decides_pushRaw s.regs.ebp) fun ⟨u, a⟩ hu => ?_
    obtain ⟨rfl, rfl⟩ := pushRaw_pushWord hu
    dsimp only
    rw [if_neg n.succ_ne_zero]
    refine ((decides_copyDisplay n s.regs.ebp (pushWord s s.regs.ebp)).congr (envSame_pushWord ..)
      fun _ => displayChecks_ne_target).bind fun ⟨u, as⟩ hu => Decides.map ?_ _
    obtain ⟨vs, hlen, rfl, -, -⟩ := copied_of_copyDisplay hu
    have h := decides_pushRaw (s := vs.foldl pushWord (pushWord s s.regs.ebp)) (pushWord s s.regs.ebp).regs.esp
    rw [enterSlot_last, hlen] at h
    refine h.congr (envSame_pushWords (s.regs.ebp :: vs) s) fun c hc rel => ?_
    rintro rfl
    simp at hc

/-- What the pushes of ENTER push, and to which addresses. -/
structure FrameBuilt (s : State) (lev : Nat) (t : State) (as : List Nat) (us : List Word) : Prop where
  state : t = (s.regs.ebp :: (us ++ if lev = 0 then [] else [s.regs.esp - 4#32])).foldl pushWord s
  length : us.length = lev - 1
  addrs : as = (List.range (enterCount lev)).map fun k => (s.la .ss (enterSlot s k)).toNat
  values : ∀ j (hj : j < us.length), us[j] = ((s.regs.ebp :: us.take j).foldl pushWord s).memValue .ss
    (s.regs.ebp - BitVec.ofNat 32 (4 * (j + 1))) .dword

theorem frameBuilt_of_enterPushes {lev : Nat} {t : State} {as : List Nat} (h : enterPushes lev s = .ok (t, as)) :
    ∃ us, FrameBuilt s lev t as us := by
  obtain ⟨⟨s1, a1⟩, hs1, h⟩ := bind_ok.mp h
  obtain ⟨rfl, rfl⟩ := pushRaw_pushWord hs1
  cases lev with
  | zero => cases h; exact ⟨[], rfl, rfl, rfl, nofun⟩
  | succ n =>
    obtain ⟨⟨s2, as'⟩, hs2, h⟩ := bind_ok.mp h
    obtain ⟨us, hlen, rfl, rfl, hvalues⟩ := copied_of_copyDisplay hs2
    obtain ⟨⟨s3, a3⟩, hs3, h⟩ := bind_ok.mp h
    obtain ⟨rfl, rfl⟩ := pushRaw_pushWord hs3
    cases h
    refine ⟨us, ?_, hlen, ?_, hvalues⟩
    · rw [if_neg n.succ_ne_zero, List.foldl_cons, List.foldl_append]
      rfl
    · rw [enterSlot_last, hlen, show enterCount (n + 1) = n + 1 + 1 from rfl, List.range_succ, List.map_append,
        List.range_succ_eq_map, List.map_cons, List.map_map]
      refine congrArg (List.cons _) (congrArg₂ (· ++ ·) (List.map_congr_left fun j _ => ?_) ?_)
      · exact congrArg (fun x => (s.la .ss x).toNat) (below_succ s.regs.esp j)
      · have hsegs := (envSame_pushWords (s.regs.ebp :: us) s).segs
        simp only [List.foldl_cons] at hsegs
        simp only [State.la, hsegs, List.map_cons, List.map_nil]
        rfl

theorem decides_checkWrites (s : State) (ks : List Nat) :
    Decides s (ks.map fun k => .write .ss (enterSlot s k) .dword)
      (s.checkWrites (ks.map fun k => (s.la .ss (enterSlot s k)).toNat)) := by
  induction ks with
  | nil => exact decides_ok _
  | cons k ks ih =>
    refine Decides.bind (cs := [_]) ?_ fun _ _ => ih
    rw [show 4 = Size.dword.bytes from rfl, checkWrite_stop]
    exact decides_resOf _ _

theorem decides_checkCodes (s : State) (ks : List Nat) :
    Decides s (ks.map fun k => .code .ss (enterSlot s k) .dword)
      (s.checkCodes (ks.map fun k => (s.la .ss (enterSlot s k)).toNat)) := by
  induction ks with
  | nil => exact decides_ok _
  | cons k ks ih =>
    refine Decides.bind (cs := [_]) ?_ fun _ _ => ih
    rw [show 4 = Size.dword.bytes from rfl, checkCode_stop]
    exact decides_resOf _ _

theorem outStopsAt_enter (size : BitVec 16) (lvl : Byte) :
    OutStopsAt s (enterChecks s (lvl.toNat % 32)) (execEnter size lvl s) := by
  rw [enterChecks_eq]
  refine outStopsAt_out (StopsAt.bind (decides_enterPushes _ s) fun ⟨t, as⟩ h => ?_)
  obtain ⟨us, -, -, rfl, -⟩ := frameBuilt_of_enterPushes h
  exact StopsAt.bind (decides_checkWrites s _) fun _ _ =>
    (decides_checkCodes s _).stopsAt fun _ _ => offAccess_advance

end Enter

/-! ### Every instruction -/

/-- Every instruction stops at the first of its checks that fails, and at no access where none fails. -/
theorem exec_outStopsAt (i : Instr) (s : State) : OutStopsAt s (accessChecks s i) (exec i s) := by
  cases i with
  | add | or | adc | sbb | and | sub | xor => exact outStopsAt_out stopsAt_aluWrite
  | cmp f => exact stopsAt_cmp f
  | inc | dec | neg => exact outStopsAt_out stopsAt_update
  | not => exact outStopsAt_out (stopsAt_update (u := fun _ => id))
  | test f => exact outStopsAt_test f
  | mul | imul1 | imul2 => exact outStopsAt_out (stopsAt_readRM fun _ => offAccess_advance)
  | imul3 f => exact outStopsAt_imul3 f
  | div | idiv =>
    exact outStopsAt_out (stopsAt_readRM fun _ => ends_ite trivial (ends_ite trivial offAccess_advance))
  | mov f => exact outStopsAt_mov f
  | xchg f => exact outStopsAt_xchg f
  | push f => exact outStopsAt_push f
  | pop f => exact outStopsAt_pop f
  | movsx f => exact outStopsAt_movsx f
  | movzx f => exact outStopsAt_movzx f
  | daa | das | aaa | aas | cbw | cwde | cwd | cdq | lahf | lea | clc | stc | cmc | sahf | cld | std | wait | nop =>
    exact outStopsAt_of_offAccess (outEnds_out offAccess_advance)
  | bt => exact outStopsAt_out (decides_readLoc.stopsAt fun _ _ => offAccess_advance)
  | bts | btr | btc => exact outStopsAt_out stopsAt_update
  | bsf | bsr => exact outStopsAt_out (stopsAt_readRM fun _ => offAccess_scanInto _)
  | seto | setno | setb | setae | sete | setne | setbe | seta | sets | setns | setp | setnp | setl | setge | setle
  | setg => exact outStopsAt_out (stopsAt_writeLoc (u := id))
  | rol | ror | rcl | rcr | shl | shr | sar | shld | shrd => exact outStopsAt_out stopsAt_counted
  | jmpInd => exact outStopsAt_out (stopsAt_readRM fun _ => offAccess_ok _)
  | jmpRel => exact outStopsAt_of_offAccess (outEnds_out offAccess_branch)
  | jo | jno | jb | jae | je | jne | jbe | ja | js | jns | jp | jnp | jl | jge | jle | jg =>
    exact outStopsAt_of_offAccess (outEnds_out offAccess_jumpIf)
  | callRel => exact outStopsAt_out (StopsAt.bind decides_relTarget fun _ _ => stopsAt_push fun _ => offAccess_ok _)
  | callInd => exact outStopsAt_out (StopsAt.bind decides_readRM fun _ _ => stopsAt_push fun _ => offAccess_ok _)
  | ret | retImm => exact outStopsAt_out (stopsAt_pop fun _ => offAccess_ok _)
  | loop | loope | loopne => exact outStopsAt_of_offAccess (outEnds_out offAccess_loopWhile)
  | jecxz => exact outStopsAt_of_offAccess (outEnds_out (ends_ite offAccess_branch offAccess_advance))
  | int | int3 => exact outStopsAt_of_offAccess (outEnds_out offAccess_softInt)
  | into => exact outStopsAt_of_offAccess (outEnds_out (ends_ite offAccess_softInt offAccess_advance))
  | movsb o => exact outStopsAt_out (stopsAt_strMove (.movs .byte o))
  | movsd v o => exact outStopsAt_out (stopsAt_strMove (.movs v.size o))
  | lodsb o => exact outStopsAt_out (stopsAt_strMove (.lods .byte o))
  | lodsd v o => exact outStopsAt_out (stopsAt_strMove (.lods v.size o))
  | stosb => exact outStopsAt_out (stopsAt_strMove (.stos .byte))
  | stosd v => exact outStopsAt_out (stopsAt_strMove (.stos v.size))
  | cmpsb o => exact outStopsAt_out (stopsAt_strCmp (.cmps .byte o))
  | cmpsd v o => exact outStopsAt_out (stopsAt_strCmp (.cmps v.size o))
  | scasb => exact outStopsAt_out (stopsAt_strCmp (.scas .byte))
  | scasd v => exact outStopsAt_out (stopsAt_strCmp (.scas v.size))
  | rep p => exact outStopsAt_out (stopsAt_repeatOnce (decides_strMove p))
  | repe p | repne p => exact outStopsAt_out (stopsAt_repeatOnce (decides_strCmp p))
  | enter size lvl => exact outStopsAt_enter size lvl
  | leave | xlat => exact outStopsAt_out stopsAt_memRead
  | pushf | pushfd => exact outStopsAt_out (stopsAt_push fun _ => offAccess_advance)
  | popf | popfd => exact outStopsAt_out (stopsAt_pop fun _ => offAccess_advance)
  | pushSeg | popSeg | movSeg | les | lds | lss | lfs | lgs | callFar | jmpFar | retFar | arpl | sldt | str | lldt | ltr
  | verr | verw | sgdt | sidt | lgdt | lidt | smsw | lmsw | lar | lsl | clts | movSys | iret | cli | sti | hlt | inPort
  | outPort | insb | insd | outsb | outsd | pusha | popa | bound | aam | aad | esc | aliasOf80 | undocumented
  | undefined | prefixEs | prefixCs | prefixSs | prefixDs | prefixFs | prefixGs | opsize | addrsize | lock | repMisused
  | repneMisused => exact outStopsAt_of_offAccess Refusal.noConfusion

/-! ### One access -/

/-- The lowest byte of an access that is not admitted, as an offset (log 20). -/
theorem find_first {p : Nat → Bool} {n k : Nat} (hk : k < n) (hbad : p k = false) (hfirst : ∀ j < k, p j = true) :
    (List.range n).find? (fun j => !p j) = some k :=
  List.find?_range_eq_some.mpr ⟨by simp [hbad], List.mem_range.mpr hk, fun j hj => by simp [hfirst j hj]⟩

theorem find_none {p : Nat → Bool} {n : Nat} (hall : ∀ k < n, p k = true) :
    (List.range n).find? (fun j => !p j) = none :=
  List.find?_eq_none.mpr fun k hk => by simp [hall k (List.mem_range.mp hk)]

/-- Settles O22: the accesses alone, then every instruction. -/
theorem accessAdmittedOrStops : Obligations.AccessAdmittedOrStops := by
  refine ⟨fun s seg off z v => ⟨fun hout => ?_, fun hoff hla => ?_⟩, fun i s => exec_outStopsAt i s⟩
  · have hspace : s.inSpace seg off z.bytes = false := by
      simpa [State.inSpace, Config.addressSpace] using not_and.mp hout
    exact ⟨memRead_error.mpr (by simp [readChecks, Check.stop, hspace]),
      memWrite_error.mpr (by simp [writeChecks, Check.stop, hspace])⟩
  · have hspace : s.inSpace seg off z.bytes = true := by simp [State.inSpace, Config.addressSpace, hoff, hla]
    refine ⟨fun hall => ⟨_, memRead_ok.mpr ⟨⟨hspace, hall⟩, rfl⟩⟩, fun k hk hbad hfirst => memRead_error.mpr ?_,
      fun k hk hbad hfirst => memWrite_error.mpr ?_, fun hall => ⟨fun ⟨k, hk, hcode⟩ => memWrite_error.mpr ?_,
        fun hcode => ⟨_, memWrite_ok.mpr ⟨⟨hspace, fun k hk => ⟨hall k hk, hcode k hk⟩⟩, rfl⟩⟩⟩⟩
    · simp [readChecks, Check.stop, hspace, find_first hk hbad hfirst]
    · simp [writeChecks, Check.stop, hspace, find_first hk hbad hfirst]
    · have hany : ((List.range z.bytes).any fun k => s.inCode ((s.la seg off).toNat + k)) = true :=
        List.any_eq_true.mpr ⟨k, List.mem_range.mpr hk, hcode⟩
      simp only [writeChecks, Check.stop, List.findSome?_cons, hspace, find_none hall, hany]
      rfl

end Sys2Proof.Proofs
end

section
/-! The frame that ENTER builds, and LEAVE after it (spec/47_block_structured.md). -/

namespace Sys2Proof.Proofs

open Sys2Proof Sys2Proof.Machine Sys2Proof.Laws

/-! ### What a sequence of pushes leaves in memory -/

section Pushes
variable {s : State} {vs : List Word} {seg : Seg} {off : Word}

theorem enterSlot_zero (s : State) : enterSlot s 0 = s.regs.esp - 4#32 := rfl

theorem enterSlot_pushWord (s : State) (v : Word) (k : Nat) : enterSlot (pushWord s v) k = enterSlot s (k + 1) :=
  below_succ s.regs.esp k

/-- The linear address of a slot. -/
theorem la_congr {t : State} (h : EnvSame s t) : t.la seg off = s.la seg off := by rw [State.la, State.la, h.segs]

/-- A byte outside the slots pushed to is as before. -/
theorem get_pushWords {a : Nat}
    (h : ∀ k < vs.length, a < (s.la .ss (enterSlot s k)).toNat ∨ (s.la .ss (enterSlot s k)).toNat + 4 ≤ a) :
    Memory.get (vs.foldl pushWord s).mem a = Memory.get s.mem a := by
  induction vs generalizing s with
  | nil => rfl
  | cons v vs ih =>
    rw [List.foldl_cons, ih fun k hk => ?_]
    · have h0 := h 0 (by simp)
      rw [enterSlot_zero] at h0
      exact get_write_outside (n := 4) _ _ (by omega)
    · rw [enterSlot_pushWord]
      exact h (k + 1) (by simpa using hk)

/-- A doubleword apart from the slots pushed to reads as before. -/
theorem memValue_pushWords
    (h : ∀ k < vs.length, (s.la seg off).toNat + 4 ≤ (s.la .ss (enterSlot s k)).toNat ∨
      (s.la .ss (enterSlot s k)).toNat + 4 ≤ (s.la seg off).toNat) :
    (vs.foldl pushWord s).memValue seg off .dword = s.memValue seg off .dword := by
  rw [State.memValue, la_congr (envSame_pushWords vs s), State.memValue]
  refine congrArg _ (read_congr fun j hj => get_pushWords fun k hk => ?_)
  have hj4 : j < 4 := hj
  have := h k hk
  omega

/-- Two slots below the top do not overlap. -/
theorem slots_apart {i j : Nat} (hij : i ≠ j) (hi : i < 64) (hj : j < 64) (hsi : s.inSpace .ss (enterSlot s i) 4 = true)
    (hsj : s.inSpace .ss (enterSlot s j) 4 = true) :
    (s.la .ss (enterSlot s i)).toNat + 4 ≤ (s.la .ss (enterSlot s j)).toNat ∨
      (s.la .ss (enterSlot s j)).toNat + 4 ≤ (s.la .ss (enterSlot s i)).toNat := by
  simp only [State.inSpace, Bool.and_eq_true, decide_eq_true_eq, Config.addressSpace] at hsi hsj
  obtain ⟨-, hsi⟩ := hsi
  obtain ⟨-, hsj⟩ := hsj
  simp only [State.la, enterSlot, BitVec.toNat_add, BitVec.toNat_sub, BitVec.toNat_ofNat] at *
  omega

/-- Each slot holds what was pushed to it. -/
theorem memValue_slot (hspace : ∀ k < vs.length, s.inSpace .ss (enterSlot s k) 4 = true) (hlen : vs.length ≤ 64) {k : Nat}
    (hk : k < vs.length) : (vs.foldl pushWord s).memValue .ss (enterSlot s k) .dword = vs[k] := by
  induction vs generalizing s k with
  | nil => exact absurd hk (Nat.not_lt_zero k)
  | cons v vs ih =>
    rw [List.foldl_cons]
    cases k with
    | zero =>
      have hfirst : (pushWord s v).memValue .ss (enterSlot s 0) .dword = v :=
        memValue_poke (z := .dword) s .ss (s.regs.esp - 4#32) v
      rw [memValue_pushWords fun j hj => ?_]
      · exact hfirst
      · have hj' : j + 1 < (v :: vs).length := by simpa using hj
        rw [enterSlot_pushWord, la_congr (envSame_pushWord s v), la_congr (envSame_pushWord s v)]
        exact slots_apart (by omega) (by omega) (by omega) (hspace 0 (by simp)) (hspace (j + 1) hj')
    | succ k =>
      rw [← enterSlot_pushWord s v]
      refine ih (fun j hj => ?_) (by simp at hlen; omega) (by simpa using hk)
      rw [enterSlot_pushWord]
      exact hspace (j + 1) (by simpa using hj)

end Pushes

/-! ### The pushes of ENTER -/

section Enter
variable {s t : State} {lev : Nat} {as : List Nat} {us : List Word}

/-- The doublewords that ENTER pushes: the old EBP, the entries `us` of the display, and the new frame pointer. -/
def frameWords (s : State) (lev : Nat) (us : List Word) : List Word :=
  s.regs.ebp :: (us ++ if lev = 0 then [] else [s.regs.esp - 4#32])

theorem length_frameWords (h : us.length = lev - 1) : (frameWords s lev us).length = enterCount lev := by
  cases lev with
  | zero => simp_all [frameWords, enterCount]
  | succ n => simp_all [frameWords, enterCount]

theorem pushWords_pc (vs : List Word) (s : State) : (vs.foldl pushWord s).pc = s.pc := by
  induction vs generalizing s with
  | nil => rfl
  | cons v vs ih => exact ih _

theorem pushWords_flags (vs : List Word) (s : State) : (vs.foldl pushWord s).flags = s.flags := by
  induction vs generalizing s with
  | nil => rfl
  | cons v vs ih => exact ih _

/-- The pushes answer a state exactly when every slot is below the top and the display can be read. -/
theorem enterPushes_next_iff : (∃ p, enterPushes lev s = .ok p) ↔
    ∀ c ∈ enterPushChecks s lev, Check.stop s c = none := by
  rw [← List.findSome?_eq_none_iff]
  have h := decides_enterPushes lev s
  cases hp : enterPushes lev s with
  | ok p =>
    refine ⟨fun _ => Option.eq_none_iff_forall_ne_some.mpr fun e he => ?_, fun _ => ⟨p, rfl⟩⟩
    rw [(h e).mpr he] at hp; cases hp
  | error e =>
    rw [(h e).mp hp]
    exact ⟨fun hc => (by obtain ⟨_, hc⟩ := hc; cases hc), fun hc => by cases hc⟩

theorem stop_space_eq_none {seg : Seg} {off : Word} {z : Size} :
    Check.stop s (.space seg off z) = none ↔ s.inSpace seg off z.bytes = true := by
  simp [Check.stop]

theorem stop_read_eq_none {seg : Seg} {off : Word} {z : Size}
    (h : ∀ k < z.bytes, s.readable ((s.la seg off).toNat + k) = true) : Check.stop s (.read seg off z) = none := by
  simp only [Check.stop, find_none h, Option.map_none]

theorem mem_enterPushChecks {c : Check} : c ∈ enterPushChecks s lev ↔
    (∃ k < enterCount lev, c = .space .ss (enterSlot s k) .dword) ∨
      ∃ j < lev - 1, c = .space .ss (s.regs.ebp - BitVec.ofNat 32 (4 * (j + 1))) .dword ∨
        c = .read .ss (s.regs.ebp - BitVec.ofNat 32 (4 * (j + 1))) .dword := by
  have hslot (j : Nat) : s.regs.esp - 4#32 - BitVec.ofNat 32 (4 * (j + 1)) = enterSlot s (j + 1) := below_succ ..
  simp only [enterPushChecks, displayChecks, readChecks, List.mem_append, List.mem_cons, List.mem_flatMap,
    List.mem_range, hslot, List.not_mem_nil, or_false]
  constructor
  · rintro ((rfl | ⟨j, hj, (rfl | rfl) | rfl⟩) | h)
    · exact .inl ⟨0, by unfold enterCount; split <;> omega, rfl⟩
    · exact .inr ⟨j, hj, .inl rfl⟩
    · exact .inr ⟨j, hj, .inr rfl⟩
    · exact .inl ⟨j + 1, by rw [enterCount, if_neg (by omega)]; omega, rfl⟩
    · by_cases h0 : lev = 0
      · rw [if_pos h0] at h; cases h
      · rw [if_neg h0, List.mem_singleton] at h
        exact .inl ⟨lev, by rw [enterCount, if_neg h0]; omega, h⟩
  · rintro (⟨k, hk, rfl⟩ | ⟨j, hj, rfl | rfl⟩)
    · cases k with
      | zero => exact .inl (.inl rfl)
      | succ k =>
        have h0 : lev ≠ 0 := by rintro rfl; simp [enterCount] at hk
        rw [enterCount, if_neg h0] at hk
        by_cases hlast : k + 1 = lev
        · rw [if_neg h0, hlast]; exact .inr (List.mem_singleton_self _)
        · exact .inl (.inr ⟨k, by omega, .inr rfl⟩)
    · exact .inl (.inr ⟨j, hj, .inl (.inl rfl)⟩)
    · exact .inl (.inr ⟨j, hj, .inl (.inr rfl)⟩)

/-- Where the pushes answer a state every slot is below the top. -/
theorem inSpace_of_enterPushes {p : State × List Nat} (h : enterPushes lev s = .ok p) :
    ∀ k < enterCount lev, s.inSpace .ss (enterSlot s k) 4 = true := fun k hk =>
  (stop_space_eq_none (z := .dword)).mp
    (enterPushes_next_iff.mp ⟨p, h⟩ _ (mem_enterPushChecks.mpr (.inl ⟨k, hk, rfl⟩)))

/-- Where every slot is below the top and the display can be read the pushes answer a state. -/
theorem enterPushes_next (hspace : ∀ k < enterCount lev, s.inSpace .ss (enterSlot s k) 4 = true)
    (hread : ∀ j < lev - 1, s.CanRead .ss (s.regs.ebp - BitVec.ofNat 32 (4 * (j + 1))) 4) :
    ∃ p, enterPushes lev s = .ok p := by
  refine enterPushes_next_iff.mpr fun c hc => ?_
  rcases mem_enterPushChecks.mp hc with ⟨k, hk, rfl⟩ | ⟨j, hj, rfl | rfl⟩
  · exact (stop_space_eq_none (z := .dword)).mpr (hspace k hk)
  · exact (stop_space_eq_none (z := .dword)).mpr (hread j hj).1
  · exact stop_read_eq_none (z := .dword) (hread j hj).2

/-- ENTER answers a state exactly where its pushes do and every byte pushed to may be written. -/
theorem execEnter_next {size : BitVec 16} {lvl : Byte} : execEnter size lvl s = .next t ↔
    ∃ p, enterPushes (lvl.toNat % 32) s = .ok p ∧ (∀ a ∈ p.2, ∀ k < 4, s.writable (a + k) = true) ∧
      (∀ a ∈ p.2, ∀ k < 4, s.inCode (a + k) = false) ∧
      State.advance { p.1 with
        regs := (p.1.regs.set .ebp (s.regs.esp - 4#32)).set .esp (p.1.regs.esp - size.setWidth 32) } = .ok t := by
  simp only [execEnter, out_next, bind_ok, checkWrites_ok, checkCodes_ok]
  constructor
  · rintro ⟨p, hp, _, hw, _, hc, h⟩
    exact ⟨p, hp, hw, hc, h⟩
  · rintro ⟨p, hp, hw, hc, h⟩
    exact ⟨p, hp, (), hw, (), hc, h⟩

/-- The state after ENTER. -/
def entered (s : State) (size : BitVec 16) (lev : Nat) (us : List Word) : State :=
  { (frameWords s lev us).foldl pushWord s with
    regs := (s.regs.set .ebp (s.regs.esp - 4#32)).set .esp
      (s.regs.esp - BitVec.ofNat 32 (4 * enterCount lev) - BitVec.ofNat 32 size.toNat)
    pc := s.npc }

/-- The last part of ENTER, once its pushes are made and checked. -/
theorem advance_frame {size : BitVec 16} {u : State} (h : FrameBuilt s lev u as us) :
    State.advance { u with
      regs := (u.regs.set .ebp (s.regs.esp - 4#32)).set .esp (u.regs.esp - size.setWidth 32) } = .ok t ↔
      s.HasNext ∧ t = entered s size lev us := by
  have hu : u = (frameWords s lev us).foldl pushWord s := h.state
  have hregs := pushWords_regs (frameWords s lev us) s
  rw [length_frameWords h.length] at hregs
  have hpc : u.pc = s.pc := by rw [hu, pushWords_pc]
  have hilen : u.ilen = s.ilen := by rw [hu, (envSame_pushWords ..).ilen]
  have hadv := advance_ok_of (s := s) (t := t) (u := { u with
    regs := (u.regs.set .ebp (s.regs.esp - 4#32)).set .esp (u.regs.esp - size.setWidth 32) }) hpc hilen
  refine hadv.trans (and_congr_right fun _ => ?_)
  rw [hu, hregs, set_esp_esp, ← BitVec.ofNat_toNat]
  rfl

theorem falls_entered (s : State) (size : BitVec 16) (lev : Nat) (us : List Word) : Falls s (entered s size lev us) := by
  obtain ⟨hsegs, hsys, hcpl, hmap, hcode, hhalt, hilen, hdraws⟩ := envSame_pushWords (frameWords s lev us) s
  exact ⟨rfl, hsegs, hsys, hcpl, hmap, hcode, hhalt, hilen, hdraws⟩

/-- Each slot holds its word after ENTER. -/
theorem memValue_entered {size : BitVec 16} (hspace : ∀ k < enterCount lev, s.inSpace .ss (enterSlot s k) 4 = true)
    (hlev : lev < 32) (hlen : us.length = lev - 1) {k : Nat} (hk : k < (frameWords s lev us).length) :
    (entered s size lev us).memValue .ss (enterSlot s k) .dword = (frameWords s lev us)[k] := by
  have hcount := length_frameWords (s := s) hlen
  refine memValue_slot (s := s) (fun k hk => hspace k (hcount ▸ hk)) ?_ hk
  rw [hcount, enterCount]
  split <;> omega

end Enter

/-- Settles O53: the pushes are admitted, and the slots hold the words pushed. -/
theorem enterBuildsFrame : Obligations.EnterBuildsFrame := by
  rintro size lvl s lev cnt hn rfl rfl hwrite hread
  have hspace : ∀ k < enterCount (lvl.toNat % 32), s.inSpace .ss (enterSlot s k) 4 = true := fun k hk => (hwrite k hk).1
  have hlev : lvl.toNat % 32 < 32 := Nat.mod_lt _ (by decide)
  obtain ⟨⟨u, as⟩, hp⟩ := enterPushes_next hspace hread
  obtain ⟨us, hframe⟩ := frameBuilt_of_enterPushes hp
  have hwords := length_frameWords (s := s) hframe.length
  have hexec : exec (.enter size lvl) s = .next (entered s size (lvl.toNat % 32) us) := by
    refine execEnter_next.mpr ⟨_, hp, ?_, ?_, (advance_frame hframe).mpr ⟨hn, rfl⟩⟩
    · rw [hframe.addrs]
      exact List.forall_mem_map.mpr fun k hk j hj => ((hwrite k (List.mem_range.mp hk)).2 j hj).1
    · rw [hframe.addrs]
      exact List.forall_mem_map.mpr fun k hk j hj => ((hwrite k (List.mem_range.mp hk)).2 j hj).2
  refine ⟨_, hexec, rfl, pushWords_flags _ s, falls_entered .., fun a ha => ?_, ?_, fun h0 => ?_, fun hapart j hj => ?_⟩
  · exact get_pushWords fun k hk => ha k (by rwa [hwords] at hk)
  · exact memValue_entered hspace hlev hframe.length (k := 0) (by simp [frameWords])
  · have hcount : enterCount (lvl.toNat % 32) = us.length + 1 + 1 := by
      rw [hframe.length, enterCount, if_neg h0.ne']; omega
    have hlast := memValue_entered (size := size) hspace hlev hframe.length (k := us.length + 1)
      (by rw [hwords, hcount]; omega)
    simp only [frameWords, List.getElem_cons_succ, if_neg h0.ne', List.getElem_concat_length] at hlast
    rw [← enterCount, hcount]
    exact hlast
  · have hjus : j < us.length := by rw [hframe.length]; exact hj
    have hjw : j + 1 < (frameWords s (lvl.toNat % 32) us).length := by simp [frameWords]; omega
    have hentry := memValue_entered (size := size) hspace hlev hframe.length (k := j + 1) hjw
    simp only [frameWords, List.getElem_cons_succ, List.getElem_append_left hjus] at hentry
    refine hentry.trans ((hframe.values j hjus).trans (memValue_pushWords fun k hk => hapart j hj k ?_))
    have hkj : k < (s.regs.ebp :: us.take j).length := hk
    rw [← enterCount, ← hwords]
    simp at hkj
    omega

theorem regs_entered_left (r : Regs) (a b : Word) :
    ((((r.set .ebp a).set .esp b).set .esp r.esp).set .ebp r.ebp) = r := rfl

/-- Settles O54: LEAVE reads the word that ENTER pushed first. -/
theorem enterLeaveRoundTrip : Obligations.EnterLeaveRoundTrip := by
  intro size lvl s t h hn
  obtain ⟨⟨u, as⟩, hp, hw, hc, hadv⟩ := execEnter_next.mp h
  obtain ⟨us, hframe⟩ := frameBuilt_of_enterPushes hp
  obtain ⟨-, rfl⟩ := (advance_frame hframe).mp hadv
  have hspace := inSpace_of_enterPushes hp
  have hfirst : 0 < enterCount (lvl.toNat % 32) := by unfold enterCount; split <;> omega
  have hebp : (entered s size (lvl.toNat % 32) us).memValue .ss (enterSlot s 0) .dword = s.regs.ebp :=
    memValue_entered hspace (Nat.mod_lt _ (by decide)) hframe.length (by simp [frameWords])
  have hread : (entered s size (lvl.toNat % 32) us).CanRead .ss (enterSlot s 0) 4 := by
    have henv := (falls_entered s size (lvl.toNat % 32) us).env
    refine ⟨?_, fun k hk => readable_of_writable ?_⟩
    · rw [State.inSpace, la_congr henv]
      exact hspace 0 hfirst
    · rw [envSame_writable henv, la_congr henv]
      exact hw _ (by rw [hframe.addrs]; exact List.mem_map_of_mem (List.mem_range.mpr hfirst)) k hk
  have hesp : enterSlot s 0 + 4#32 = s.regs.esp := BitVec.sub_add_cancel ..
  have hregs : ((entered s size (lvl.toNat % 32) us).regs.set .esp (enterSlot s 0 + 4#32)).set .ebp
      ((entered s size (lvl.toNat % 32) us).memValue .ss (enterSlot s 0) .dword) = s.regs := by
    rw [hesp, hebp]
    exact regs_entered_left ..
  exact ⟨_, memRead_next (z := .dword) hread (advance_ok.mpr ⟨hn, rfl⟩), hregs, pushWords_flags _ s, fun _ => rfl⟩

end Sys2Proof.Proofs
end

section
/-! Memory, effective addresses (spec/20_memory.md R64 to R70), reset (10_state.md R45), and the step that runs given bytes
(60_exceptions.md R507). -/

namespace Sys2Proof.Proofs

open Sys2Proof Sys2Proof.Machine Sys2Proof.Laws

/-! ### Little-endian memory -/

section Memory
variable {s : State} {seg : Seg} {off : Word}

/-- Byte `k` of a number, as the bits that it is. -/
theorem byte_eq_extractLsb' {w : Nat} (v : BitVec w) (k : Nat) :
    BitVec.ofNat 8 (v.toNat / 256 ^ k) = v.extractLsb' (8 * k) 8 := by
  rw [BitVec.extractLsb', Nat.shiftRight_eq_div_pow, Nat.pow_mul]

/-- A number read is its low part and, above it, its high part. -/
theorem read_append (m : List Host.Cell) (a n k : Nat) :
    Memory.read m a (n + k) = Memory.read m a n + 256 ^ n * Memory.read m (a + n) k := by
  induction n generalizing a with
  | zero => simp [Memory.read]
  | succ n ih =>
    rw [Nat.add_right_comm, Memory.read, ih, Memory.read, pow_succ', Nat.add_assoc, Nat.add_assoc, Nat.add_comm 1 n]
    ring

/-- Part of a readable access is readable. -/
theorem canRead_low {n k : Nat} (h : s.CanRead seg off n) (hk : k ≤ n) : s.CanRead seg off k := by
  obtain ⟨hspace, hread⟩ := h
  simp only [State.inSpace, Bool.and_eq_true, decide_eq_true_eq] at hspace
  refine ⟨?_, fun j hj => hread j (by omega)⟩
  simp only [State.inSpace, Bool.and_eq_true, decide_eq_true_eq]
  omega

/-- Below the top an offset that is moved on moves its linear address on by as much. -/
theorem la_add {n : Nat} (h : s.inSpace seg off n = true) {k : Word} (hk : k.toNat < n) :
    (s.la seg (off + k)).toNat = (s.la seg off).toNat + k.toNat := by
  simp only [State.inSpace, Bool.and_eq_true, decide_eq_true_eq, Config.addressSpace] at h
  simp only [State.la, BitVec.toNat_add] at *
  omega

theorem canRead_high {n : Nat} (h : s.CanRead seg off n) {k : Word} (hk : k.toNat < n) :
    s.CanRead seg (off + k) (n - k.toNat) := by
  have hla := la_add h.1 hk
  obtain ⟨hspace, hread⟩ := h
  refine ⟨?_, fun j hj => ?_⟩
  · simp only [State.inSpace, Bool.and_eq_true, decide_eq_true_eq, Config.addressSpace, hla, BitVec.toNat_add] at *
    omega
  · rw [hla, Nat.add_assoc]
    exact hread _ (by omega)

/-- Settles O21. -/
theorem storeThenLoadReturnsValue : Obligations.StoreThenLoadReturnsValue := by
  refine ⟨fun s t seg off z v h => ?_, fun s seg off v h => ?_⟩
  · obtain ⟨hw, rfl⟩ := memWrite_ok.mp h
    refine ⟨memRead_ok.mpr ⟨canRead_of_canWrite hw, (memValue_poke s seg off v).symm⟩, fun k hk => ?_, fun b hb => ?_⟩
    · rw [poke_mem, get_write, if_pos (by omega), Nat.add_sub_cancel_left, byte_eq_extractLsb']
    · exact get_write_outside _ _ (by omega)
  · obtain ⟨hr, rfl⟩ := memRead_ok.mp h
    have hla : (s.la seg (off + 2#32)).toNat = (s.la seg off).toNat + 2 := la_add hr.1 (k := 2#32) (by decide)
    have hbyte : _ = _ + 256 * _ := read_append s.mem (s.la seg off).toNat 1 3
    have hword : _ = _ + 65536 * _ := read_append s.mem (s.la seg off).toNat 2 2
    have hlt : _ < 65536 := read_lt s.mem (s.la seg off).toNat 2
    refine ⟨memRead_ok.mpr ⟨canRead_low hr (by decide), ?_⟩, memRead_ok.mpr ⟨canRead_low hr (by decide), ?_⟩,
      memRead_ok.mpr ⟨canRead_high hr (k := 2#32) (by decide), ?_⟩⟩
    all_goals
      apply BitVec.eq_of_toNat_eq
      simp only [State.memValue, hla, BitVec.extractLsb'_toNat, BitVec.toNat_ofNat, Nat.shiftRight_eq_div_pow, Size.bits,
        Size.bytes, Nat.pow_zero, Nat.div_one, Nat.reducePow, Nat.reduceAdd] at *
      omega

end Memory

/-! ### Effective addresses -/

section Address
variable (s : State)

/-- A sum of numbers modulo 2^32, from what its parts are modulo 2^32. -/
theorem toNat_add_add {a b c : Word} {x y z : Int} (ha : (a.toNat : Int) % 4294967296 = x % 4294967296)
    (hb : (b.toNat : Int) % 4294967296 = y % 4294967296) (hc : (c.toNat : Int) % 4294967296 = z % 4294967296) :
    ((a + b + c).toNat : Int) = (x + y + z) % 4294967296 := by
  simp only [BitVec.toNat_add]
  omega

theorem toNat_emod_eq_toInt_emod (x : Word) : (x.toNat : Int) % 4294967296 = x.toInt % 4294967296 := by
  rw [BitVec.toInt_eq_toNat_bmod]
  exact Int.bmod_emod.symm

/-- Settles O23, part by part of the sum. -/
theorem effectiveAddressSumAndSegment : Obligations.EffectiveAddressSumAndSegment := by
  rintro s ⟨ovr, base, index, disp⟩
  refine ⟨toNat_add_add ?_ ?_ ?_, ?_, ?_, fun g off => BitVec.toNat_add ..⟩
  · cases base <;> rfl
  · rcases index with _ | ⟨x, _ | _ | _ | _⟩
    · rfl
    all_goals simp only [State.indexValue, scaleFactor, BitVec.toNat_mul, BitVec.toNat_ofNat]; omega
  · cases disp with
    | none => rfl
    | d8 d =>
      rw [toNat_emod_eq_toInt_emod]
      exact congrArg (· % _) (BitVec.toInt_signExtend_of_le (by decide))
    | d32 d => exact toNat_emod_eq_toInt_emod d
  · rintro rfl
    rcases base with _ | g
    · rfl
    · cases g <;> rfl
  · rintro g rfl
    rfl

end Address

/-! ### Reset -/

/-- Settles O1. -/
theorem resetGivesSpecValues : Obligations.ResetGivesSpecValues := by
  refine ⟨rfl, by decide, by decide, rfl, rfl, rfl, fun g => ?_, fun g hg => ?_, rfl, rfl, rfl, rfl, rfl, rfl, rfl, rfl⟩
  · cases g <;> rfl
  · cases g with
    | cs => exact absurd rfl hg
    | ss | ds | es | fs | gs => exact ⟨rfl, rfl⟩

/-- Settles O2. -/
theorem resetMemoryCanonical : Obligations.ResetMemoryCanonical := rfl

/-! ### The step -/

theorem singleStep_false (o : Outcome) : singleStep false o = o := by cases o <;> rfl

/-- Settles O8. -/
theorem stepRunsDecoded : Obligations.StepRunsDecoded := by
  intro s bs i n hr htf hb hd
  rw [step_of_fetch hr (fetch_of_bytesAt hb hd), htf, singleStep_false]
  rfl

/-- Settles O9. -/
theorem stepRunsEncoded : Obligations.StepRunsEncoded :=
  fun s i hr htf hwf hb => stepRunsDecoded s _ i _ hr htf hb (decode_encode i hwf)

theorem step_of_not_running {s : State} (hh : s.haltAddr ≠ some s.pc) (hm : s.modeAdmitted = false) :
    step s = .refused .modeNotAdmitted := by
  simp [step, State.halted, hh, hm]

/-- Settles O11. -/
theorem haltedStandsModeRefused : Obligations.HaltedStandsModeRefused := by
  refine ⟨fun s hh => ?_, fun s hh hm => step_of_not_running hh ?_, step_of_not_running (by decide) rfl⟩
  · simp [step, State.halted, hh]
  · rw [← Bool.not_eq_true]
    simpa [State.modeAdmitted, and_assoc] using hm

end Sys2Proof.Proofs
end

section
/-! What the decoder answers (spec/30_encoding.md R102, R111, R125): an instruction that has an encoding, read of so many
bytes at most, and always an answer where there are that many. First the readers of operands, then one rule per kind of row,
then the opcode maps, the prefixes and the fetch. -/

namespace Sys2Proof.Proofs

open Sys2Proof Sys2Proof.Machine

/-! ### Locality -/

/-- Settles O7. -/
theorem decodeLocal : Obligations.DecodeLocal := by
  refine ⟨fun bs tail i n h => ?_, fun bs tail h => ?_⟩
  · obtain ⟨used, rest, rfl, rfl, -, hdecode⟩ := decode_splits h
    rw [List.take_left' rfl]
    exact hdecode tail
  · by_contra hne
    obtain ⟨⟨i, n⟩, hd⟩ := Option.ne_none_iff_exists'.mp hne
    obtain ⟨used, rest, rfl, -, -, hdecode⟩ := decode_splits hd
    rw [List.append_assoc, hdecode] at h
    cases h

/-! ### Operands -/

theorem read16_none {bs : List Byte} (h : read16 bs = none) : bs.length < 2 := by
  match bs, h with
  | [], _ | [_], _ => simp

theorem read32_none {bs : List Byte} (h : read32 bs = none) : bs.length < 4 := by
  match bs, h with
  | [], _ | [_], _ | [_, _], _ | [_, _, _], _ => simp

theorem readImm_none {z : Size} {bs : List Byte} (h : readImm z bs = none) : bs.length < z.bytes := by
  cases z with
  | byte =>
    match bs, h with
    | [], _ => exact Nat.zero_lt_one
  | word => exact read16_none h
  | dword => exact read32_none h

theorem readImm_length {z : Size} {bs rest : List Byte} {v : BitVec z.bits} (h : readImm z bs = some (v, rest)) :
    bs.length = rest.length + z.bytes := by
  cases z with
  | byte =>
    match bs, h with
    | _ :: _, rfl => rfl
  | word =>
    match bs, h with
    | _ :: _ :: _, rfl => rfl
  | dword =>
    match bs, h with
    | _ :: _ :: _ :: _ :: _, rfl => rfl

section Addr
variable {o : Option Seg} {md : BitVec 2} {base : BitVec 3} {index : Option (GReg × Scale)} {bs rest : List Byte}

/-- A displacement of four bytes at most is all that is wanting. -/
theorem readAddr_none (h : readAddr o md base index bs = none) : bs.length < 4 := by
  unfold readAddr at h
  split at h
  · split at h
    · split at h
      · cases h
      · exact read32_none ‹_›
    · cases h
  · split at h
    · split at h
      · cases h
      · simp
    · split at h
      · cases h
      · exact read32_none ‹_›

/-- Whether an index is fit for an address does not depend on the base and the displacement (R111). -/
theorem memOp_wf_eq (hindex : MemOp.wf ⟨none, some .eax, index, .none⟩ = true) (base : Option GReg) (disp : Disp) :
    MemOp.wf ⟨o, base, index, disp⟩ = MemOp.wf ⟨none, base, none, disp⟩ := by
  simp only [MemOp.wf, Bool.and_true, Bool.true_and] at hindex ⊢
  rw [hindex, Bool.true_and]

/-- With EBP as base there is a displacement, without a base one of 32 bits (R111). -/
theorem readAddr_wf {a : MemOp} (hindex : MemOp.wf ⟨none, some .eax, index, .none⟩ = true)
    (h : readAddr o md base index bs = some (a, rest)) : a.wf = true := by
  have hd8 : ∀ (b : GReg) d, MemOp.wf ⟨none, some b, none, .d8 d⟩ = true := fun b _ => by cases b <;> rfl
  have hd32 : ∀ (b : GReg) d, MemOp.wf ⟨none, some b, none, .d32 d⟩ = true := fun b _ => by cases b <;> rfl
  unfold readAddr at h
  split at h
  · split at h
    · split at h
      · cases h
        rw [memOp_wf_eq hindex]
        rfl
      · cases h
    · rename_i hbase
      cases h
      rw [memOp_wf_eq hindex]
      rw [← num_ofNum base] at hbase
      cases hg : GReg.ofNum base with
      | ebp => exact absurd (congrArg GReg.num hg) hbase
      | _ => rfl
  · split at h
    · split at h
      · cases h
        rw [memOp_wf_eq hindex, hd8]
      · cases h
    · split at h
      · cases h
        rw [memOp_wf_eq hindex, hd32]
      · cases h

end Addr

/-- ESP is never an index: its number means none (R111). -/
theorem sibIndex_wf (sib : Byte) : MemOp.wf ⟨none, some .eax, sibIndex sib, .none⟩ = true := by
  unfold sibIndex
  split
  · rfl
  · rename_i h4
    rw [← num_ofNum (fieldMid sib)] at h4
    cases hg : GReg.ofNum (fieldMid sib) with
    | esp => exact absurd (congrArg GReg.num hg) h4
    | _ => rfl

section RM
variable {o : Option Seg} {x : BitVec 3} {e : RM} {bs rest : List Byte}

/-- A modR/M form has six bytes at most: modR/M, SIB, displacement (R110, R111). -/
theorem readRM_none (h : readRM o bs = none) : bs.length < 6 := by
  unfold readRM at h
  split at h
  · simp
  · split at h
    · cases h
    · split at h
      · split at h
        · simp
        · split at h
          · cases h
          · have := readAddr_none ‹_›
            simp only [List.length_cons]
            omega
      · split at h
        · cases h
        · have := readAddr_none ‹_›
          simp only [List.length_cons]
          omega

theorem readRM_length (h : readRM o bs = some (x, e, rest)) : bs.length ≤ rest.length + 6 := by
  cases bs with
  | nil => cases h
  | cons m bs =>
    obtain ⟨used, hused, rfl, -⟩ := readRM_takes h
    simp only [List.length_cons, List.length_append]
    omega

theorem readRM_wf (h : readRM o bs = some (x, e, rest)) : e.wf = true := by
  unfold readRM at h
  split at h
  · cases h
  · split at h
    · cases h
      rfl
    · split at h
      · split at h
        · cases h
        · split at h
          · cases h
            exact readAddr_wf (sibIndex_wf _) ‹_›
          · cases h
      · split at h
        · cases h
          exact readAddr_wf rfl ‹_›
        · cases h

end RM

/-! ### Rows -/

/-- What a row answers of `n` bytes: that they are fewer than `k`, or an instruction that has an encoding, of `k` of them at
most, or of one where it admits `F3` or `F2`. -/
def Fits (k n : Nat) : Option Parsed → Prop
  | none => n < k
  | some d => d.instr.wf = true ∧ n ≤ d.rest.length + if d.rep then 1 else k

/-- A reader of `k` bytes at most, for which as many are enough. -/
def Sound (k : Nat) (f : List Byte → Option Parsed) : Prop := ∀ bs, Fits k bs.length (f bs)

theorem Sound.mono {k l : Nat} {f : List Byte → Option Parsed} (h : Sound k f) (hkl : k ≤ l) : Sound l f := by
  intro bs
  have hbs := h bs
  cases hf : f bs with
  | none =>
    rw [hf] at hbs
    exact Nat.lt_of_lt_of_le hbs hkl
  | some d =>
    rw [hf] at hbs
    obtain ⟨hwf, hlen⟩ := hbs
    refine ⟨hwf, hlen.trans ?_⟩
    split <;> omega

section Readers
variable {f : List Byte → Option Parsed} {o : Option Seg} {z : Size} {b16 : Bool} {s : RM → Bool}

/-- A reader that takes nothing, whether or not it admits `F3` or `F2`. -/
theorem sound_some {i : Instr} {r s : Bool} (hi : i.wf = true) : Sound 0 fun bs => some ⟨i, bs, r, b16, s⟩ :=
  fun _ => ⟨hi, Nat.le_add_right ..⟩

/-- A reader of an immediate. -/
theorem sound_readImm {i : BitVec z.bits → Instr} {s : Bool}
    (hf : ∀ bs, f bs = (readImm z bs).map fun v => ⟨i v.1, v.2, false, b16, s⟩) (hi : ∀ v, (i v).wf = true) :
    Sound z.bytes f := by
  intro bs
  rw [hf]
  cases hv : readImm z bs with
  | none => exact readImm_none hv
  | some v => exact ⟨hi _, (readImm_length hv).le⟩

/-- A reader of an `E` operand. -/
theorem sound_readRM {i : BitVec 3 → RM → Instr}
    (hf : ∀ bs, f bs = (readRM o bs).map fun r => ⟨i r.1 r.2.1, r.2.2, false, b16, s r.2.1⟩)
    (hi : ∀ x e, e.wf = true → (i x e).wf = true) : Sound 6 f := by
  intro bs
  rw [hf]
  cases hr : readRM o bs with
  | none => exact readRM_none hr
  | some r => exact ⟨hi _ _ (readRM_wf hr), readRM_length hr⟩

/-- A reader of an `E` operand and of an immediate after it. -/
theorem sound_readRM_readImm {i : BitVec 3 → RM → BitVec z.bits → Instr}
    (hf : ∀ bs, f bs = (readRM o bs).bind fun r =>
      (readImm z r.2.2).map fun v => ⟨i r.1 r.2.1 v.1, v.2, false, b16, s r.2.1⟩)
    (hi : ∀ x e v, e.wf = true → (i x e v).wf = true) : Sound (6 + z.bytes) f := by
  intro bs
  rw [hf]
  cases hr : readRM o bs with
  | none => exact Nat.lt_of_lt_of_le (readRM_none hr) (Nat.le_add_right ..)
  | some r =>
    obtain ⟨x, e, rest⟩ := r
    have hrm := readRM_length hr
    dsimp only [Option.bind_some]
    cases hv : readImm z rest with
    | none =>
      have himm := readImm_none hv
      exact (show bs.length < 6 + z.bytes by omega)
    | some v =>
      have himm := readImm_length hv
      exact ⟨hi _ _ _ (readRM_wf hr), (show bs.length ≤ v.2.length + (6 + z.bytes) by omega)⟩

end Readers

/-- The two opcode maps. -/
inductive OpMap where
  | one | two

/-- The bytes that a row may take after its opcode byte: immediates of the operand width are in the one-byte map only. -/
def OpMap.room (m : OpMap) (p : Pfx) : Nat :=
  match m with
  | .one => 6 + p.v.size.bytes
  | .two => 7

theorem seven_le_room (m : OpMap) (p : Pfx) : 7 ≤ m.room p := by
  cases m with
  | one =>
    have hv : 1 ≤ p.v.size.bytes := by cases p.v <;> decide
    exact Nat.add_le_add_left hv 6
  | two => exact le_rfl

/-- The body of a row of an opcode map is sound for an opcode byte, under any prefixes. -/
structure SoundBody (m : OpMap) (op : Byte) (b : Body) : Prop where
  sound : ∀ p, Sound (m.room p) (b p op)

theorem Sound.body {m : OpMap} {p : Pfx} {k : Nat} {f : List Byte → Option Parsed} (h : Sound k f) (hk : k ≤ 7) :
    Sound (m.room p) f :=
  h.mono (hk.trans (seven_le_room m p))

section Bodies
variable {m : OpMap} {op : Byte} {z : Pfx → Size}

theorem size_bytes_le (z : Size) : z.bytes ≤ 4 := by cases z <;> decide

@[simp] theorem refusedBody_sound {i : Instr} (hi : i.wf = true) : SoundBody m op (refusedBody i) :=
  ⟨fun _ => (sound_some hi).body (by decide)⟩

@[simp] theorem plainBody_sound {i : Instr} (hi : i.wf = true) : SoundBody m op (plainBody i) :=
  ⟨fun _ => (sound_some hi).body (by decide)⟩

@[simp] theorem sizedBody_sound {mk : VSize → Instr} (hi : ∀ v, (mk v).wf = true) : SoundBody m op (sizedBody mk) :=
  ⟨fun _ => (sound_some (hi _)).body (by decide)⟩

@[simp] theorem plusRegBody_sound {mk : VSize → GReg → Instr} (hi : ∀ v, (mk v (GReg.ofNum (fieldLo op))).wf = true) :
    SoundBody m op (plusRegBody mk) :=
  ⟨fun _ => (sound_some (hi _)).body (by decide)⟩

@[simp] theorem immBody_sound {mk : (z : Size) → BitVec z.bits → Instr} (hi : ∀ z i, (mk z i).wf = true) :
    SoundBody m op (immBody z mk) := ⟨fun p =>
  (sound_readImm (z := z p) (fun bs => by unfold immBody; cases readImm (z p) bs <;> rfl) (hi _)).body
    ((size_bytes_le _).trans (by decide))⟩

@[simp] theorem immVBody_sound {mk : (v : VSize) → BitVec v.size.bits → Instr} (hi : ∀ v i, (mk v i).wf = true) :
    SoundBody m op (immVBody mk) := ⟨fun p =>
  (sound_readImm (z := p.v.size) (fun bs => by unfold immVBody; cases readImm p.v.size bs <;> rfl) (hi _)).body
    ((size_bytes_le _).trans (by decide))⟩

@[simp] theorem plusRegImmBody_sound {mk : (z : Size) → GReg → BitVec z.bits → Instr}
    (hi : ∀ z g i, (mk z g i).wf = true) : SoundBody m op (plusRegImmBody z mk) := ⟨fun p =>
  (sound_readImm (z := z p) (fun bs => by unfold plusRegImmBody; cases readImm (z p) bs <;> rfl) (hi _ _)).body
    ((size_bytes_le _).trans (by decide))⟩

@[simp] theorem byteBody_sound {b : Bool} {mk : VSize → Byte → Instr} (hi : ∀ v i, (mk v i).wf = true) :
    SoundBody m op (byteBody b mk) := ⟨fun _ =>
  (sound_readImm (z := .byte) (fun bs => by cases bs <;> rfl) (hi _)).body (by decide)⟩

@[simp] theorem imm16Body_sound {mk : BitVec 16 → Instr} (hi : ∀ i, (mk i).wf = true) :
    SoundBody m op (imm16Body mk) := ⟨fun _ =>
  (sound_readImm (z := .word) (fun bs => by unfold imm16Body readImm; cases read16 bs <;> rfl) hi).body (by decide)⟩

@[simp] theorem jvBody_sound {mk : Word → Instr} (hi : ∀ d, (mk d).wf = true) : SoundBody m op (jvBody mk) := ⟨fun _ =>
  (sound_readImm (z := .dword) (fun bs => by unfold jvBody readImm; cases read32 bs <;> rfl) hi).body (by decide)⟩

@[simp] theorem moffsBody_sound {mk : Size → Option Seg → Word → Instr} (hi : ∀ z s d, (mk z s d).wf = true) :
    SoundBody m op (moffsBody z mk) := ⟨fun _ =>
  (sound_readImm (z := .dword) (fun bs => by unfold moffsBody readImm; cases read32 bs <;> rfl) (hi _ _)).body
    (by decide)⟩

@[simp] theorem enterBody_sound : SoundBody m op enterBody := by
  refine ⟨fun p => Sound.body (k := 3) (fun bs => ?_) (by decide)⟩
  match bs with
  | [] | [_] | [_, _] => simp [Fits, enterBody, read16]
  | _ :: _ :: _ :: _ => exact ⟨rfl, le_rfl⟩

@[simp] theorem strBody_sound {seg : Bool} {alone : Pfx → Instr} {rep repne : Size → Option Seg → Option Instr}
    (ha : ∀ p, (alone p).wf = true) (hrep : ∀ z o, ∀ i ∈ rep z o, i.wf = true)
    (hrepne : ∀ z o, ∀ i ∈ repne z o, i.wf = true) : SoundBody m op (strBody z seg alone rep repne) := by
  refine ⟨fun p => ?_⟩
  have hform : ∃ i r, i.wf = true ∧ strBody z seg alone rep repne p op = fun bs => some ⟨i, bs, r, (z p).admits16, seg⟩ := by
    unfold strBody
    rcases p.rep with _ | _ | _
    · exact ⟨_, _, ha p, rfl⟩
    · cases h : rep (z p) p.seg with
      | none => exact ⟨_, _, ha p, rfl⟩
      | some i => exact ⟨_, _, hrep _ _ _ h, rfl⟩
    · cases h : repne (z p) p.seg with
      | none => exact ⟨_, _, ha p, rfl⟩
      | some i => exact ⟨_, _, hrepne _ _ _ h, rfl⟩
  obtain ⟨i, r, hi, hf⟩ := hform
  rw [hf]
  exact (sound_some hi).body (by decide)

@[simp] theorem xlatBody_sound : SoundBody m op fun p _ bs => some ⟨.xlat p.seg, bs, false, false, true⟩ :=
  ⟨fun _ => (sound_some rfl).body (by decide)⟩

@[simp] theorem escBody_sound : SoundBody m op fun p op bs => refusedBody (.esc (fieldLo op)) p op bs :=
  ⟨fun _ => (sound_some rfl).body (by decide)⟩

/-! ### Rows with a modR/M byte -/

@[simp] theorem rmBody_sound {mk : Size → RM → GReg → Instr} (hi : ∀ z e g, e.wf = true → (mk z e g).wf = true) :
    SoundBody m op (rmBody z mk) := ⟨fun p =>
  (sound_readRM (i := fun x e => mk (z p) e (GReg.ofNum x)) (s := RM.isMem)
    (fun bs => by unfold rmBody; cases readRM p.seg bs <;> rfl) fun _ _ => hi _ _ _).body (by decide)⟩

@[simp] theorem memberRM_sound {mk : Size → RM → Instr} (hi : ∀ z e, e.wf = true → (mk z e).wf = true) :
    SoundBody m op (memberRM z mk) := rmBody_sound fun _ _ _ => hi _ _

@[simp] theorem rmvBody_sound {mk : VSize → RM → GReg → Instr} (hi : ∀ v e g, e.wf = true → (mk v e g).wf = true) :
    SoundBody m op (rmvBody mk) := ⟨fun p =>
  (sound_readRM (i := fun x e => mk p.v e (GReg.ofNum x)) (s := RM.isMem)
    (fun bs => by unfold rmvBody; cases readRM p.seg bs <;> rfl) fun _ _ => hi _ _ _).body (by decide)⟩

@[simp] theorem rmNo16Body_sound {mk : RM → GReg → Instr} (hi : ∀ e g, e.wf = true → (mk e g).wf = true) :
    SoundBody m op (rmNo16Body mk) := ⟨fun p =>
  (sound_readRM (i := fun x e => mk e (GReg.ofNum x)) (s := RM.isMem)
    (fun bs => by unfold rmNo16Body; cases readRM p.seg bs <;> rfl) fun _ _ => hi _ _).body (by decide)⟩

@[simp] theorem rmvByteBody_sound {mk : VSize → RM → GReg → Byte → Instr}
    (hi : ∀ v e g i, e.wf = true → (mk v e g i).wf = true) : SoundBody m op (rmvByteBody mk) := ⟨fun p =>
  (sound_readRM_readImm (z := .byte) (i := fun x e v => mk p.v e (GReg.ofNum x) v) (s := RM.isMem)
    (fun bs => by unfold rmvByteBody; rcases readRM p.seg bs with _ | ⟨x, e, _ | ⟨i, r⟩⟩ <;> rfl)
    fun _ _ _ => hi _ _ _ _).body (by decide)⟩

@[simp] theorem memberByte_sound {mk : Size → RM → Byte → Instr} (hi : ∀ z e i, e.wf = true → (mk z e i).wf = true) :
    SoundBody m op (memberByte z mk) := ⟨fun p =>
  (sound_readRM_readImm (z := .byte) (i := fun _ e v => mk (z p) e v) (s := RM.isMem)
    (fun bs => by unfold memberByte; rcases readRM p.seg bs with _ | ⟨x, e, _ | ⟨i, r⟩⟩ <;> rfl)
    fun _ _ _ => hi _ _ _).body (by decide)⟩

@[simp] theorem rmvImmBody_sound {mk : (v : VSize) → RM → GReg → BitVec v.size.bits → Instr}
    (hi : ∀ v e g i, e.wf = true → (mk v e g i).wf = true) : SoundBody .one op (rmvImmBody mk) := ⟨fun p =>
  sound_readRM_readImm (z := p.v.size) (i := fun x e v => mk p.v e (GReg.ofNum x) v) (s := RM.isMem)
    (fun bs => by
      unfold rmvImmBody
      rcases readRM p.seg bs with _ | ⟨x, e, r⟩
      · rfl
      · dsimp only [Option.bind_some]; cases readImm p.v.size r <;> rfl)
    fun _ _ _ => hi _ _ _ _⟩

@[simp] theorem zB_bytes (p : Pfx) : (zB p).bytes ≤ p.v.size.bytes := by cases p.v <;> simp [zB, Size.bytes]

@[simp] theorem zV_bytes (p : Pfx) : (zV p).bytes ≤ p.v.size.bytes := le_rfl

@[simp] theorem memberImm_sound {mk : (z : Size) → RM → BitVec z.bits → Instr} (hz : ∀ p, (z p).bytes ≤ p.v.size.bytes)
    (hi : ∀ z e i, e.wf = true → (mk z e i).wf = true) : SoundBody .one op (memberImm z mk) := ⟨fun p =>
  (sound_readRM_readImm (z := z p) (i := fun _ e v => mk (z p) e v) (s := RM.isMem)
    (fun bs => by
      unfold memberImm
      rcases readRM p.seg bs with _ | ⟨x, e, r⟩
      · rfl
      · dsimp only [Option.bind_some]; cases readImm (z p) r <;> rfl)
    fun _ _ _ => hi _ _ _).mono (Nat.add_le_add_left (hz p) 6)⟩

/-- A modR/M byte with mod ≠ 11 has an operand in memory. -/
theorem readRM_mem {o : Option Seg} {b : Byte} {bs rest : List Byte} {x : BitVec 3} {e : RM} (hb : fieldHi b ≠ 3#2)
    (h : readRM o (b :: bs) = some (x, e, rest)) : ∃ a, e = .mem a := by
  unfold readRM at h
  dsimp only at h
  rw [if_neg hb] at h
  split at h
  · split at h
    · cases h
    · split at h
      · cases h
        exact ⟨_, rfl⟩
      · cases h
  · split at h
    · cases h
      exact ⟨_, rfl⟩
    · cases h

/-- The modR/M bytes of the undefined LEA are those with mod = 11 (R125). -/
theorem and_of_fieldHi {b : Byte} (h : fieldHi b = 3#2) : b &&& 0xC0#8 = 0xC0#8 := by
  revert b; decide

@[simp] theorem leaBody_sound : SoundBody m op leaBody := by
  refine ⟨fun p => Sound.body (k := 6) (fun bs => ?_) (by decide)⟩
  cases bs with
  | nil => exact Nat.zero_lt_succ 5
  | cons b bs =>
    unfold leaBody
    by_cases hb : fieldHi b = 3#2
    · simp only [if_pos hb]
      exact ⟨by simpa [Instr.wf, UndefEnc.wf] using and_of_fieldHi hb, le_rfl⟩
    · simp only [if_neg hb]
      cases hr : readRM p.seg (b :: bs) with
      | none => exact readRM_none hr
      | some r =>
        obtain ⟨x, e, rest⟩ := r
        obtain ⟨a, rfl⟩ := readRM_mem hb hr
        exact ⟨readRM_wf (e := .mem a) hr, readRM_length hr⟩

/-! ### Groups -/

/-- A refused group member takes its modR/M byte. -/
theorem sound_drop {i : Instr} (hi : i.wf = true) (p : Pfx) :
    Sound (m.room p) fun bs => refusedBody i p op (bs.drop 1) := by
  refine Sound.body (k := 1) (fun bs => ⟨hi, ?_⟩) (by decide)
  simp only [List.length_drop, if_true]
  omega

@[simp] theorem undefMember_sound {x : BitVec 3} (hu : (UndefEnc.group op x).wf = true) : SoundBody m op (undefMember x) :=
  ⟨sound_drop hu⟩

@[simp] theorem undefMember0F_sound {x : BitVec 3} (hu : (UndefEnc.group0F op x).wf = true) :
    SoundBody m op (undefMember0F x) :=
  ⟨sound_drop hu⟩

@[simp] theorem refusedMember_sound {i : Instr} (hi : i.wf = true) : SoundBody m op (refusedMember i) := ⟨sound_drop hi⟩

/-- The modR/M byte that selects the member is the one that the member looks at. -/
theorem groupBody_sound {member : BitVec 3 → Body} (h : ∀ x, SoundBody m op (member x)) :
    SoundBody m op (groupBody member) := by
  refine ⟨fun p bs => ?_⟩
  cases bs with
  | nil => exact Nat.lt_of_lt_of_le (by decide : 0 < 7) (seven_le_room m p)
  | cons b bs => exact (h (fieldMid b)).sound p (b :: bs)

theorem group1_wf (x : BitVec 3) (f : AluForm) : (group1 x f).wf = f.wf := by
  unfold group1
  split <;> rfl

theorem group2_wf {x : BitVec 3} {mk : Size → RM → Count → Instr} (h : group2 x = some mk) (z : Size) (e : RM) (c : Count) :
    (mk z e c).wf = e.wf := by
  unfold group2 at h
  split at h <;> cases h <;> rfl

theorem group2_none {x : BitVec 3} (h : group2 x = none) : x = 6#3 := by
  revert x; decide

@[simp] theorem group1Imm_sound {mk : BitVec 3 → (z : Size) → RM → BitVec z.bits → Instr}
    (hz : ∀ p, (z p).bytes ≤ p.v.size.bytes) (hi : ∀ x z e i, e.wf = true → (mk x z e i).wf = true) :
    SoundBody .one op (groupBody fun x => memberImm z (mk x)) :=
  groupBody_sound fun x => memberImm_sound hz (hi x)

@[simp] theorem group1Byte_sound {mk : BitVec 3 → VSize → RM → GReg → Byte → Instr}
    (hi : ∀ x v e g i, e.wf = true → (mk x v e g i).wf = true) :
    SoundBody m op (groupBody fun x => rmvByteBody (mk x)) :=
  groupBody_sound fun x => rmvByteBody_sound (hi x)

@[simp] theorem group2Body_sound {c : Count} (hop : op = 0xD0#8 ∨ op = 0xD1#8 ∨ op = 0xD2#8 ∨ op = 0xD3#8) :
    SoundBody m op (group2Body z c) := groupBody_sound fun x => by
  have hu : (UndefEnc.group op 6#3).wf = true := by rcases hop with rfl | rfl | rfl | rfl <;> rfl
  cases h : group2 x with
  | none => exact undefMember_sound (group2_none h ▸ hu)
  | some mk => exact memberRM_sound fun _ _ he => (group2_wf h ..).trans he

@[simp] theorem group2ImmBody_sound (hop : op = 0xC0#8 ∨ op = 0xC1#8) : SoundBody m op (group2ImmBody z) :=
  groupBody_sound fun x => by
    have hu : (UndefEnc.group op 6#3).wf = true := by rcases hop with rfl | rfl <;> rfl
    cases h : group2 x with
    | none => exact undefMember_sound (group2_none h ▸ hu)
    | some mk => exact memberByte_sound fun _ _ _ he => (group2_wf h ..).trans he

@[simp] theorem group3Body_sound (hz : ∀ p, (z p).bytes ≤ p.v.size.bytes) (hop : op = 0xF6#8 ∨ op = 0xF7#8) :
    SoundBody .one op (group3Body z) := groupBody_sound fun x => by
  have hu : (UndefEnc.group op 1#3).wf = true := by rcases hop with rfl | rfl <;> rfl
  split
  · exact memberImm_sound hz fun _ _ _ he => he
  · rename_i h1
    exact undefMember_sound ((BitVec.eq_of_toNat_eq h1 : x = 1#3) ▸ hu)
  all_goals exact memberRM_sound fun _ _ he => he

/-- The members of groups 4 to 8 that the rules do not name are undefined (R122). -/
theorem undef_group4 : ∀ x : BitVec 3, x.toNat ≠ 0 → x.toNat ≠ 1 → (UndefEnc.group 0xFE#8 x).wf = true := by decide

theorem undef_group5 (x : BitVec 3) (h0 : x.toNat ≠ 0) (h1 : x.toNat ≠ 1) (h2 : x.toNat ≠ 2) (h3 : x.toNat ≠ 3)
    (h4 : x.toNat ≠ 4) (h5 : x.toNat ≠ 5) (h6 : x.toNat ≠ 6) : (UndefEnc.group 0xFF#8 x).wf = true := by
  obtain rfl : x = 7#3 := by bv_omega
  rfl

theorem undef_group6 (x : BitVec 3) (h0 : x.toNat ≠ 0) (h1 : x.toNat ≠ 1) (h2 : x.toNat ≠ 2) (h3 : x.toNat ≠ 3)
    (h4 : x.toNat ≠ 4) (h5 : x.toNat ≠ 5) : (UndefEnc.group0F 0x00#8 x).wf = true := by
  obtain rfl | rfl : x = 6#3 ∨ x = 7#3 := by bv_omega
  · rfl
  · rfl

theorem undef_group7 (x : BitVec 3) (h0 : x.toNat ≠ 0) (h1 : x.toNat ≠ 1) (h2 : x.toNat ≠ 2) (h3 : x.toNat ≠ 3)
    (h4 : x.toNat ≠ 4) (h6 : x.toNat ≠ 6) : (UndefEnc.group0F 0x01#8 x).wf = true := by
  obtain rfl | rfl : x = 5#3 ∨ x = 7#3 := by bv_omega
  · rfl
  · rfl

theorem undef_group8 : ∀ x : BitVec 3, x.toNat ≠ 4 → x.toNat ≠ 5 → x.toNat ≠ 6 → x.toNat ≠ 7 →
    (UndefEnc.group0F 0xBA#8 x).wf = true := by decide

@[simp] theorem group4Body_sound : SoundBody m 0xFE#8 group4Body := groupBody_sound fun x => by
  split
  · exact memberRM_sound fun _ _ he => he
  · exact memberRM_sound fun _ _ he => he
  · exact undefMember_sound (undef_group4 x ‹_› ‹_›)

@[simp] theorem group5Body_sound : SoundBody m 0xFF#8 group5Body := groupBody_sound fun x => by
  split
  · exact memberRM_sound fun _ _ he => he
  · exact memberRM_sound fun _ _ he => he
  · exact rmNo16Body_sound fun _ _ he => he
  · exact refusedMember_sound rfl
  · exact rmNo16Body_sound fun _ _ he => he
  · exact refusedMember_sound rfl
  · exact rmvBody_sound fun _ _ _ he => he
  · exact undefMember_sound (undef_group5 x ‹_› ‹_› ‹_› ‹_› ‹_› ‹_› ‹_›)

@[simp] theorem group6Body_sound : SoundBody m 0x00#8 group6Body := groupBody_sound fun x => by
  split
  case h_7 => exact undefMember0F_sound (undef_group6 x ‹_› ‹_› ‹_› ‹_› ‹_› ‹_›)
  all_goals exact refusedMember_sound rfl

@[simp] theorem group7Body_sound : SoundBody m 0x01#8 group7Body := groupBody_sound fun x => by
  split
  case h_7 => exact undefMember0F_sound (undef_group7 x ‹_› ‹_› ‹_› ‹_› ‹_› ‹_›)
  all_goals exact refusedMember_sound rfl

@[simp] theorem group8Body_sound : SoundBody m 0xBA#8 group8Body := groupBody_sound fun x => by
  split
  case h_5 => exact undefMember0F_sound (undef_group8 x ‹_› ‹_› ‹_› ‹_›)
  all_goals exact rmvByteBody_sound fun _ _ _ _ he => he

@[simp] theorem group11Body_sound (hz : ∀ p, (z p).bytes ≤ p.v.size.bytes) (hop : op = 0xC6#8 ∨ op = 0xC7#8) :
    SoundBody .one op (group11Body z) := groupBody_sound fun x => by
  split
  · exact memberImm_sound hz fun _ _ _ he => he
  · rename_i hx
    rcases hop with rfl | rfl <;> exact undefMember_sound (by simpa [UndefEnc.wf] using hx)

@[simp] theorem group1ABody_sound : SoundBody m 0x8F#8 group1ABody := groupBody_sound fun x => by
  split
  · exact rmvBody_sound fun _ _ _ he => he
  · rename_i hx
    exact undefMember_sound (by simpa [UndefEnc.wf] using hx)

end Bodies

/-! ### The opcode maps -/

/-- A row is sound for every byte that selects it; `90` is NOP before it is a row of XCHG (R204). -/
def SoundRow (m : OpMap) (r : Row) : Prop :=
  ∀ op, op &&& r.mask = r.pat → (m = .one → op ≠ 0x90#8) → SoundBody m op r.body

/-- The rows of a list are sound. -/
def SoundRows (m : OpMap) (rows : List Row) : Prop := ∀ r ∈ rows, SoundRow m r

section Rows
variable {m : OpMap} {rows rows' : List Row}

@[simp] theorem soundRows_nil : SoundRows m [] := List.forall_mem_nil _

@[simp] theorem soundRows_cons {r : Row} : SoundRows m (r :: rows) ↔ SoundRow m r ∧ SoundRows m rows :=
  List.forall_mem_cons

@[simp] theorem soundRows_append : SoundRows m (rows ++ rows') ↔ SoundRows m rows ∧ SoundRows m rows' :=
  List.forall_mem_append

/-- A row for one opcode byte. -/
@[simp] theorem soundRow_at {op : Byte} {b : Body} :
    SoundRow m (.at op b) ↔ ((m = .one → op ≠ 0x90#8) → SoundBody m op b) := by
  refine ⟨fun h => h op (and_ff op), fun h op' hop => ?_⟩
  rw [show op' = op from (and_ff op').symm.trans hop]
  exact h

/-- A row for eight opcode bytes. -/
@[simp] theorem soundRow_mask {mask pat : Byte} {b : Body} : SoundRow m ⟨mask, pat, b⟩ ↔
    ∀ op, op &&& mask = pat → (m = .one → op ≠ 0x90#8) → SoundBody m op b := Iff.rfl

/-- Register number 0 would be `90` (R204). -/
@[simp high] theorem soundRow_xchg :
    SoundRow .one ⟨0xF8#8, 0x90#8, plusRegBody fun v g => .xchg (.accReg v g)⟩ := by
  have hnum : ∀ op : Byte, op &&& 0xF8#8 = 0x90#8 → op ≠ 0x90#8 → GReg.ofNum (fieldLo op) ≠ .eax := by decide
  refine fun op hop h90 => plusRegBody_sound (mk := fun v g => .xchg (.accReg v g)) fun v => ?_
  simpa [Instr.wf, XchgForm.wf] using hnum op hop (h90 rfl)

@[simp] theorem soundRows_aluRows {b : Byte} {mk : AluForm → Instr} (h : ∀ f, (mk f).wf = f.wf) :
    SoundRows m (aluRows b mk) := by
  simp [aluRows, h, AluForm.wf]

theorem soundRows_00 : SoundRows .one rows00 := by
  simp (disch := grind [Instr.wf, Seg.popWf]) [rows00]

theorem soundRows_40 : SoundRows .one rows40 := by
  simp (disch := grind [Instr.wf, IncForm.wf, PushForm.wf, PopForm.wf, Imul3Form.wf]) [rows40]

theorem soundRows_80 : SoundRows .one rows80 := by
  simp (disch := grind [Instr.wf, group1_wf, AluForm.wf, TestForm.wf, XchgForm.wf, MovForm.wf, zB_bytes, zV_bytes])
    [rows80]

theorem soundRows_C0 : SoundRows .one rowsC0 := by
  simp (disch := grind [Instr.wf, zB_bytes, zV_bytes]) [rowsC0]

theorem soundRows_0F : SoundRows .two (rows0F00 ++ rows0F90) := by
  simp (disch := grind [Instr.wf, BitForm.wf, ExtForm.wf, Seg.popWf]) [rows0F00, rows0F90]

/-- The body that a byte selects is that of a row. -/
theorem findBody_sound (h : SoundRows m rows) {op : Byte} {b : Body} (hb : findBody rows op = some b)
    (h90 : m = .one → op ≠ 0x90#8) : SoundBody m op b := by
  induction rows with
  | nil => cases hb
  | cons r rows ih =>
    obtain ⟨hr, hrows⟩ := soundRows_cons.mp h
    rw [findBody] at hb
    split at hb
    · rename_i hop
      cases hb
      exact hr op (by simpa using hop) h90
    · exact ih hrows hb

theorem findBody_append (op : Byte) : findBody (rows ++ rows') op = (findBody rows op).or (findBody rows' op) := by
  induction rows with
  | nil => rfl
  | cons r rows ih =>
    simp only [List.cons_append, findBody]
    split
    · rfl
    · exact ih

end Rows

/-! Every first opcode byte that is not one of the prefixes and not `0F` selects a row (R120), quarter by quarter of the map. -/

theorem selects_00 (op : Byte) (hq : op &&& 0xC0#8 = 0x00#8) (hp : pfxKind op = none) (hesc : op ≠ 0x0F#8) :
    (findBody rows00 op).isSome = true := by
  revert op; decide

theorem selects_40 (op : Byte) (hq : op &&& 0xC0#8 = 0x40#8) (hp : pfxKind op = none) :
    (findBody rows40 op).isSome = true := by
  revert op; decide

theorem selects_80 (op : Byte) (hq : op &&& 0xC0#8 = 0x80#8) : (findBody rows80 op).isSome = true := by
  revert op; decide

theorem selects_C0 (op : Byte) (hq : op &&& 0xC0#8 = 0xC0#8) (hp : pfxKind op = none) :
    (findBody rowsC0 op).isSome = true := by
  revert op; decide

theorem quarter_cases (op : Byte) : op &&& 0xC0#8 = 0x00#8 ∨ op &&& 0xC0#8 = 0x40#8 ∨ op &&& 0xC0#8 = 0x80#8 ∨
    op &&& 0xC0#8 = 0xC0#8 := by
  revert op; decide

theorem selects_one {op : Byte} (hp : pfxKind op = none) (hesc : op ≠ 0x0F#8) :
    (findBody (rows00 ++ rows40 ++ rows80 ++ rowsC0) op).isSome = true := by
  simp only [findBody_append, Option.isSome_or, Bool.or_eq_true]
  rcases quarter_cases op with hq | hq | hq | hq
  · exact .inl (.inl (.inl (selects_00 op hq hp hesc)))
  · exact .inl (.inl (.inr (selects_40 op hq hp)))
  · exact .inl (.inr (selects_80 op hq))
  · exact .inr (selects_C0 op hq hp)

/-- A second opcode byte that selects no row is one that R121 does not list. -/
theorem unlisted_of_findBody {op : Byte} (h : findBody (rows0F00 ++ rows0F90) op = none) : escapeListed op = false := by
  have hall : ∀ op, escapeListed op = true → (findBody (rows0F00 ++ rows0F90) op).isSome = true := by decide
  rw [← Bool.not_eq_true]
  intro hl
  have hsome := hall op hl
  rw [h] at hsome
  cases hsome

theorem soundBody_one {op : Byte} (hp : pfxKind op = none) (hesc : op ≠ 0x0F#8) :
    SoundBody .one op ((findBody (rows00 ++ rows40 ++ rows80 ++ rowsC0) op).getD
      (refusedBody (.undefined (.escape op)))) := by
  by_cases h90 : op = 0x90#8
  · subst h90
    exact plainBody_sound rfl
  · obtain ⟨b, hb⟩ := Option.isSome_iff_exists.mp (selects_one hp hesc)
    have hrows : SoundRows .one (rows00 ++ rows40 ++ rows80 ++ rowsC0) := by
      simp only [soundRows_append, soundRows_00, soundRows_40, soundRows_80, soundRows_C0, and_self]
    rw [hb]
    exact findBody_sound hrows hb fun _ => h90

theorem soundBody_two (op : Byte) :
    SoundBody .two op ((findBody (rows0F00 ++ rows0F90) op).getD (refusedBody (.undefined (.escape op)))) := by
  cases hb : findBody (rows0F00 ++ rows0F90) op with
  | none => exact refusedBody_sound (by simp [Instr.wf, UndefEnc.wf, unlisted_of_findBody hb])
  | some b => exact findBody_sound soundRows_0F hb nofun

section BodyOf
variable {p : Pfx} {op : Byte} {bs : List Byte}

theorem bodyOf_one (hesc : op ≠ 0x0F#8) : bodyOf op = (findBody (rows00 ++ rows40 ++ rows80 ++ rowsC0) op).getD
    (refusedBody (.undefined (.escape op))) := if_neg hesc

theorem bodyOf_two (op2 : Byte) : bodyOf 0x0F#8 p 0x0F#8 (op2 :: bs) =
    (findBody (rows0F00 ++ rows0F90) op2).getD (refusedBody (.undefined (.escape op2))) p op2 bs := rfl

/-- Ten bytes after the first opcode byte are enough. -/
theorem bodyOf_none (hp : pfxKind op = none) (h : bodyOf op p op bs = none) : bs.length < 10 := by
  by_cases hesc : op = 0x0F#8
  · subst hesc
    cases bs with
    | nil => decide
    | cons op2 bs =>
      have hfits := (soundBody_two op2).sound p bs
      rw [← bodyOf_two, h] at hfits
      exact (show bs.length + 1 < 10 from Nat.lt_of_lt_of_le (Nat.succ_lt_succ hfits) (by decide : 7 + 1 ≤ 10))
  · have hfits := (soundBody_one hp hesc).sound p bs
    rw [← bodyOf_one hesc, h] at hfits
    exact Nat.lt_of_lt_of_le hfits (Nat.add_le_add_left (size_bytes_le _) 6)

/-- After the first opcode byte ten more may follow, eight after `66`, two after `F3` or `F2`. -/
theorem bodyOf_some {d : Parsed} (hp : pfxKind op = none) (h : bodyOf op p op bs = some d) :
    d.instr.wf = true ∧ bs.length ≤ d.rest.length + if d.rep then 2 else if p.op16 then 8 else 10 := by
  have hv : p.v.size.bytes = if p.op16 then 2 else 4 := by
    unfold Pfx.v
    split <;> rfl
  by_cases hesc : op = 0x0F#8
  · subst hesc
    cases bs with
    | nil => cases h
    | cons op2 bs =>
      have hfits := (soundBody_two op2).sound p bs
      rw [← bodyOf_two, h] at hfits
      obtain ⟨hwf, hlen⟩ := hfits
      refine ⟨hwf, ?_⟩
      simp only [OpMap.room, List.length_cons] at hlen ⊢
      split_ifs at * <;> omega
  · have hfits := (soundBody_one hp hesc).sound p bs
    rw [← bodyOf_one hesc, h] at hfits
    obtain ⟨hwf, hlen⟩ := hfits
    refine ⟨hwf, ?_⟩
    simp only [OpMap.room, hv] at hlen
    split_ifs at * <;> omega

end BodyOf

/-! ### Prefixes -/

theorem segMisused_isPrefix (s : Seg) : isPrefix (segMisused s) = true := by cases s <;> rfl

theorem repMisusedOf_isPrefix (r : RepPfx) : isPrefix (repMisusedOf r) = true := by cases r <;> rfl

theorem wf_of_isPrefix {i : Instr} (h : isPrefix i = true) : i.wf = true := by
  unfold isPrefix at h
  split at h
  any_goals rfl
  cases h

/-- A scan that finds no opcode byte ends at prefixes that are refused. -/
theorem scanPrefixes_bad_isPrefix {q : Pfx} {bs rest : List Byte} {i : Instr} (h : scanPrefixes q bs = .bad i rest) :
    isPrefix i = true := by
  induction bs generalizing q with
  | nil => cases h
  | cons b bs ih =>
    rw [scanPrefixes] at h
    split at h
    · cases h
    · split at h
      · cases h
        exact repMisusedOf_isPrefix _
      · exact ih h
    · split at h
      · cases h
        exact segMisused_isPrefix _
      · exact ih h
    · split at h
      · cases h
        rfl
      · exact ih h
    · cases h
      rfl
    · cases h
      rfl

/-- A scan that finds an opcode byte has it in front of it, or the first byte of a group of prefixes. -/
theorem scanPrefixes_cons_opcode {q p : Pfx} {b op : Byte} {bs rest : List Byte}
    (h : scanPrefixes q (b :: bs) = .opcode p op rest) : (pfxKind op = none ∧ q = p ∧ bs = rest) ∨
      ∃ q', freeGroups q = freeGroups q' + 1 ∧ scanPrefixes q' bs = .opcode p op rest := by
  rw [scanPrefixes] at h
  split at h
  · cases h
    exact .inl ⟨‹_›, rfl, rfl⟩
  · split at h
    · cases h
    · exact .inr ⟨_, by simp [freeGroups, *]; omega, h⟩
  · split at h
    · cases h
    · exact .inr ⟨_, by simp [freeGroups, *]; omega, h⟩
  · split at h
    · cases h
    · exact .inr ⟨_, by simp [freeGroups, *], h⟩
  · cases h
  · cases h

theorem scanPrefixes_opcode_length {q p : Pfx} {bs rest : List Byte} {op : Byte}
    (h : scanPrefixes q bs = .opcode p op rest) :
    pfxKind op = none ∧ bs.length + freeGroups p = freeGroups q + 1 + rest.length := by
  induction bs generalizing q with
  | nil => cases h
  | cons b bs ih =>
    obtain ⟨hop, rfl, rfl⟩ | ⟨q', hfree, hq'⟩ := scanPrefixes_cons_opcode h
    · exact ⟨hop, by rw [List.length_cons]; omega⟩
    · obtain ⟨hop, hlen⟩ := ih hq'
      exact ⟨hop, by rw [List.length_cons]; omega⟩

/-- Four bytes end a scan: there are three groups of prefixes. -/
theorem scanPrefixes_more {q : Pfx} {bs : List Byte} (h : scanPrefixes q bs = .more) : bs.length ≤ freeGroups q := by
  induction bs generalizing q with
  | nil => exact Nat.zero_le _
  | cons b bs ih =>
    obtain ⟨x, hne, hx⟩ | ⟨q', hroom, hq'⟩ := scanPrefixes_cons q b
    · rw [hx] at h
      cases x with
      | more => exact absurd rfl hne
      | bad | opcode => cases h
    · rw [hq'] at h
      exact (Nat.succ_le_succ (ih h)).trans hroom

/-! ### The decoder -/

/-- What is answered is the instruction of the row, which admits the `F3` or `F2` before it, or a refusal of prefixes. -/
theorem checkPrefixes_cases (p : Pfx) (d : Parsed) :
    isPrefix (checkPrefixes p d) = true ∨ (checkPrefixes p d = d.instr ∧ (p.rep.isSome = true → d.rep = true)) := by
  unfold checkPrefixes
  split
  · exact .inl (repMisusedOf_isPrefix _)
  · rename_i hrep
    split
    · exact .inl rfl
    · split
      · exact .inl (segMisused_isPrefix _)
      · refine .inr ⟨rfl, fun h => ?_⟩
        obtain ⟨r, hr⟩ := Option.isSome_iff_exists.mp h
        rw [← Bool.not_eq_false]
        exact hrep r hr

/-- Settles O5. -/
theorem decodeWellFormed : Obligations.DecodeWellFormed := by
  intro bs i n h
  refine ⟨?_, ?_⟩
  · unfold decode at h
    split at h
    · cases h
    · cases h
      exact wf_of_isPrefix (scanPrefixes_bad_isPrefix ‹_›)
    · rename_i p op rest hscan
      obtain ⟨hop, -⟩ := scanPrefixes_opcode_length hscan
      split at h
      · cases h
      · rename_i d hbody
        cases h
        obtain hpfx | ⟨hinstr, -⟩ := checkPrefixes_cases p d
        · exact wf_of_isPrefix hpfx
        · rw [hinstr]
          exact (bodyOf_some hop hbody).1
  · obtain ⟨used, rest, rfl, rfl, -, hdecode⟩ := decode_splits h
    refine ⟨List.length_pos_iff.mpr ?_, by simp⟩
    rintro rfl
    cases hdecode []

/-- Without `F3` and `F2` one group is free, and one more without `66`. -/
theorem freeGroups_of_rep {p : Pfx} (h : p.rep.isSome = false) : (if p.op16 then 1 else 2) ≤ freeGroups p := by
  rw [freeGroups, h]
  cases p.op16 <;> simp

/-- An instruction that is not a refusal of prefixes has at most 12 bytes. -/
theorem decode_le_twelve {bs : List Byte} {i : Instr} {n : Nat} (h : decode bs = some (i, n)) (hi : isPrefix i = false) :
    n ≤ 12 := by
  unfold decode at h
  split at h
  · cases h
  · rename_i hscan
    cases h
    rw [scanPrefixes_bad_isPrefix hscan] at hi
    cases hi
  · rename_i p op rest hscan
    obtain ⟨hop, hfront⟩ := scanPrefixes_opcode_length hscan
    split at h
    · cases h
    · rename_i d hbody
      cases h
      obtain hpfx | ⟨-, hrep⟩ := checkPrefixes_cases p d
      · rw [hpfx] at hi
        cases hi
      · obtain ⟨-, hlen⟩ := bodyOf_some hop hbody
        have hall : freeGroups Pfx.none = 3 := rfl
        cases hr : p.rep.isSome with
        | true =>
          rw [hrep hr] at hlen
          simp only [if_true] at hlen
          omega
        | false =>
          have hfree := freeGroups_of_rep hr
          split_ifs at hlen hfree <;> omega

/-- Fifteen bytes are enough: three prefixes, the opcode byte and ten more. -/
theorem decode_of_fifteen {bs : List Byte} (h : 15 ≤ bs.length) : ∃ r, decode bs = some r := by
  unfold decode
  split
  · rename_i hscan
    have : bs.length ≤ 3 := scanPrefixes_more hscan
    omega
  · exact ⟨_, rfl⟩
  · rename_i p op rest hscan
    obtain ⟨hop, hfront⟩ := scanPrefixes_opcode_length hscan
    have hfree : freeGroups Pfx.none = 3 := rfl
    split
    · rename_i hbody
      have := bodyOf_none hop hbody
      omega
    · exact ⟨_, rfl⟩

/-- Settles O6. -/
theorem decodeLength : Obligations.DecodeLength := by
  refine ⟨fun bs i n h => ⟨?_, decode_le_twelve h⟩, fun bs => decode_of_fifteen⟩
  obtain ⟨used, rest, -, -, hlen, -⟩ := decode_splits h
  exact hlen

/-! ### The fetch -/

/-- Where fewer bytes than are asked for can be fetched, the window holds them and ends as the next one does. -/
theorem window_of_error {s : State} {bs : List Byte} {k n : Nat} {e : Stop}
    (h : ∀ j (hj : j < bs.length), s.fetchByte (k + j) = .ok bs[j]) (he : s.fetchByte (k + bs.length) = .error e)
    (hn : bs.length < n) : s.window k n = (bs, e) := by
  induction bs generalizing k n with
  | nil =>
    obtain ⟨n, rfl⟩ := Nat.exists_eq_add_of_lt hn
    simp only [List.length_nil, Nat.add_zero] at he
    simp [State.window, he]
  | cons b bs ih =>
    obtain ⟨n, rfl⟩ : ∃ m, n = m + 1 := ⟨n - 1, by omega⟩
    have hfirst : s.fetchByte k = .ok b := h 0 (by simp)
    have hrest := ih (k := k + 1) (n := n)
      (fun j hj => by rw [Nat.add_assoc, Nat.add_comm 1 j]; exact h (j + 1) (by simpa using hj))
      (by rw [Nat.add_assoc, Nat.add_comm 1]; exact he) (by simpa using hn)
    simp only [State.window, hfirst, hrest]

/-- A step whose bytes do not yet make an instruction ends as the fetch of the next byte does. -/
theorem step_of_fetchByte_error {s : State} {bs : List Byte} {e : Stop} (hr : Running s) (hb : BytesAt s bs)
    (hd : decode bs = none) (he : s.fetchByte bs.length = .error e) : step s = Res.out (.error e) := by
  have hlen : bs.length < 15 := by
    by_contra hge
    obtain ⟨r, hr⟩ := decode_of_fifteen (Nat.le_of_not_lt hge)
    rw [hr] at hd
    cases hd
  have hwindow : s.window 0 15 = (bs, e) := window_of_error
    (fun j hj => by rw [Nat.zero_add]; exact fetchByte_of_bytesAt hb hj) (by rw [Nat.zero_add]; exact he) hlen
  have hfetch : s.fetch = .error e := by simp only [State.fetch, hwindow, hd]
  cases e <;> simp [step, hr.notHalted, hr.mode, hfetch, Res.out]

/-- Settles O10. -/
theorem fetchStopsAtUnreadableByte : Obligations.FetchStopsAtUnreadableByte := by
  refine fun s bs hr hb hd => ⟨fun hpc hla hread => ?_, fun htop => ?_⟩
  · have he : s.fetchByte bs.length = .error (.fault (.memFault ((s.la .cs s.pc).toNat + bs.length) .fetch)) := by
      rw [State.fetchByte, if_pos ⟨hpc, hla⟩, hread]
      rfl
    exact step_of_fetchByte_error hr hb hd he
  · have he : s.fetchByte bs.length = .error (.refuse .addressWrap) := by
      rw [State.fetchByte, if_neg (by omega)]
    exact step_of_fetchByte_error hr hb hd he

end Sys2Proof.Proofs
end
